-- ==== Sys2Proof/Word.lean ====
section
/-! DEFINITION. The word types of BUV-CORE and the containers of fixed size that State is made of:
32-bit words (00_scope.md R10), binary32 values held as their bit patterns (R13, and `f32_of_bits`,
`bits_of_f32` of R11, which are the identity here), pairs over the two channels, quadruples over the four stages,
bands or waveforms, and buffers that carry their length. -/

namespace Sys2Proof

/-- A command, operand, response or register word: 32 bits, bit 0 least significant (R10). -/
abbrev Word := BitVec 32

/-- One byte of the byte-serial transport of R63. -/
abbrev Byte := BitVec 8

/-- A binary32 value, held as its bit pattern: `f32_of_bits` and `bits_of_f32` (R11) convert nothing. -/
abbrev F32 := BitVec 32

/-- The two channels of a frame: 0 is left, 1 is right (R12). -/
inductive Chan where
  | left
  | right
deriving DecidableEq, Repr

/-- One value per channel. -/
structure Pair (α : Type) where
  l : α
  r : α
deriving DecidableEq, Repr

/-- The value of one channel. -/
def Pair.get {α : Type} (p : Pair α) : Chan → α
  | .left => p.l
  | .right => p.r

/-- Replace the value of one channel. -/
def Pair.set {α : Type} (p : Pair α) : Chan → α → Pair α
  | .left, x => { p with l := x }
  | .right, x => { p with r := x }

/-- The same value on both channels. -/
def Pair.both {α : Type} (x : α) : Pair α := ⟨x, x⟩

/-- Four values indexed 0 to 3: the stages of a chain, the bands of a vocoder, the phases of the riser (R12). -/
structure Quad (α : Type) where
  q0 : α
  q1 : α
  q2 : α
  q3 : α
deriving DecidableEq, Repr

/-- The value at index `k`. -/
def Quad.get {α : Type} (q : Quad α) (k : Fin 4) : α :=
  match k with
  | 0 => q.q0
  | 1 => q.q1
  | 2 => q.q2
  | 3 => q.q3

/-- Replace the value at index `k`. -/
def Quad.set {α : Type} (q : Quad α) (k : Fin 4) (x : α) : Quad α :=
  match k with
  | 0 => { q with q0 := x }
  | 1 => { q with q1 := x }
  | 2 => { q with q2 := x }
  | 3 => { q with q3 := x }

/-- Four times the same value. -/
def Quad.all {α : Type} (x : α) : Quad α := ⟨x, x, x, x⟩

/-- The four values of a function of the index. -/
def Quad.tab {α : Type} (f : Fin 4 → α) : Quad α := ⟨f 0, f 1, f 2, f 3⟩

/-- Apply a function to each of the four values. -/
def Quad.map {α β : Type} (f : α → β) (q : Quad α) : Quad β := ⟨f q.q0, f q.q1, f q.q2, f q.q3⟩

/-- Run a step over the four values in increasing index order (R12), threading a second value through them. -/
def Quad.scan {α β : Type} (f : α → β → α × β) (q : Quad α) (b : β) : Quad α × β :=
  let r0 := f q.q0 b
  let r1 := f q.q1 r0.2
  let r2 := f q.q2 r1.2
  let r3 := f q.q3 r2.2
  (⟨r0.1, r1.1, r2.1, r3.1⟩, r3.2)

/-- A buffer of exactly `n` elements (20_memory.md R60 (3)): a list together with its length, so that no rule can
resize one ("only mutated, never resized"). -/
structure Buf (α : Type) (n : Nat) where
  cells : List α
  len : cells.length = n
deriving DecidableEq, Repr

/-- A buffer of `n` equal elements. -/
def Buf.fill {α : Type} (n : Nat) (x : α) : Buf α n := ⟨List.replicate n x, List.length_replicate⟩

/-- The buffer of the values of `f` at 0 to `n - 1`. -/
def Buf.tab {α : Type} (n : Nat) (f : Nat → α) : Buf α n :=
  ⟨(List.range n).map f, (List.length_map f).trans List.length_range⟩

/-- The element at position `i`; `d` beyond the end, which no rule reads. -/
def Buf.getD {α : Type} {n : Nat} (b : Buf α n) (i : Nat) (d : α) : α := b.cells.getD i d

/-- Apply a function to every element. -/
def Buf.map {α β : Type} {n : Nat} (f : α → β) (b : Buf α n) : Buf β n :=
  ⟨b.cells.map f, (List.length_map f).trans b.len⟩

/-- Combine two buffers element by element. -/
def Buf.zip {α β γ : Type} {n : Nat} (f : α → β → γ) (a : Buf α n) (b : Buf β n) : Buf γ n :=
  ⟨List.zipWith f a.cells b.cells, by rw [List.length_zipWith, a.len, b.len, Nat.min_self]⟩

/-- Drop the element at position 0 and append `x` at the end: `for i in 0..n-2: b[i] <- b[i+1]; b[n-1] <- x`. -/
def Buf.shiftIn {α : Type} {n : Nat} (b : Buf α (n + 1)) (x : α) : Buf α (n + 1) :=
  ⟨b.cells.tail ++ [x], by rw [List.length_append, List.length_tail, b.len]; rfl⟩

end Sys2Proof
end

