-- ==== Sys2Proof/Machine/Float.lean ====
section
/-! DEFINITION. IEEE 754 binary32 on bit patterns (41_numerics.md R111, R115, R123): one rounding function for
every operation, the four operations and the square root, comparisons, absolute value, finiteness and the conversion
from an integer. Each operation that can produce a NaN takes that NaN as an argument: which NaN comes out is left
open by the spec (93_implementation_defined.md U20) and is supplied by Machine/Arith.lean from a free value. -/

namespace Sys2Proof.Machine

/-- The sign bit. -/
def F32.neg? (x : F32) : Bool := x.msb

/-- The word without its sign bit, as a number: exponent field and fraction. For non-NaN values this number orders the
magnitudes. -/
def F32.mag (x : F32) : Nat := x.toNat % 2 ^ 31

/-- The magnitude number of an infinity, 0x7F800000. -/
def F32.infMag : Nat := 0x7F800000

/-- `x` is a NaN: exponent field all ones and fraction not zero. -/
def F32.isNaN (x : F32) : Bool := F32.infMag < F32.mag x

/-- `x` is an infinity of either sign. -/
def F32.isInf (x : F32) : Bool := F32.mag x == F32.infMag

/-- `ISFINITE(x)`: the exponent field is not all ones (R115). -/
def F32.isFinite (x : F32) : Bool := F32.mag x < F32.infMag

/-- `x` is +0.0 or -0.0. -/
def F32.isZero (x : F32) : Bool := F32.mag x == 0

/-- The magnitude of a finite value in units of 2^-149, the smallest subnormal: an exact natural number. -/
def F32.scaled (x : F32) : Nat :=
  let e := F32.mag x / 2 ^ 23
  let f := F32.mag x % 2 ^ 23
  if e = 0 then f else (f + 2 ^ 23) <<< (e - 1)

/-- The signed value of a finite value in units of 2^-149. -/
def F32.scaledInt (x : F32) : Int := if F32.neg? x then -(F32.scaled x : Int) else (F32.scaled x : Int)

/-- The exact value of a finite binary32 value. -/
def F32.value (x : F32) : ℚ := (F32.scaledInt x : ℚ) / 2 ^ 149

/-- Put a sign on a magnitude number. -/
def F32.withSign (neg : Bool) (m : Nat) : F32 := BitVec.ofNat 32 (if neg then m + 2 ^ 31 else m)

/-- Round the non-negative rational `n / d`, in units of 2^-149, to the nearest binary32 magnitude, ties to even, with
gradual underflow and overflow to infinity (R111). `e` is the exponent of the quantum: 0 up to the first normal
binade, so that subnormal results keep the quantum 2^-149. -/
def F32.roundMag (n d : Nat) : Nat :=
  let e := (n / d).log2 - 23
  let u := d <<< e
  let q := n / u
  let r := n % u
  let q' := if u < 2 * r ∨ (2 * r = u ∧ q % 2 = 1) then q + 1 else q
  min (e * 2 ^ 23 + q') F32.infMag

/-- `-x`: the sign bit inverted. -/
def F32.negate (x : F32) : F32 := x ^^^ 0x80000000#32

/-- `|x|` clears the sign bit (R115). -/
def F32.abs (x : F32) : F32 := x &&& 0x7FFFFFFF#32

/-- Binary32 addition; `nan` is the NaN answered where IEEE 754 answers a NaN. An exact zero sum is +0.0 unless both
operands are negative zeros (R111: signed zeros, round to nearest). -/
def F32.add (nan a b : F32) : F32 :=
  if F32.isNaN a || F32.isNaN b then nan
  else if F32.isInf a then
    if F32.isInf b && (F32.neg? a != F32.neg? b) then nan else a
  else if F32.isInf b then b
  else
    let z := F32.scaledInt a + F32.scaledInt b
    if z = 0 then F32.withSign (F32.neg? a && F32.neg? b) 0
    else F32.withSign (decide (z < 0)) (F32.roundMag z.natAbs 1)

/-- Binary32 subtraction: addition of the negated second operand. -/
def F32.sub (nan a b : F32) : F32 :=
  if F32.isNaN b then nan else F32.add nan a (F32.negate b)

/-- Binary32 multiplication. -/
def F32.mul (nan a b : F32) : F32 :=
  let s := F32.neg? a != F32.neg? b
  if F32.isNaN a || F32.isNaN b then nan
  else if F32.isInf a then
    if F32.isZero b then nan else F32.withSign s F32.infMag
  else if F32.isInf b then
    if F32.isZero a then nan else F32.withSign s F32.infMag
  else F32.withSign s (F32.roundMag (F32.scaled a * F32.scaled b) (2 ^ 149))

/-- Binary32 division: a finite non-zero value over zero is an infinity, 0/0 and inf/inf are NaNs (R111). -/
def F32.div (nan a b : F32) : F32 :=
  let s := F32.neg? a != F32.neg? b
  if F32.isNaN a || F32.isNaN b then nan
  else if F32.isInf a then
    if F32.isInf b then nan else F32.withSign s F32.infMag
  else if F32.isInf b then F32.withSign s 0
  else if F32.isZero b then
    if F32.isZero a then nan else F32.withSign s F32.infMag
  else F32.withSign s (F32.roundMag (F32.scaled a * 2 ^ 149) (F32.scaled b))

/-- The integer square root, one binary digit a step: `k` digits are still to be found below the root `r` found so
far. Structural, so that the kernel evaluates it. -/
def isqrtFrom (n : Nat) : Nat → Nat → Nat
  | 0, r => r
  | k + 1, r =>
    let t := r + 2 ^ k
    isqrtFrom n k (if t * t ≤ n then t else r)

/-- The integer part of the square root of `n`, for every `n` below 2^512. -/
def isqrt (n : Nat) : Nat := isqrtFrom n 256 0

/-- The correctly rounded square root, `SQRT` of R113 (b). The root of `M * 2^-149` in units of 2^-149 is the root of
`M * 2^149`; its integer part with one sticky bit below it rounds as the exact root does, because the integer part of
a non-zero root has at least 74 bits. A negative operand gives a NaN, -0.0 gives -0.0
(DEDUCED, safe, log entry 14). -/
def F32.sqrt (nan a : F32) : F32 :=
  if F32.isNaN a then nan
  else if F32.isZero a then a
  else if F32.neg? a then nan
  else if F32.isInf a then a
  else
    let m := F32.scaled a * 2 ^ 149
    let r := isqrt m
    F32.withSign false (F32.roundMag (2 * r + (if r * r = m then 0 else 1)) 2)

/-- A key that orders the non-NaN values as binary32 comparison does: both zeros have key 0. -/
def F32.key (x : F32) : Int := if F32.neg? x then -(F32.mag x : Int) else (F32.mag x : Int)

/-- `a < b` (R115): false whenever an operand is a NaN; -0.0 and +0.0 compare equal. -/
def F32.lt (a b : F32) : Bool := !F32.isNaN a && !F32.isNaN b && decide (F32.key a < F32.key b)

/-- `a ≤ b` (R115). -/
def F32.le (a b : F32) : Bool := !F32.isNaN a && !F32.isNaN b && decide (F32.key a ≤ F32.key b)

/-- `f32_of_int`: the binary32 nearest to a natural number (exact below 2^24). -/
def F32.ofNat (j : Nat) : F32 := F32.withSign false (F32.roundMag (j * 2 ^ 149) 1)

/-- The value `m * 2^-23` of an integer `m`, exact for `-2^23 ≤ m < 2^23` (R119). -/
def F32.ofQ23 (m : Int) : F32 :=
  if m = 0 then 0#32 else F32.withSign (decide (m < 0)) (F32.roundMag (m.natAbs * 2 ^ 126) 1)

end Sys2Proof.Machine
end

