-- ==== Sys2Proof/Numerics.lean ====
section
/-! DEFINITION. The numerics record `Num` of 41_numerics.md R113, R114 and 45_vocoder_fft.md R201, and the properties
the spec requires of it. `Num` is an open parameter of the spec (92_eei_decisions.md D5, 93_implementation_defined.md
U12): the hardware's own functions are some `Num` with these properties, and nothing else is known of them. -/

namespace Sys2Proof

/-- One complex value: a pair of binary32 values (R114). -/
structure Cpx where
  re : F32
  im : F32
deriving DecidableEq, Repr

/-- The numerics record (R113, R114): the transcendental functions, the two transforms and the window table. `SQRT` is
not in it, because R113 (b) fixes its every result (Machine/Float.lean, `F32.sqrt`). -/
structure Numerics where
  sin : F32 → F32
  tan : F32 → F32
  exp : F32 → F32
  dft : Buf F32 512 → Buf Cpx 257
  idft : Buf Cpx 257 → Buf F32 512
  hann : Buf F32 512

/-- The value of `v` is at most the real number `y`; minus infinity is below every real. -/
def belowReal (v : F32) (y : ℝ) : Prop :=
  (Machine.F32.isFinite v = true ∧ ((Machine.F32.value v : ℚ) : ℝ) ≤ y) ∨
    (Machine.F32.isInf v = true ∧ Machine.F32.neg? v = true)

/-- The value of `v` is at least the real number `y`; plus infinity is above every real. -/
def aboveReal (v : F32) (y : ℝ) : Prop :=
  (Machine.F32.isFinite v = true ∧ y ≤ ((Machine.F32.value v : ℚ) : ℝ)) ∨
    (Machine.F32.isInf v = true ∧ Machine.F32.neg? v = false)

/-- `v` is a faithful rounding of the real number `y` (R113 (c)): it is one of the two binary32 values that bracket
`y` (the greatest that is at most `y`, or the least that is at least `y`), and so has the value `y` itself when `y` is
representable. The sign of a zero is not fixed by R113. -/
def Faithful (y : ℝ) (v : F32) : Prop :=
  (belowReal v y ∧ ∀ w, belowReal w y → Machine.F32.le w v = true) ∨
    (aboveReal v y ∧ ∀ w, aboveReal w y → Machine.F32.le v w = true)

/-- `f` computes the real function `F` faithfully on every finite argument. R113 states no result for an argument
that is an infinity or a NaN: there `f` is unconstrained. -/
def FaithfulFn (F : ℝ → ℝ) (f : F32 → F32) : Prop :=
  ∀ x, Machine.F32.isFinite x = true → Faithful (F ((Machine.F32.value x : ℚ) : ℝ)) (f x)

/-- What R201 (a) says of the window table: `HANN[i]` is the binary32 value of the periodic Hann window
`0.5 * (1 - cos(2 pi i / 512))`, whose rounding is left open (93_implementation_defined.md U12; DEDUCED: a faithful one,
log entry 17), and the required properties `HANN[0] = +0.0`, `HANN[256] = 1.0`, symmetry, values in [0, 1], and constant
overlap-add at 50 %. -/
structure HannOk (h : Buf F32 512) : Prop where
  formula : ∀ i : Nat, i < 512 → Faithful ((1 - Real.cos (2 * Real.pi * i / 512)) / 2) (h.getD i 0#32)
  first : h.getD 0 0#32 = 0#32
  middle : h.getD 256 0#32 = 0x3F800000#32
  symmetric : ∀ i, 1 ≤ i → i ≤ 255 → h.getD i 0#32 = h.getD (512 - i) 0#32
  inUnit : ∀ i, i < 512 →
    Machine.F32.le 0#32 (h.getD i 0#32) = true ∧ Machine.F32.le (h.getD i 0#32) 0x3F800000#32 = true
  overlapAdd : ∀ nan i, i < 256 → Machine.F32.add nan (h.getD i 0#32) (h.getD (i + 256) 0#32) = 0x3F800000#32

/-- `v` is finite and its magnitude is at most `2^k`. -/
def BoundedBy (k : Nat) (v : F32) : Prop :=
  Machine.F32.isFinite v = true ∧ |Machine.F32.value v| ≤ 2 ^ k

/-- Both parts of a complex value are bounded. -/
def Cpx.BoundedBy (k : Nat) (c : Cpx) : Prop := Sys2Proof.BoundedBy k c.re ∧ Sys2Proof.BoundedBy k c.im

/-- The spec's requirements on `Num`: determinism is that the fields are functions; `SIN`, `TAN`, `EXP` are faithful
(R113 (c)), and a zero that `EXP` answers is +0.0; the transforms are exact on zero (R114 (b)), where a zero is +0.0 or
-0.0, the spectrum of the zero vector consists of zeros and the inverse transform of the zero spectrum of +0.0; the
window table is as R201 (a) says. DEDUCED: the signs of zeros (log entry 12). DEDUCED (log entry 16): the
transforms approximate the finite sums of R114, so that 512 values of magnitude at most `2^k` have a spectrum of magnitude
at most `2^(k+10)` and a spectrum of magnitude at most `2^k` has an inverse of magnitude at most `2^(k+2)`, each a factor
of two or more above the exact sum, as long as no partial sum comes near the overflow bound. -/
structure Numerics.Admissible (N : Numerics) : Prop where
  sin_faithful : FaithfulFn Real.sin N.sin
  tan_faithful : FaithfulFn Real.tan N.tan
  exp_faithful : FaithfulFn Real.exp N.exp
  exp_sign : ∀ x, Machine.F32.isFinite x = true → Machine.F32.neg? (N.exp x) = false
  dft_zero : ∀ x : Buf F32 512, (∀ v ∈ x.cells, Machine.F32.isZero v = true) →
    ∀ c ∈ (N.dft x).cells, Machine.F32.isZero c.re = true ∧ Machine.F32.isZero c.im = true
  idft_zero : ∀ y : Buf Cpx 257, (∀ c ∈ y.cells, Machine.F32.isZero c.re = true ∧ Machine.F32.isZero c.im = true) →
    N.idft y = Buf.fill 512 0#32
  dft_bounded : ∀ (k : Nat) (x : Buf F32 512), k ≤ 112 → (∀ v ∈ x.cells, BoundedBy k v) →
    ∀ c ∈ (N.dft x).cells, c.BoundedBy (k + 10)
  idft_bounded : ∀ (k : Nat) (y : Buf Cpx 257), k ≤ 112 → (∀ c ∈ y.cells, c.BoundedBy k) →
    ∀ v ∈ (N.idft y).cells, BoundedBy (k + 2) v
  hann_ok : HannOk N.hann

end Sys2Proof
end

