-- ==== Sys2Proof/NumWitness.lean ====
section
/-! DEFINITION. One admissible numerics record, so that the type of the open parameter `Num` (Config.lean) is seen to
be inhabited. It is no part of the machine's behaviour: nothing evaluates it and no proof can see it through the
opaque constant of Config.lean. The three functions round a rational that lies just above the real result down to
binary32; the window is the table of the Hann window rounded to nearest. -/

namespace Sys2Proof.Witness

open Machine

/-! ### Binary32 patterns in the order of their values -/

theorem toNat_withSign {s : Bool} {m : Nat} (h : m < 2 ^ 31) :
    (F32.withSign s m).toNat = (if s then m + 2 ^ 31 else m) := by
  unfold F32.withSign
  rw [BitVec.toNat_ofNat]
  cases s <;> simp <;> omega

theorem neg_withSign {s : Bool} {m : Nat} (h : m < 2 ^ 31) : F32.neg? (F32.withSign s m) = s := by
  unfold F32.neg?
  rw [BitVec.msb_eq_decide, toNat_withSign h]
  cases s
  · simp; omega
  · simp

theorem mag_withSign {s : Bool} {m : Nat} (h : m < 2 ^ 31) : F32.mag (F32.withSign s m) = m := by
  unfold F32.mag
  rw [toNat_withSign h]
  cases s <;> simp <;> omega

/-- The magnitude in units of 2^-149, as a function of the magnitude number. -/
def scaledOfMag (m : Nat) : Nat :=
  if m / 2 ^ 23 = 0 then m % 2 ^ 23 else (m % 2 ^ 23 + 2 ^ 23) <<< (m / 2 ^ 23 - 1)

theorem scaled_eq (x : F32) : F32.scaled x = scaledOfMag (F32.mag x) := rfl

theorem scaledOfMag_lt_succ (m : Nat) : scaledOfMag m < scaledOfMag (m + 1) := by
  unfold scaledOfMag
  by_cases hc : (m + 1) % 2 ^ 23 = 0
  · have hd : (m + 1) / 2 ^ 23 = m / 2 ^ 23 + 1 := by omega
    have hm : m % 2 ^ 23 = 2 ^ 23 - 1 := by omega
    rw [hd, hc, hm]
    generalize m / 2 ^ 23 = e
    cases e with
    | zero => decide
    | succ e =>
      simp only [Nat.shiftLeft_eq, Nat.add_sub_cancel, Nat.succ_ne_zero, if_false, pow_succ 2 e]
      have : 0 < 2 ^ e := Nat.two_pow_pos e
      omega
  · have hd : (m + 1) / 2 ^ 23 = m / 2 ^ 23 := by omega
    have hm : (m + 1) % 2 ^ 23 = m % 2 ^ 23 + 1 := by omega
    rw [hd, hm]
    split
    · omega
    · simp only [Nat.shiftLeft_eq]
      exact Nat.mul_lt_mul_of_pos_right (by omega) (Nat.two_pow_pos _)

theorem scaledOfMag_strictMono : StrictMono scaledOfMag := strictMono_nat_of_lt_succ scaledOfMag_lt_succ

theorem scaledOfMag_zero : scaledOfMag 0 = 0 := rfl

theorem scaledInt_eq (x : F32) : F32.scaledInt x =
    if F32.neg? x then -(scaledOfMag (F32.mag x) : Int) else (scaledOfMag (F32.mag x) : Int) := rfl

theorem scaledInt_lt_of_key_lt {x y : F32} (h : F32.key x < F32.key y) : F32.scaledInt x < F32.scaledInt y := by
  rw [scaledInt_eq, scaledInt_eq]
  unfold F32.key at h
  have hx : ∀ m, 0 < m → 0 < scaledOfMag m := fun m hm => scaledOfMag_strictMono hm
  have hmono := scaledOfMag_strictMono
  split at h <;> split at h <;> simp only [*, if_true, if_false, Bool.false_eq_true]
  · have := hmono (show F32.mag y < F32.mag x by omega)
    omega
  · rcases Nat.eq_zero_or_pos (F32.mag x) with h0 | h0
    · have := hx (F32.mag y) (by omega)
      rw [h0, scaledOfMag_zero]; omega
    · have := hx _ h0
      omega
  · omega
  · have := hmono (show F32.mag x < F32.mag y by omega)
    omega

theorem scaledInt_eq_of_key_eq {x y : F32} (h : F32.key x = F32.key y) : F32.scaledInt x = F32.scaledInt y := by
  rw [scaledInt_eq, scaledInt_eq]
  unfold F32.key at h
  split at h <;> split at h <;> simp only [*, if_true, if_false, Bool.false_eq_true]
  · rw [show F32.mag x = F32.mag y by omega]
  · rw [show F32.mag x = 0 by omega, show F32.mag y = 0 by omega, scaledOfMag_zero]; rfl
  · rw [show F32.mag x = 0 by omega, show F32.mag y = 0 by omega, scaledOfMag_zero]; rfl
  · rw [show F32.mag x = F32.mag y by omega]

theorem value_eq_of_key_eq {x y : F32} (h : F32.key x = F32.key y) : F32.value x = F32.value y := by
  unfold F32.value; rw [scaledInt_eq_of_key_eq h]

/-- Values of different keys differ by at least 2^-149. -/
theorem value_gap {x y : F32} (h : F32.key x < F32.key y) : F32.value x + 1 / 2 ^ 149 ≤ F32.value y := by
  unfold F32.value
  have h1 : ((F32.scaledInt x + 1 : Int) : ℚ) ≤ ((F32.scaledInt y : Int) : ℚ) := by
    exact_mod_cast scaledInt_lt_of_key_lt h
  push_cast at h1
  rw [← add_div]
  exact div_le_div_of_nonneg_right h1 (by positivity)

theorem value_le_of_key_le {x y : F32} (h : F32.key x ≤ F32.key y) : F32.value x ≤ F32.value y := by
  rcases h.lt_or_eq with h | h
  · exact (le_add_of_nonneg_right (by positivity)).trans (value_gap h)
  · exact (value_eq_of_key_eq h).le

/-- The pattern with key `k - infMag`, for `k` from 0 (minus infinity) to `2 * infMag` (plus infinity). -/
def keyWord (k : Nat) : F32 :=
  if k < F32.infMag then F32.withSign true (F32.infMag - k) else F32.withSign false (k - F32.infMag)

theorem infMag_eq : F32.infMag = 2139095040 := rfl

theorem mag_keyWord {k : Nat} (h : k ≤ 2 * F32.infMag) :
    F32.mag (keyWord k) = if k < F32.infMag then F32.infMag - k else k - F32.infMag := by
  have hi := infMag_eq
  unfold keyWord
  split <;> exact mag_withSign (by omega)

theorem neg_keyWord {k : Nat} (h : k ≤ 2 * F32.infMag) : F32.neg? (keyWord k) = decide (k < F32.infMag) := by
  have hi := infMag_eq
  unfold keyWord
  split <;> rw [neg_withSign (by omega)] <;> simp <;> omega

theorem key_keyWord {k : Nat} (h : k ≤ 2 * F32.infMag) : F32.key (keyWord k) = (k : Int) - F32.infMag := by
  unfold F32.key
  rw [mag_keyWord h, neg_keyWord h]
  by_cases hk : k < F32.infMag
  · rw [if_pos (decide_eq_true hk), if_pos hk]; omega
  · rw [if_neg (by rw [decide_eq_true_iff]; exact hk), if_neg hk]; omega

theorem notNaN_keyWord {k : Nat} (h : k ≤ 2 * F32.infMag) : F32.isNaN (keyWord k) = false := by
  unfold F32.isNaN
  rw [mag_keyWord h, decide_eq_false_iff_not]
  split <;> omega

theorem isFinite_keyWord {k : Nat} (h0 : 0 < k) (h : k < 2 * F32.infMag) : F32.isFinite (keyWord k) = true := by
  unfold F32.isFinite
  rw [mag_keyWord (by omega), decide_eq_true_iff]
  split <;> omega

theorem key_bounds {x : F32} (h : F32.isNaN x = false) :
    -(F32.infMag : Int) ≤ F32.key x ∧ F32.key x ≤ (F32.infMag : Int) := by
  unfold F32.isNaN at h
  unfold F32.key
  simp at h
  split <;> omega

theorem notNaN_of_finite {x : F32} (h : F32.isFinite x = true) : F32.isNaN x = false := by
  unfold F32.isFinite at h; unfold F32.isNaN; simp at h ⊢; omega

theorem notNaN_of_inf {x : F32} (h : F32.isInf x = true) : F32.isNaN x = false := by
  unfold F32.isInf at h; unfold F32.isNaN; simp at h ⊢; omega

theorem key_negInf {x : F32} (h : F32.isInf x = true) (hn : F32.neg? x = true) : F32.key x = -(F32.infMag : Int) := by
  unfold F32.isInf at h; unfold F32.key; simp at h; simp [hn, h]

theorem key_posInf {x : F32} (h : F32.isInf x = true) (hn : F32.neg? x = false) : F32.key x = (F32.infMag : Int) := by
  unfold F32.isInf at h; unfold F32.key; simp at h; simp [hn, h]

theorem key_finite {x : F32} (h : F32.isFinite x = true) :
    -(F32.infMag : Int) < F32.key x ∧ F32.key x < (F32.infMag : Int) := by
  unfold F32.isFinite at h; unfold F32.key; simp at h; split <;> omega

theorem le_of_key_le {x y : F32} (hx : F32.isNaN x = false) (hy : F32.isNaN y = false)
    (h : F32.key x ≤ F32.key y) : F32.le x y = true := by
  unfold F32.le; simp [hx, hy, h]

/-- A finite value between its two neighbours `a` and `b`, where the real `y` lies strictly between `a` and `b`, is a
faithful rounding of `y`. -/
theorem faithful_of_between {y : ℝ} {a v b : F32} (hv : F32.isFinite v = true)
    (hav : F32.key v = F32.key a + 1) (hvb : F32.key b = F32.key v + 1)
    (ha : ((F32.value a : ℚ) : ℝ) < y) (hb : y < ((F32.value b : ℚ) : ℝ)) : Faithful y v := by
  have hn := notNaN_of_finite hv
  have hk := key_finite hv
  rcases le_total ((F32.value v : ℚ) : ℝ) y with h | h
  · refine Or.inl ⟨Or.inl ⟨hv, h⟩, ?_⟩
    rintro w (⟨hf, hw⟩ | ⟨hi, hs⟩)
    · refine le_of_key_le (notNaN_of_finite hf) hn (by_contra fun hc => ?_)
      have : ((F32.value b : ℚ) : ℝ) ≤ F32.value w := by exact_mod_cast value_le_of_key_le (by omega)
      linarith
    · exact le_of_key_le (notNaN_of_inf hi) hn (by rw [key_negInf hi hs]; omega)
  · refine Or.inr ⟨Or.inl ⟨hv, h⟩, ?_⟩
    rintro w (⟨hf, hw⟩ | ⟨hi, hs⟩)
    · refine le_of_key_le hn (notNaN_of_finite hf) (by_contra fun hc => ?_)
      have : ((F32.value w : ℚ) : ℝ) ≤ F32.value a := by exact_mod_cast value_le_of_key_le (by omega)
      linarith
    · exact le_of_key_le hn (notNaN_of_inf hi) (by rw [key_posInf hi hs]; omega)

/-! ### Rounding a rational down -/

/-- The keys of the patterns whose value is at most `z`. -/
def keyBelow (z : ℚ) (k : Nat) : Prop := k = 0 ∨ (k < 2 * F32.infMag ∧ F32.value (keyWord k) ≤ z)

/-- The greatest binary32 value that is at most `z`, minus infinity included. -/
def roundDown (z : ℚ) : F32 :=
  keyWord (Nat.findGreatest (fun k => k = 0 ∨ (k < 2 * F32.infMag ∧ F32.value (keyWord k) ≤ z)) (2 * F32.infMag))

/-- Rounding down a rational that lies above the real `y` by less than 2^-149 is a faithful rounding of `y`. -/
theorem faithful_roundDown {y : ℝ} {z : ℚ} (h1 : y ≤ (z : ℝ)) (h2 : (z : ℝ) < y + 1 / 2 ^ 149) :
    Faithful y (roundDown z) := by
  set k := Nat.findGreatest (fun k => k = 0 ∨ (k < 2 * F32.infMag ∧ F32.value (keyWord k) ≤ z)) (2 * F32.infMag)
    with hk
  have hkdef : roundDown z = keyWord k := rfl
  have hkle : k ≤ 2 * F32.infMag := Nat.findGreatest_le _
  have hkspec : k = 0 ∨ (k < 2 * F32.infMag ∧ F32.value (keyWord k) ≤ z) :=
    Nat.findGreatest_spec (P := fun k => k = 0 ∨ (k < 2 * F32.infMag ∧ F32.value (keyWord k) ≤ z))
      (Nat.zero_le _) (Or.inl rfl)
  have hnan := notNaN_keyWord hkle
  have hkey := key_keyWord hkle
  rw [hkdef]
  have hmax : ∀ w, belowReal w y → F32.le w (keyWord k) = true := by
    rintro w (⟨hf, hv⟩ | ⟨hi, hn⟩)
    · have hwn := notNaN_of_finite hf
      have hwk := key_finite hf
      refine le_of_key_le hwn hnan ?_
      rw [hkey]
      have hkw : (F32.key w + F32.infMag).toNat ≤ k := by
        refine Nat.le_findGreatest (by omega) (Or.inr ⟨by omega, ?_⟩)
        have : F32.key (keyWord (F32.key w + F32.infMag).toNat) = F32.key w := by
          rw [key_keyWord (by omega)]; omega
        rw [value_eq_of_key_eq this]
        exact_mod_cast hv.trans h1
      omega
    · refine le_of_key_le (notNaN_of_inf hi) hnan ?_
      rw [key_negInf hi hn, hkey]; omega
  rcases hkspec with h0 | ⟨hlt, hle⟩
  · left
    refine ⟨Or.inr ⟨?_, ?_⟩, hmax⟩
    · rw [h0]; rfl
    · rw [h0]; rfl
  rcases Nat.eq_zero_or_pos k with h0 | hpos
  · left
    refine ⟨Or.inr ⟨?_, ?_⟩, hmax⟩
    · rw [h0]; rfl
    · rw [h0]; rfl
  have hfin := isFinite_keyWord hpos hlt
  by_cases hy : ((F32.value (keyWord k) : ℚ) : ℝ) ≤ y
  · exact Or.inl ⟨Or.inl ⟨hfin, hy⟩, hmax⟩
  · right
    push Not at hy
    refine ⟨Or.inl ⟨hfin, hy.le⟩, ?_⟩
    rintro w (⟨hf, hv⟩ | ⟨hi, hn⟩)
    · refine le_of_key_le hnan (notNaN_of_finite hf) ?_
      by_contra hc
      push Not at hc
      have hg : ((F32.value w + 1 / 2 ^ 149 : ℚ) : ℝ) ≤ ((z : ℚ) : ℝ) := by exact_mod_cast (value_gap hc).trans hle
      push_cast at hg
      linarith
    · refine le_of_key_le hnan (notNaN_of_inf hi) ?_
      rw [key_posInf hi hn, hkey]; omega

/-- Rounding a non-negative rational down sets no sign bit. -/
theorem neg_roundDown {z : ℚ} (hz : 0 ≤ z) : F32.neg? (roundDown z) = false := by
  have hi := infMag_eq
  have hge : F32.infMag ≤
      Nat.findGreatest (fun k => k = 0 ∨ (k < 2 * F32.infMag ∧ F32.value (keyWord k) ≤ z)) (2 * F32.infMag) := by
    refine Nat.le_findGreatest (by omega) (Or.inr ⟨by omega, ?_⟩)
    have h0 : F32.value (keyWord F32.infMag) = 0 := by
      have : F32.scaledInt (keyWord F32.infMag) = 0 := by decide
      unfold F32.value; rw [this]; simp
    rw [h0]; exact hz
  unfold roundDown
  rw [neg_keyWord (Nat.findGreatest_le _), decide_eq_false_iff_not]
  omega

/-! ### Rational approximations from the exponential series -/

/-- The error bound of the first `n` terms of the exponential series at an argument of absolute value `|q|`. -/
def expErr (q : ℚ) (n : Nat) : ℚ := |q| ^ n / n.factorial * 2

/-- The first `n` terms of the exponential series at the rational `q`. -/
def expSum (q : ℚ) (n : Nat) : ℚ := ∑ m ∈ Finset.range n, q ^ m / m.factorial

/-- The term `(q i)^m / m!` as a pair of real and imaginary part. -/
def trigTerm (q : ℚ) : Nat → ℚ × ℚ
  | 0 => (1, 0)
  | m + 1 => (-(q / (m + 1)) * (trigTerm q m).2, q / (m + 1) * (trigTerm q m).1)

/-- Real part of the first `n` terms of the exponential series at `q i`. -/
def cosSum (q : ℚ) (n : Nat) : ℚ := ∑ m ∈ Finset.range n, (trigTerm q m).1

/-- Imaginary part of the first `n` terms of the exponential series at `q i`. -/
def sinSum (q : ℚ) (n : Nat) : ℚ := ∑ m ∈ Finset.range n, (trigTerm q m).2

theorem trigTerm_eq (q : ℚ) (m : Nat) :
    (((trigTerm q m).1 : ℚ) : ℂ) + (((trigTerm q m).2 : ℚ) : ℂ) * Complex.I
      = ((q : ℂ) * Complex.I) ^ m / (m.factorial : ℂ) := by
  induction m with
  | zero => simp [trigTerm]
  | succ m ih =>
    have hm : ((m : ℂ) + 1) ≠ 0 := by exact_mod_cast Nat.succ_ne_zero m
    have hf : ((m.factorial : ℕ) : ℂ) ≠ 0 := by exact_mod_cast Nat.factorial_ne_zero m
    have hs : ((q : ℂ) * Complex.I) ^ (m + 1) / ((m + 1).factorial : ℂ)
        = ((q : ℂ) / (m + 1) * Complex.I) * (((q : ℂ) * Complex.I) ^ m / (m.factorial : ℂ)) := by
      rw [Nat.factorial_succ, pow_succ]; push_cast; field_simp
    rw [hs, ← ih]
    simp only [trigTerm]
    push_cast
    linear_combination (-(q : ℂ) / (m + 1) * ((trigTerm q m).2 : ℂ)) * Complex.I_sq

theorem trigSum_eq (q : ℚ) (n : Nat) :
    ((cosSum q n : ℚ) : ℂ) + ((sinSum q n : ℚ) : ℂ) * Complex.I
      = ∑ m ∈ Finset.range n, ((q : ℂ) * Complex.I) ^ m / (m.factorial : ℂ) := by
  unfold cosSum sinSum
  push_cast
  rw [Finset.sum_mul, ← Finset.sum_add_distrib]
  exact Finset.sum_congr rfl fun m _ => trigTerm_eq q m

theorem trig_bound (q : ℚ) (n : Nat) (h : |q| / (n + 1) ≤ 1 / 2) :
    |Real.cos (q : ℝ) - (cosSum q n : ℝ)| ≤ (expErr q n : ℝ) ∧
    |Real.sin (q : ℝ) - (sinSum q n : ℝ)| ≤ (expErr q n : ℝ) := by
  have hn : ‖((q : ℂ) * Complex.I)‖ = ((|q| : ℚ) : ℝ) := by
    rw [norm_mul, Complex.norm_I, mul_one, Rat.cast_abs]
    simp
  have hb := Complex.exp_bound' (x := (q : ℂ) * Complex.I) (n := n) (by
    rw [hn, Nat.cast_succ]
    have : ((|q| / (n + 1) : ℚ) : ℝ) ≤ ((1 / 2 : ℚ) : ℝ) := by exact_mod_cast h
    push_cast at this ⊢
    exact this)
  rw [hn, ← trigSum_eq] at hb
  have herr : ((|q| : ℚ) : ℝ) ^ n / (n.factorial : ℝ) * 2 = ((expErr q n : ℚ) : ℝ) := by
    unfold expErr; push_cast; ring
  rw [herr] at hb
  have hexp : Complex.exp ((q : ℂ) * Complex.I)
      = ((Real.cos (q : ℝ) : ℝ) : ℂ) + ((Real.sin (q : ℝ) : ℝ) : ℂ) * Complex.I := by
    rw [Complex.exp_mul_I]; push_cast; rfl
  rw [hexp] at hb
  set d : ℂ := ((Real.cos (q : ℝ) : ℝ) : ℂ) + ((Real.sin (q : ℝ) : ℝ) : ℂ) * Complex.I
    - (((cosSum q n : ℚ) : ℂ) + ((sinSum q n : ℚ) : ℂ) * Complex.I) with hd
  have hre : d.re = Real.cos (q : ℝ) - (cosSum q n : ℝ) := by
    rw [hd]; simp [-Complex.ofReal_cos, -Complex.ofReal_sin]
  have him : d.im = Real.sin (q : ℝ) - (sinSum q n : ℝ) := by
    rw [hd]; simp [-Complex.ofReal_cos, -Complex.ofReal_sin]
  exact ⟨hre ▸ (Complex.abs_re_le_norm d).trans hb, him ▸ (Complex.abs_im_le_norm d).trans hb⟩

theorem exp_bound (q : ℚ) (n : Nat) (h : |q| / (n + 1) ≤ 1 / 2) :
    |Real.exp (q : ℝ) - (expSum q n : ℝ)| ≤ (expErr q n : ℝ) := by
  have hn : ‖((q : ℝ) : ℂ)‖ = ((|q| : ℚ) : ℝ) := by
    rw [Complex.norm_real, Rat.cast_abs]; rfl
  have hb := Complex.exp_bound' (x := ((q : ℝ) : ℂ)) (n := n) (by
    rw [hn, Nat.cast_succ]
    have : ((|q| / (n + 1) : ℚ) : ℝ) ≤ ((1 / 2 : ℚ) : ℝ) := by exact_mod_cast h
    push_cast at this ⊢
    exact this)
  rw [hn] at hb
  have herr : ((|q| : ℚ) : ℝ) ^ n / (n.factorial : ℝ) * 2 = ((expErr q n : ℚ) : ℝ) := by
    unfold expErr; push_cast; ring
  rw [herr] at hb
  have hd : Complex.exp ((q : ℝ) : ℂ) - ∑ m ∈ Finset.range n, ((q : ℝ) : ℂ) ^ m / (m.factorial : ℂ)
      = ((Real.exp (q : ℝ) - (expSum q n : ℝ) : ℝ) : ℂ) := by
    unfold expSum; push_cast; rfl
  rw [hd, Complex.norm_real] at hb
  exact hb

theorem expErr_tendsto (q : ℚ) : Filter.Tendsto (fun n => (expErr q n : ℝ)) Filter.atTop (nhds 0) := by
  have h := (FloorSemiring.tendsto_pow_div_factorial_atTop ((|q| : ℚ) : ℝ)).mul_const 2
  rw [zero_mul] at h
  refine h.congr fun n => ?_
  unfold expErr; push_cast; rfl

theorem ratio_eventually (q : ℚ) : ∀ᶠ n : Nat in Filter.atTop, |q| / (n + 1) ≤ 1 / 2 := by
  obtain ⟨N, hN⟩ := exists_nat_gt (2 * |q|)
  filter_upwards [Filter.eventually_ge_atTop N] with n hn
  have : (N : ℚ) ≤ n := by exact_mod_cast hn
  rw [div_le_iff₀ (by positivity)]
  linarith

/-- Enough terms for an error of at most 2^-151. -/
theorem enough_terms (q : ℚ) : ∃ n : Nat, |q| / (n + 1) ≤ 1 / 2 ∧ expErr q n ≤ 1 / 2 ^ 151 := by
  have h1 := (expErr_tendsto q).eventually (ge_mem_nhds (show (0 : ℝ) < 1 / 2 ^ 151 by positivity))
  obtain ⟨n, hn1, hn2⟩ := (h1.and (ratio_eventually q)).exists
  refine ⟨n, hn2, ?_⟩
  have : ((expErr q n : ℚ) : ℝ) ≤ ((1 / 2 ^ 151 : ℚ) : ℝ) := by push_cast; exact hn1
  exact_mod_cast this

theorem cos_rat_ne_zero (q : ℚ) : Real.cos (q : ℝ) ≠ 0 := by
  intro h
  obtain ⟨k, hk⟩ := Real.cos_eq_zero_iff.mp h
  have h2 : ((2 * k + 1 : ℤ) : ℝ) ≠ 0 := by exact_mod_cast (by omega : (2 * k + 1 : ℤ) ≠ 0)
  refine irrational_pi ⟨2 * q / (2 * k + 1 : ℤ), ?_⟩
  push_cast at h2 ⊢
  field_simp
  linarith

/-- Enough terms for the quotient of the two series to be within 2^-151 of the tangent. -/
theorem enough_terms_tan (q : ℚ) : ∃ n : Nat, |q| / (n + 1) ≤ 1 / 2 ∧
    4 * expErr q n ≤ 1 / 2 ^ 151 * cosSum q n ^ 2 ∧ 2 * expErr q n < |cosSum q n| := by
  have hC := abs_pos.mpr (cos_rat_ne_zero q)
  set C := |Real.cos (q : ℝ)| with hCdef
  have h1 := (expErr_tendsto q).eventually (gt_mem_nhds (show (0 : ℝ) < C / 8 by positivity))
  have h2 := (expErr_tendsto q).eventually (gt_mem_nhds (show (0 : ℝ) < 1 / 2 ^ 151 * (C / 2) ^ 2 / 4 by positivity))
  obtain ⟨n, ⟨hn1, hn2⟩, hr⟩ := ((h1.and h2).and (ratio_eventually q)).exists
  have hb := (trig_bound q n hr).1
  have hge : C / 2 ≤ |(cosSum q n : ℝ)| := by
    have := abs_sub_abs_le_abs_sub (Real.cos (q : ℝ)) (cosSum q n : ℝ)
    linarith
  refine ⟨n, hr, ?_, ?_⟩
  · have : ((4 * expErr q n : ℚ) : ℝ) ≤ ((1 / 2 ^ 151 * cosSum q n ^ 2 : ℚ) : ℝ) := by
      push_cast
      have hsq : (C / 2) ^ 2 ≤ (cosSum q n : ℝ) ^ 2 := by
        rw [← sq_abs (cosSum q n : ℝ)]
        exact pow_le_pow_left₀ (by positivity) hge 2
      nlinarith
    exact_mod_cast this
  · have : ((2 * expErr q n : ℚ) : ℝ) < ((|cosSum q n| : ℚ) : ℝ) := by
      push_cast; linarith
    exact_mod_cast this

/-- A rational just above the sine of `q`. -/
def sinAbove (q : ℚ) : ℚ := sinSum q (Nat.find (enough_terms q)) + 1 / 2 ^ 151

/-- A rational just above the exponential of `q`. -/
def expAbove (q : ℚ) : ℚ := expSum q (Nat.find (enough_terms q)) + 1 / 2 ^ 151

/-- A rational just above the tangent of `q`. -/
def tanAbove (q : ℚ) : ℚ :=
  let n := Nat.find (enough_terms_tan q)
  sinSum q n / cosSum q n + 1 / 2 ^ 151

theorem faithful_of_near {y : ℝ} {r : ℚ} (h : |y - (r : ℝ)| ≤ 1 / 2 ^ 151) :
    Faithful y (roundDown (r + 1 / 2 ^ 151)) := by
  have ha := abs_le.mp h
  have h4 : (1 : ℝ) / 2 ^ 149 = 4 * (1 / 2 ^ 151) := by norm_num
  have hp : (0 : ℝ) < 1 / 2 ^ 151 := by positivity
  refine faithful_roundDown ?_ ?_ <;> push_cast
  · linarith
  · rw [h4]; linarith

theorem sin_faithful (q : ℚ) : Faithful (Real.sin (q : ℝ)) (roundDown (sinAbove q)) := by
  have hs := Nat.find_spec (enough_terms q)
  refine faithful_of_near ((trig_bound q _ hs.1).2.trans ?_)
  have : ((expErr q (Nat.find (enough_terms q)) : ℚ) : ℝ) ≤ ((1 / 2 ^ 151 : ℚ) : ℝ) := by exact_mod_cast hs.2
  push_cast at this; exact this

theorem exp_faithful (q : ℚ) : Faithful (Real.exp (q : ℝ)) (roundDown (expAbove q)) := by
  have hs := Nat.find_spec (enough_terms q)
  refine faithful_of_near ((exp_bound q _ hs.1).trans ?_)
  have : ((expErr q (Nat.find (enough_terms q)) : ℚ) : ℝ) ≤ ((1 / 2 ^ 151 : ℚ) : ℝ) := by exact_mod_cast hs.2
  push_cast at this; exact this

theorem expAbove_nonneg (q : ℚ) : 0 ≤ expAbove q := by
  have hs := Nat.find_spec (enough_terms q)
  have hb := (abs_le.mp (exp_bound q _ hs.1)).2
  have he : ((expErr q (Nat.find (enough_terms q)) : ℚ) : ℝ) ≤ ((1 / 2 ^ 151 : ℚ) : ℝ) := by exact_mod_cast hs.2
  have hp := Real.exp_pos (q : ℝ)
  have : (0 : ℝ) ≤ ((expAbove q : ℚ) : ℝ) := by
    unfold expAbove
    push_cast at he ⊢
    linarith
  exact_mod_cast this

theorem tan_faithful (q : ℚ) : Faithful (Real.tan (q : ℝ)) (roundDown (tanAbove q)) := by
  have hs := Nat.find_spec (enough_terms_tan q)
  set n := Nat.find (enough_terms_tan q) with hn
  obtain ⟨hr, hq, hc⟩ := hs
  have hb := trig_bound q n hr
  have hq' : (4 : ℝ) * (expErr q n : ℝ) ≤ 1 / 2 ^ 151 * (cosSum q n : ℝ) ^ 2 := by
    have : ((4 * expErr q n : ℚ) : ℝ) ≤ ((1 / 2 ^ 151 * cosSum q n ^ 2 : ℚ) : ℝ) := by exact_mod_cast hq
    push_cast at this; exact this
  have hc' : (2 : ℝ) * (expErr q n : ℝ) < |(cosSum q n : ℝ)| := by
    have : ((2 * expErr q n : ℚ) : ℝ) < ((|cosSum q n| : ℚ) : ℝ) := by exact_mod_cast hc
    push_cast at this; exact this
  have hEnn : (0 : ℝ) ≤ (expErr q n : ℝ) := (abs_nonneg _).trans hb.1
  refine faithful_of_near (r := sinSum q n / cosSum q n) ?_
  push_cast
  set E := (expErr q n : ℝ)
  set c := (cosSum q n : ℝ)
  set s := (sinSum q n : ℝ)
  set C := Real.cos (q : ℝ)
  set S := Real.sin (q : ℝ)
  have hcpos : 0 < |c| := by linarith
  have hc0 : c ≠ 0 := abs_pos.mp hcpos
  have hCge : |c| / 2 ≤ |C| := by
    have := abs_sub_abs_le_abs_sub c C
    rw [abs_sub_comm] at this
    linarith [hb.1]
  have hCpos : 0 < |C| := by linarith
  have hC0 : C ≠ 0 := abs_pos.mp hCpos
  have hid : Real.tan (q : ℝ) - s / c = ((S - s) * C + S * (c - C)) / (C * c) := by
    rw [show Real.tan (q : ℝ) = S / C from Real.tan_eq_sin_div_cos _]
    field_simp
    ring
  rw [hid, abs_div, abs_mul C c, div_le_iff₀ (mul_pos hCpos hcpos)]
  have hnum : |(S - s) * C + S * (c - C)| ≤ 2 * E := by
    refine (abs_add_le _ _).trans ?_
    rw [abs_mul, abs_mul]
    have hC1 : |C| ≤ 1 := Real.abs_cos_le_one _
    have hS1 : |S| ≤ 1 := Real.abs_sin_le_one _
    have h1 : |S - s| * |C| ≤ E * 1 := mul_le_mul hb.2 hC1 (abs_nonneg _) hEnn
    have h2 : |S| * |c - C| ≤ 1 * E :=
      mul_le_mul hS1 (by rw [abs_sub_comm]; exact hb.1) (abs_nonneg _) zero_le_one
    linarith
  refine hnum.trans ?_
  have hcc : |c| * |c| = c ^ 2 := by rw [← abs_mul, ← sq, abs_of_nonneg (sq_nonneg c)]
  have hprod : c ^ 2 / 2 ≤ |C| * |c| := by nlinarith
  have hp : (0 : ℝ) ≤ 1 / 2 ^ 151 := by positivity
  nlinarith

/-! ### The window table -/

/-- The first half of the window, positions 0 to 256, eight to a row: 0.5 * (1 - cos(2 pi i / 512)) rounded to the
nearest binary32 value. Positions 1, 2, 128, 255 and 256 are the values R201 (a) gives under `Num_ref`. -/
def hannRows : List (List Nat) :=
  [[0x00000000, 0x381DE964, 0x391DE7DF, 0x39B1A200, 0x3A1DE1C8, 0x3A76A9A7, 0x3AB19298, 0x3AF1A81A],
   [0x3B1DC971, 0x3B47A80A, 0x3B766E3C, 0x3B950D1D, 0x3BB15502, 0x3BD00DB6, 0x3BF1360B, 0x3C0A665C],
   [0x3C1D6830, 0x3C319FC5, 0x3C470C54, 0x3C5DAD09, 0x3C758104, 0x3C8743AE, 0x3C945F8C, 0x3CA2139C],
   [0x3CB05F55, 0x3CBF422A, 0x3CCEBB8A, 0x3CDECADA, 0x3CEF6F7E, 0x3D005467, 0x3D093B12, 0x3D126B67],
   [0x3D1BE50C, 0x3D25A7A3, 0x3D2FB2CC, 0x3D3A0623, 0x3D44A143, 0x3D4F83C3, 0x3D5AAD38, 0x3D661D33],
   [0x3D71D344, 0x3D7DCEF6, 0x3D8507EA, 0x3D8B4AB3, 0x3D91AF97, 0x3D983658, 0x3D9EDEB5, 0x3DA5A86C],
   [0x3DAC933B, 0x3DB39EDD, 0x3DBACB0C, 0x3DC21782, 0x3DC983F7, 0x3DD11021, 0x3DD8BBB7, 0x3DE0866C],
   [0x3DE86FF3, 0x3DF077FE, 0x3DF89E3F, 0x3E007132, 0x3E04A20E, 0x3E08E18A, 0x3E0D2F7D, 0x3E118BBB],
   [0x3E15F61A, 0x3E1A6E6E, 0x3E1EF48B, 0x3E238844, 0x3E28296D, 0x3E2CD7D7, 0x3E319354, 0x3E365BB6],
   [0x3E3B30CE, 0x3E40126B, 0x3E45005D, 0x3E49FA75, 0x3E4F0080, 0x3E54124E, 0x3E592FAB, 0x3E5E5866],
   [0x3E638C4C, 0x3E68CB2A, 0x3E6E14CB, 0x3E7368FB, 0x3E78C786, 0x3E7E3038, 0x3E81D16D, 0x3E848F9B],
   [0x3E87528B, 0x3E8A1A23, 0x3E8CE646, 0x3E8FB6D9, 0x3E928BC0, 0x3E9564DF, 0x3E98421B, 0x3E9B2356],
   [0x3E9E0875, 0x3EA0F15B, 0x3EA3DDEB, 0x3EA6CE09, 0x3EA9C196, 0x3EACB877, 0x3EAFB28E, 0x3EB2AFBD],
   [0x3EB5AFE7, 0x3EB8B2EF, 0x3EBBB8B6, 0x3EBEC120, 0x3EC1CC0D, 0x3EC4D960, 0x3EC7E8FB, 0x3ECAFAC0],
   [0x3ECE0E90, 0x3ED1244C, 0x3ED43BD7, 0x3ED75513, 0x3EDA6FDF, 0x3EDD8C1E, 0x3EE0A9B2, 0x3EE3C87A],
   [0x3EE6E859, 0x3EEA0930, 0x3EED2ADF, 0x3EF04D49, 0x3EF3704D, 0x3EF693CD, 0x3EF9B7AB, 0x3EFCDBC6],
   [0x3F000000, 0x3F01921D, 0x3F03242B, 0x3F04B619, 0x3F0647D9, 0x3F07D95C, 0x3F096A90, 0x3F0AFB68],
   [0x3F0C8BD3, 0x3F0E1BC3, 0x3F0FAB27, 0x3F1139F1, 0x3F12C810, 0x3F145577, 0x3F15E214, 0x3F176DDA],
   [0x3F18F8B8, 0x3F1A82A0, 0x3F1C0B82, 0x3F1D9350, 0x3F1F19F9, 0x3F209F70, 0x3F2223A5, 0x3F23A688],
   [0x3F25280C, 0x3F26A822, 0x3F2826B9, 0x3F29A3C5, 0x3F2B1F35, 0x3F2C98FC, 0x3F2E110A, 0x3F2F8752],
   [0x3F30FBC5, 0x3F326E55, 0x3F33DEF3, 0x3F354D90, 0x3F36BA20, 0x3F382494, 0x3F398CDD, 0x3F3AF2EF],
   [0x3F3C56BA, 0x3F3DB833, 0x3F3F174A, 0x3F4073F2, 0x3F41CE1E, 0x3F4325C1, 0x3F447ACD, 0x3F45CD36],
   [0x3F471CED, 0x3F4869E6, 0x3F49B415, 0x3F4AFB6D, 0x3F4C3FE0, 0x3F4D8163, 0x3F4EBFE9, 0x3F4FFB65],
   [0x3F5133CD, 0x3F526912, 0x3F539B2B, 0x3F54CA0A, 0x3F55F5A5, 0x3F571DEF, 0x3F5842DD, 0x3F596465],
   [0x3F5A827A, 0x3F5B9D11, 0x3F5CB421, 0x3F5DC79D, 0x3F5ED77D, 0x3F5FE3B4, 0x3F60EC38, 0x3F61F100],
   [0x3F62F202, 0x3F63EF33, 0x3F64E889, 0x3F65DDFC, 0x3F66CF81, 0x3F67BD10, 0x3F68A69F, 0x3F698C24],
   [0x3F6A6D99, 0x3F6B4AF2, 0x3F6C2429, 0x3F6CF935, 0x3F6DCA0D, 0x3F6E96AA, 0x3F6F5F03, 0x3F702311],
   [0x3F70E2CC, 0x3F719E2D, 0x3F72552D, 0x3F7307C4, 0x3F73B5EC, 0x3F745F9E, 0x3F7504D3, 0x3F75A586],
   [0x3F7641AF, 0x3F76D94A, 0x3F776C4F, 0x3F77FABA, 0x3F788484, 0x3F7909A9, 0x3F798A24, 0x3F7A05EF],
   [0x3F7A7D05, 0x3F7AEF63, 0x3F7B5D04, 0x3F7BC5E3, 0x3F7C29FC, 0x3F7C894C, 0x3F7CE3CF, 0x3F7D3981],
   [0x3F7D8A5F, 0x3F7DD667, 0x3F7E1D94, 0x3F7E5FE5, 0x3F7E9D56, 0x3F7ED5E6, 0x3F7F0992, 0x3F7F3858],
   [0x3F7F6237, 0x3F7F872C, 0x3F7FA737, 0x3F7FC256, 0x3F7FD888, 0x3F7FE9CC, 0x3F7FF622, 0x3F7FFD88],
   [0x3F800000]]

/-- The window at position `i`: the first half, and its mirror image from position 257 on. -/
def hannWord (i : Nat) : F32 :=
  let j := min i (512 - i)
  BitVec.ofNat 32 ((hannRows.getD (j / 8) []).getD (j % 8) 0)

/-- The witness of the window table. -/
def window : Buf F32 512 := Buf.tab 512 hannWord

theorem window_getD {i : Nat} (h : i < 512) : window.getD i 0#32 = hannWord i := by
  simp [window, Buf.getD, Buf.tab, h]

/-- `2^64` times the complex number `exp(i pi / 256)`, both parts rounded down. -/
def rotation : GaussianInt := ⟨18445355067807029947, 226369926147403916⟩

/-- The `i`-th power of `rotation`, by way of its sixteenth power. -/
def rotationPow (i : Nat) : GaussianInt := (rotation ^ 16) ^ (i / 16) * rotation ^ (i % 16)

theorem rotationPow_eq (i : Nat) : rotationPow i = rotation ^ i := by
  rw [rotationPow, ← pow_mul, ← pow_add, Nat.div_add_mod]

/-- The cosine and the sine of pi / 256 to 2^-63. -/
theorem rotation_bound :
    |Real.cos (Real.pi / 256) - 18445355067807029947 / 2 ^ 64| ≤ 1 / 2 ^ 63 ∧
    |Real.sin (Real.pi / 256) - 226369926147403916 / 2 ^ 64| ≤ 1 / 2 ^ 63 := by
  set q : ℚ := 314159265358979323846 / 25600000000000000000000 with hq
  have hb := trig_bound q 10 (by rw [hq, abs_of_pos (by norm_num)]; norm_num)
  have hπ : |Real.pi / 256 - (q : ℝ)| ≤ 1 / 2 ^ 72 := by
    have h1 := Real.pi_gt_d20
    have h2 := Real.pi_lt_d20
    rw [hq, abs_le]; push_cast
    constructor <;> norm_num at h1 h2 ⊢ <;> linarith
  have he : (expErr q 10 : ℝ) ≤ 1 / 2 ^ 72 := by
    have : expErr q 10 ≤ 1 / 2 ^ 72 := by decide +kernel
    have : ((expErr q 10 : ℚ) : ℝ) ≤ ((1 / 2 ^ 72 : ℚ) : ℝ) := by exact_mod_cast this
    push_cast at this; exact this
  have hc : |(cosSum q 10 : ℝ) - 18445355067807029947 / 2 ^ 64| ≤ 1 / 2 ^ 64 := by
    have : |cosSum q 10 - 18445355067807029947 / 2 ^ 64| ≤ 1 / 2 ^ 64 := by decide +kernel
    have : ((|cosSum q 10 - 18445355067807029947 / 2 ^ 64| : ℚ) : ℝ) ≤ ((1 / 2 ^ 64 : ℚ) : ℝ) := by exact_mod_cast this
    push_cast at this; exact this
  have hs : |(sinSum q 10 : ℝ) - 226369926147403916 / 2 ^ 64| ≤ 1 / 2 ^ 64 := by
    have : |sinSum q 10 - 226369926147403916 / 2 ^ 64| ≤ 1 / 2 ^ 64 := by decide +kernel
    have : ((|sinSum q 10 - 226369926147403916 / 2 ^ 64| : ℚ) : ℝ) ≤ ((1 / 2 ^ 64 : ℚ) : ℝ) := by exact_mod_cast this
    push_cast at this; exact this
  have tri : ∀ {x a b c : ℝ}, |x - a| ≤ 1 / 2 ^ 72 → |a - b| ≤ 1 / 2 ^ 72 → |b - c| ≤ 1 / 2 ^ 64 →
      |x - c| ≤ 1 / 2 ^ 63 := fun {x a b c} h1 h2 h3 => by
    have := (abs_sub_le x b c).trans (add_le_add_left (abs_sub_le x a b) _)
    refine this.trans ((add_le_add (add_le_add h1 h2) h3).trans ?_)
    norm_num
  exact ⟨tri ((Real.abs_cos_sub_cos_le _ _).trans hπ) (hb.1.trans he) hc,
    tri ((Real.abs_sin_sub_sin_le _ _).trans hπ) (hb.2.trans he) hs⟩

/-- Powers of two complex numbers of norm at most 1 differ by at most the exponent times their difference. -/
theorem norm_pow_sub_le {z w : ℂ} (hz : ‖z‖ ≤ 1) (hw : ‖w‖ ≤ 1) (i : Nat) : ‖z ^ i - w ^ i‖ ≤ i * ‖z - w‖ := by
  induction i with
  | zero => simp
  | succ i ih =>
    have hid : z ^ (i + 1) - w ^ (i + 1) = z * (z ^ i - w ^ i) + (z - w) * w ^ i := by ring
    rw [hid]
    refine (norm_add_le _ _).trans ?_
    rw [norm_mul, norm_mul, norm_pow]
    have h1 : ‖z‖ * ‖z ^ i - w ^ i‖ ≤ 1 * ‖z ^ i - w ^ i‖ := mul_le_mul_of_nonneg_right hz (norm_nonneg _)
    have h2 : ‖z - w‖ * ‖w‖ ^ i ≤ ‖z - w‖ * 1 :=
      mul_le_mul_of_nonneg_left (pow_le_one₀ (norm_nonneg _) hw) (norm_nonneg _)
    push_cast
    linarith

/-- The real part of the `i`-th power of `rotation` is `2^(64 i)` times the cosine of `2 pi i / 512`, nearly. -/
theorem cos_bound {i : Nat} (h : i < 512) :
    |Real.cos (2 * Real.pi * i / 512) - ((rotation ^ i).re : ℝ) / 2 ^ (64 * i)| ≤ 1 / 2 ^ 53 := by
  set z : ℂ := GaussianInt.toComplex rotation / 2 ^ 64 with hz
  set w : ℂ := Complex.exp ((Real.pi / 256 : ℝ) * Complex.I) with hw
  have hpow : ∀ k : Nat, (2 : ℂ) ^ k = ((2 ^ k : ℝ) : ℂ) := fun k => by push_cast; rfl
  have hzre : z.re = 18445355067807029947 / 2 ^ 64 := by
    rw [hz, hpow, Complex.div_ofReal_re, rotation, GaussianInt.re_toComplex]; norm_num
  have hzim : z.im = 226369926147403916 / 2 ^ 64 := by
    rw [hz, hpow, Complex.div_ofReal_im, rotation, GaussianInt.im_toComplex]; norm_num
  have hw1 : ‖w‖ ≤ 1 := (Complex.norm_exp_ofReal_mul_I _).le
  have hz1 : ‖z‖ ≤ 1 := by
    rw [← sq_le_one_iff₀ (norm_nonneg _), ← Complex.normSq_eq_norm_sq, Complex.normSq_apply, hzre, hzim]
    norm_num
  have hd : ‖z - w‖ ≤ 1 / 2 ^ 62 := by
    refine (Complex.norm_le_abs_re_add_abs_im _).trans ?_
    rw [Complex.sub_re, Complex.sub_im, hzre, hzim, hw, Complex.exp_ofReal_mul_I_re, Complex.exp_ofReal_mul_I_im,
      abs_sub_comm, abs_sub_comm (_ / _) (Real.sin _)]
    refine (add_le_add rotation_bound.1 rotation_bound.2).trans ?_
    norm_num
  have hp := (Complex.abs_re_le_norm _).trans (norm_pow_sub_le hw1 hz1 i)
  rw [norm_sub_rev] at hp
  have hwre : (w ^ i).re = Real.cos (2 * Real.pi * i / 512) := by
    rw [hw, ← Complex.exp_nat_mul, ← mul_assoc]
    rw [show (i : ℂ) * ((Real.pi / 256 : ℝ) : ℂ) = ((2 * Real.pi * i / 512 : ℝ) : ℂ) by push_cast; ring,
      Complex.exp_ofReal_mul_I_re]
  have hzre' : (z ^ i).re = ((rotation ^ i).re : ℝ) / 2 ^ (64 * i) := by
    rw [hz, div_pow, ← pow_mul, ← map_pow, hpow, Complex.div_ofReal_re, GaussianInt.intCast_re]
  rw [Complex.sub_re, hwre, hzre'] at hp
  refine hp.trans ?_
  have hi : (i : ℝ) ≤ 512 := by exact_mod_cast h.le
  calc (i : ℝ) * ‖z - w‖ ≤ 512 * (1 / 2 ^ 62) := mul_le_mul hi hd (norm_nonneg _) (by norm_num)
    _ = 1 / 2 ^ 53 := by norm_num

/-- What Lean's kernel evaluates at a position of the table other than 0: the value is finite, the two patterns beside
it are its neighbours, and the window formula, computed with the power of `rotation`, lies between them by 2^-53. -/
def windowCheck (i : Nat) : Bool :=
  let v := hannWord i
  let n := 2 ^ (64 * i) - (rotationPow i).re
  F32.isFinite v && F32.key v == F32.key (v - 1#32) + 1 && F32.key (v + 1#32) == F32.key v + 1 &&
    decide (2 ^ (64 * i + 1) * (F32.scaledInt (v - 1#32) + 2 ^ 96) < 2 ^ 149 * n) &&
    decide (2 ^ 149 * n < 2 ^ (64 * i + 1) * (F32.scaledInt (v + 1#32) - 2 ^ 96))

theorem windowCheck_all : ∀ i, i < 512 → i ≠ 0 → windowCheck i = true := by decide +kernel

/-- The window table has the formula of R201 (a). -/
theorem window_formula {i : Nat} (h : i < 512) :
    Faithful ((1 - Real.cos (2 * Real.pi * i / 512)) / 2) (window.getD i 0#32) := by
  rw [window_getD h]
  by_cases h0 : i = 0
  · subst h0
    have hv : F32.value 0#32 = 0 := by simp [F32.value, show F32.scaledInt 0#32 = 0 by decide]
    have hw : hannWord 0 = 0#32 := by decide +kernel
    rw [hw]
    refine Or.inl ⟨Or.inl ⟨by decide, by simp [hv]⟩, ?_⟩
    rintro w (⟨hf, hle⟩ | ⟨hi, hs⟩)
    · refine le_of_key_le (notNaN_of_finite hf) (by decide) (by_contra fun hc => ?_)
      have : F32.value 0#32 + 1 / 2 ^ 149 ≤ F32.value w := value_gap (not_le.mp hc)
      have : ((1 / 2 ^ 149 : ℚ) : ℝ) ≤ F32.value w := by rw [hv, zero_add] at this; exact_mod_cast this
      have hp : (0 : ℝ) < 1 / 2 ^ 149 := by positivity
      simp at hle this
      norm_num at this
      linarith
    · exact le_of_key_le (notNaN_of_inf hi) (by decide) (by rw [key_negInf hi hs]; decide)
  have hc := windowCheck_all i h h0
  simp only [windowCheck, Bool.and_eq_true, beq_iff_eq, decide_eq_true_eq, rotationPow_eq] at hc
  obtain ⟨⟨⟨⟨hf, ha⟩, hb⟩, hlo⟩, hhi⟩ := hc
  have hcos := abs_le.mp (cos_bound h)
  set c := Real.cos (2 * Real.pi * i / 512)
  set r := (rotation ^ i).re
  have hp : (0 : ℝ) < 2 ^ (64 * i) := by positivity
  have e : ∀ x : F32, ((F32.value x : ℚ) : ℝ) = (F32.scaledInt x : ℝ) / 2 ^ 149 := fun x => by
    rw [F32.value]; push_cast; rfl
  have hlo' : (2 : ℝ) ^ (64 * i + 1) * (F32.scaledInt (hannWord i - 1#32) + 2 ^ 96)
      < 2 ^ 149 * (2 ^ (64 * i) - r) := by exact_mod_cast hlo
  have hhi' : (2 : ℝ) ^ 149 * (2 ^ (64 * i) - r)
      < 2 ^ (64 * i + 1) * (F32.scaledInt (hannWord i + 1#32) - 2 ^ 96) := by exact_mod_cast hhi
  have hr : (r : ℝ) = r / 2 ^ (64 * i) * 2 ^ (64 * i) := (div_mul_cancel₀ _ hp.ne').symm
  generalize (r : ℝ) / 2 ^ (64 * i) = t at hr hcos
  rw [hr, pow_succ (2 : ℝ) (64 * i)] at hlo' hhi'
  generalize (2 : ℝ) ^ (64 * i) = p at hp hlo' hhi'
  have hlo2 := lt_of_mul_lt_mul_left (show p * (2 * (F32.scaledInt (hannWord i - 1#32) + 2 ^ 96))
    < p * (2 ^ 149 * (1 - t)) by linarith) hp.le
  have hhi2 := lt_of_mul_lt_mul_left (show p * (2 ^ 149 * (1 - t))
    < p * (2 * (F32.scaledInt (hannWord i + 1#32) - 2 ^ 96)) by linarith) hp.le
  norm_num at hlo2 hhi2 hcos
  refine faithful_of_between hf ha hb ?_ ?_ <;> rw [e] <;> norm_num <;> linarith

/-- The addition of two finite values does not depend on the NaN it is handed. -/
theorem add_finite {a b : F32} (nan : F32) (ha : F32.isFinite a = true) (hb : F32.isFinite b = true) :
    F32.add nan a b = F32.add 0#32 a b := by
  have h1 := notNaN_of_finite ha
  have h2 := notNaN_of_finite hb
  have h3 : F32.isInf a = false := by unfold F32.isInf; unfold F32.isFinite at ha; simp at ha ⊢; omega
  unfold F32.add
  simp only [h1, h2, h3, Bool.or_self, Bool.false_eq_true, if_false]

/-- The range and the overlap-add property of the table, as Lean's kernel evaluates them. -/
theorem hannWord_ok : ∀ i, i < 512 → F32.isFinite (hannWord i) = true ∧ F32.le 0#32 (hannWord i) = true ∧
    F32.le (hannWord i) 0x3F800000#32 = true ∧
    (i < 256 → F32.add 0#32 (hannWord i) (hannWord (i + 256)) = 0x3F800000#32) := by decide +kernel

theorem window_ok : HannOk window where
  formula := fun _ h => window_formula h
  first := (window_getD (by omega)).trans (by decide +kernel)
  middle := (window_getD (by omega)).trans (by decide +kernel)
  symmetric := fun i h1 h2 => by
    rw [window_getD (by omega), window_getD (by omega), hannWord, hannWord,
      show min (512 - i) (512 - (512 - i)) = min i (512 - i) by omega]
  inUnit := fun i h => by
    rw [window_getD h]
    exact ⟨(hannWord_ok i h).2.1, (hannWord_ok i h).2.2.1⟩
  overlapAdd := fun nan i h => by
    rw [window_getD (by omega), window_getD (by omega)]
    have h1 := hannWord_ok i (by omega)
    exact (add_finite nan h1.1 (hannWord_ok (i + 256) (by omega)).1).trans (h1.2.2.2 h)

/-! ### The record -/

/-- The witness record. -/
def record : Numerics where
  sin := fun x => roundDown (sinAbove (F32.value x))
  tan := fun x => roundDown (tanAbove (F32.value x))
  exp := fun x => roundDown (expAbove (F32.value x))
  dft := fun _ => Buf.fill 257 ⟨0#32, 0#32⟩
  idft := fun _ => Buf.fill 512 0#32
  hann := window

/-- +0.0 is within every bound. -/
theorem boundedBy_zero (k : Nat) : BoundedBy k 0#32 := by
  have h : F32.value 0#32 = 0 := by
    have e : F32.scaledInt 0#32 = 0 := by decide
    rw [F32.value, e]; norm_num
  exact ⟨by decide, by rw [h]; norm_num⟩

/-- An admissible numerics record exists. -/
theorem record_admissible : record.Admissible where
  sin_faithful := fun x _ => sin_faithful (F32.value x)
  tan_faithful := fun x _ => tan_faithful (F32.value x)
  exp_faithful := fun x _ => exp_faithful (F32.value x)
  exp_sign := fun x _ => neg_roundDown (expAbove_nonneg (F32.value x))
  dft_zero := fun _ _ c hc => by
    have : c = ⟨0#32, 0#32⟩ := List.eq_of_mem_replicate hc
    subst this; exact ⟨rfl, rfl⟩
  idft_zero := fun _ _ => rfl
  dft_bounded := fun k _ _ _ c hc => by
    have : c = ⟨0#32, 0#32⟩ := List.eq_of_mem_replicate hc
    subst this; exact ⟨boundedBy_zero _, boundedBy_zero _⟩
  idft_bounded := fun k _ _ _ v hv => by
    have : v = 0#32 := List.eq_of_mem_replicate hv
    subst this; exact boundedBy_zero _
  hann_ok := window_ok

end Sys2Proof.Witness
end

