-- ==== Sys2Proof/Config.lean ====
section
/-! DEFINITION. What the spec leaves to the implementation: the numerics record `Num` (41_numerics.md R113, R114;
93_implementation_defined.md U12) and the bits of a NaN produced inside the machine (U20). Both are opaque constants
without a body: nothing in Lean evaluates them, and a proof knows of them only what the spec requires. -/

namespace Sys2Proof

/-- A numerics record together with the proof that it has the properties the spec requires. The default fields only
show that such a record exists. -/
structure AdmissibleNumerics where
  num : Numerics := Witness.record
  admissible : num.Admissible := by exact Witness.record_admissible
deriving Inhabited

/-- FREE VALUE (DESIGN CHOICE, safe, log entry 1). The numerics of this hardware: some admissible record, unknown otherwise. -/
opaque Config.numerics : AdmissibleNumerics

/-- The hardware's `Num`. -/
def Config.num : Numerics := Config.numerics.num

/-- The operations of the machine that can answer a NaN. -/
inductive FOp where
  | add
  | sub
  | mul
  | div
  | sqrt
deriving DecidableEq, Repr

/-- FREE VALUE (DESIGN CHOICE, log entry 2). The sign and the 22 payload bits of the quiet NaN that an operation answers for its
operands (U20: any value of payload and sign). -/
opaque Config.nanBits : FOp → F32 → F32 → BitVec 23

/-- The quiet NaN an operation answers: exponent field all ones and quiet bit one, as IEEE 754 default handling
requires (R111), the sign and the remaining fraction free. -/
def Config.nan (op : FOp) (a b : F32) : F32 :=
  let f := Config.nanBits op a b
  (f &&& 0x400000#23).setWidth 32 <<< 9 ||| 0x7FC00000#32 ||| (f &&& 0x3FFFFF#23).setWidth 32

end Sys2Proof
end

