-- ==== Sys2Proof/Machine/Constants.lean ====
section
/-! DEFINITION. The numeric parameters of 00_scope.md R7 and R8, each with the bit pattern R8 gives it, and the
literals the rules write (100.0, 1.0, 2.0, 256.0, 512.0, 2^-8). The structural parameters of R7 (two channels, four
stages, two chains, four bands, 512-sample frames) are the types of Word.lean and State.lean; `HOP`, `FS_MIN`,
`FS_MAX` and `MAXBLK_MAX` are here. -/

namespace Sys2Proof.Machine

/-! ### Literals of the rules -/

def zero : F32 := 0x00000000#32
def one : F32 := 0x3F800000#32
def minusOne : F32 := 0xBF800000#32
def two : F32 := 0x40000000#32
def hundred : F32 := 0x42C80000#32
/-- 256.0, the hop as a divisor (R176). -/
def hopF : F32 := 0x43800000#32
/-- 512.0, the frame length as a divisor (R201). -/
def nfftF : F32 := 0x44000000#32
/-- 0.00390625 = 2/NFFT = 2^-8 (R203). -/
def energyScale : F32 := 0x3B800000#32

/-! ### R7 -/

def fsMin : F32 := 0x472C4400#32
def fsMax : F32 := 0x483B8000#32
def maxblkMax : Word := 0x7FFFFFFF#32
def hop : Word := 256#32

/-! ### R8: SEQ and FB -/

def fMin : F32 := 0x41A00000#32
def fMax : F32 := 0x469C4000#32
def sepMin : F32 := 0x44FA0000#32
def epsBu : F32 := 0x3A83126F#32
def kBu : F32 := 0x3E800000#32
def epsFilt : F32 := 0x3A83126F#32
def fHpTop : F32 := 0x459C4000#32
def fLpBot : F32 := 0x43FA0000#32
def qCasc : F32 := 0x3F000000#32

/-! ### R8: the vocoder, both forms -/

def vocFc : Quad F32 := ⟨0x43C80000#32, 0x449C4000#32, 0x457A0000#32, 0x463B8000#32⟩
def vocQ : Quad F32 := ⟨0x3F800000#32, 0x3F99999A#32, 0x3FB33333#32, 0x3FC00000#32⟩
def tAtt : F32 := 0x3A03126F#32
def tRelMin : F32 := 0x3C23D70A#32
def tRelMax : F32 := 0x3F800000#32
def lnD : F32 := 0xC13834F1#32
def envFloor : F32 := 0x358637BD#32
def kNs : F32 := 0x3F000000#32
def gFix : Quad F32 := ⟨0x3F800000#32, 0x3FC00000#32, 0x40000000#32, 0x40400000#32⟩
def gBrt : Quad F32 := ⟨0x3F800000#32, 0x40000000#32, 0x40400000#32, 0x40900000#32⟩
def kOut : F32 := 0x3F000000#32
def kEmph : F32 := 0x3F000000#32
/-- `EDGE[0..3]`, the lower edges of the four bands; `EDGE[k+1]` is the upper edge of band `k`. -/
def edgeLo : Quad F32 := ⟨0x43610000#32, 0x442F0000#32, 0x450CA000#32, 0x45DAC000#32⟩
/-- `EDGE[1..4]`. -/
def edgeHi : Quad F32 := ⟨0x442F0000#32, 0x450CA000#32, 0x45DAC000#32, 0x469C4000#32⟩

/-! ### R8: the riser -/

def fSinLo : F32 := 0x42480000#32
def fSinHi : F32 := 0x457A0000#32
def sawScale : F32 := 0x3F99999A#32
def sqScale : F32 := 0x3F4CCCCD#32
def fNzLo : F32 := 0x42C80000#32
def fNzHi : F32 := 0x45FA0000#32
def nzQ0 : F32 := 0x3F800000#32
def nzQ1 : F32 := 0x40800000#32
def fSubHi : F32 := 0x41F00000#32
def fSubLo : F32 := 0x41A00000#32
def vibRate0 : F32 := 0x40400000#32
def vibRate1 : F32 := 0x40A00000#32
def vibDepth : F32 := 0x3CF5C28F#32
def vibSaw : F32 := 0x3F000000#32
def vibSub : F32 := 0x3DCCCCCD#32
def kFreq : F32 := 0x3A83126F#32
def tRsrAtt : F32 := 0x3C23D70A#32
def epsRsr : F32 := 0x38D1B717#32

/-! ### R8: shared -/

def pi32 : F32 := 0x40490FDB#32
def twoPi32 : F32 := 0x40C90FDB#32
def lcgA : Word := 0x0019660D#32
def lcgC : Word := 0x3C6EF35F#32
def vocSeed : Word := 1#32
def rsrSeed : Word := 2#32
/-- The identification word of R27, ASCII "BUV7". -/
def idWord : Word := 0x42555637#32

end Sys2Proof.Machine
end

