-- ==== Sys2Proof/Machine/Arith.lean ====
section
/-! DEFINITION. The primitives every unit is written in (41_numerics.md): the four binary32 operations and the square
root with the hardware's NaNs, the state-variable section, the envelope law, the one-pole step, the noise generator,
clamping and phase wrapping. Each is the spec's operation sequence, one operation per call, in the order written
(R110): nothing is reassociated or fused. -/

namespace Sys2Proof.Machine

/-- `fadd(a, b)` (R111). -/
def fadd (a b : F32) : F32 := F32.add (Config.nan .add a b) a b

/-- `fsub(a, b)` (R111). -/
def fsub (a b : F32) : F32 := F32.sub (Config.nan .sub a b) a b

/-- `fmul(a, b)` (R111). -/
def fmul (a b : F32) : F32 := F32.mul (Config.nan .mul a b) a b

/-- `fdiv(a, b)` (R111). -/
def fdiv (a b : F32) : F32 := F32.div (Config.nan .div a b) a b

/-- `SQRT(a)` (R113 (b)). -/
def fsqrt (a : F32) : F32 := F32.sqrt (Config.nan .sqrt a a) a

/-- `a < b` (R115). -/
abbrev flt (a b : F32) : Bool := F32.lt a b

/-- `a ≤ b` (R115). -/
abbrev fle (a b : F32) : Bool := F32.le a b

/-- The coefficient triple of a filter section (R116). -/
structure Coef where
  g : F32
  r2 : F32
  h : F32
deriving DecidableEq, Repr

/-- The triple of zeros that R40 gives every coefficient register at reset. -/
def Coef.zeros : Coef := ⟨zero, zero, zero⟩

/-- `SVF_COEF(fc, q)` at sample rate `fs` (R116). -/
def svfCoef (N : Numerics) (fs fc q : F32) : Coef :=
  let a := fdiv (fmul pi32 fc) fs
  let g := N.tan a
  let r2 := fdiv one q
  let h := fdiv one (fadd (fadd one (fmul r2 g)) (fmul g g))
  ⟨g, r2, h⟩

/-- What one tick of a filter section yields: three outputs and the two new integrator values (R116). -/
structure SvfOut where
  hp : F32
  bp : F32
  lp : F32
  ic1 : F32
  ic2 : F32
deriving DecidableEq, Repr

/-- `SVF_TICK(ic1, ic2, co, x)` (R116). -/
def svfTick (ic1 ic2 : F32) (co : Coef) (x : F32) : SvfOut :=
  let hp := fmul co.h (fsub (fsub x (fmul ic1 (fadd co.g co.r2))) ic2)
  let v1 := fmul co.g hp
  let bp := fadd v1 ic1
  let ic1' := fadd v1 bp
  let v2 := fmul co.g bp
  let lp := fadd v2 ic2
  let ic2' := fadd v2 lp
  ⟨hp, bp, lp, ic1', ic2'⟩

/-- `COEF(t, rate)`, the one-pole coefficient for a time of `t` seconds (R117). -/
def envCoef (N : Numerics) (t rate : F32) : F32 := N.exp (fdiv lnD (fmul t rate))

/-- `ENV_TICK(env, r, a_att, a_rel)` (R118). -/
def envTick (env r aAtt aRel : F32) : F32 :=
  let a := if flt env r then aAtt else aRel
  let e := fadd r (fmul a (fsub env r))
  if flt e envFloor then zero else e

/-- `LERP1(y, x, k)` (R122). -/
def lerp1 (y x k : F32) : F32 := fadd y (fmul k (fsub x y))

/-- The next state of the noise generator, `(s * LCG_A + LCG_C) mod 2^32` (R112, R119). -/
def lcgNext (s : Word) : Word := s * lcgA + lcgC

/-- The sample `w` in [-1, 1) of a generator state: `((s' >> 8) - 2^23) * 2^-23`, exact (R119). -/
def lcgSample (s : Word) : F32 := F32.ofQ23 (((s >>> 8).toNat : Int) - 8388608)

/-- `CLAMPF(x)` (R120). -/
def clampF (x : F32) : F32 := if flt x fMin then fMin else if flt fMax x then fMax else x

/-- `WRAP1(ph)` (R121). -/
def wrap1 (ph : F32) : F32 := if fle one ph then fsub ph one else ph

end Sys2Proof.Machine
end

