-- ==== Sys2Proof/Machine/Operands.lean ====
section
/-! DEFINITION. The operand forms: the fourteen parameter registers with their types and ranges (10_state.md R22 to
R24, 40_commands.md R109), the parameter file (R21), the status registers (R27), and the checks on the operands of
PREPARE, BEGIN and FRAME (60_exceptions.md R261, R262). -/

namespace Sys2Proof.Machine

/-- The fourteen implemented parameter registers, in index order (R22 to R24). -/
inductive ParamReg where
  | buildUp
  | filterIntensity
  | filterType
  | filterSlope
  | filterResonance
  | filterDrive
  | noiseAmount
  | vocoderRelease
  | riserAmount
  | riserType
  | riserRelease
  | gateLevel
  | vocBrightness
  | vocMode
deriving DecidableEq, Repr

/-- The register an index names: 0 to 13; 14 to 255 are reserved (R25). -/
def ParamReg.ofIdx (idx : BitVec 8) : Option ParamReg :=
  match idx.toNat with
  | 0 => some .buildUp
  | 1 => some .filterIntensity
  | 2 => some .filterType
  | 3 => some .filterSlope
  | 4 => some .filterResonance
  | 5 => some .filterDrive
  | 6 => some .noiseAmount
  | 7 => some .vocoderRelease
  | 8 => some .riserAmount
  | 9 => some .riserType
  | 10 => some .riserRelease
  | 11 => some .gateLevel
  | 12 => some .vocBrightness
  | 13 => some .vocMode
  | _ => none

/-- The index of a register. -/
def ParamReg.idx : ParamReg → BitVec 8
  | .buildUp => 0#8
  | .filterIntensity => 1#8
  | .filterType => 2#8
  | .filterSlope => 3#8
  | .filterResonance => 4#8
  | .filterDrive => 5#8
  | .noiseAmount => 6#8
  | .vocoderRelease => 7#8
  | .riserAmount => 8#8
  | .riserType => 9#8
  | .riserRelease => 10#8
  | .gateLevel => 11#8
  | .vocBrightness => 12#8
  | .vocMode => 13#8

/-- The type of a parameter register: binary32 with a closed range, or a `u32` enumeration with a greatest code. -/
inductive ParamType where
  | float (lo hi : F32)
  | enumerated (last : Word)
deriving DecidableEq, Repr

/-- Type and range of every register (R22, R23, R24). -/
def ParamReg.type : ParamReg → ParamType
  | .buildUp => .float zero hundred
  | .filterIntensity => .float zero hundred
  | .filterType => .enumerated 2#32
  | .filterSlope => .enumerated 3#32
  | .filterResonance => .float 0x3F000000#32 0x41200000#32
  | .filterDrive => .float zero hundred
  | .noiseAmount => .float zero hundred
  | .vocoderRelease => .float zero hundred
  | .riserAmount => .float zero hundred
  | .riserType => .enumerated 4#32
  | .riserRelease => .float 0x3C23D70A#32 0x40A00000#32
  | .gateLevel => .float zero one
  | .vocBrightness => .float zero hundred
  | .vocMode => .enumerated 1#32

/-- `IN_RANGE(idx, v)` (R109): binary32 comparison against both bounds, false for every NaN and infinity, or an
unsigned comparison with the greatest code. -/
def inRange (r : ParamReg) (v : Word) : Bool :=
  match r.type with
  | .float lo hi => fle lo v && fle v hi
  | .enumerated last => decide (v ≤ last)

/-- One copy of the parameter file: fourteen registers of 32 bits (R21). -/
structure Params where
  buildUp : F32
  filterIntensity : F32
  filterType : Word
  filterSlope : Word
  filterResonance : F32
  filterDrive : F32
  noiseAmount : F32
  vocoderRelease : F32
  riserAmount : F32
  riserType : Word
  riserRelease : F32
  gateLevel : F32
  vocBrightness : F32
  vocMode : Word
deriving DecidableEq, Repr

/-- The reset values of R22, R23 and R24. -/
def Params.atReset : Params where
  buildUp := zero
  filterIntensity := zero
  filterType := 0#32
  filterSlope := 0#32
  filterResonance := 0x3F000000#32
  filterDrive := zero
  noiseAmount := zero
  vocoderRelease := zero
  riserAmount := zero
  riserType := 0#32
  riserRelease := 0x3C23D70A#32
  gateLevel := one
  vocBrightness := zero
  vocMode := 0#32

/-- The whole 32-bit register (R65). -/
def Params.get (p : Params) : ParamReg → Word
  | .buildUp => p.buildUp
  | .filterIntensity => p.filterIntensity
  | .filterType => p.filterType
  | .filterSlope => p.filterSlope
  | .filterResonance => p.filterResonance
  | .filterDrive => p.filterDrive
  | .noiseAmount => p.noiseAmount
  | .vocoderRelease => p.vocoderRelease
  | .riserAmount => p.riserAmount
  | .riserType => p.riserType
  | .riserRelease => p.riserRelease
  | .gateLevel => p.gateLevel
  | .vocBrightness => p.vocBrightness
  | .vocMode => p.vocMode

/-- Write exactly one register of the file (R65). -/
def Params.set (p : Params) (r : ParamReg) (v : Word) : Params :=
  match r with
  | .buildUp => { p with buildUp := v }
  | .filterIntensity => { p with filterIntensity := v }
  | .filterType => { p with filterType := v }
  | .filterSlope => { p with filterSlope := v }
  | .filterResonance => { p with filterResonance := v }
  | .filterDrive => { p with filterDrive := v }
  | .noiseAmount => { p with noiseAmount := v }
  | .vocoderRelease => { p with vocoderRelease := v }
  | .riserAmount => { p with riserAmount := v }
  | .riserType => { p with riserType := v }
  | .riserRelease => { p with riserRelease := v }
  | .gateLevel => { p with gateLevel := v }
  | .vocBrightness => { p with vocBrightness := v }
  | .vocMode => { p with vocMode := v }

/-- The filter chains, `HP = 0` and `LP = 1` (R12). -/
inductive Chain where
  | hp
  | lp
deriving DecidableEq, Repr

/-- The implemented status registers (R27). -/
inductive StatusReg where
  | status
  | errCmd
  | fs
  | maxblk
  | blkLen
  | nch
  | n
  | buS
  | vocGain
  | rsrLevel
  | rsrFsm
  | id
  | vocRng
  | rsrRng
  | vfbEnv (c : Chan) (k : Fin 4)
  | vftEnv (c : Chan) (k : Fin 4)
  | fbFc (t : Chain) (s : Fin 4)
  | fbQ (t : Chain) (s : Fin 4)
  | fbAct (t : Chain) (s : Fin 4)
  | rsrPh (w : Fin 4)
  | rsrVph
  | hopc
deriving DecidableEq, Repr

/-- A number below 8 as a pair of a channel or chain bit and an index below 4: `4c + k`. -/
def splitIdx (j : Nat) : Bool × Fin 4 := (decide (4 ≤ j), ⟨j % 4, Nat.mod_lt _ (by decide)⟩)

/-- The channel with the given bit. -/
def Chan.ofBit (b : Bool) : Chan := if b then .right else .left

/-- The chain with the given bit. -/
def Chain.ofBit (b : Bool) : Chain := if b then .lp else .hp

/-- The status register an index names (R27): 12, 15 and 62 to 255 are reserved. -/
def StatusReg.ofIdx (idx : BitVec 8) : Option StatusReg :=
  let i := idx.toNat
  match i with
  | 0 => some .status
  | 1 => some .errCmd
  | 2 => some .fs
  | 3 => some .maxblk
  | 4 => some .blkLen
  | 5 => some .nch
  | 6 => some .n
  | 7 => some .buS
  | 8 => some .vocGain
  | 9 => some .rsrLevel
  | 10 => some .rsrFsm
  | 11 => some .id
  | 12 => none
  | 13 => some .vocRng
  | 14 => some .rsrRng
  | 15 => none
  | 60 => some .rsrVph
  | 61 => some .hopc
  | _ =>
    if i < 24 then let (b, k) := splitIdx (i - 16); some (.vfbEnv (Chan.ofBit b) k)
    else if i < 32 then let (b, k) := splitIdx (i - 24); some (.vftEnv (Chan.ofBit b) k)
    else if i < 40 then let (b, k) := splitIdx (i - 32); some (.fbFc (Chain.ofBit b) k)
    else if i < 48 then let (b, k) := splitIdx (i - 40); some (.fbQ (Chain.ofBit b) k)
    else if i < 56 then let (b, k) := splitIdx (i - 48); some (.fbAct (Chain.ofBit b) k)
    else if i < 60 then some (.rsrPh (splitIdx (i - 56)).2)
    else none

/-- `4c + k` for a channel. -/
def Chan.base : Chan → Nat
  | .left => 0
  | .right => 4

/-- `4t + s` for a chain. -/
def Chain.base : Chain → Nat
  | .hp => 0
  | .lp => 4

/-- The index of a status register (R27). -/
def StatusReg.idx : StatusReg → BitVec 8
  | .status => 0#8
  | .errCmd => 1#8
  | .fs => 2#8
  | .maxblk => 3#8
  | .blkLen => 4#8
  | .nch => 5#8
  | .n => 6#8
  | .buS => 7#8
  | .vocGain => 8#8
  | .rsrLevel => 9#8
  | .rsrFsm => 10#8
  | .id => 11#8
  | .vocRng => 13#8
  | .rsrRng => 14#8
  | .vfbEnv c k => BitVec.ofNat 8 (16 + Chan.base c + k.val)
  | .vftEnv c k => BitVec.ofNat 8 (24 + Chan.base c + k.val)
  | .fbFc t s => BitVec.ofNat 8 (32 + Chain.base t + s.val)
  | .fbQ t s => BitVec.ofNat 8 (40 + Chain.base t + s.val)
  | .fbAct t s => BitVec.ofNat 8 (48 + Chain.base t + s.val)
  | .rsrPh w => BitVec.ofNat 8 (56 + w.val)
  | .rsrVph => 60#8
  | .hopc => 61#8

/-- PREPARE's sample rate is finite and in [44100, 192000] (R97, R261). -/
def fsOk (fs : F32) : Bool := F32.isFinite fs && !flt fs fsMin && !flt fsMax fs

/-- PREPARE's block length is in [1, 2^31 - 1] (R97, R261). -/
def maxblkOk (mb : Word) : Bool := decide (1#32 ≤ mb) && decide (mb ≤ maxblkMax)

/-- BEGIN's channel count is 1 or 2 (R102, R261). -/
def nchOk (nch : Word) : Bool := nch == 1#32 || nch == 2#32

end Sys2Proof.Machine
end

