-- ==== Sys2Proof/Syntax.lean ====
section
/-! DEFINITION. The commands of BUV-CORE: one constructor for each of the nine rows of spec/opcode_table.json
(30_encoding.md R80), carrying the operands the command uses (R77). An operand word a command ignores is no part of
the command: any value of it is legal and has no effect (R75). -/

namespace Sys2Proof

/-- The command set (R80; semantics in 40_commands.md). -/
inductive Instr where
  /-- NOP (R96). -/
  | nop
  /-- PREPARE fs, maxblk (R97): `OPA` is the sample rate in Hz, `OPB` the maximum block length. -/
  | prepare (fs : F32) (maxblk : Word)
  /-- RESET (R98). -/
  | reset
  /-- WRP idx, value (R99): `idx` is `CW[23:16]`, `OPA` the value. -/
  | wrp (idx : BitVec 8) (value : Word)
  /-- RDP idx (R100). -/
  | rdp (idx : BitVec 8)
  /-- RDS idx (R101). -/
  | rds (idx : BitVec 8)
  /-- BEGIN M, nch (R102): `OPA` is the block length, `OPB` the channel count. -/
  | beginBlock (m : Word) (nch : Word)
  /-- FRAME l, r (R103): `OPA` is the left input sample, `OPB` the right one, ignored in a mono block. -/
  | frame (l : F32) (r : F32)
  /-- END (R104). -/
  | endBlock
deriving DecidableEq, Repr

/-- A command bundle: the three words presented together at the command port (R75). -/
structure Bundle where
  cw : Word
  opa : Word
  opb : Word
deriving DecidableEq, Repr

/-- The five words of a response (R78). -/
structure Response where
  st : Word
  r0 : Word
  r1 : Word
  r2 : Word
  r3 : Word
deriving DecidableEq, Repr

end Sys2Proof
end

