-- ==== Sys2Proof/WellFormed.lean ====
section
/-! DEFINITION. The checks that need no state. A command bundle is well-formed when its command word is one of the legal
encodings of 30_encoding.md R76 and R80; a command is well-formed when no operand of it is refused whatever the state
(the BADREG, BADLEN and BADVAL conditions of 60_exceptions.md R260 to R262 that look at the command alone). An
ill-formed command still has a meaning: the refusal the spec gives it. -/

namespace Sys2Proof

/-- The operand checks of R260 to R262 that do not look at the state. -/
def Instr.wellFormed : Instr → Bool
  | .nop => true
  | .prepare fs mb => Machine.fsOk fs && Machine.maxblkOk mb
  | .reset => true
  | .wrp idx v =>
    match Machine.ParamReg.ofIdx idx with
    | some r => Machine.inRange r v
    | none => false
  | .rdp idx => (Machine.ParamReg.ofIdx idx).isSome
  | .rds idx => (Machine.StatusReg.ofIdx idx).isSome
  | .beginBlock _ nch => Machine.nchOk nch
  | .frame l _ => Machine.F32.isFinite l
  | .endBlock => true

/-- `CW[31:24]`, the opcode (R76). -/
def Bundle.op (b : Bundle) : BitVec 8 := b.cw.extractLsb' 24 8

/-- `CW[23:16]`, the register index (R76). -/
def Bundle.idx (b : Bundle) : BitVec 8 := b.cw.extractLsb' 16 8

/-- `CW[15:0]`, reserved, must be 0 (R76). -/
def Bundle.rsv (b : Bundle) : BitVec 16 := b.cw.extractLsb' 0 16

/-- The opcodes that take an index: WRP, RDP, RDS (R76). -/
def takesIndex (op : BitVec 8) : Bool := op == 3#8 || op == 4#8 || op == 5#8

/-- The command word is a legal encoding (R76): an assigned opcode, no reserved bit set, and no index on an opcode that
takes none. -/
def Bundle.wellFormed (b : Bundle) : Bool :=
  decide (b.op ≤ 8#8) && b.rsv == 0#16 && (takesIndex b.op || b.idx == 0#8)

end Sys2Proof
end

