-- ==== Sys2Proof/Decode.lean ====
section
/-! DEFINITION. The decoder and the encoder of command bundles (30_encoding.md R75 to R82), and the byte-serial form of
a bundle (20_memory.md R63). The decoder is total: every command word is one row of R80 or an illegal encoding, which
is rejected by name and refused with BADOP. -/

namespace Sys2Proof

/-- The mnemonic of a command (R80). -/
def Instr.mnemonic : Instr → String
  | .nop => "NOP"
  | .prepare _ _ => "PREPARE"
  | .reset => "RESET"
  | .wrp _ _ => "WRP"
  | .rdp _ => "RDP"
  | .rds _ => "RDS"
  | .beginBlock _ _ => "BEGIN"
  | .frame _ _ => "FRAME"
  | .endBlock => "END"

/-- The commands that use `OPA` (R77). -/
def Instr.usesOpa : Instr → Bool
  | .prepare _ _ => true
  | .wrp _ _ => true
  | .beginBlock _ _ => true
  | .frame _ _ => true
  | .nop => false
  | .reset => false
  | .rdp _ => false
  | .rds _ => false
  | .endBlock => false

/-- The commands that use `OPB` (R77); FRAME ignores it in a mono block, which is a matter of its meaning. -/
def Instr.usesOpb : Instr → Bool
  | .prepare _ _ => true
  | .beginBlock _ _ => true
  | .frame _ _ => true
  | .nop => false
  | .reset => false
  | .wrp _ _ => false
  | .rdp _ => false
  | .rds _ => false
  | .endBlock => false

/-- One row of the opcode map: a command word `cw` selects it when `cw & mask = pattern` (R80). -/
structure OpcodeRow where
  mnemonic : String
  pattern : Word
  mask : Word
deriving DecidableEq, Repr

/-- The complete opcode map (R80). -/
def opcodeMap : List OpcodeRow :=
  [⟨"NOP", 0x00000000#32, 0xFFFFFFFF#32⟩, ⟨"PREPARE", 0x01000000#32, 0xFFFFFFFF#32⟩,
    ⟨"RESET", 0x02000000#32, 0xFFFFFFFF#32⟩, ⟨"WRP", 0x03000000#32, 0xFF00FFFF#32⟩,
    ⟨"RDP", 0x04000000#32, 0xFF00FFFF#32⟩, ⟨"RDS", 0x05000000#32, 0xFF00FFFF#32⟩,
    ⟨"BEGIN", 0x06000000#32, 0xFFFFFFFF#32⟩, ⟨"FRAME", 0x07000000#32, 0xFFFFFFFF#32⟩,
    ⟨"END", 0x08000000#32, 0xFFFFFFFF#32⟩]

/-- The command word selects the row (R80). -/
def OpcodeRow.selects (r : OpcodeRow) (cw : Word) : Bool := cw &&& r.mask == r.pattern

/-- Why a command word is an illegal encoding (R81). -/
inductive DecodeError where
  /-- `op` in 0x09 to 0xFF. -/
  | reservedOpcode
  /-- `CW[15:0]` is not zero. -/
  | reservedBits
  /-- `CW[23:16]` is not zero on an opcode that takes no index. -/
  | indexNotZero
  /-- A byte string that is not twelve bytes long (R63, R75: a bundle is always three words). -/
  | notABundle
deriving DecidableEq, Repr

/-- The commands without an index field, once the reserved and index fields are known to be zero. -/
def decodePlain (b : Bundle) : Except DecodeError Instr :=
  match b.op.toNat with
  | 0 => .ok .nop
  | 1 => .ok (.prepare b.opa b.opb)
  | 2 => .ok .reset
  | 6 => .ok (.beginBlock b.opa b.opb)
  | 7 => .ok (.frame b.opa b.opb)
  | 8 => .ok .endBlock
  | _ => .error .reservedOpcode

/-- The decoder (R80, R81). Operand words a command does not use are dropped (R75). -/
def decode (b : Bundle) : Except DecodeError Instr :=
  if 8#8 < b.op then .error .reservedOpcode
  else if b.rsv ≠ 0#16 then .error .reservedBits
  else if takesIndex b.op then
    match b.op.toNat with
    | 3 => .ok (.wrp b.idx b.opa)
    | 4 => .ok (.rdp b.idx)
    | _ => .ok (.rds b.idx)
  else if b.idx ≠ 0#8 then .error .indexNotZero
  else decodePlain b

/-- Assemble a command word from its opcode and index fields (R76). -/
def commandWord (op idx : BitVec 8) : Word := op ++ idx ++ 0#16

/-- The encoder: the bundle of a command, with 0 in every operand word it ignores (R80, R83). -/
def encode : Instr → Bundle
  | .nop => ⟨commandWord 0x00#8 0#8, 0#32, 0#32⟩
  | .prepare fs mb => ⟨commandWord 0x01#8 0#8, fs, mb⟩
  | .reset => ⟨commandWord 0x02#8 0#8, 0#32, 0#32⟩
  | .wrp idx v => ⟨commandWord 0x03#8 idx, v, 0#32⟩
  | .rdp idx => ⟨commandWord 0x04#8 idx, 0#32, 0#32⟩
  | .rds idx => ⟨commandWord 0x05#8 idx, 0#32, 0#32⟩
  | .beginBlock m nch => ⟨commandWord 0x06#8 0#8, m, nch⟩
  | .frame l r => ⟨commandWord 0x07#8 0#8, l, r⟩
  | .endBlock => ⟨commandWord 0x08#8 0#8, 0#32, 0#32⟩

/-- The command word of a command: what a refusal of it records in `err_cmd` (60_exceptions.md R256). -/
def Instr.cw (i : Instr) : Word := (encode i).cw

/-- The four bytes of a word, least significant first (R63). -/
def wordBytes (w : Word) : List Byte :=
  [w.extractLsb' 0 8, w.extractLsb' 8 8, w.extractLsb' 16 8, w.extractLsb' 24 8]

/-- The word of four bytes, least significant first (R63). -/
def wordOfBytes (b0 b1 b2 b3 : Byte) : Word := b3 ++ b2 ++ b1 ++ b0

/-- A bundle over a byte-wide transport: CW, OPA, OPB (R63). -/
def Bundle.bytes (b : Bundle) : List Byte := wordBytes b.cw ++ wordBytes b.opa ++ wordBytes b.opb

/-- A response over a byte-wide transport: ST, R0, R1, R2, R3 (R63). -/
def Response.bytes (r : Response) : List Byte :=
  wordBytes r.st ++ wordBytes r.r0 ++ wordBytes r.r1 ++ wordBytes r.r2 ++ wordBytes r.r3

/-- Read one bundle from a byte-wide transport; the remaining bytes are returned with it. -/
def Bundle.ofBytes : List Byte → Except DecodeError (Bundle × List Byte)
  | a0 :: a1 :: a2 :: a3 :: b0 :: b1 :: b2 :: b3 :: c0 :: c1 :: c2 :: c3 :: rest =>
    .ok (⟨wordOfBytes a0 a1 a2 a3, wordOfBytes b0 b1 b2 b3, wordOfBytes c0 c1 c2 c3⟩, rest)
  | _ => .error .notABundle

/-- Decode one command from a byte-wide transport: total on any bytes. -/
def decodeBytes (bs : List Byte) : Except DecodeError (Instr × List Byte) :=
  match Bundle.ofBytes bs with
  | .ok (b, rest) =>
    match decode b with
    | .ok i => .ok (i, rest)
    | .error e => .error e
  | .error e => .error e

/-- The bundle whose bits, counted from bit 0 of CW through OPA and OPB, are those of `w`, all bits from `nbits` on
being zero. -/
def bundleOfBits (nbits w : Nat) : Bundle :=
  let v := w % 2 ^ nbits
  ⟨BitVec.ofNat 32 v, BitVec.ofNat 32 (v / 2 ^ 32), BitVec.ofNat 32 (v / 2 ^ 64)⟩

/-- The instruction the decoder reads from the bits `w` of an opcode-table row: the bundle's words are laid out as the
transport stores them (R63) and given to the decoder. -/
def decodeTableWord (nbits w : Nat) : Option Instr :=
  match decodeBytes (bundleOfBits nbits w).bytes with
  | .ok (i, _) => some i
  | .error _ => none

end Sys2Proof
end

