-- ==== Sys2Proof/Machine/State.lean ====
section
/-! DEFINITION. The state of one BUV-CORE instance (10_state.md R20 to R38), its value at power-on (R40, 70_reset_and_
hazards.md R275), and the reasons a step could stop. Two fields are the model's own: the commands that wait at the
command port, and the response words of the last command. -/

namespace Sys2Proof.Machine

/-- The protocol mode, a 2-bit value (R26): 0 UNPREP, 1 IDLE, 2 INBLK. -/
inductive Mode where
  | unprep
  | idle
  | inblk
deriving DecidableEq, Repr

/-- One filter stage of FB (R31): settings, activity flag, coefficient triple, and the two integrators of each
channel. -/
structure Stage where
  fc : F32
  q : F32
  act : Bool
  co : Coef
  ic1 : Pair F32
  ic2 : Pair F32
deriving DecidableEq, Repr

/-- The two chains of four stages (R31, R150). -/
structure Fb where
  hp : Quad Stage
  lp : Quad Stage
deriving DecidableEq, Repr

/-- The stages of a chain. -/
def Fb.get (f : Fb) : Chain → Quad Stage
  | .hp => f.hp
  | .lp => f.lp

/-- The VFB state of one channel (R33): analysis and synthesis integrators and envelope of each band, the output
smoother and the two emphasis memories. -/
structure VfbChan where
  an1 : Quad F32
  an2 : Quad F32
  sy1 : Quad F32
  sy2 : Quad F32
  env : Quad F32
  osm : F32
  e1p : F32
  e2p : F32
deriving DecidableEq, Repr

/-- The VFT state of one channel (R35): input window, overlap-add accumulator, band envelopes. -/
structure VftChan where
  inp : Buf F32 512
  out : Buf F32 512
  env : Quad F32
deriving DecidableEq, Repr

/-- The vocoder, both forms (R28, R33, R34, R35). `prev` is the flag `voc_prev`: false filterbank, true FFT. -/
structure Voc where
  vfb : Pair VfbChan
  ns1 : F32
  ns2 : F32
  rng : Word
  vft : Pair VftChan
  hopc : Word
  prev : Bool
  gain : F32
  bright : F32
  aatt : F32
  arel : F32
  gk : Quad F32
deriving DecidableEq, Repr

/-- The riser (R36, R37). The phases are those of sine, saw, square and sub drop, in this order. -/
structure Rsr where
  level : F32
  fsm : F32
  ph : Quad F32
  vph : F32
  nz1 : F32
  nz2 : F32
  rng : Word
  target : F32
  katt : F32
  krel : F32
  ft : F32
  vdepth : F32
  vrate : F32
  amp : F32
  nzco : Coef
deriving DecidableEq, Repr

/-- The tables PREPARE computes (R29): the band coefficients `vco`, the window `HANN`, and `BAND_OF_BIN`, whose value
`none` says that a bin is in no band. -/
structure Tables where
  vco : Quad Coef
  hann : Buf F32 512
  bandOfBin : Buf (Option (Fin 4)) 257
deriving DecidableEq, Repr

/-- The state of one instance (R20): parameter files `P` and `A` (R21), protocol state (R26), flags (R28),
configuration (R29), error registers (R38), and the state of SEQ, FB, the vocoder and RSR (R30 to R37). `port` and
`resp` are the model's own: the bundles presented at the command port and not yet executed, in arrival order (R5, R66),
and the response of the last command executed (R78), `none` before the first (DESIGN CHOICE, safe, log entries 3 and
4). -/
structure State where
  p : Params
  a : Params
  mode : Mode
  n : Word
  blkLen : Word
  blkNch : Word
  bypass : Bool
  fs : F32
  maxblk : Word
  tables : Tables
  buS : F32
  fb : Fb
  voc : Voc
  rsr : Rsr
  errCause : BitVec 8
  errCmd : Word
  errSticky : Bool
  port : List Bundle
  resp : Option Response
deriving DecidableEq, Repr

/-- The reasons a step stops with a fault. There are none: a refusal by the hardware is a next state (60_exceptions.md
R255, R256), no other cause exists (R263), and no behaviour of BUV-CORE leaves the machine without a next state
(93_implementation_defined.md, part 1). DEDUCED (log entry 7). Safe: nothing can raise one. -/
inductive Fault where
deriving DecidableEq, Repr

/-- The reasons the model refuses an instruction. -/
inductive Refusal where
  /-- Raised by an arm of `exec` for an instruction that has no meaning yet; every command has one, so no arm raises
  it. Safe: the model stops. -/
  | notModelled (mnemonic : String)
deriving DecidableEq, Repr

/-! ### Reset values (R40) -/

/-- A neutral stage with zero coefficients, the reset value of a stage of a chain (R40: 20 Hz or 20 kHz, Q 0.5,
inactive, integrators cleared). -/
def Stage.atReset (t : Chain) : Stage where
  fc := match t with
    | .hp => fMin
    | .lp => fMax
  q := qCasc
  act := false
  co := Coef.zeros
  ic1 := Pair.both zero
  ic2 := Pair.both zero

/-- FB at reset. -/
def Fb.atReset : Fb := ⟨Quad.all (Stage.atReset .hp), Quad.all (Stage.atReset .lp)⟩

/-- The VFB state of a channel at reset. -/
def VfbChan.cleared : VfbChan where
  an1 := Quad.all zero
  an2 := Quad.all zero
  sy1 := Quad.all zero
  sy2 := Quad.all zero
  env := Quad.all zero
  osm := zero
  e1p := zero
  e2p := zero

/-- The VFT state of a channel at reset. -/
def VftChan.cleared : VftChan where
  inp := Buf.fill 512 zero
  out := Buf.fill 512 zero
  env := Quad.all zero

/-- The vocoder at reset. -/
def Voc.atReset : Voc where
  vfb := Pair.both VfbChan.cleared
  ns1 := zero
  ns2 := zero
  rng := vocSeed
  vft := Pair.both VftChan.cleared
  hopc := 0#32
  prev := false
  gain := zero
  bright := zero
  aatt := zero
  arel := zero
  gk := Quad.all zero

/-- The riser at reset: smoothed frequency and target frequency 50 Hz, amplitude factor 1, all else zero. -/
def Rsr.atReset : Rsr where
  level := zero
  fsm := fSinLo
  ph := Quad.all zero
  vph := zero
  nz1 := zero
  nz2 := zero
  rng := rsrSeed
  target := zero
  katt := zero
  krel := zero
  ft := fSinLo
  vdepth := zero
  vrate := zero
  amp := one
  nzco := Coef.zeros

/-- The tables before the first PREPARE (R40): zeros, and no bin in a band. -/
def Tables.atReset : Tables where
  vco := Quad.all Coef.zeros
  hann := Buf.fill 512 zero
  bandOfBin := Buf.fill 257 none

/-- Power-on (R275): the power-on column of R40. No command waits and none has responded. -/
def State.reset : State where
  p := Params.atReset
  a := Params.atReset
  mode := .unprep
  n := 0#32
  blkLen := 0#32
  blkNch := 0#32
  bypass := false
  fs := zero
  maxblk := 0#32
  tables := Tables.atReset
  buS := zero
  fb := Fb.atReset
  voc := Voc.atReset
  rsr := Rsr.atReset
  errCause := 0#8
  errCmd := 0#32
  errSticky := false
  port := []
  resp := none

end Sys2Proof.Machine
end

