-- ==== Sys2Proof/Machine/Flags.lean ====
section
/-! DEFINITION. Codes and views: the status and cause codes (30_encoding.md R79, 60_exceptions.md R257), the protocol
mode as its 2-bit code (R26), the flags (R28) as they stand in the STATUS word, and the value of every status register
(R27). There are no arithmetic condition codes: no command sets a flag from a computed sample (R28). -/

namespace Sys2Proof.Machine

/-- The five refusal causes (R257). -/
inductive Cause where
  | badop
  | badstate
  | badreg
  | badlen
  | badval
deriving DecidableEq, Repr

/-- The code of a cause, both `ST[7:0]` of the response and the value of `err_cause` (R257). -/
def Cause.code : Cause → BitVec 8
  | .badop => 0x01#8
  | .badstate => 0x02#8
  | .badreg => 0x03#8
  | .badlen => 0x04#8
  | .badval => 0x05#8

/-- The code of a mode (R26). -/
def Mode.code : Mode → BitVec 2
  | .unprep => 0#2
  | .idle => 1#2
  | .inblk => 2#2

/-- A flag as a 32-bit word. -/
def flagWord (b : Bool) : Word := if b then 1#32 else 0#32

/-- The STATUS word (R27): mode, bypass, err_sticky, voc_prev, three zero bits, err_cause, sixteen zero bits. -/
def statusWord (s : State) : Word :=
  0#16 ++ s.errCause ++ 0#3 ++ BitVec.ofBool s.voc.prev ++ BitVec.ofBool s.errSticky ++ BitVec.ofBool s.bypass
    ++ s.mode.code

/-- The word `RDS` returns for each status register (R27): a view of state that other rules write. -/
def statusValue (s : State) : StatusReg → Word
  | .status => statusWord s
  | .errCmd => s.errCmd
  | .fs => s.fs
  | .maxblk => s.maxblk
  | .blkLen => s.blkLen
  | .nch => s.blkNch
  | .n => s.n
  | .buS => s.buS
  | .vocGain => s.voc.gain
  | .rsrLevel => s.rsr.level
  | .rsrFsm => s.rsr.fsm
  | .id => idWord
  | .vocRng => s.voc.rng
  | .rsrRng => s.rsr.rng
  | .vfbEnv c k => (s.voc.vfb.get c).env.get k
  | .vftEnv c k => (s.voc.vft.get c).env.get k
  | .fbFc t i => ((s.fb.get t).get i).fc
  | .fbQ t i => ((s.fb.get t).get i).q
  | .fbAct t i => flagWord ((s.fb.get t).get i).act
  | .rsrPh w => s.rsr.ph.get w
  | .rsrVph => s.rsr.vph
  | .hopc => s.voc.hopc

end Sys2Proof.Machine
end

