-- ==== Sys2Proof/Machine/FilterBank.lean ====
section
/-! DEFINITION. FB, the cascaded state-variable filter bank (43_filter_bank.md): the block update run by BEGIN and the
frame step run by FRAME. -/

namespace Sys2Proof.Machine

/-- `NEUTRAL_STAGE(t, s)` (R156): neutral settings, inactive, both channels' integrators cleared; the coefficient
triple is not written. -/
def Stage.neutral (t : Chain) (st : Stage) : Stage :=
  { st with
    fc := match t with
      | .hp => fMin
      | .lp => fMax
    q := qCasc
    act := false
    ic1 := Pair.both zero
    ic2 := Pair.both zero }

/-- An active stage takes its settings and coefficients; its integrators persist across blocks (R159). -/
def Stage.engage (N : Numerics) (fs fc q : F32) (st : Stage) : Stage :=
  { st with fc := fc, q := q, co := svfCoef N fs fc q, act := true }

/-- The control product `p` (R151). -/
def fbProduct (a : Params) (buS : F32) : F32 := fmul buS (fdiv a.filterIntensity hundred)

/-- The resonance of stage 0, `q1` (R157). -/
def fbResonance (a : Params) (p : F32) : F32 := fadd qCasc (fmul p (fsub a.filterResonance qCasc))

/-- The mapping variable `m` (R154): quadratic in dual-sweep, linear otherwise. -/
def fbMapping (a : Params) (p : F32) : F32 := if a.filterType = 2#32 then fmul p p else p

/-- The highpass cutoff (R154). -/
def fbHpCutoff (m : F32) : F32 := clampF (fadd fMin (fmul m (fsub fHpTop fMin)))

/-- The lowpass cutoff before the separation rule (R154). -/
def fbLpCutoff (m : F32) : F32 := clampF (fsub fMax (fmul m (fsub fMax fLpBot)))

/-- The separation rule of dual-sweep (R155): the lowpass cutoff is raised to at least 2000 Hz above the highpass
cutoff. -/
def fbSeparate (hpfc lpfc : F32) : F32 :=
  let lim := fadd hpfc sepMin
  clampF (if flt lpfc lim then lim else lpfc)

/-- The lowpass cutoff a block uses (R154, R155). -/
def fbLpFinal (a : Params) (m : F32) : F32 :=
  if a.filterType = 2#32 then fbSeparate (fbHpCutoff m) (fbLpCutoff m) else fbLpCutoff m

/-- Whether a chain is engaged (R152, R153). -/
def fbEngaged (a : Params) (p : F32) (t : Chain) : Bool :=
  !flt p epsFilt &&
    match t with
    | .hp => a.filterType == 0#32 || a.filterType == 2#32
    | .lp => a.filterType == 1#32 || a.filterType == 2#32

/-- `S`, the number of working stages of an engaged chain (R158). -/
def fbStages (a : Params) : Word := a.filterSlope + 1#32

/-- The cutoff of a chain, `fcv[t]` (R159). -/
def fbCutoff (a : Params) (p : F32) : Chain → F32
  | .hp => fbHpCutoff (fbMapping a p)
  | .lp => fbLpFinal a (fbMapping a p)

/-- Stage 0 carries the resonance `q1`, the cascaded stages the constant `Q_CASC` (R157). -/
def fbStageQ (a : Params) (p : F32) (i : Fin 4) : F32 := if i = 0 then fbResonance a p else qCasc

/-- Whether stage `i` of a chain works in this block (R158, R159). -/
def fbStageOn (a : Params) (p : F32) (t : Chain) (i : Fin 4) : Bool :=
  fbEngaged a p t && decide (BitVec.ofNat 32 i.val < fbStages a)

/-- The update of one stage (the body of the loops of R159). -/
def fbStageUpdate (N : Numerics) (fs : F32) (a : Params) (p : F32) (t : Chain) (i : Fin 4) (st : Stage) : Stage :=
  if fbStageOn a p t i then st.engage N fs (fbCutoff a p t) (fbStageQ a p i) else st.neutral t

/-- The update of the four stages of one chain. -/
def fbChainUpdate (N : Numerics) (fs : F32) (a : Params) (p : F32) (t : Chain) (c : Quad Stage) : Quad Stage :=
  Quad.tab fun i => fbStageUpdate N fs a p t i (c.get i)

/-- `FB_UPDATE` (R159). -/
def fbUpdate (N : Numerics) (fs : F32) (a : Params) (buS : F32) (f : Fb) : Fb :=
  let p := fbProduct a buS
  ⟨fbChainUpdate N fs a p .hp f.hp, fbChainUpdate N fs a p .lp f.lp⟩

/-- `for t, s: NEUTRAL_STAGE(t, s)`, the FB part of `BYPASS_CLEAR` (R137). -/
def fbNeutral (f : Fb) : Fb := ⟨f.hp.map (Stage.neutral .hp), f.lp.map (Stage.neutral .lp)⟩

/-- One stage of `FB_TICK` on channel `c` (R160): an inactive stage passes the very bits of its input. -/
def Stage.tick (c : Chan) (t : Chain) (st : Stage) (x : F32) : Stage × F32 :=
  if st.act then
    let o := svfTick (st.ic1.get c) (st.ic2.get c) st.co x
    ({ st with ic1 := st.ic1.set c o.ic1, ic2 := st.ic2.set c o.ic2 },
      match t with
      | .hp => o.hp
      | .lp => o.lp)
  else (st, x)

/-- `FB_TICK(c, x)` (R160): the highpass chain, then the lowpass chain. -/
def fbTick (c : Chan) (f : Fb) (x : F32) : Fb × F32 :=
  let h := f.hp.scan (Stage.tick c .hp) x
  let l := f.lp.scan (Stage.tick c .lp) h.2
  (⟨h.1, l.1⟩, l.2)

/-- FB on one frame (R140, R142): channel 0, and channel 1 in a stereo block. -/
def fbFrame (stereo : Bool) (f : Fb) (x : Pair F32) : Fb × Pair F32 :=
  let a := fbTick .left f x.l
  if stereo then
    let b := fbTick .right a.1 x.r
    (b.1, ⟨a.2, b.2⟩)
  else (a.1, ⟨a.2, x.r⟩)

end Sys2Proof.Machine
end

