-- ==== Sys2Proof/Machine/Riser.lean ====
section
/-! DEFINITION. RSR, the riser synthesizer (46_riser.md): the block update run by BEGIN and the frame step run by
FRAME. -/

namespace Sys2Proof.Machine

/-- The five variants (R225). -/
inductive RiserType where
  | sine
  | saw
  | square
  | noise
  | sub
deriving DecidableEq, Repr

/-- The variant a `riserType` code selects (R23, R225). Codes above 4 never stand in `A` (R42 (a)); the last case
covers them (DESIGN CHOICE, log entry 6). -/
def RiserType.ofCode (w : Word) : RiserType :=
  if w = 1#32 then .saw
  else if w = 2#32 then .square
  else if w = 3#32 then .noise
  else if w = 4#32 then .sub
  else .sine

/-- The sweep frequency, `50 + b³ * 3950` Hz (R226, R231). -/
def riserSweep (b : F32) : F32 := fadd fSinLo (fmul (fmul (fmul b b) b) (fsub fSinHi fSinLo))

/-- The sub drop frequency, `20 + (1 - b)³ * 10` Hz (R226, R235). -/
def riserSubFreq (b : F32) : F32 :=
  let inv := fsub one b
  fadd fSubLo (fmul (fmul (fmul inv inv) inv) (fsub fSubHi fSubLo))

/-- The target frequency of each variant (R226, R231 to R235). -/
def riserTargetFreq (t : RiserType) (b : F32) : F32 :=
  match t with
  | .sine => riserSweep b
  | .saw => fmul sawScale (riserSweep b)
  | .square => fmul sqScale (riserSweep b)
  | .noise => riserSweep b
  | .sub => riserSubFreq b

/-- The vibrato depth of each variant (R226, R229). -/
def riserDepth (t : RiserType) (b : F32) : F32 :=
  match t with
  | .saw => fmul (fmul vibDepth b) vibSaw
  | .sub => fmul (fmul vibDepth b) vibSub
  | _ => fmul vibDepth b

/-- The amplitude factor of each variant (R226, R235). -/
def riserAmp (t : RiserType) (b : F32) : F32 :=
  match t with
  | .sub => fsub one b
  | _ => one

/-- The noise sweep's cutoff (R226, R234). -/
def riserNoiseFc (b : F32) : F32 := clampF (fadd fNzLo (fmul (fmul b b) (fsub fNzHi fNzLo)))

/-- The noise sweep's quality (R226, R234). -/
def riserNoiseQ (b : F32) : F32 := fadd nzQ0 (fmul nzQ1 b)

/-- The noise sweep's coefficients are written in type 3 only (R226). -/
def riserNoiseCoef (N : Numerics) (fs : F32) (t : RiserType) (b : F32) (old : Coef) : Coef :=
  match t with
  | .noise => svfCoef N fs (riserNoiseFc b) (riserNoiseQ b)
  | _ => old

/-- The level target (R226, R227). -/
def riserTarget (a : Params) (b : F32) : F32 := fmul (fdiv a.riserAmount hundred) b

/-- `RSR_UPDATE` with `b = bu_s` (R226). -/
def rsrUpdate (N : Numerics) (fs : F32) (a : Params) (b : F32) (r : Rsr) : Rsr :=
  let t := RiserType.ofCode a.riserType
  { r with
    target := riserTarget a b
    katt := fsub one (envCoef N tRsrAtt fs)
    krel := fsub one (envCoef N a.riserRelease fs)
    ft := riserTargetFreq t b
    amp := riserAmp t b
    vdepth := riserDepth t b
    vrate := fadd vibRate0 (fmul vibRate1 b)
    nzco := riserNoiseCoef N fs t b r.nzco }

/-- `RSR` in `BYPASS_CLEAR` (R137): level and noise filter cleared, phases, frequency and generator kept. -/
def Rsr.bypassClear (r : Rsr) : Rsr := { r with level := zero, nz1 := zero, nz2 := zero }

/-- The level envelope, every frame (R227). -/
def rsrLevel (r : Rsr) : Rsr :=
  let d := fsub r.target r.level
  let k := if flt zero d then r.katt else r.krel
  { r with level := fadd r.level (fmul k d) }

/-- `SIN(fmul(TWO_PI32, ph))`, one period per unit of phase. -/
def sinOf (N : Numerics) (ph : F32) : F32 := N.sin (fmul twoPi32 ph)

/-- Frequency smoothing and vibrato phase (R229). -/
def rsrGlide (fs : F32) (r : Rsr) : Rsr :=
  { r with fsm := fadd r.fsm (fmul kFreq (fsub r.ft r.fsm)), vph := wrap1 (fadd r.vph (fdiv r.vrate fs)) }

/-- The instantaneous frequency, vibrato applied after the smoothing (R229). -/
def rsrFinst (N : Numerics) (r : Rsr) : F32 := fmul r.fsm (fadd one (fmul r.vdepth (sinOf N r.vph)))

/-- The phase register of a variant: sine 0, saw 1, square 2, sub drop 3 (R230). The noise sweep has none. -/
def RiserType.phase : RiserType → Fin 4
  | .sine => 0
  | .saw => 1
  | .square => 2
  | .noise => 0
  | .sub => 3

/-- Only the selected variant's phase advances (R230). -/
def rsrAdvance (N : Numerics) (fs : F32) (t : RiserType) (r : Rsr) : Rsr :=
  { r with ph := r.ph.set t.phase (wrap1 (fadd (r.ph.get t.phase) (fdiv (rsrFinst N r) fs))) }

/-- The waveform of a periodic variant at its phase (R231, R232, R233, R235). -/
def riserWave (N : Numerics) (t : RiserType) (ph : F32) : F32 :=
  match t with
  | .saw => fsub (fmul two ph) one
  | .square => if fle zero (sinOf N ph) then one else minusOne
  | _ => sinOf N ph

/-- The noise sweep's frame: one draw, one filter tick, the normalised band-pass output (R234). -/
def rsrNoise (r : Rsr) : Rsr × F32 :=
  let rng := lcgNext r.rng
  let o := svfTick r.nz1 r.nz2 r.nzco (lcgSample rng)
  ({ r with rng := rng, nz1 := o.ic1, nz2 := o.ic2 }, fmul o.bp r.nzco.r2)

/-- The oscillator's frame of the selected variant: the new riser state and the waveform value (R237). -/
def rsrOsc (N : Numerics) (fs : F32) (t : RiserType) (r : Rsr) : Rsr × F32 :=
  match t with
  | .noise => rsrNoise r
  | _ =>
    let r' := rsrAdvance N fs t (rsrGlide fs r)
    (r', riserWave N t (r'.ph.get t.phase))

/-- `rsr_level ≥ EPS_RSR` (R228). -/
def Rsr.sounding (r : Rsr) : Bool := fle epsRsr r.level

/-- Add the riser value to a sample, or leave the sample's bits (R228, R236). -/
def Rsr.addTo (r : Rsr) (wave x : F32) : F32 := if r.sounding then fadd x (fmul (fmul wave r.level) r.amp) else x

/-- `RSR_TICK(x)` (R237): the same value for every channel of the block. -/
def rsrTick (N : Numerics) (fs : F32) (t : RiserType) (stereo : Bool) (r : Rsr) (x : Pair F32) : Rsr × Pair F32 :=
  let o := rsrOsc N fs t (rsrLevel r)
  (o.1, ⟨o.1.addTo o.2 x.l, if stereo then o.1.addTo o.2 x.r else x.r⟩)

end Sys2Proof.Machine
end

