-- ==== Sys2Proof/Machine/Vocoder.lean ====
section
/-! DEFINITION. The vocoder's block update and clearing, which serve both forms, and VFB, the envelope-following
filterbank vocoder (44_vocoder_filterbank.md). -/

namespace Sys2Proof.Machine

/-- `vco[k]` for the four bands (R177). -/
def vocCoefs (N : Numerics) (fs : F32) : Quad Coef := Quad.tab fun k => svfCoef N fs (vocFc.get k) (vocQ.get k)

/-- `VOC_CLEAR` (R185). It does not write `voc_rng`, `voc_prev` or the per-block values. -/
def Voc.clear (v : Voc) : Voc :=
  { v with
    vfb := Pair.both VfbChan.cleared
    ns1 := zero
    ns2 := zero
    vft := Pair.both VftChan.cleared
    hopc := 0#32 }

/-- `voc_prev` as the number it is compared with (R176). -/
def Voc.prevMode (v : Voc) : Word := if v.prev then 1#32 else 0#32

/-- The release time in seconds (R176). -/
def vocRelease (a : Params) : F32 :=
  fadd tRelMin (fmul (fdiv a.vocoderRelease hundred) (fsub tRelMax tRelMin))

/-- The vocoder gain (R176). -/
def vocGainOf (a : Params) (buS : F32) : F32 := fmul (fmul (fdiv a.noiseAmount hundred) buS) a.gateLevel

/-- The envelope update rate: the sample rate in VFB, the transform frame rate in VFT (R176). -/
def vocRate (a : Params) (fs : F32) : F32 := if a.vocMode = 0#32 then fs else fdiv fs hopF

/-- The make-up gains at brightness `b` (R176, R180). -/
def vocMakeup (b : F32) : Quad F32 :=
  Quad.tab fun k => fadd (gFix.get k) (fmul b (fsub (gBrt.get k) (gFix.get k)))

/-- A change of vocoder mode clears all vocoder state and records the mode (R176). -/
def Voc.switch (a : Params) (v : Voc) : Voc :=
  if a.vocMode ≠ v.prevMode then { v.clear with prev := a.vocMode.getLsbD 0 } else v

/-- `VOC_UPDATE` (R176). -/
def vocUpdate (N : Numerics) (fs : F32) (a : Params) (buS : F32) (v : Voc) : Voc :=
  let b := fdiv a.vocBrightness hundred
  { v.switch a with
    bright := b
    gain := vocGainOf a buS
    aatt := envCoef N tAtt (vocRate a fs)
    arel := envCoef N (vocRelease a) (vocRate a fs)
    gk := vocMakeup b }

/-- `voc_gain > 0`, the condition under which the vocoder analyses the signal and adds to it (R182, R184). -/
def Voc.sounding (v : Voc) : Bool := flt zero v.gain

/-- The analysis input `u` (R184). -/
def Voc.input (v : Voc) (x : F32) : F32 := if v.sounding then x else zero

/-- Add `v * gain` when the gain is positive; otherwise the sample keeps its bits (R182, R184, R206). -/
def Voc.addTo (v : Voc) (y x : F32) : F32 := if v.sounding then fadd x (fmul y v.gain) else x

/-- `VFB_NOISE` (R178): the updated vocoder and the noise sample `nz`. -/
def vfbNoise (v : Voc) : Voc × F32 :=
  let rng := lcgNext v.rng
  let w := lcgSample rng
  let ns1 := lerp1 v.ns1 w kNs
  let ns2 := lerp1 v.ns2 ns1 kNs
  ({ v with rng := rng, ns1 := ns1, ns2 := ns2 }, fadd ns2 (fmul v.bright (fsub w ns1)))

/-- The running values of one band: its integrators and envelope, and the band sum `acc`. -/
structure BandOut where
  an1 : F32
  an2 : F32
  sy1 : F32
  sy2 : F32
  env : F32
  acc : F32
deriving DecidableEq, Repr

/-- One band of one channel in one frame: analysis and envelope (R179), synthesis and band sum (R180). -/
def vfbBand (v : Voc) (vco : Quad Coef) (ch : VfbChan) (u nz : F32) (k : Fin 4) (acc : F32) : BandOut :=
  let co := vco.get k
  let an := svfTick (ch.an1.get k) (ch.an2.get k) co u
  let e := F32.abs (fmul an.bp co.r2)
  let env := envTick (ch.env.get k) e v.aatt v.arel
  let sy := svfTick (ch.sy1.get k) (ch.sy2.get k) co nz
  let sv := fmul sy.bp co.r2
  ⟨an.ic1, an.ic2, sy.ic1, sy.ic2, env, fadd acc (fmul (fmul sv env) (v.gk.get k))⟩

/-- One emphasis stage, `y = x + (x - x_prev) * k` (R181). -/
def emphasis (x prev : F32) : F32 := fadd x (fmul (fsub x prev) kEmph)

/-- One channel of `VFB_TICK` (R183): the new channel state and the emphasised value `y2`. The bands run in increasing
order and `acc` starts at +0.0. -/
def vfbChan (v : Voc) (vco : Quad Coef) (ch : VfbChan) (u nz : F32) : VfbChan × F32 :=
  let b0 := vfbBand v vco ch u nz 0 zero
  let b1 := vfbBand v vco ch u nz 1 b0.acc
  let b2 := vfbBand v vco ch u nz 2 b1.acc
  let b3 := vfbBand v vco ch u nz 3 b2.acc
  let osm := lerp1 ch.osm b3.acc kOut
  let y1 := emphasis osm ch.e1p
  let y2 := emphasis y1 ch.e2p
  ({ an1 := ⟨b0.an1, b1.an1, b2.an1, b3.an1⟩
     an2 := ⟨b0.an2, b1.an2, b2.an2, b3.an2⟩
     sy1 := ⟨b0.sy1, b1.sy1, b2.sy1, b3.sy1⟩
     sy2 := ⟨b0.sy2, b1.sy2, b2.sy2, b3.sy2⟩
     env := ⟨b0.env, b1.env, b2.env, b3.env⟩
     osm := osm
     e1p := osm
     e2p := y1 }, y2)

/-- One channel of `VFB_TICK` on the whole vocoder: the input rule of R184, the channel step, the gain and addition of
R182. -/
def vfbStep (vco : Quad Coef) (nz : F32) (c : Chan) (v : Voc) (x : F32) : Voc × F32 :=
  let r := vfbChan v vco (v.vfb.get c) (v.input x) nz
  ({ v with vfb := v.vfb.set c r.1 }, v.addTo r.2 x)

/-- `VFB_TICK(x)` (R183): the noise source once, then channel 0, and channel 1 in a stereo block (R142). -/
def vfbTick (vco : Quad Coef) (stereo : Bool) (v : Voc) (x : Pair F32) : Voc × Pair F32 :=
  let nz := vfbNoise v
  let a := vfbStep vco nz.2 .left nz.1 x.l
  if stereo then
    let b := vfbStep vco nz.2 .right a.1 x.r
    (b.1, ⟨a.2, b.2⟩)
  else (a.1, ⟨a.2, x.r⟩)

end Sys2Proof.Machine
end

