-- ==== Sys2Proof/Machine/VocoderFft.lean ====
section
/-! DEFINITION. VFT, the FFT-based spectral vocoder (45_vocoder_fft.md): the tables PREPARE computes, one transform
frame, and the frame step run by FRAME. -/

namespace Sys2Proof.Machine

/-- The band a frequency falls in (R201 (b)). The loop over `k` assigns in increasing order, so of two bands that both
held the frequency the later would stand; the edges are disjoint. -/
def bandOfFreq (f : F32) : Option (Fin 4) :=
  let inBand (k : Fin 4) : Bool := fle (edgeLo.get k) f && flt f (edgeHi.get k)
  if inBand 3 then some 3
  else if inBand 2 then some 2
  else if inBand 1 then some 1
  else if inBand 0 then some 0
  else none

/-- The centre frequency of bin `j` (R201 (b)). -/
def binFreq (fs : F32) (j : Nat) : F32 := fdiv (fmul (F32.ofNat j) fs) nfftF

/-- `BAND_OF_BIN` (R201 (b)): bins 0 and 256 are in no band. -/
def bandTable (fs : F32) : Buf (Option (Fin 4)) 257 :=
  Buf.tab 257 fun j => if 1 ≤ j ∧ j ≤ 255 then bandOfFreq (binFreq fs j) else none

/-- The tables PREPARE computes from the sample rate (R29, R97, R177, R201). The window is the numerics record's,
of which `HannOk` says what R201 (a) says (log entry 17). -/
def tablesFor (N : Numerics) (fs : F32) : Tables := ⟨vocCoefs N fs, N.hann, bandTable fs⟩

/-- The magnitude of a bin (R203). -/
def binMag (x : Cpx) : F32 := fsqrt (fadd (fmul x.re x.re) (fmul x.im x.im))

/-- Sum the magnitudes of the bins of each band, bins in increasing order (R203). -/
def bandSums : List (Option (Fin 4) × Cpx) → Quad F32 → Quad F32
  | [], s => s
  | (none, _) :: rest, s => bandSums rest s
  | (some k, x) :: rest, s => bandSums rest (s.set k (fadd (s.get k) (binMag x)))

/-- The bins 1 to 255 of a spectrum, each with its band. -/
def bandedBins (bands : Buf (Option (Fin 4)) 257) (x : Buf Cpx 257) : List (Option (Fin 4) × Cpx) :=
  ((bands.cells.zip x.cells).drop 1).take 255

/-- The band energies `E` of an input window (R203). -/
def vftEnergies (N : Numerics) (tb : Tables) (inp : Buf F32 512) : Quad F32 :=
  let xw := inp.zip fmul tb.hann
  (bandSums (bandedBins tb.bandOfBin (N.dft xw)) (Quad.all zero)).map fun s => fmul s energyScale

/-- `k` draws from the noise generator: the samples in order and the generator's last state (R119, R205). -/
def lcgDraws : Nat → Word → List F32 × Word
  | 0, s => ([], s)
  | k + 1, s =>
    let s' := lcgNext s
    let r := lcgDraws k s'
    (lcgSample s' :: r.1, r.2)

/-- `k` draws are `k` samples. -/
theorem lcgDraws_length (k : Nat) (s : Word) : (lcgDraws k s).1.length = k := by
  induction k generalizing s with
  | zero => rfl
  | succ k ih => exact congrArg Nat.succ (ih _)

/-- The 512 noise samples of one channel's transform frame (R205). -/
def noiseFrame (s : Word) : Buf F32 512 := ⟨(lcgDraws 512 s).1, lcgDraws_length 512 s⟩

/-- The generator after the 512 draws of one channel's transform frame. -/
def noiseAfter (s : Word) : Word := (lcgDraws 512 s).2

/-- The gain of band `k`: its envelope over the band index counted from 1 (R205). -/
def bandWeight (env : Quad F32) (k : Fin 4) : F32 := fdiv (env.get k) (F32.ofNat (k.val + 1))

/-- One bin of the shaped noise spectrum (R205): bins in no band are +0.0. -/
def shapeBin (env : Quad F32) (band : Option (Fin 4)) (w : Cpx) : Cpx :=
  match band with
  | some k => ⟨fmul w.re (bandWeight env k), fmul w.im (bandWeight env k)⟩
  | none => ⟨zero, zero⟩

/-- `BAND_OF_BIN` with bins 0 and 256 in no band: the loops of R205 run over `j` in 1 to 255 only. -/
def innerBands (bands : Buf (Option (Fin 4)) 257) : Buf (Option (Fin 4)) 257 :=
  Buf.tab 257 fun j => if 1 ≤ j ∧ j ≤ 255 then bands.getD j none else none

/-- The 512 synthesised values of one transform frame (R205). -/
def vftSynth (N : Numerics) (tb : Tables) (env : Quad F32) (rng : Word) : Buf F32 512 :=
  N.idft ((innerBands tb.bandOfBin).zip (shapeBin env) (N.dft (noiseFrame rng)))

/-- The band envelopes after one transform frame (R204). -/
def vftEnvs (v : Voc) (env e : Quad F32) : Quad F32 :=
  Quad.tab fun k => envTick (env.get k) (e.get k) v.aatt v.arel

/-- One transform frame of one channel: analysis (R203), envelopes (R204), synthesis (R205), overlap-add (R206). -/
def vftTransform (N : Numerics) (tb : Tables) (c : Chan) (v : Voc) : Voc :=
  let ch := v.vft.get c
  let env := vftEnvs v ch.env (vftEnergies N tb ch.inp)
  let y := vftSynth N tb env v.rng
  let out := ch.out.zip fadd (y.zip fmul tb.hann)
  { v with vft := v.vft.set c { ch with env := env, out := out }, rng := noiseAfter v.rng }

/-- Shift one sample of channel `c` into its input window (R202). -/
def vftShift (c : Chan) (v : Voc) (x : F32) : Voc :=
  let ch := v.vft.get c
  { v with vft := v.vft.set c { ch with inp := ch.inp.shiftIn (v.input x) } }

/-- Advance the hop counter; whether a transform frame is due (R202, R207). -/
def vftHop (v : Voc) : Voc × Bool :=
  let h := v.hopc + 1#32
  if h = hop then ({ v with hopc := 0#32 }, true) else ({ v with hopc := h }, false)

/-- Emit one output value of channel `c`, shift the accumulator, and add the value to the sample (R206). -/
def vftEmit (c : Chan) (v : Voc) (x : F32) : Voc × F32 :=
  let ch := v.vft.get c
  let vr := ch.out.getD 0 zero
  ({ v with vft := v.vft.set c { ch with out := ch.out.shiftIn zero } }, v.addTo vr x)

/-- `VFT_TICK(x)` (R207): shift, count, transform when due (channel 0 completely, then channel 1), emit. -/
def vftTick (N : Numerics) (tb : Tables) (stereo : Bool) (v : Voc) (x : Pair F32) : Voc × Pair F32 :=
  let v1 := vftShift .left v x.l
  let v2 := if stereo then vftShift .right v1 x.r else v1
  let h := vftHop v2
  let v3 := if h.2 then vftTransform N tb .left h.1 else h.1
  let v4 := if h.2 && stereo then vftTransform N tb .right v3 else v3
  let a := vftEmit .left v4 x.l
  if stereo then
    let b := vftEmit .right a.1 x.r
    (b.1, ⟨a.2, b.2⟩)
  else (a.1, ⟨a.2, x.r⟩)

end Sys2Proof.Machine
end

