-- ==== Sys2Proof/Machine/Sequencer.lean ====
section
/-! DEFINITION. SEQ, the block sequencer (42_sequencer.md): the block setup run by BEGIN and the frame pipeline run by
FRAME. -/

namespace Sys2Proof.Machine

/-- `SNAPSHOT` (R136): all fourteen registers in one indivisible step. -/
def snapshot (s : State) : State := { s with a := s.p }

/-- The raw build-up `bu_t` of the snapshot, in [0, 1] (R135). -/
def rawBuildUp (a : Params) : F32 := fdiv a.buildUp hundred

/-- The bypass test (R137). -/
def isBypassBlock (a : Params) : Bool := flt (rawBuildUp a) epsBu

/-- `BYPASS_CLEAR` (R137). -/
def bypassClear (s : State) : State :=
  { s with
    buS := zero
    fb := fbNeutral s.fb
    voc := { s.voc.clear with gain := zero }
    rsr := s.rsr.bypassClear }

/-- The build-up smoother's step (R138). -/
def smoothBuildUp (a : Params) (buS : F32) : F32 := lerp1 buS (rawBuildUp a) kBu

/-- The setup of a non-bypass block: the smoother, then the three unit updates (R135, R138, R139). -/
def activeSetup (N : Numerics) (s : State) : State :=
  let b := smoothBuildUp s.a s.buS
  { s with
    bypass := false
    buS := b
    fb := fbUpdate N s.fs s.a b s.fb
    voc := vocUpdate N s.fs s.a b s.voc
    rsr := rsrUpdate N s.fs s.a b s.rsr }

/-- `BLOCK_SETUP` (R135). -/
def blockSetup (N : Numerics) (s : State) : State :=
  let t := snapshot s
  if isBypassBlock t.a then bypassClear { t with bypass := true } else activeSetup N t

/-- The processed frame and the wet send (R140, R143). -/
structure FrameOut where
  out : Pair F32
  send : Pair F32
deriving DecidableEq, Repr

/-- The vocoder on one frame: VFB in mode 0, VFT otherwise (R140). -/
def vocFrame (N : Numerics) (tb : Tables) (a : Params) (stereo : Bool) (v : Voc) (x : Pair F32) : Voc × Pair F32 :=
  if a.vocMode = 0#32 then vfbTick tb.vco stereo v x else vftTick N tb stereo v x

/-- `FRAME_PIPE` on a non-bypass frame (R140): filter bank, vocoder, wet send, riser. -/
def activeFrame (N : Numerics) (stereo : Bool) (s : State) (x : Pair F32) : State × FrameOut :=
  let f := fbFrame stereo s.fb x
  let v := vocFrame N s.tables s.a stereo s.voc f.2
  let r := rsrTick N s.fs (RiserType.ofCode s.a.riserType) stereo s.rsr v.2
  ({ s with fb := f.1, voc := v.1, rsr := r.1 }, ⟨r.2, v.2⟩)

/-- `FRAME_PIPE(l, r)` (R140): a bypass frame returns the very bits of its input and touches no DSP state (R141). -/
def framePipe (N : Numerics) (stereo : Bool) (s : State) (x : Pair F32) : State × FrameOut :=
  if s.bypass then (s, ⟨x, x⟩) else activeFrame N stereo s x

end Sys2Proof.Machine
end

