-- ==== Sys2Proof/Machine/Ops.lean ====
section
/-! DEFINITION. The operations the commands share: taking a command from the port, responding, the refusal (the only
exception of this hardware), the order of the checks, and `DSP_RESET`. There is no memory to load from or store to
(20_memory.md R60), and no return from an exception: a refusal restores nothing because it changed nothing (R266). -/

namespace Sys2Proof.Machine

/-- Take the oldest command that waits at the port (R5, R66); `none` when the hardware is idle (R272). -/
def fetch (s : State) : Option (Bundle × State) :=
  match s.port with
  | [] => none
  | b :: rest => some (b, { s with port := rest })

/-- `respond(st, r0, r1, r2, r3)` (R78): `ST[31:8]` is zero. -/
def respond (st : BitVec 8) (r0 r1 r2 r3 : Word) (s : State) : State :=
  { s with resp := some ⟨st.setWidth 32, r0, r1, r2, r3⟩ }

/-- `respond(OK, 0, 0, 0, 0)`. -/
def ok (s : State) : State := respond 0#8 0#32 0#32 0#32 0#32 s

/-- TAKING THE EXCEPTION: `refuse(code)` (R256). The cause and the command word are saved, the sticky flag is set, the
response carries the code; nothing else changes, and the next command follows. -/
def refuse (c : Cause) (cw : Word) (s : State) : State :=
  respond c.code 0#32 0#32 0#32 0#32 { s with errCause := c.code, errCmd := cw, errSticky := true }

/-- An illegal encoding is refused with BADOP in every mode (R81, R258). -/
def refuseIllegal (b : Bundle) (s : State) : Host.Outcome State Fault Refusal := .next (refuse .badop b.cw s)

/-- The first cause whose condition holds, in the order listed: the priority of R264, the order of R95. -/
def firstCause : List (Bool × Cause) → Option Cause
  | [] => none
  | (b, c) :: rest => if b then some c else firstCause rest

/-- The execution of a decoded command (R95): refused with the first cause, or executed to completion (R106). -/
def conclude (i : Instr) (cause : Option Cause) (done : State → State) (s : State) :
    Host.Outcome State Fault Refusal :=
  match cause with
  | some c => .next (refuse c i.cw s)
  | none => .next (done s)

/-- `DSP_RESET` (R98): every piece of DSP state and the flags `bypass`, `fb_act`, `voc_prev` take the value of the
RESET column of R40. -/
def dspReset (s : State) : State :=
  { s with bypass := false, buS := zero, fb := Fb.atReset, voc := Voc.atReset, rsr := Rsr.atReset }

/-- The block in progress has two channels (R142). -/
def State.stereo (s : State) : Bool := s.blkNch == 2#32

end Sys2Proof.Machine
end

