-- ==== Sys2Proof/Machine/Block.lean ====
section
/-! DEFINITION. The block commands BEGIN, FRAME and END (40_commands.md R102, R103, R104). -/

namespace Sys2Proof.Machine

/-- Why a BEGIN is refused (R102, R105, R261). -/
def beginCause (m nch : Word) (s : State) : Option Cause :=
  firstCause [(s.mode != .idle, .badstate), (decide (s.maxblk < m) || !nchOk nch, .badlen)]

/-- The effect of an accepted BEGIN (R102): the block registers, then `BLOCK_SETUP`. -/
def beginDone (N : Numerics) (m nch : Word) (s : State) : State :=
  ok (blockSetup N { s with blkLen := m, blkNch := nch, n := 0#32, mode := .inblk })

/-- BEGIN (R102). -/
def execBegin (m nch : Word) (s : State) : Host.Outcome State Fault Refusal :=
  conclude (.beginBlock m nch) (beginCause m nch s) (beginDone Config.num m nch) s

/-- Why a FRAME is refused (R103, R105, R262): in a mono block the right operand is not examined. -/
def frameCause (l r : F32) (s : State) : Option Cause :=
  firstCause
    [(s.mode != .inblk || s.n == s.blkLen, .badstate),
      (!F32.isFinite l || (s.stereo && !F32.isFinite r), .badval)]

/-- The response of an accepted FRAME (R78, R103): `R1` and `R3` are zero in a mono block. -/
def frameRespond (stereo : Bool) (o : FrameOut) (s : State) : State :=
  if stereo then respond 0#8 o.out.l o.out.r o.send.l o.send.r s
  else respond 0#8 o.out.l 0#32 o.send.l 0#32 s

/-- The effect of an accepted FRAME (R103): `FRAME_PIPE`, then `n <- n + 1`. -/
def frameDone (N : Numerics) (l r : F32) (s : State) : State :=
  let t := framePipe N s.stereo s ⟨l, r⟩
  frameRespond s.stereo t.2 { t.1 with n := s.n + 1#32 }

/-- FRAME (R103). -/
def execFrame (l r : F32) (s : State) : Host.Outcome State Fault Refusal :=
  conclude (.frame l r) (frameCause l r s) (frameDone Config.num l r) s

/-- Why an END is refused (R104, R105): no block is open, or frames are still owed. -/
def endCause (s : State) : Option Cause := firstCause [(s.mode != .inblk || s.n != s.blkLen, .badstate)]

/-- The effect of an accepted END (R104). -/
def endDone (s : State) : State := ok { s with mode := .idle }

/-- END (R104). -/
def execEnd (s : State) : Host.Outcome State Fault Refusal := conclude .endBlock (endCause s) endDone s

end Sys2Proof.Machine
end

