-- ==== Sys2Proof/Machine/Control.lean ====
section
/-! DEFINITION. NOP, PREPARE and RESET (40_commands.md R96, R97, R98). -/

namespace Sys2Proof.Machine

/-- NOP (R96): legal in every mode, no effect but its response. -/
def execNop (s : State) : Host.Outcome State Fault Refusal := conclude .nop none ok s

/-- Why a PREPARE is refused (R97, R105). -/
def prepareCause (fs : F32) (maxblk : Word) (s : State) : Option Cause :=
  firstCause [(s.mode == .inblk, .badstate), (!fsOk fs || !maxblkOk maxblk, .badlen)]

/-- The effect of an accepted PREPARE (R97, R276): error registers cleared, configuration and tables written, DSP state
reset, block registers cleared, mode IDLE. `P` and `A` are kept. -/
def prepareDone (N : Numerics) (fs : F32) (maxblk : Word) (s : State) : State :=
  let t := dspReset
    { s with errCause := 0#8, errCmd := 0#32, errSticky := false, fs := fs, maxblk := maxblk, tables := tablesFor N fs }
  ok { t with blkLen := 0#32, blkNch := 0#32, n := 0#32, mode := .idle }

/-- PREPARE (R97). -/
def execPrepare (fs : F32) (maxblk : Word) (s : State) : Host.Outcome State Fault Refusal :=
  conclude (.prepare fs maxblk) (prepareCause fs maxblk s) (prepareDone Config.num fs maxblk) s

/-- Why a RESET is refused (R98, R105): a block cannot be abandoned. -/
def resetCause (s : State) : Option Cause := firstCause [(s.mode == .inblk, .badstate)]

/-- The effect of an accepted RESET (R98, R277). -/
def resetDone (s : State) : State := ok (dspReset s)

/-- RESET (R98). -/
def execReset (s : State) : Host.Outcome State Fault Refusal := conclude .reset (resetCause s) resetDone s

end Sys2Proof.Machine
end

