-- ==== Sys2Proof/Machine/RegAccess.lean ====
section
/-! DEFINITION. The register accesses WRP, RDP and RDS (40_commands.md R99, R100, R101, R107): legal in every mode. -/

namespace Sys2Proof.Machine

/-- Why a WRP is refused (R99, R109): a reserved index, or a value out of the register's range. -/
def wrpCause (idx : BitVec 8) (v : Word) : Option Cause :=
  match ParamReg.ofIdx idx with
  | none => some .badreg
  | some r => firstCause [(!inRange r v, .badval)]

/-- The effect of an accepted WRP: `P[idx] <- v`; `A` is not touched (R99, R67). -/
def wrpDone (idx : BitVec 8) (v : Word) (s : State) : State :=
  match ParamReg.ofIdx idx with
  | none => ok s
  | some r => ok { s with p := s.p.set r v }

/-- WRP (R99). -/
def execWrp (idx : BitVec 8) (v : Word) (s : State) : Host.Outcome State Fault Refusal :=
  conclude (.wrp idx v) (wrpCause idx v) (wrpDone idx v) s

/-- Why an RDP is refused (R100). -/
def rdpCause (idx : BitVec 8) : Option Cause := firstCause [((ParamReg.ofIdx idx).isNone, .badreg)]

/-- The effect of an accepted RDP: the response carries the pending value `P[idx]` (R100). -/
def rdpDone (idx : BitVec 8) (s : State) : State :=
  match ParamReg.ofIdx idx with
  | none => ok s
  | some r => respond 0#8 (s.p.get r) 0#32 0#32 0#32 s

/-- RDP (R100). -/
def execRdp (idx : BitVec 8) (s : State) : Host.Outcome State Fault Refusal :=
  conclude (.rdp idx) (rdpCause idx) (rdpDone idx) s

/-- Why an RDS is refused (R101). -/
def rdsCause (idx : BitVec 8) : Option Cause := firstCause [((StatusReg.ofIdx idx).isNone, .badreg)]

/-- The effect of an accepted RDS: the response carries `S[idx]`; reading changes no state (R101, R65). -/
def rdsDone (idx : BitVec 8) (s : State) : State :=
  match StatusReg.ofIdx idx with
  | none => ok s
  | some r => respond 0#8 (statusValue s r) 0#32 0#32 0#32 s

/-- RDS (R101). -/
def execRds (idx : BitVec 8) (s : State) : Host.Outcome State Fault Refusal :=
  conclude (.rds idx) (rdsCause idx) (rdsDone idx) s

end Sys2Proof.Machine
end

