-- ==== Sys2Proof/Machine/Dispatch.lean ====
section
/-! DEFINITION. The dispatch: one arm per command, each one direct call of its meaning. -/

namespace Sys2Proof.Machine

def exec (i : Instr) (s : State) : Host.Outcome State Fault Refusal :=
  match i with
  | .nop => Sys2Proof.Machine.execNop s
  | .prepare fs maxblk => Sys2Proof.Machine.execPrepare fs maxblk s
  | .reset => Sys2Proof.Machine.execReset s
  | .wrp idx value => Sys2Proof.Machine.execWrp idx value s
  | .rdp idx => Sys2Proof.Machine.execRdp idx s
  | .rds idx => Sys2Proof.Machine.execRds idx s
  | .beginBlock m nch => Sys2Proof.Machine.execBegin m nch s
  | .frame l r => Sys2Proof.Machine.execFrame l r s
  | .endBlock => Sys2Proof.Machine.execEnd s

end Sys2Proof.Machine
end

