-- ==== Sys2Proof/Machine/Step.lean ====
section
/-! DEFINITION. One step: the oldest command that waits at the command port is taken, decoded and executed to
completion (00_scope.md R5, 40_commands.md R95, R106). Commands come from outside the machine (92_eei_decisions.md D1):
there is no program counter and nothing is fetched from a memory (R26, R71). -/

namespace Sys2Proof.Machine

/-- One command. With no command at the port the hardware is idle and keeps its state (R265, R272). -/
def step (s : State) : Host.Outcome State Fault Refusal :=
  match fetch s with
  | none => .next s
  | some (b, t) =>
    match decode b with
    | .ok i => exec i t
    | .error _ => refuseIllegal b t

/-- The command with the bits `w` arrives at the head of the command port: the next step executes it (DESIGN CHOICE,
safe, log entry 10). -/
def State.withFetchWord (s : State) (nbits w : Nat) : State :=
  { s with port := bundleOfBits nbits w :: s.port }

end Sys2Proof.Machine
end

