-- ==== Sys2Proof/Machine/Assembler.lean ====
section
/-! DEFINITION. The text form of the commands (30_encoding.md R83), after the line has been split into a mnemonic and
operands, and the pseudo-instructions and their expansions (R84). Neither has semantics of its own. -/

namespace Sys2Proof.Machine

/-- A decimal literal `(-) digits / 10^scale`. -/
structure Decimal where
  neg : Bool
  digits : Nat
  scale : Nat
deriving DecidableEq, Repr

/-- The binary32 nearest to a decimal literal, ties to even (R83). -/
def Decimal.toF32 (d : Decimal) : F32 := F32.withSign d.neg (F32.roundMag (d.digits * 2 ^ 149) (10 ^ d.scale))

/-- A float operand: a decimal literal (R83), or its 32 bits in hexadecimal, as the examples of 60_exceptions.md R262
write it (DEDUCED, safe, log entry 13). -/
inductive FloatOperand where
  | decimal (d : Decimal)
  | bits (w : Word)
deriving DecidableEq, Repr

/-- The binary32 of a float operand. -/
def FloatOperand.toF32 : FloatOperand → F32
  | .decimal d => d.toF32
  | .bits w => w

/-- The name of a parameter register (R22, R23, R24). -/
def ParamReg.name : ParamReg → String
  | .buildUp => "buildUp"
  | .filterIntensity => "filterIntensity"
  | .filterType => "filterType"
  | .filterSlope => "filterSlope"
  | .filterResonance => "filterResonance"
  | .filterDrive => "filterDrive"
  | .noiseAmount => "noiseAmount"
  | .vocoderRelease => "vocoderRelease"
  | .riserAmount => "riserAmount"
  | .riserType => "riserType"
  | .riserRelease => "riserRelease"
  | .gateLevel => "gateLevel"
  | .vocBrightness => "vocBrightness"
  | .vocMode => "vocMode"

/-- All parameter registers in index order. -/
def ParamReg.all : List ParamReg :=
  [.buildUp, .filterIntensity, .filterType, .filterSlope, .filterResonance, .filterDrive, .noiseAmount,
    .vocoderRelease, .riserAmount, .riserType, .riserRelease, .gateLevel, .vocBrightness, .vocMode]

/-- The code of an enumerator of a register (R83). -/
def ParamReg.enumerator (r : ParamReg) (s : String) : Option Word :=
  let codes : List (String × Word) :=
    match r with
    | .filterType => [("highpass", 0#32), ("lowpass", 1#32), ("dual", 2#32)]
    | .filterSlope => [("s6", 0#32), ("s12", 1#32), ("s18", 2#32), ("s24", 3#32)]
    | .riserType => [("sine", 0#32), ("saw", 1#32), ("square", 2#32), ("noiseSweep", 3#32), ("subDrop", 4#32)]
    | .vocMode => [("filterbank", 0#32), ("fft", 1#32)]
    | _ => []
  codes.lookup s

/-- The name of a status register (R27). -/
def StatusReg.name : StatusReg → String
  | .status => "STATUS"
  | .errCmd => "ERRCMD"
  | .fs => "FS"
  | .maxblk => "MAXBLK"
  | .blkLen => "BLKLEN"
  | .nch => "NCH"
  | .n => "N"
  | .buS => "BU_S"
  | .vocGain => "VOC_GAIN"
  | .rsrLevel => "RSR_LEVEL"
  | .rsrFsm => "RSR_FSM"
  | .id => "ID"
  | .vocRng => "VOC_RNG"
  | .rsrRng => "RSR_RNG"
  | .vfbEnv c k => "VFB_ENV[" ++ chan c ++ "][" ++ toString k.val ++ "]"
  | .vftEnv c k => "VFT_ENV[" ++ chan c ++ "][" ++ toString k.val ++ "]"
  | .fbFc t i => "FB_FC[" ++ chain t ++ "][" ++ toString i.val ++ "]"
  | .fbQ t i => "FB_Q[" ++ chain t ++ "][" ++ toString i.val ++ "]"
  | .fbAct t i => "FB_ACT[" ++ chain t ++ "][" ++ toString i.val ++ "]"
  | .rsrPh w => "RSR_PH[" ++ toString w.val ++ "]"
  | .rsrVph => "RSR_VPH"
  | .hopc => "HOPC"
where
  chan : Chan → String
    | .left => "0"
    | .right => "1"
  chain : Chain → String
    | .hp => "HP"
    | .lp => "LP"

/-- A register operand: a name or a decimal index (R83). -/
inductive RegOperand where
  | name (s : String)
  | index (i : Nat)
deriving DecidableEq, Repr

/-- The index of a register given by name, found among the indices 0 to `k - 1`. -/
def findIdx (nameAt : BitVec 8 → Option String) (s : String) : Nat → Option (BitVec 8)
  | 0 => none
  | k + 1 =>
    match findIdx nameAt s k with
    | some i => some i
    | none => if nameAt (BitVec.ofNat 8 k) = some s then some (BitVec.ofNat 8 k) else none

/-- The parameter index of a register operand. -/
def RegOperand.paramIdx : RegOperand → Option (BitVec 8)
  | .name s => findIdx (fun i => (ParamReg.ofIdx i).map ParamReg.name) s 14
  | .index i => if i < 256 then some (BitVec.ofNat 8 i) else none

/-- The status index of a register operand. -/
def RegOperand.statusIdx : RegOperand → Option (BitVec 8)
  | .name s => findIdx (fun i => (StatusReg.ofIdx i).map StatusReg.name) s 62
  | .index i => if i < 256 then some (BitVec.ofNat 8 i) else none

/-- A value operand of WRP: a decimal literal or an enumerator name (R83), or a word in hexadecimal (DEDUCED,
log entry 13). -/
inductive ValueOperand where
  | decimal (d : Decimal)
  | enumerator (s : String)
  | bits (w : Word)
deriving DecidableEq, Repr

/-- A decimal literal read as an unsigned 32-bit integer. -/
def Decimal.toWord (d : Decimal) : Option Word :=
  if d.neg = false ∧ d.scale = 0 ∧ d.digits < 2 ^ 32 then some (BitVec.ofNat 32 d.digits) else none

/-- The value word: the binary32 for a float register, the integer or the enumerator's code for an enumerated one. At a
reserved index, where there is no type, a number stands for the integer (vector `WRP 14, 0`). -/
def ValueOperand.word : ValueOperand → Option ParamReg → Option Word
  | .bits w, _ => some w
  | .enumerator s, some r => r.enumerator s
  | .enumerator _, none => none
  | .decimal d, none => d.toWord
  | .decimal d, some r =>
    match r.type with
    | .float _ _ => some d.toF32
    | .enumerated _ => d.toWord

/-- One line of the text form (R83). -/
inductive AsmLine where
  | nop
  | prepare (fs : FloatOperand) (maxblk : Nat)
  | reset
  | wrp (reg : RegOperand) (v : ValueOperand)
  | rdp (reg : RegOperand)
  | rds (reg : RegOperand)
  | beginBlock (m nch : Nat)
  | frame (l r : FloatOperand)
  | frameMono (l : FloatOperand)
  | endBlock
deriving DecidableEq, Repr

/-- A number that fits a 32-bit word. -/
def wordOf (x : Nat) : Option Word := if x < 2 ^ 32 then some (BitVec.ofNat 32 x) else none

/-- The command a line stands for (R83). -/
def AsmLine.instr : AsmLine → Option Instr
  | .nop => some .nop
  | .prepare fs mb => (wordOf mb).map (Instr.prepare fs.toF32)
  | .reset => some .reset
  | .wrp reg v =>
    match reg.paramIdx with
    | none => none
    | some i => (v.word (ParamReg.ofIdx i)).map (Instr.wrp i)
  | .rdp reg => reg.paramIdx.map Instr.rdp
  | .rds reg => reg.statusIdx.map Instr.rds
  | .beginBlock m nch =>
    match wordOf m, wordOf nch with
    | some a, some b => some (.beginBlock a b)
    | _, _ => none
  | .frame l r => some (.frame l.toF32 r.toF32)
  | .frameMono l => some (.frame l.toF32 0#32)
  | .endBlock => some .endBlock

/-- The bundle a line assembles to: 0 in every ignored operand (R83). -/
def AsmLine.assemble (l : AsmLine) : Option Bundle := l.instr.map encode

/-- The pseudo-instructions (R84). `process` carries the frames as pairs, the right sample being unused when `nch` is
1. -/
inductive Pseudo where
  | setp (r : ParamReg) (v : Word)
  | process (nch : Word) (frames : List (Pair F32))
  | silence (m : Nat) (nch : Word)
  | getenv (c : Chan) (k : Fin 4)
deriving DecidableEq, Repr

/-- `BEGIN M, nch`, then one FRAME a position, then END (R84, R108). -/
def processCommands (nch : Word) (frames : List (Pair F32)) : List Instr :=
  .beginBlock (BitVec.ofNat 32 frames.length) nch :: frames.map (fun x => .frame x.l x.r) ++ [.endBlock]

/-- The expansion of a pseudo-instruction (R84); GETENV looks at the active vocoder mode. -/
def Pseudo.expand (a : Params) : Pseudo → List Instr
  | .setp r v => [.wrp r.idx v]
  | .process nch frames => processCommands nch frames
  | .silence m nch => processCommands nch (List.replicate m ⟨zero, zero⟩)
  | .getenv c k => if a.vocMode = 0#32 then [.rds (StatusReg.vfbEnv c k).idx] else [.rds (StatusReg.vftEnv c k).idx]

end Sys2Proof.Machine
end

