-- ==== Sys2Proof/Safety.lean ====
section
/-! DEFINITION. The terms claims about BUV-CORE are stated in: what a run exposes (00_scope.md R15), the invariants of
10_state.md R42, and the ranges of the values the units compute. -/

namespace Sys2Proof.Machine

/-! ### Runs -/

/-- Commands arrive at the port, after those that wait there (R66). -/
def State.present (s : State) (bs : List Bundle) : State := { s with port := s.port ++ bs }

/-- The response words of the commands the first `k` steps execute, in order: what a run exposes (R15, R78). A step
without a command responds nothing. -/
def responses : Nat → State → List Response
  | 0, _ => []
  | k + 1, s =>
    match step s with
    | .next t => (if s.port.isEmpty then [] else t.resp.toList) ++ responses k t
    | _ => []

/-- The state after the commands of a list have been executed one after the other, and the responses they drew. -/
def runCommands : List Instr → State → Option (State × List Response)
  | [], s => some (s, [])
  | i :: rest, s =>
    match exec i s with
    | .next t =>
      match runCommands rest t with
      | some (u, rs) => some (u, t.resp.toList ++ rs)
      | none => none
    | _ => none

/-- The response `ST = OK`, all other words zero (R78). -/
def okResponse : Response := ⟨0#32, 0#32, 0#32, 0#32, 0#32⟩

/-- The response of a refused command (R78, R256). -/
def refusedResponse (c : Cause) : Response := ⟨c.code.setWidth 32, 0#32, 0#32, 0#32, 0#32⟩

/-! ### Invariants (R42) -/

/-- Every register of a parameter file holds a value in its range (R42 (a)). -/
def Params.wf (p : Params) : Bool := ParamReg.all.all fun r => inRange r (p.get r)

/-- The neutral cutoff of a chain (R156). -/
def neutralFc : Chain → F32
  | .hp => fMin
  | .lp => fMax

/-- An inactive stage is neutral: neutral settings, cleared integrators (R42 (d)). -/
def Stage.wf (t : Chain) (st : Stage) : Bool :=
  st.act || (st.fc == neutralFc t && st.q == qCasc && st.ic1 == Pair.both zero && st.ic2 == Pair.both zero)

/-- All four stages of a chain (R42 (d)). -/
def chainWf (t : Chain) (c : Quad Stage) : Bool := Stage.wf t c.q0 && Stage.wf t c.q1 && Stage.wf t c.q2 && Stage.wf t c.q3

/-- The protocol state is consistent (R42 (b), R291): a prepared machine has an accepted sample rate and block length,
and inside a block `n ≤ blk_len ≤ maxblk` with one or two channels. -/
def protocolWf (s : State) : Bool :=
  match s.mode with
  | .unprep => true
  | .idle => fsOk s.fs && maxblkOk s.maxblk
  | .inblk => fsOk s.fs && maxblkOk s.maxblk && decide (s.n ≤ s.blkLen) && decide (s.blkLen ≤ s.maxblk) && nchOk s.blkNch

/-- R42 (a), (b), (d), (f) together. -/
def State.wf (s : State) : Bool :=
  s.p.wf && s.a.wf && protocolWf s && chainWf .hp s.fb.hp && chainWf .lp s.fb.lp && decide (s.voc.hopc < hop)

/-- `lo ≤ x ≤ hi` by binary32 comparison; false for a NaN. -/
def within (lo hi x : F32) : Bool := fle lo x && fle x hi

/-- A value in [0, 1] (R42 (c)). -/
def unitInterval (x : F32) : Bool := within zero one x

/-- A phase in [0, 1) (R42 (e)). -/
def phaseOk (x : F32) : Bool := fle zero x && flt x one

/-- All phases of the riser are in [0, 1) (R42 (e)). -/
def riserPhasesOk (r : Rsr) : Bool :=
  phaseOk r.ph.q0 && phaseOk r.ph.q1 && phaseOk r.ph.q2 && phaseOk r.ph.q3 && phaseOk r.vph

/-- The ranges of the riser's frequency values: smoothed and target frequency in [20, 8000] Hz (the widest interval
the variants' targets lie in is [20, 4800]), vibrato depth in [0, 1/16], vibrato rate in [0, 16] Hz. -/
def riserRatesOk (r : Rsr) : Bool :=
  within fSubLo fNzHi r.fsm && within fSubLo fNzHi r.ft && within zero 0x3D800000#32 r.vdepth
    && within zero 0x41800000#32 r.vrate

/-- The riser level and its target are in [0, 1], and the two level coefficients in [0, 1/2] (46_riser.md R227). -/
def riserLevelOk (r : Rsr) : Bool :=
  unitInterval r.level && unitInterval r.target && within zero 0x3F000000#32 r.katt && within zero 0x3F000000#32 r.krel

/-! ### The refusal conditions of 60_exceptions.md R258 to R262, read from the bits of the command word and the exact
values of the operands -/

/-- The command is not legal in the current mode, or comes at the wrong frame count (R259). -/
def NotLegal (i : Instr) (s : State) : Prop :=
  match i with
  | .nop => False
  | .prepare _ _ => s.mode = .inblk
  | .reset => s.mode = .inblk
  | .wrp _ _ => False
  | .rdp _ => False
  | .rds _ => False
  | .beginBlock _ _ => s.mode ≠ .idle
  | .frame _ _ => s.mode ≠ .inblk ∨ s.n = s.blkLen
  | .endBlock => s.mode ≠ .inblk ∨ s.n ≠ s.blkLen

/-- The index names a reserved register (R260). -/
def ReservedIndex (i : Instr) : Prop :=
  match i with
  | .wrp idx _ => 14 ≤ idx.toNat
  | .rdp idx => 14 ≤ idx.toNat
  | .rds idx => idx.toNat = 12 ∨ idx.toNat = 15 ∨ 62 ≤ idx.toNat
  | .nop => False
  | .prepare _ _ => False
  | .reset => False
  | .beginBlock _ _ => False
  | .frame _ _ => False
  | .endBlock => False

/-- A sample rate, block length or channel count is out of range (R261). -/
def BadLength (i : Instr) (s : State) : Prop :=
  match i with
  | .prepare fs mb =>
    ¬(F32.isFinite fs = true ∧ 44100 ≤ F32.value fs ∧ F32.value fs ≤ 192000) ∨ mb.toNat = 0 ∨ 2 ^ 31 - 1 < mb.toNat
  | .beginBlock m nch => s.maxblk.toNat < m.toNat ∨ (nch.toNat ≠ 1 ∧ nch.toNat ≠ 2)
  | .nop => False
  | .reset => False
  | .wrp _ _ => False
  | .rdp _ => False
  | .rds _ => False
  | .frame _ _ => False
  | .endBlock => False

/-- `v` is finite and its value lies between `lo` and `hi`. -/
def ValueBetween (lo hi : ℚ) (v : F32) : Prop := F32.isFinite v = true ∧ lo ≤ F32.value v ∧ F32.value v ≤ hi

/-- The values a parameter register accepts (10_state.md R22 to R24, 40_commands.md R109). -/
def Acceptable (r : ParamReg) (v : Word) : Prop :=
  match r with
  | .buildUp => ValueBetween 0 100 v
  | .filterIntensity => ValueBetween 0 100 v
  | .filterType => v.toNat ≤ 2
  | .filterSlope => v.toNat ≤ 3
  | .filterResonance => ValueBetween (1 / 2) 10 v
  | .filterDrive => ValueBetween 0 100 v
  | .noiseAmount => ValueBetween 0 100 v
  | .vocoderRelease => ValueBetween 0 100 v
  | .riserAmount => ValueBetween 0 100 v
  | .riserType => v.toNat ≤ 4
  | .riserRelease => ValueBetween (F32.value 0x3C23D70A#32) 5 v
  | .gateLevel => ValueBetween 0 1 v
  | .vocBrightness => ValueBetween 0 100 v
  | .vocMode => v.toNat ≤ 1

/-- The value of a WRP is not acceptable for its register, or a sample of a FRAME is not finite (R262). -/
def BadValue (i : Instr) (s : State) : Prop :=
  match i with
  | .wrp idx v => ∀ r : ParamReg, r.idx = idx → ¬Acceptable r v
  | .frame l r => F32.isFinite l = false ∨ (s.blkNch.toNat = 2 ∧ F32.isFinite r = false)
  | .nop => False
  | .prepare _ _ => False
  | .reset => False
  | .rdp _ => False
  | .rds _ => False
  | .beginBlock _ _ => False
  | .endBlock => False

/-- `RDS k` is accepted and answers `w`; nothing but the response changes. -/
def ReadsAs (s : State) (k : Nat) (w : Word) : Prop :=
  exec (.rds (BitVec.ofNat 8 k)) s = .next { s with resp := some ⟨0#32, w, 0#32, 0#32, 0#32⟩ }

/-- A quiet NaN: exponent field all ones and quiet bit one; the sign and the other fraction bits may be anything. -/
def QuietNaN (x : F32) : Prop := x.extractLsb' 22 9 = 0x1FF#9

/-- `v` is the binary32 nearest to the rational `y`, ties to even, infinity from the overflow bound on (41_numerics.md
R111); the sign of a non-zero `y` is kept. -/
def Nearest (y : ℚ) (v : F32) : Prop :=
  (y ≠ 0 → F32.neg? v = decide (y < 0)) ∧
    ((|y| < 2 ^ 128 - 2 ^ 103 ∧ F32.isFinite v = true ∧
        ∀ w, F32.isFinite w = true →
          |F32.value v - y| < |F32.value w - y| ∨ F32.value w = F32.value v ∨
            (|F32.value v - y| = |F32.value w - y| ∧ F32.mag v % 2 = 0)) ∨
      (2 ^ 128 - 2 ^ 103 ≤ |y| ∧ F32.isInf v = true))

/-! ### The loops of the rules, as the spec writes them -/

/-- The order in which a frame passes the eight stages (43_filter_bank.md R160). -/
def stageOrder : List (Chain × Fin 4) :=
  [(.hp, 0), (.hp, 1), (.hp, 2), (.hp, 3), (.lp, 0), (.lp, 1), (.lp, 2), (.lp, 3)]

/-- Replace one stage. -/
def Fb.setStage (f : Fb) (t : Chain) (i : Fin 4) (st : Stage) : Fb :=
  match t with
  | .hp => { f with hp := f.hp.set i st }
  | .lp => { f with lp := f.lp.set i st }

/-- The body of the loop of `FB_TICK` (R160): one stage on channel `c`. -/
def fbLoopBody (c : Chan) (fx : Fb × F32) (ts : Chain × Fin 4) : Fb × F32 :=
  let st := (fx.1.get ts.1).get ts.2
  if st.act = true then
    let o := svfTick (st.ic1.get c) (st.ic2.get c) st.co fx.2
    (fx.1.setStage ts.1 ts.2 { st with ic1 := st.ic1.set c o.ic1, ic2 := st.ic2.set c o.ic2 },
      match ts.1 with
      | .hp => o.hp
      | .lp => o.lp)
  else fx

/-- The sum over the bins 1 to 255 of band `k`, in increasing order, of the magnitudes of a spectrum
(45_vocoder_fft.md R203). -/
def bandSumLoop (bands : Buf (Option (Fin 4)) 257) (x : Buf Cpx 257) (k : Fin 4) : F32 :=
  ((List.range 257).filter fun j => decide (1 ≤ j) && decide (j ≤ 255) && bands.getD j none == some k).foldl
    (fun sum j => fadd sum (fsqrt (fadd (fmul (x.getD j ⟨zero, zero⟩).re (x.getD j ⟨zero, zero⟩).re)
      (fmul (x.getD j ⟨zero, zero⟩).im (x.getD j ⟨zero, zero⟩).im)))) zero

/-- The five edges of the vocoder's bands in Hz: 225, 700, 2250, 7000, 20000 (45_vocoder_fft.md R201 (b)). -/
def bandEdge (k : Nat) : F32 := [0x43610000#32, 0x442F0000#32, 0x450CA000#32, 0x45DAC000#32, 0x469C4000#32].getD k zero

/-- The gain a bin of band `k` of the noise spectrum is multiplied by (45_vocoder_fft.md R205). -/
def bandGain (env : Quad F32) (k : Fin 4) : F32 :=
  match k with
  | 0 => fdiv env.q0 one
  | 1 => fdiv env.q1 two
  | 2 => fdiv env.q2 0x40400000#32
  | 3 => fdiv env.q3 0x40800000#32

/-- One value of the noise spectrum after shaping, bin `j` (45_vocoder_fft.md R205). -/
def shapedBin (bands : Buf (Option (Fin 4)) 257) (env : Quad F32) (w : Buf Cpx 257) (j : Nat) : Cpx :=
  if 1 ≤ j ∧ j ≤ 255 then
    match bands.getD j none with
    | some k =>
      ⟨fmul (w.getD j ⟨zero, zero⟩).re (bandGain env k), fmul (w.getD j ⟨zero, zero⟩).im (bandGain env k)⟩
    | none => ⟨zero, zero⟩
  else ⟨zero, zero⟩

/-- The commands the control agent issues, and NOP (00_scope.md R5). -/
def isControl : Instr → Bool
  | .nop => true
  | .wrp _ _ => true
  | .rdp _ => true
  | .rds _ => true
  | .prepare _ _ => false
  | .reset => false
  | .beginBlock _ _ => false
  | .frame _ _ => false
  | .endBlock => false

/-! ### Block order (R145) -/

/-- A unit run over the frames of a block: its state and its output frames. -/
def runUnit {σ : Type} (tick : σ → Pair F32 → σ × Pair F32) : σ → List (Pair F32) → σ × List (Pair F32)
  | u, [] => (u, [])
  | u, x :: xs =>
    let r := tick u x
    let rest := runUnit tick r.1 xs
    (rest.1, r.2 :: rest.2)

/-- The frames of a block run through all units one frame at a time (R140): final state, outputs and wet sends. -/
def frameOrder (N : Numerics) (stereo : Bool) : State → List (Pair F32) → State × List FrameOut
  | s, [] => (s, [])
  | s, x :: xs =>
    let r := activeFrame N stereo s x
    let rest := frameOrder N stereo r.1 xs
    (rest.1, r.2 :: rest.2)

/-- The frames of a block run through FB, then all of them through the vocoder, then all of them through the riser: the
source's block order (R145). -/
def blockOrder (N : Numerics) (stereo : Bool) (s : State) (xs : List (Pair F32)) : State × List FrameOut :=
  let f := runUnit (fbFrame stereo) s.fb xs
  let v := runUnit (vocFrame N s.tables s.a stereo) s.voc f.2
  let r := runUnit (rsrTick N s.fs (RiserType.ofCode s.a.riserType) stereo) s.rsr v.2
  ({ s with fb := f.1, voc := v.1, rsr := r.1 }, r.2.zipWith (fun o w => ⟨o, w⟩) v.2)

end Sys2Proof.Machine
end

