-- ==== Sys2Proof/Certificates/Slice0/Obligations.lean ====
section
/-! DEFINITION. The statements for the provers. Each docstring names the rules of spec/ the statement formalises, or says
what of it is the model's own choice and in which log entry. -/

open Sys2Proof Sys2Proof.Machine

/-! ### Encoding -/

/-- 30_encoding.md R75 to R80, 20_memory.md R63: the encoder's bundle of every command is a legal encoding, and decoding
it, as three words or as twelve bytes, gives the command back with every operand. -/
def Obligations.DecodeOfEncode : Prop :=
  ∀ i : Instr, (encode i).wellFormed = true ∧ decode (encode i) = .ok i ∧ decodeBytes (encode i).bytes = .ok (i, [])

/-- 30_encoding.md R75, R77, R80: a command word decodes exactly when a row of the opcode map selects it, at most one
row does, the command has that row's mnemonic and command word, its operands are the operand words it uses, and an
operand word it does not use has no effect. -/
def Obligations.DecodeFollowsOpcodeMap : Prop :=
  ∀ b : Bundle,
    (∀ r ∈ opcodeMap, r.selects b.cw = true →
      (∃ i, decode b = .ok i ∧ i.mnemonic = r.mnemonic) ∧ ∀ r' ∈ opcodeMap, r'.selects b.cw = true → r' = r) ∧
    ∀ i, decode b = .ok i →
      (∃ r ∈ opcodeMap, r.selects b.cw = true ∧ r.mnemonic = i.mnemonic) ∧
      encode i = ⟨b.cw, if i.usesOpa then b.opa else 0#32, if i.usesOpb then b.opb else 0#32⟩ ∧
      ∀ x y : Word, decode ⟨b.cw, if i.usesOpa then b.opa else x, if i.usesOpb then b.opb else y⟩ = .ok i

/-- 30_encoding.md R81: which command words are illegal, that each is refused with BADOP in every mode and with every
operand, that every other one is one row of the map, and that a reserved register index is no illegal encoding but is
refused with BADREG. -/
def Obligations.IllegalEncodingIsBadop : Prop :=
  ∀ (s : State) (b : Bundle) (rest : List Bundle), s.port = b :: rest →
    ((∀ r ∈ opcodeMap, r.selects b.cw = false) ↔
      (9 ≤ b.op.toNat ∨ b.rsv ≠ 0#16 ∨ (b.op.toNat ∈ [0, 1, 2, 6, 7, 8] ∧ b.idx ≠ 0#8))) ∧
    ((∀ r ∈ opcodeMap, r.selects b.cw = false) → step s = .next (refuse .badop b.cw { s with port := rest })) ∧
    ((∃ r ∈ opcodeMap, r.selects b.cw = true) → ∃ i, decode b = .ok i) ∧
    ((∃ r ∈ opcodeMap, r.selects b.cw = true) →
      ((b.op = 3#8 ∨ b.op = 4#8) ∧ 14 ≤ b.idx.toNat) ∨
        (b.op = 5#8 ∧ (b.idx.toNat = 12 ∨ b.idx.toNat = 15 ∨ 62 ≤ b.idx.toNat)) →
      step s = .next (refuse .badreg b.cw { s with port := rest }))

/-- 20_memory.md R63: over a byte-wide transport every word goes least significant byte first, the words of a command in
the order CW, OPA, OPB and those of a response in the order ST, R0, R1, R2, R3; reading the bytes gives the bundle back. -/
def Obligations.TransportBytes : Prop :=
  (∀ (b : Bundle) (rest : List Byte),
    b.bytes.length = 12 ∧ Bundle.ofBytes (b.bytes ++ rest) = .ok (b, rest) ∧
    ∀ k, k < 12 → (b.bytes.getD k 0#8).toNat =
      (b.cw.toNat + 2 ^ 32 * b.opa.toNat + 2 ^ 64 * b.opb.toNat) / 256 ^ k % 256) ∧
  ∀ r : Response, r.bytes.length = 20 ∧
    ∀ k, k < 20 → (r.bytes.getD k 0#8).toNat =
      (r.st.toNat + 2 ^ 32 * r.r0.toNat + 2 ^ 64 * r.r1.toNat + 2 ^ 96 * r.r2.toNat + 2 ^ 128 * r.r3.toNat) / 256 ^ k
        % 256

/-- The command words written out in the examples of 40_commands.md decode to the commands they stand for. -/
def Obligations.ExampleWordsDecode : Prop :=
  decode ⟨0x00000000#32, 5#32, 6#32⟩ = .ok .nop ∧
  decode ⟨0x01000000#32, 0x472C4400#32, 0x00000200#32⟩ = .ok (.prepare 0x472C4400#32 512#32) ∧
  decode ⟨0x02000000#32, 0#32, 0#32⟩ = .ok .reset ∧
  decode ⟨0x03020000#32, 0x00000002#32, 7#32⟩ = .ok (.wrp 2#8 2#32) ∧
  decode ⟨0x040B0000#32, 0#32, 0#32⟩ = .ok (.rdp 11#8) ∧
  decode ⟨0x050B0000#32, 0#32, 0#32⟩ = .ok (.rds 11#8) ∧
  decode ⟨0x06000000#32, 4#32, 2#32⟩ = .ok (.beginBlock 4#32 2#32) ∧
  decode ⟨0x07000000#32, 0x3F000000#32, 0xBE800000#32⟩ = .ok (.frame 0x3F000000#32 0xBE800000#32) ∧
  decode ⟨0x08000000#32, 0#32, 0#32⟩ = .ok .endBlock ∧
  decode ⟨0x07000001#32, 0#32, 0#32⟩ = .error .reservedBits

/-! ### The step -/

/-- 00_scope.md R5, 60_exceptions.md R265: a step takes the oldest command at the port and executes it; with an empty
port the hardware is idle and keeps its state. That commands wait in a list is the model's own (log entry 3). -/
def Obligations.StepRunsDecodedCommand : Prop :=
  (∀ (s : State) (b : Bundle) (rest : List Bundle) (i : Instr), s.port = b :: rest → decode b = .ok i →
    step s = exec i { s with port := rest }) ∧
  ∀ s : State, s.port = [] → step s = .next s

/-- 30_encoding.md R78, R79, 40_commands.md R106: every command produces exactly one response and a next state, its
status code is one of 0 to 5, and the words the command does not define are zero. -/
def Obligations.EveryCommandResponds : Prop :=
  ∀ (s : State) (b : Bundle) (rest : List Bundle), s.port = b :: rest →
    ∃ t r, step s = .next t ∧ t.port = rest ∧ t.resp = some r ∧ r.st.toNat ≤ 5 ∧
      (r.st ≠ 0#32 → r.r0 = 0#32 ∧ r.r1 = 0#32 ∧ r.r2 = 0#32 ∧ r.r3 = 0#32) ∧
      ((∀ x y, decode b ≠ .ok (.frame x y)) → r.r1 = 0#32 ∧ r.r2 = 0#32 ∧ r.r3 = 0#32) ∧
      ((∀ x y, decode b ≠ .ok (.frame x y)) → (∀ k, decode b ≠ .ok (.rdp k)) → (∀ k, decode b ≠ .ok (.rds k)) →
        r.r0 = 0#32) ∧
      (s.blkNch = 1#32 → r.r1 = 0#32 ∧ r.r3 = 0#32)

/-- 60_exceptions.md R256: what a refusal does, that nothing else changes, and where the saved values are read; a later
accepted command leaves the error registers alone, but for PREPARE, which clears them. -/
def Obligations.RefusalChangesOnlyErrorRegisters : Prop :=
  ∀ (s t : State) (b : Bundle) (rest : List Bundle) (r : Response),
    s.port = b :: rest → step s = .next t → t.resp = some r →
    (r.st ≠ 0#32 → 1 ≤ r.st.toNat ∧ r.st.toNat ≤ 5 ∧
      t = { s with port := rest, errCause := r.st.setWidth 8, errCmd := b.cw, errSticky := true,
                   resp := some ⟨r.st, 0#32, 0#32, 0#32, 0#32⟩ } ∧
      ReadsAs t 1 b.cw ∧ ∃ w, ReadsAs t 0 w ∧ w.extractLsb' 8 8 = r.st.setWidth 8 ∧ w.getLsbD 3 = true) ∧
    (r.st = 0#32 → (∀ fs mb, decode b ≠ .ok (.prepare fs mb)) →
      t.errCause = s.errCause ∧ t.errCmd = s.errCmd ∧ t.errSticky = s.errSticky) ∧
    (r.st = 0#32 → (∃ fs mb, decode b = .ok (.prepare fs mb)) →
      t.errCause = 0#8 ∧ t.errCmd = 0#32 ∧ t.errSticky = false)

/-- 40_commands.md R95, 60_exceptions.md R257 to R264: every command word and state has exactly the outcome the five
causes in their order say: BADOP, BADSTATE, BADREG, BADLEN, BADVAL, or acceptance, in states whose open block has one or
two channels. The ranges are stated on exact values. -/
def Obligations.FirstCauseIsReported : Prop :=
  ∀ (s : State) (b : Bundle) (rest : List Bundle), s.port = b :: rest →
    (s.mode = .inblk → s.blkNch = 1#32 ∨ s.blkNch = 2#32) →
    (b.wellFormed = false → step s = .next (refuse .badop b.cw { s with port := rest })) ∧
    (b.wellFormed = true → ∃ i t r, decode b = .ok i ∧ step s = .next t ∧ t.resp = some r ∧
      (NotLegal i s → t = refuse .badstate b.cw { s with port := rest }) ∧
      (¬NotLegal i s → ReservedIndex i → t = refuse .badreg b.cw { s with port := rest }) ∧
      (¬NotLegal i s → ¬ReservedIndex i → BadLength i s → t = refuse .badlen b.cw { s with port := rest }) ∧
      (¬NotLegal i s → ¬ReservedIndex i → ¬BadLength i s → BadValue i s →
        t = refuse .badval b.cw { s with port := rest }) ∧
      (¬NotLegal i s → ¬ReservedIndex i → ¬BadLength i s → ¬BadValue i s → r.st = 0#32))

/-- 40_commands.md R105: the legal modes and every transition of (`mode`, `n`), in states where a block's frame count is
consistent. -/
def Obligations.ModeTransitions : Prop :=
  ∀ (i : Instr) (s t : State) (r : Response), protocolWf s = true → exec i s = .next t → t.resp = some r →
    (r.st ≠ 0#32 → t.mode = s.mode ∧ t.n = s.n) ∧
    (r.st = 0#32 → match i with
      | .nop => t.mode = s.mode ∧ t.n = s.n
      | .prepare _ _ => (s.mode = .unprep ∨ s.mode = .idle) ∧ t.mode = .idle ∧ t.n = 0#32
      | .reset => (s.mode = .unprep ∨ s.mode = .idle) ∧ t.mode = s.mode ∧ t.n = s.n
      | .wrp _ _ => t.mode = s.mode ∧ t.n = s.n
      | .rdp _ => t.mode = s.mode ∧ t.n = s.n
      | .rds _ => t.mode = s.mode ∧ t.n = s.n
      | .beginBlock _ _ => s.mode = .idle ∧ t.mode = .inblk ∧ t.n = 0#32
      | .frame _ _ => s.mode = .inblk ∧ s.n < s.blkLen ∧ t.mode = .inblk ∧ t.n.toNat = s.n.toNat + 1
      | .endBlock => s.mode = .inblk ∧ s.n = s.blkLen ∧ t.mode = .idle ∧ t.n = s.n) ∧
    (r.st = 2#32 ↔ match i with
      | .nop => False
      | .prepare _ _ => s.mode = .inblk
      | .reset => s.mode = .inblk
      | .wrp _ _ => False
      | .rdp _ => False
      | .rds _ => False
      | .beginBlock _ _ => s.mode = .unprep ∨ s.mode = .inblk
      | .frame _ _ => s.mode = .unprep ∨ s.mode = .idle ∨ ¬s.n < s.blkLen
      | .endBlock => s.mode = .unprep ∨ s.mode = .idle ∨ s.n < s.blkLen)

/-- 40_commands.md R109, 10_state.md R22 to R24: the values a parameter register accepts, stated on exact values: no NaN,
no infinity, both bounds included, -0.0 where 0.0 is a bound. -/
def Obligations.InRangeIsTheClosedRange : Prop :=
  ∀ (r : ParamReg) (v : Word), (inRange r v = true ↔ Acceptable r v) ∧
    (∀ lo hi, r.type = .float lo hi → (F32.isNaN v = true ∨ F32.isInf v = true) → inRange r v = false) ∧
    (∀ hi, r.type = .float zero hi → inRange r 0x80000000#32 = true)

/-! ### The commands -/

/-- 40_commands.md R96: NOP, in every mode and state; it is refused only when a reserved or index bit is set. -/
def Obligations.NopDoesNothing : Prop :=
  (∀ s : State, exec .nop s = .next { s with resp := some okResponse }) ∧
  ∀ (s : State) (b : Bundle) (rest : List Bundle), s.port = b :: rest → b.op = 0#8 →
    (b.idx = 0#8 ∧ b.rsv = 0#16 → step s = .next { s with port := rest, resp := some okResponse }) ∧
    (b.idx ≠ 0#8 ∨ b.rsv ≠ 0#16 → step s = .next (refuse .badop b.cw { s with port := rest }))

/-- 40_commands.md R97, 70_reset_and_hazards.md R276: an accepted PREPARE, completely; and, bin by bin, the table
`BAND_OF_BIN` it writes (45_vocoder_fft.md R201 (b)). The window `HANN` it writes is the window of R201 (a), with the
properties required there; that its rounding, which U12 leaves open, is a faithful one is the model's reading (log entry
17). -/
def Obligations.PrepareConfigures : Prop :=
  (∀ (fs : F32) (j : Nat), j < 257 → F32.value (F32.ofNat j) = j ∧
    ∀ k : Fin 4, (bandTable fs).getD j none = some k ↔
      (1 ≤ j ∧ j ≤ 255 ∧ fle (bandEdge k.val) (fdiv (fmul (F32.ofNat j) fs) 0x44000000#32) = true ∧
        flt (fdiv (fmul (F32.ofNat j) fs) 0x44000000#32) (bandEdge (k.val + 1)) = true)) ∧
  (∀ i : Nat, i < 512 → Faithful ((1 - Real.cos (2 * Real.pi * i / 512)) / 2) (Config.num.hann.getD i zero)) ∧
  Config.num.hann.getD 0 zero = zero ∧ Config.num.hann.getD 256 zero = one ∧
  (∀ i, 1 ≤ i → i ≤ 255 → Config.num.hann.getD i zero = Config.num.hann.getD (512 - i) zero) ∧
  (∀ i, i < 512 → unitInterval (Config.num.hann.getD i zero) = true) ∧
  (∀ i, i < 256 → fadd (Config.num.hann.getD i zero) (Config.num.hann.getD (i + 256) zero) = one) ∧
  ∀ (s : State) (fs : F32) (mb : Word), s.mode ≠ .inblk → F32.isFinite fs = true →
    44100 ≤ F32.value fs → F32.value fs ≤ 192000 → 1 ≤ mb.toNat → mb.toNat ≤ 2 ^ 31 - 1 →
    exec (.prepare fs mb) s = .next
      { s with
        mode := .idle, n := 0#32, blkLen := 0#32, blkNch := 0#32, bypass := false, fs := fs, maxblk := mb
        tables := ⟨⟨svfCoef Config.num fs 0x43C80000#32 0x3F800000#32, svfCoef Config.num fs 0x449C4000#32 0x3F99999A#32,
            svfCoef Config.num fs 0x457A0000#32 0x3FB33333#32, svfCoef Config.num fs 0x463B8000#32 0x3FC00000#32⟩,
          Config.num.hann, bandTable fs⟩
        buS := zero, fb := Fb.atReset, voc := Voc.atReset, rsr := Rsr.atReset
        errCause := 0#8, errCmd := 0#32, errSticky := false, resp := some okResponse }

/-- 40_commands.md R98, 70_reset_and_hazards.md R277: an accepted RESET, completely; and two machines that differ in DSP
state only are equal after it. -/
def Obligations.ResetMutes : Prop :=
  ∀ (s : State), s.mode ≠ .inblk →
    exec .reset s = .next
      { s with bypass := false, buS := zero, fb := Fb.atReset, voc := Voc.atReset, rsr := Rsr.atReset,
               resp := some okResponse } ∧
    ∀ (by' : Bool) (bu : F32) (fb : Fb) (voc : Voc) (rsr : Rsr),
      exec .reset { s with bypass := by', buS := bu, fb := fb, voc := voc, rsr := rsr } = exec .reset s

/-- 40_commands.md R99: WRP in every mode: a reserved bit set, a reserved index, a value out of range, and an accepted
write, which changes one register of `P` and nothing else. -/
def Obligations.WrpWritesOneRegister : Prop :=
  ∀ (s : State) (idx : BitVec 8) (v : Word),
    (∀ (b : Bundle) (rest : List Bundle), s.port = b :: rest → b.op = 3#8 → b.rsv ≠ 0#16 →
      step s = .next (refuse .badop b.cw { s with port := rest })) ∧
    (14 ≤ idx.toNat → exec (.wrp idx v) s = .next (refuse .badreg (0x03000000#32 ||| idx.setWidth 32 <<< 16) s)) ∧
    ∀ r : ParamReg, r.idx = idx →
      (inRange r v = false → exec (.wrp idx v) s = .next (refuse .badval (0x03000000#32 ||| idx.setWidth 32 <<< 16) s)) ∧
      (inRange r v = true → ∃ p, exec (.wrp idx v) s = .next { s with p := p, resp := some okResponse } ∧
        p.get r = v ∧ (∀ r', r' ≠ r → p.get r' = s.p.get r') ∧ (s.p.get r = v → p = s.p)) ∧
      (∀ hi, r.type = .float zero hi → inRange r 0x80000000#32 = true)

/-- 40_commands.md R100: RDP in every mode: a reserved bit set, a reserved index, and the pending value; no state is written. -/
def Obligations.RdpReadsPending : Prop :=
  ∀ (s : State) (idx : BitVec 8),
    (∀ (b : Bundle) (rest : List Bundle), s.port = b :: rest → b.op = 4#8 → b.rsv ≠ 0#16 →
      step s = .next (refuse .badop b.cw { s with port := rest })) ∧
    (14 ≤ idx.toNat → exec (.rdp idx) s = .next (refuse .badreg (0x04000000#32 ||| idx.setWidth 32 <<< 16) s)) ∧
    (∀ r : ParamReg, r.idx = idx →
      exec (.rdp idx) s = .next { s with resp := some ⟨0#32, s.p.get r, 0#32, 0#32, 0#32⟩ }) ∧
    (∃ t, exec (.rdp 11#8) State.reset = .next t ∧ t.resp = some ⟨0#32, 0x3F800000#32, 0#32, 0#32, 0#32⟩)

/-- 40_commands.md R101: RDS in every mode: a reserved bit set, a reserved index, and the status register; no state is written. -/
def Obligations.RdsReadsStatus : Prop :=
  ∀ (s : State) (idx : BitVec 8),
    (∀ (b : Bundle) (rest : List Bundle), s.port = b :: rest → b.op = 5#8 → b.rsv ≠ 0#16 →
      step s = .next (refuse .badop b.cw { s with port := rest })) ∧
    ((idx.toNat = 12 ∨ idx.toNat = 15 ∨ 62 ≤ idx.toNat) →
      exec (.rds idx) s = .next (refuse .badreg (0x05000000#32 ||| idx.setWidth 32 <<< 16) s)) ∧
    (¬(idx.toNat = 12 ∨ idx.toNat = 15 ∨ 62 ≤ idx.toNat) → ∃ r : StatusReg, r.idx = idx ∧
      exec (.rds idx) s = .next { s with resp := some ⟨0#32, statusValue s r, 0#32, 0#32, 0#32⟩ }) ∧
    ReadsAs State.reset 11 0x42555637#32 ∧ ReadsAs State.reset 0 0#32

/-- 10_state.md R27: the content of every status register, read by RDS in any state, and the fields of STATUS. -/
def Obligations.StatusMap : Prop :=
  ∀ s : State,
    (∃ w : Word, ReadsAs s 0 w ∧ w.toNat = (match s.mode with | .unprep => 0 | .idle => 1 | .inblk => 2)
      + 4 * s.bypass.toNat + 8 * s.errSticky.toNat + 16 * s.voc.prev.toNat + 256 * s.errCause.toNat) ∧
    ReadsAs s 1 s.errCmd ∧ ReadsAs s 2 s.fs ∧ ReadsAs s 3 s.maxblk ∧ ReadsAs s 4 s.blkLen ∧ ReadsAs s 5 s.blkNch ∧
    ReadsAs s 6 s.n ∧ ReadsAs s 7 s.buS ∧ ReadsAs s 8 s.voc.gain ∧ ReadsAs s 9 s.rsr.level ∧ ReadsAs s 10 s.rsr.fsm ∧
    ReadsAs s 11 0x42555637#32 ∧ ReadsAs s 13 s.voc.rng ∧ ReadsAs s 14 s.rsr.rng ∧
    (∀ k : Fin 4,
      ReadsAs s (16 + k.val) (s.voc.vfb.l.env.get k) ∧ ReadsAs s (20 + k.val) (s.voc.vfb.r.env.get k) ∧
      ReadsAs s (24 + k.val) (s.voc.vft.l.env.get k) ∧ ReadsAs s (28 + k.val) (s.voc.vft.r.env.get k) ∧
      ReadsAs s (32 + k.val) (s.fb.hp.get k).fc ∧ ReadsAs s (36 + k.val) (s.fb.lp.get k).fc ∧
      ReadsAs s (40 + k.val) (s.fb.hp.get k).q ∧ ReadsAs s (44 + k.val) (s.fb.lp.get k).q ∧
      ReadsAs s (48 + k.val) (if (s.fb.hp.get k).act then 1#32 else 0#32) ∧
      ReadsAs s (52 + k.val) (if (s.fb.lp.get k).act then 1#32 else 0#32) ∧
      ReadsAs s (56 + k.val) (s.rsr.ph.get k)) ∧
    ReadsAs s 60 s.rsr.vph ∧ ReadsAs s 61 s.voc.hopc ∧
    ∀ idx : BitVec 8, (idx.toNat = 12 ∨ idx.toNat = 15 ∨ 62 ≤ idx.toNat) →
      exec (.rds idx) s = .next (refuse .badreg (0x05000000#32 ||| idx.setWidth 32 <<< 16) s)

/-- 40_commands.md R102, 42_sequencer.md R135 to R137: an accepted BEGIN whose raw build-up is below the threshold,
completely: snapshot, block registers, bypass and its clearing. -/
def Obligations.BeginBypassBlock : Prop :=
  ∀ (s : State) (m nch : Word), s.mode = .idle → m.toNat ≤ s.maxblk.toNat → (nch = 1#32 ∨ nch = 2#32) →
    flt (fdiv s.p.buildUp hundred) 0x3A83126F#32 = true →
    exec (.beginBlock m nch) s = .next
      { s with
        a := s.p, mode := .inblk, n := 0#32, blkLen := m, blkNch := nch, bypass := true, buS := zero
        fb := ⟨s.fb.hp.map fun st => { st with fc := 0x41A00000#32, q := 0x3F000000#32, act := false,
                                               ic1 := ⟨0#32, 0#32⟩, ic2 := ⟨0#32, 0#32⟩ },
          s.fb.lp.map fun st => { st with fc := 0x469C4000#32, q := 0x3F000000#32, act := false,
                                          ic1 := ⟨0#32, 0#32⟩, ic2 := ⟨0#32, 0#32⟩ }⟩
        voc := { s.voc with vfb := ⟨VfbChan.cleared, VfbChan.cleared⟩, ns1 := 0#32, ns2 := 0#32,
                            vft := ⟨VftChan.cleared, VftChan.cleared⟩, hopc := 0#32, gain := 0#32 }
        rsr := { s.rsr with level := 0#32, nz1 := 0#32, nz2 := 0#32 }
        resp := some okResponse }

/-- 40_commands.md R102, 42_sequencer.md R135, R136, R138: an accepted BEGIN of a non-bypass block, completely: snapshot,
block registers, the smoother's step, and the three unit updates at the new build-up. -/
def Obligations.BeginActiveBlock : Prop :=
  ∀ (s : State) (m nch : Word) (bu : F32), s.mode = .idle → m.toNat ≤ s.maxblk.toNat → (nch = 1#32 ∨ nch = 2#32) →
    flt (fdiv s.p.buildUp hundred) 0x3A83126F#32 = false →
    bu = fadd s.buS (fmul 0x3E800000#32 (fsub (fdiv s.p.buildUp hundred) s.buS)) →
    exec (.beginBlock m nch) s = .next
      { s with
        a := s.p, mode := .inblk, n := 0#32, blkLen := m, blkNch := nch, bypass := false, buS := bu
        fb := fbUpdate Config.num s.fs s.p bu s.fb
        voc := vocUpdate Config.num s.fs s.p bu s.voc
        rsr := rsrUpdate Config.num s.fs s.p bu s.rsr
        resp := some okResponse }

/-- 42_sequencer.md R141: a FRAME of a bypass block answers the very bits of its input; only `n` advances. -/
def Obligations.FrameOfBypassBlock : Prop :=
  ∀ (s : State) (l r : F32), s.mode = .inblk → s.n ≠ s.blkLen → s.bypass = true →
    (s.blkNch = 1#32 ∨ s.blkNch = 2#32) → F32.isFinite l = true → (s.blkNch = 2#32 → F32.isFinite r = true) →
    exec (.frame l r) s = .next
      { s with n := s.n + 1#32,
               resp := some (if s.blkNch = 2#32 then ⟨0#32, l, r, l, r⟩ else ⟨0#32, l, 0#32, l, 0#32⟩) }

/-- 40_commands.md R103, 42_sequencer.md R140, R143: a FRAME of a non-bypass block, completely: the filter bank, then the
vocoder of the block's mode, whose output is the wet send, then the riser; for active parameters in range and one or two
channels, as the invariant of `StepKeepsStateWf` gives. -/
def Obligations.FrameOfActiveBlock : Prop :=
  ∀ (s : State) (l r : F32) (stereo : Bool) (f : Fb × Pair F32) (v : Voc × Pair F32) (o : Rsr × Pair F32),
    s.mode = .inblk → s.n ≠ s.blkLen → s.bypass = false → s.a.wf = true → (s.blkNch = 1#32 ∨ s.blkNch = 2#32) →
    F32.isFinite l = true → (s.blkNch = 2#32 → F32.isFinite r = true) → stereo = decide (s.blkNch = 2#32) →
    f = fbFrame stereo s.fb ⟨l, r⟩ →
    v = (if s.a.vocMode = 0#32 then vfbTick s.tables.vco stereo s.voc f.2
      else vftTick Config.num s.tables stereo s.voc f.2) →
    o = rsrTick Config.num s.fs (RiserType.ofCode s.a.riserType) stereo s.rsr v.2 →
    exec (.frame l r) s = .next
      { s with n := s.n + 1#32, fb := f.1, voc := v.1, rsr := o.1,
               resp := some (if s.blkNch = 2#32 then ⟨0#32, o.2.l, o.2.r, v.2.l, v.2.r⟩
                 else ⟨0#32, o.2.l, 0#32, v.2.l, 0#32⟩) }

/-- 40_commands.md R104: END: accepted when every frame of the block has been sent, refused otherwise, and refused with
BADOP when a reserved or index bit is set. -/
def Obligations.EndClosesBlock : Prop :=
  ∀ s : State,
    (s.mode = .inblk → s.n = s.blkLen → exec .endBlock s = .next { s with mode := .idle, resp := some okResponse }) ∧
    (s.mode ≠ .inblk ∨ s.n ≠ s.blkLen → exec .endBlock s = .next (refuse .badstate 0x08000000#32 s)) ∧
    ∀ (b : Bundle) (rest : List Bundle), s.port = b :: rest → b.op = 8#8 → b.idx ≠ 0#8 ∨ b.rsv ≠ 0#16 →
      step s = .next (refuse .badop b.cw { s with port := rest })

/-! ### The block updates -/

/-- 43_filter_bank.md R151 to R159: the settings, coefficients and integrators of every stage after `FB_UPDATE`, for
parameters in range. -/
def Obligations.FilterBankUpdate : Prop :=
  ∀ (N : Numerics) (fs b p m hpfc lp0 lpfc q1 : F32) (a : Params) (f : Fb), a.wf = true →
    p = fmul b (fdiv a.filterIntensity hundred) →
    q1 = fadd 0x3F000000#32 (fmul p (fsub a.filterResonance 0x3F000000#32)) →
    m = (if a.filterType = 2#32 then fmul p p else p) →
    hpfc = clampF (fadd 0x41A00000#32 (fmul m 0x459BA000#32)) →
    lp0 = clampF (fsub 0x469C4000#32 (fmul m 0x46985800#32)) →
    lpfc = (if a.filterType = 2#32 then
      clampF (if flt lp0 (fadd hpfc 0x44FA0000#32) = true then fadd hpfc 0x44FA0000#32 else lp0) else lp0) →
    ∀ k : Fin 4,
      (if flt p 0x3A83126F#32 = false ∧ (a.filterType = 0#32 ∨ a.filterType = 2#32) ∧ k.val ≤ a.filterSlope.toNat then
        (fbUpdate N fs a b f).hp.get k =
          { f.hp.get k with fc := hpfc, q := if k = 0 then q1 else 0x3F000000#32,
                            co := svfCoef N fs hpfc (if k = 0 then q1 else 0x3F000000#32), act := true }
      else (fbUpdate N fs a b f).hp.get k =
        { f.hp.get k with fc := 0x41A00000#32, q := 0x3F000000#32, act := false,
                          ic1 := ⟨0#32, 0#32⟩, ic2 := ⟨0#32, 0#32⟩ }) ∧
      (if flt p 0x3A83126F#32 = false ∧ (a.filterType = 1#32 ∨ a.filterType = 2#32) ∧ k.val ≤ a.filterSlope.toNat then
        (fbUpdate N fs a b f).lp.get k =
          { f.lp.get k with fc := lpfc, q := if k = 0 then q1 else 0x3F000000#32,
                            co := svfCoef N fs lpfc (if k = 0 then q1 else 0x3F000000#32), act := true }
      else (fbUpdate N fs a b f).lp.get k =
        { f.lp.get k with fc := 0x469C4000#32, q := 0x3F000000#32, act := false,
                          ic1 := ⟨0#32, 0#32⟩, ic2 := ⟨0#32, 0#32⟩ })

/-- 44_vocoder_filterbank.md R176, R185: `VOC_UPDATE` for parameters in range: the per-block values, and the clearing of
all vocoder state, both forms, exactly when the mode differs from the one that last ran. -/
def Obligations.VocoderUpdate : Prop :=
  ∀ (N : Numerics) (fs b rate : F32) (a : Params) (v : Voc), a.wf = true →
    rate = (if a.vocMode = 0#32 then fs else fdiv fs 0x43800000#32) →
    ∃ base : Voc,
      ((a.vocMode = (if v.prev then 1#32 else 0#32) ∧ base = v) ∨
        (a.vocMode ≠ (if v.prev then 1#32 else 0#32) ∧
          base = { v with vfb := ⟨VfbChan.cleared, VfbChan.cleared⟩, ns1 := 0#32, ns2 := 0#32,
                          vft := ⟨VftChan.cleared, VftChan.cleared⟩, hopc := 0#32, prev := !v.prev })) ∧
      vocUpdate N fs a b v =
        { base with
          bright := fdiv a.vocBrightness hundred
          gain := fmul (fmul (fdiv a.noiseAmount hundred) b) a.gateLevel
          aatt := N.exp (fdiv 0xC13834F1#32 (fmul 0x3A03126F#32 rate))
          arel := N.exp (fdiv 0xC13834F1#32
            (fmul (fadd 0x3C23D70A#32 (fmul (fdiv a.vocoderRelease hundred) 0x3F7D70A4#32)) rate))
          gk := ⟨fadd 0x3F800000#32 (fmul (fdiv a.vocBrightness hundred) (fsub 0x3F800000#32 0x3F800000#32)),
            fadd 0x3FC00000#32 (fmul (fdiv a.vocBrightness hundred) (fsub 0x40000000#32 0x3FC00000#32)),
            fadd 0x40000000#32 (fmul (fdiv a.vocBrightness hundred) (fsub 0x40400000#32 0x40000000#32)),
            fadd 0x40400000#32 (fmul (fdiv a.vocBrightness hundred) (fsub 0x40900000#32 0x40400000#32))⟩ }

/-- 46_riser.md R226: `RSR_UPDATE` for each of the five variants. -/
def Obligations.RiserUpdate : Prop :=
  ∀ (N : Numerics) (fs b sweep vd inv : F32) (a : Params) (r u : Rsr),
    sweep = fadd 0x42480000#32 (fmul (fmul (fmul b b) b) (fsub 0x457A0000#32 0x42480000#32)) →
    vd = fmul 0x3CF5C28F#32 b → inv = fsub 0x3F800000#32 b →
    u = { r with
      target := fmul (fdiv a.riserAmount hundred) b
      katt := fsub 0x3F800000#32 (N.exp (fdiv 0xC13834F1#32 (fmul 0x3C23D70A#32 fs)))
      krel := fsub 0x3F800000#32 (N.exp (fdiv 0xC13834F1#32 (fmul a.riserRelease fs)))
      amp := 0x3F800000#32, vdepth := vd, vrate := fadd 0x40400000#32 (fmul 0x40A00000#32 b) } →
    (a.riserType = 0#32 → rsrUpdate N fs a b r = { u with ft := sweep }) ∧
    (a.riserType = 1#32 →
      rsrUpdate N fs a b r = { u with ft := fmul 0x3F99999A#32 sweep, vdepth := fmul vd 0x3F000000#32 }) ∧
    (a.riserType = 2#32 → rsrUpdate N fs a b r = { u with ft := fmul 0x3F4CCCCD#32 sweep }) ∧
    (a.riserType = 3#32 → rsrUpdate N fs a b r =
      { u with
        ft := sweep
        nzco := svfCoef N fs
          (clampF (fadd 0x42C80000#32 (fmul (fmul b b) (fsub 0x45FA0000#32 0x42C80000#32))))
          (fadd 0x3F800000#32 (fmul 0x40800000#32 b)) }) ∧
    (a.riserType = 4#32 → rsrUpdate N fs a b r =
      { u with
        ft := fadd 0x41A00000#32 (fmul (fmul (fmul inv inv) inv) (fsub 0x41F00000#32 0x41A00000#32))
        vdepth := fmul vd 0x3DCCCCCD#32, amp := inv })

/-! ### The frame steps of the units -/

/-- 43_filter_bank.md R160: `FB_TICK` is the loop over the two chains and their four stages, in this order, that ticks
the active stages, each by the operation sequence of `SVF_TICK` (41_numerics.md R116), and skips the others; in a mono block channel 1 is left alone (42_sequencer.md R142). -/
def Obligations.FilterBankTickIsTheLoop : Prop :=
  (∀ (ic1 ic2 g r2 h x hp v1 bp v2 lp : F32),
    hp = fmul h (fsub (fsub x (fmul ic1 (fadd g r2))) ic2) → v1 = fmul g hp → bp = fadd v1 ic1 →
    v2 = fmul g bp → lp = fadd v2 ic2 → svfTick ic1 ic2 ⟨g, r2, h⟩ x = ⟨hp, bp, lp, fadd v1 bp, fadd v2 lp⟩) ∧
  (∀ (c : Chan) (f : Fb) (x : F32), fbTick c f x = stageOrder.foldl (fbLoopBody c) (f, x)) ∧
  ∀ (f : Fb) (x : Pair F32),
    fbFrame false f x = ((stageOrder.foldl (fbLoopBody .left) (f, x.l)).1,
      ⟨(stageOrder.foldl (fbLoopBody .left) (f, x.l)).2, x.r⟩) ∧
    ∀ f1 l f2 r, stageOrder.foldl (fbLoopBody .left) (f, x.l) = (f1, l) →
      stageOrder.foldl (fbLoopBody .right) (f1, x.r) = (f2, r) → fbFrame true f x = (f2, ⟨l, r⟩)

/-- 44_vocoder_filterbank.md R178 to R184: one frame of VFB, channel by channel and band by band. -/
def Obligations.FilterbankVocoderFrame : Prop :=
  ∀ (vco : Quad Coef) (stereo : Bool) (v : Voc) (x : Pair F32) (w ns1 ns2 nz : F32) (c : Chan) (u : F32)
    (ch ch' : VfbChan),
    w = lcgSample (lcgNext v.rng) → ns1 = fadd v.ns1 (fmul 0x3F000000#32 (fsub w v.ns1)) →
    ns2 = fadd v.ns2 (fmul 0x3F000000#32 (fsub ns1 v.ns2)) → nz = fadd ns2 (fmul v.bright (fsub w ns1)) →
    (c = .left ∨ stereo = true) → u = (if flt zero v.gain = true then x.get c else zero) →
    ch = v.vfb.get c → ch' = ((vfbTick vco stereo v x).1.vfb.get c) →
    (vfbTick vco stereo v x).1 =
      { v with rng := lcgNext v.rng, ns1 := ns1, ns2 := ns2, vfb := (vfbTick vco stereo v x).1.vfb } ∧
    (∀ k : Fin 4,
      ch'.an1.get k = (svfTick (ch.an1.get k) (ch.an2.get k) (vco.get k) u).ic1 ∧
      ch'.an2.get k = (svfTick (ch.an1.get k) (ch.an2.get k) (vco.get k) u).ic2 ∧
      ch'.env.get k = envTick (ch.env.get k)
        (F32.abs (fmul (svfTick (ch.an1.get k) (ch.an2.get k) (vco.get k) u).bp (vco.get k).r2)) v.aatt v.arel ∧
      ch'.sy1.get k = (svfTick (ch.sy1.get k) (ch.sy2.get k) (vco.get k) nz).ic1 ∧
      ch'.sy2.get k = (svfTick (ch.sy1.get k) (ch.sy2.get k) (vco.get k) nz).ic2) ∧
    (∃ term : Fin 4 → F32,
      (∀ k, term k = fmul (fmul (fmul (svfTick (ch.sy1.get k) (ch.sy2.get k) (vco.get k) nz).bp (vco.get k).r2)
        (ch'.env.get k)) (v.gk.get k)) ∧
      ch'.osm = fadd ch.osm (fmul 0x3F000000#32
        (fsub (fadd (fadd (fadd (fadd zero (term 0)) (term 1)) (term 2)) (term 3)) ch.osm))) ∧
    ch'.e1p = ch'.osm ∧
    ch'.e2p = fadd ch'.osm (fmul (fsub ch'.osm ch.e1p) 0x3F000000#32) ∧
    (vfbTick vco stereo v x).2.get c =
      (if flt zero v.gain = true then
        fadd (x.get c) (fmul (fadd ch'.e2p (fmul (fsub ch'.e2p ch.e2p) 0x3F000000#32)) v.gain)
      else x.get c)

/-- 45_vocoder_fft.md R202, R206, R207: a frame of VFT that is not the last of a hop: the input window and the
accumulator shift, the hop counter advances, and envelopes, accumulated synthesis and noise generator do not change. -/
def Obligations.FftVocoderBetweenHops : Prop :=
  ∀ (N : Numerics) (tb : Tables) (stereo : Bool) (v : Voc) (x : Pair F32) (c : Chan),
    v.hopc.toNat < 255 → (c = .left ∨ stereo = true) →
    (vftTick N tb stereo v x).1 = { v with hopc := v.hopc + 1#32, vft := (vftTick N tb stereo v x).1.vft } ∧
    ((vftTick N tb stereo v x).1.vft.get c).env = (v.vft.get c).env ∧
    (∀ i, i < 511 →
      ((vftTick N tb stereo v x).1.vft.get c).inp.getD i zero = (v.vft.get c).inp.getD (i + 1) zero ∧
      ((vftTick N tb stereo v x).1.vft.get c).out.getD i zero = (v.vft.get c).out.getD (i + 1) zero) ∧
    ((vftTick N tb stereo v x).1.vft.get c).inp.getD 511 zero = (if flt zero v.gain = true then x.get c else zero) ∧
    ((vftTick N tb stereo v x).1.vft.get c).out.getD 511 zero = zero ∧
    (vftTick N tb stereo v x).2.get c =
      (if flt zero v.gain = true then fadd (x.get c) (fmul ((v.vft.get c).out.getD 0 zero) v.gain) else x.get c)

/-- 45_vocoder_fft.md R203 to R206: one transform frame of one channel, indexed as the spec writes it: band energies
over the bins in increasing order, envelopes, 512 draws, the shaped spectrum, overlap-add. -/
def Obligations.FftVocoderTransform : Prop :=
  ∀ (N : Numerics) (tb : Tables) (c : Chan) (v : Voc) (xw wn : Buf F32 512) (ch : VftChan) (env : Quad F32),
    ch = v.vft.get c →
    (∀ i, i < 512 → xw.getD i zero = fmul (ch.inp.getD i zero) (tb.hann.getD i zero)) →
    (∀ i, i < 512 → wn.getD i zero = lcgSample (lcgNext^[i + 1] v.rng)) →
    (∀ k, env.get k = envTick (ch.env.get k)
      (fmul (bandSumLoop tb.bandOfBin (N.dft xw) k) 0x3B800000#32) v.aatt v.arel) →
    ∃ (spectrum : Buf Cpx 257) (out : Buf F32 512),
      (∀ j, j < 257 → spectrum.getD j ⟨zero, zero⟩ = shapedBin tb.bandOfBin env (N.dft wn) j) ∧
      (∀ i, i < 512 → out.getD i zero =
        fadd (ch.out.getD i zero) (fmul ((N.idft spectrum).getD i zero) (tb.hann.getD i zero))) ∧
      vftTransform N tb c v =
        { v with rng := lcgNext^[512] v.rng, vft := v.vft.set c { ch with env := env, out := out } }

/-- 46_riser.md R227 to R237: one frame of the riser, every variant. -/
def Obligations.RiserFrame : Prop :=
  ∀ (N : Numerics) (fs : F32) (t : RiserType) (stereo : Bool) (r : Rsr) (x : Pair F32) (level : F32),
    level = fadd r.level (fmul (if flt zero (fsub r.target r.level) = true then r.katt else r.krel)
      (fsub r.target r.level)) →
    ∃ wave : F32,
      (rsrTick N fs t stereo r x).2 =
        (if fle 0x38D1B717#32 level = true then
          ⟨fadd x.l (fmul (fmul wave level) r.amp),
            if stereo then fadd x.r (fmul (fmul wave level) r.amp) else x.r⟩
        else x) ∧
      (t = .noise →
        (rsrTick N fs t stereo r x).1 =
          { r with level := level, rng := lcgNext r.rng
                   nz1 := (svfTick r.nz1 r.nz2 r.nzco (lcgSample (lcgNext r.rng))).ic1
                   nz2 := (svfTick r.nz1 r.nz2 r.nzco (lcgSample (lcgNext r.rng))).ic2 } ∧
        wave = fmul (svfTick r.nz1 r.nz2 r.nzco (lcgSample (lcgNext r.rng))).bp r.nzco.r2) ∧
      (t ≠ .noise → ∃ fsm vsum vph finst psum : F32, ∃ w : Fin 4, ∃ ph : Quad F32,
        fsm = fadd r.fsm (fmul 0x3A83126F#32 (fsub r.ft r.fsm)) ∧
        vsum = fadd r.vph (fdiv r.vrate fs) ∧ vph = (if fle one vsum = true then fsub vsum one else vsum) ∧
        finst = fmul fsm (fadd one (fmul r.vdepth (N.sin (fmul 0x40C90FDB#32 vph)))) ∧
        (t = .sine → w = 0) ∧ (t = .saw → w = 1) ∧ (t = .square → w = 2) ∧ (t = .sub → w = 3) ∧
        psum = fadd (r.ph.get w) (fdiv finst fs) ∧ ph.get w = (if fle one psum = true then fsub psum one else psum) ∧ (∀ w', w' ≠ w → ph.get w' = r.ph.get w') ∧
        (rsrTick N fs t stereo r x).1 = { r with level := level, fsm := fsm, vph := vph, ph := ph } ∧
        (t = .sine ∨ t = .sub → wave = N.sin (fmul 0x40C90FDB#32 (ph.get w))) ∧
        (t = .saw → wave = fsub (fmul two (ph.get w)) one) ∧
        (t = .square →
          wave = if fle zero (N.sin (fmul 0x40C90FDB#32 (ph.get w))) = true then one else minusOne))

/-! ### Reset and invariants -/

/-- 70_reset_and_hazards.md R275, 10_state.md R40: every field the spec names at its power-on value, which makes a
first block a bypass block. The empty port and
the absent response are the model's own fields (log entries 3 and 4) and are not stated. -/
def Obligations.PowerOnState : Prop :=
  State.reset.mode = .unprep ∧ State.reset.n = 0#32 ∧ State.reset.blkLen = 0#32 ∧ State.reset.blkNch = 0#32 ∧
  State.reset.a = State.reset.p ∧
  State.reset.p = ⟨0#32, 0#32, 0#32, 0#32, 0x3F000000#32, 0#32, 0#32, 0#32, 0#32, 0#32, 0x3C23D70A#32, 0x3F800000#32,
    0#32, 0#32⟩ ∧
  State.reset.bypass = false ∧ State.reset.errCause = 0#8 ∧ State.reset.errCmd = 0#32 ∧
  State.reset.errSticky = false ∧ State.reset.fs = 0#32 ∧ State.reset.maxblk = 0#32 ∧
  (∀ k, State.reset.tables.vco.get k = ⟨0#32, 0#32, 0#32⟩) ∧
  (∀ i, i < 512 → State.reset.tables.hann.getD i 1#32 = 0#32) ∧
  (∀ j, j < 257 → State.reset.tables.bandOfBin.getD j (some 0) = none) ∧
  State.reset.buS = 0#32 ∧
  (∀ k, State.reset.fb.hp.get k = ⟨0x41A00000#32, 0x3F000000#32, false, ⟨0#32, 0#32, 0#32⟩, ⟨0#32, 0#32⟩, ⟨0#32, 0#32⟩⟩ ∧
    State.reset.fb.lp.get k = ⟨0x469C4000#32, 0x3F000000#32, false, ⟨0#32, 0#32, 0#32⟩, ⟨0#32, 0#32⟩, ⟨0#32, 0#32⟩⟩) ∧
  (∀ c, State.reset.voc.vfb.get c = ⟨⟨0#32, 0#32, 0#32, 0#32⟩, ⟨0#32, 0#32, 0#32, 0#32⟩, ⟨0#32, 0#32, 0#32, 0#32⟩,
      ⟨0#32, 0#32, 0#32, 0#32⟩, ⟨0#32, 0#32, 0#32, 0#32⟩, 0#32, 0#32, 0#32⟩ ∧
    (∀ i, i < 512 → (State.reset.voc.vft.get c).inp.getD i 1#32 = 0#32 ∧
      (State.reset.voc.vft.get c).out.getD i 1#32 = 0#32) ∧
    (State.reset.voc.vft.get c).env = ⟨0#32, 0#32, 0#32, 0#32⟩) ∧
  State.reset.voc.ns1 = 0#32 ∧ State.reset.voc.ns2 = 0#32 ∧ State.reset.voc.rng = 1#32 ∧ State.reset.voc.hopc = 0#32 ∧
  State.reset.voc.prev = false ∧ State.reset.voc.gain = 0#32 ∧ State.reset.voc.bright = 0#32 ∧
  State.reset.voc.aatt = 0#32 ∧ State.reset.voc.arel = 0#32 ∧ State.reset.voc.gk = ⟨0#32, 0#32, 0#32, 0#32⟩ ∧
  State.reset.rsr = ⟨0#32, 0x42480000#32, ⟨0#32, 0#32, 0#32, 0#32⟩, 0#32, 0#32, 0#32, 2#32, 0#32, 0#32, 0#32,
    0x42480000#32, 0#32, 0#32, 0x3F800000#32, ⟨0#32, 0#32, 0#32⟩⟩ ∧
  isBypassBlock State.reset.p = true

/-- 10_state.md R40, R42: the invariants hold at power-on. R42 is an inference the spec marks as its own. -/
def Obligations.ResetMeetsInvariants : Prop :=
  State.reset.wf = true ∧ unitInterval State.reset.buS = true ∧ riserLevelOk State.reset.rsr = true ∧
    riserPhasesOk State.reset.rsr = true ∧ riserRatesOk State.reset.rsr = true

/-- 10_state.md R42 (a), (b), (d), (f), 70_reset_and_hazards.md R291: every step keeps them, from every state that
meets them. Both rules are inferences the spec marks as its own ("derived"). -/
def Obligations.StepKeepsStateWf : Prop :=
  ∀ s t : State, s.wf = true → step s = .next t → t.wf = true

/-- 10_state.md R42 (c): the smoothed build-up stays in [0, 1], from every state where the pending parameters are in
range. R42 (c) is an inference the spec marks as its own ("a convex combination of values in [0,1]"). -/
def Obligations.StepKeepsBuildUpInUnit : Prop :=
  ∀ s t : State, s.p.wf = true → unitInterval s.buS = true → step s = .next t → unitInterval t.buS = true

/-- 46_riser.md R227: the riser level and its target stay in [0, 1]. That the two level coefficients stay below one half
is this statement's own bound; the spec says they lie in (0, 1). -/
def Obligations.StepKeepsRiserLevel : Prop :=
  ∀ s t : State, s.wf = true → unitInterval s.buS = true → riserLevelOk s.rsr = true → step s = .next t →
    riserLevelOk t.rsr = true

/-- 10_state.md R42 (e), 41_numerics.md R121: the four phases and the vibrato phase stay in [0, 1). The bounds on the
frequency, depth and rate registers that make every increment less than one are this statement's own. R42 (e) is an
inference the spec marks as its own. -/
def Obligations.StepKeepsRiserPhases : Prop :=
  ∀ s t : State, s.wf = true → unitInterval s.buS = true → riserRatesOk s.rsr = true → riserPhasesOk s.rsr = true →
    step s = .next t → riserRatesOk t.rsr = true ∧ riserPhasesOk t.rsr = true

/-! ### Whole-machine rules -/

/-- 42_sequencer.md R139: the values the block updates compute are constant through the frames of a block, and no FRAME
reads `P`. -/
def Obligations.PerBlockValuesAreConstant : Prop :=
  ∀ (s t : State) (l r : F32), exec (.frame l r) s = .next t →
    t.a = s.a ∧ t.p = s.p ∧ t.buS = s.buS ∧ t.bypass = s.bypass ∧ t.fs = s.fs ∧ t.tables = s.tables ∧
    t.maxblk = s.maxblk ∧ t.blkLen = s.blkLen ∧ t.blkNch = s.blkNch ∧
    (∀ k, (t.fb.hp.get k).fc = (s.fb.hp.get k).fc ∧ (t.fb.hp.get k).q = (s.fb.hp.get k).q ∧
      (t.fb.hp.get k).act = (s.fb.hp.get k).act ∧ (t.fb.hp.get k).co = (s.fb.hp.get k).co ∧
      (t.fb.lp.get k).fc = (s.fb.lp.get k).fc ∧ (t.fb.lp.get k).q = (s.fb.lp.get k).q ∧
      (t.fb.lp.get k).act = (s.fb.lp.get k).act ∧ (t.fb.lp.get k).co = (s.fb.lp.get k).co) ∧
    t.voc.gain = s.voc.gain ∧ t.voc.bright = s.voc.bright ∧ t.voc.aatt = s.voc.aatt ∧ t.voc.arel = s.voc.arel ∧
    t.voc.gk = s.voc.gk ∧ t.voc.prev = s.voc.prev ∧
    t.rsr.target = s.rsr.target ∧ t.rsr.katt = s.rsr.katt ∧ t.rsr.krel = s.rsr.krel ∧ t.rsr.ft = s.rsr.ft ∧
    t.rsr.vdepth = s.rsr.vdepth ∧ t.rsr.vrate = s.rsr.vrate ∧ t.rsr.amp = s.rsr.amp ∧ t.rsr.nzco = s.rsr.nzco ∧
    ∀ p : Params, exec (.frame l r) { s with p := p } = .next { t with p := p }

/-- 10_state.md R21, 20_memory.md R67, 70_reset_and_hazards.md R280: the active parameters change only when a BEGIN
copies the pending ones, the pending ones only by WRP, and no command but WRP, RDP and BEGIN looks at them. -/
def Obligations.ParametersChangeOnlyByWrpAndBegin : Prop :=
  ∀ (i : Instr) (s t : State), exec i s = .next t →
    ((∀ m nch, i ≠ .beginBlock m nch) → t.a = s.a) ∧ (t.a = s.a ∨ t.a = s.p) ∧
    ((∀ k v, i ≠ .wrp k v) → t.p = s.p) ∧
    ((∀ m nch, i ≠ .beginBlock m nch) → (∀ k v, i ≠ .wrp k v) → (∀ k, i ≠ .rdp k) →
      ∀ p : Params, exec i { s with p := p } = .next { t with p := p })

/-- 40_commands.md R108, 00_scope.md R5: a command of the control agent, or a NOP, that falls before a FRAME or an END
changes neither the response of that command nor any state the block's samples depend on. R108 is an inference the
spec marks as its own. -/
def Obligations.ControlCommandsLeaveBlockAlone : Prop :=
  ∀ (c i : Instr) (s t : State), isControl c = true → ((∃ l r, i = .frame l r) ∨ i = .endBlock) →
    exec c s = .next t →
    ∃ u u', exec i s = .next u ∧ exec i t = .next u' ∧ u'.resp = u.resp ∧
      u' = { u with p := t.p, errCause := u'.errCause, errCmd := u'.errCmd, errSticky := u'.errSticky }

/-- 44_vocoder_filterbank.md R184, R186 (a), 45_vocoder_fft.md R209 (a): when the vocoder gain is not positive, both
forms return every sample with its bits, and the state they reach does not depend on the samples. R186 and R209 are
inferences the spec marks as its own. -/
def Obligations.GainZeroVocoderIsSilent : Prop :=
  ∀ (N : Numerics) (tb : Tables) (a : Params) (stereo : Bool) (v : Voc) (x y : Pair F32), flt zero v.gain = false →
    (vocFrame N tb a stereo v x).2 = x ∧ (vocFrame N tb a stereo v x).1 = (vocFrame N tb a stereo v y).1

/-- 42_sequencer.md R142, 10_state.md R42 (b): in a mono block a FRAME does not look at its right operand, answers zero in
R1 and R3, and leaves the channel-1 state of FB, VFB and VFT as it was. -/
def Obligations.MonoBlockLeavesChannelOne : Prop :=
  ∀ (s t : State) (l r : F32), s.blkNch = 1#32 → exec (.frame l r) s = .next t →
    (∀ r', exec (.frame l r') s = .next t) ∧
    (∀ w, t.resp = some w → w.r1 = 0#32 ∧ w.r3 = 0#32) ∧
    (∀ k, (t.fb.hp.get k).ic1.r = (s.fb.hp.get k).ic1.r ∧ (t.fb.hp.get k).ic2.r = (s.fb.hp.get k).ic2.r ∧
      (t.fb.lp.get k).ic1.r = (s.fb.lp.get k).ic1.r ∧ (t.fb.lp.get k).ic2.r = (s.fb.lp.get k).ic2.r) ∧
    t.voc.vfb.r = s.voc.vfb.r ∧ t.voc.vft.r = s.voc.vft.r

/-- 10_state.md R25, 43_filter_bank.md R162: no processing rule reads `filterDrive`. -/
def Obligations.FilterDriveIsNeverRead : Prop :=
  ∀ (N : Numerics) (fs b drive : F32) (a : Params) (f : Fb) (v : Voc) (r : Rsr) (tb : Tables) (stereo : Bool)
    (x : Pair F32),
    isBypassBlock { a with filterDrive := drive } = isBypassBlock a ∧
    smoothBuildUp { a with filterDrive := drive } b = smoothBuildUp a b ∧
    fbUpdate N fs { a with filterDrive := drive } b f = fbUpdate N fs a b f ∧
    vocUpdate N fs { a with filterDrive := drive } b v = vocUpdate N fs a b v ∧
    rsrUpdate N fs { a with filterDrive := drive } b r = rsrUpdate N fs a b r ∧
    vocFrame N tb { a with filterDrive := drive } stereo v x = vocFrame N tb a stereo v x

/-- 70_reset_and_hazards.md R289: the noise generators advance in non-bypass frames only: the vocoder's by one step in
VFB, by 512 steps a channel in a transform frame of VFT and not at all between, the riser's by one step in type 3
only; no other command but PREPARE and RESET, which reseed them, changes them. For active parameters in range and one or two
channels. R289 is an inference the spec marks as
its own. -/
def Obligations.NoiseGeneratorsAdvance : Prop :=
  ∀ (i : Instr) (s t : State) (w : Response), s.a.wf = true →
    (s.mode = .inblk → s.blkNch = 1#32 ∨ s.blkNch = 2#32) → exec i s = .next t → t.resp = some w →
    (w.st ≠ 0#32 → t.voc.rng = s.voc.rng ∧ t.rsr.rng = s.rsr.rng) ∧
    (w.st = 0#32 → match i with
      | .prepare _ _ => t.voc.rng = 1#32 ∧ t.rsr.rng = 2#32
      | .reset => t.voc.rng = 1#32 ∧ t.rsr.rng = 2#32
      | .frame _ _ =>
        if s.bypass = true then t.voc.rng = s.voc.rng ∧ t.rsr.rng = s.rsr.rng
        else
          t.voc.rng =
            (if s.a.vocMode = 0#32 then lcgNext s.voc.rng
            else if s.voc.hopc = 255#32 then
              (if s.blkNch = 2#32 then lcgNext^[1024] s.voc.rng else lcgNext^[512] s.voc.rng)
            else s.voc.rng) ∧
          t.rsr.rng = (if s.a.riserType = 3#32 then lcgNext s.rsr.rng else s.rsr.rng)
      | .nop => t.voc.rng = s.voc.rng ∧ t.rsr.rng = s.rsr.rng
      | .wrp _ _ => t.voc.rng = s.voc.rng ∧ t.rsr.rng = s.rsr.rng
      | .rdp _ => t.voc.rng = s.voc.rng ∧ t.rsr.rng = s.rsr.rng
      | .rds _ => t.voc.rng = s.voc.rng ∧ t.rsr.rng = s.rsr.rng
      | .beginBlock _ _ => t.voc.rng = s.voc.rng ∧ t.rsr.rng = s.rsr.rng
      | .endBlock => t.voc.rng = s.voc.rng ∧ t.rsr.rng = s.rsr.rng)

/-- 42_sequencer.md R145: a block run frame by frame through all units, and run unit by unit over all frames, gives
the same samples, wet sends and final state. R145 is an inference the spec marks as its own ("Block order and frame
order agree"). -/
def Obligations.BlockOrderIsFrameOrder : Prop :=
  ∀ (N : Numerics) (stereo : Bool) (s : State) (xs : List (Pair F32)),
    frameOrder N stereo s xs = blockOrder N stereo s xs

/-- 42_sequencer.md R146, 43_filter_bank.md R163, 44_vocoder_filterbank.md R184, 46_riser.md R228, R239 (c): a whole
block with filter intensity, noise amount and riser amount zero and a cleared riser level, bypass or not, and every
block whose raw build-up is below the threshold, returns each frame bit for bit as output and wet send. R146, R163 and
R239 are inferences the spec marks as its own. -/
def Obligations.DryBlockIsIdentity : Prop :=
  ∀ (s : State) (nch : Word) (frames : List (Pair F32)),
    s.wf = true → unitInterval s.buS = true → s.mode = .idle → (nch = 1#32 ∨ nch = 2#32) →
    frames.length ≤ s.maxblk.toNat →
    (∀ x ∈ frames, F32.isFinite x.l = true ∧ (nch = 2#32 → F32.isFinite x.r = true)) →
    (flt (fdiv s.p.buildUp hundred) epsBu = true ∨
      (F32.isZero s.p.filterIntensity = true ∧ F32.isZero s.p.noiseAmount = true ∧
        F32.isZero s.p.riserAmount = true ∧ F32.isZero s.rsr.level = true)) →
    ∃ t, runCommands (processCommands nch frames) s = some (t,
      okResponse :: frames.map (fun x => if nch = 2#32 then ⟨0#32, x.l, x.r, x.l, x.r⟩ else ⟨0#32, x.l, 0#32, x.l, 0#32⟩)
        ++ [okResponse])

/-! ### The units' numeric properties -/

/-- 43_filter_bank.md R163, R152, R156: with filter intensity zero, or a control product below the threshold, the
filter bank is an exact passthrough for the block and its integrators are cleared at the BEGIN; with build-up zero the
block is a bypass block. R163 is an inference the spec marks as its own ("Unity passthrough"). -/
def Obligations.NeutralFilterBankPassesThrough : Prop :=
  (∀ (N : Numerics) (fs b : F32) (a : Params) (f : Fb) (stereo : Bool) (x : Pair F32),
    (F32.isZero a.filterIntensity = true ∧ unitInterval b = true) ∨
      flt (fmul b (fdiv a.filterIntensity hundred)) epsFilt = true →
    fbFrame stereo (fbUpdate N fs a b f) x = (fbUpdate N fs a b f, x) ∧
    ∀ k, ((fbUpdate N fs a b f).hp.get k).ic1 = ⟨0#32, 0#32⟩ ∧ ((fbUpdate N fs a b f).hp.get k).ic2 = ⟨0#32, 0#32⟩ ∧
      ((fbUpdate N fs a b f).lp.get k).ic1 = ⟨0#32, 0#32⟩ ∧ ((fbUpdate N fs a b f).lp.get k).ic2 = ⟨0#32, 0#32⟩) ∧
  ∀ a : Params, F32.isZero a.buildUp = true → isBypassBlock a = true

/-- 41_numerics.md R120, 43_filter_bank.md R161, 46_riser.md R234: `CLAMPF`, and that every cutoff the filter bank and the
noise sweep hand to `SVF_COEF` for parameters in range is a number in [20, 20000]. -/
def Obligations.CutoffsAreClamped : Prop :=
  (∀ x : F32, F32.isNaN x = false →
    within fMin fMax (clampF x) = true ∧ (within fMin fMax x = true → clampF x = x) ∧
    (flt x fMin = true → clampF x = 0x41A00000#32) ∧ (flt fMax x = true → clampF x = 0x469C4000#32)) ∧
  (∀ x : F32, F32.isNaN x = true → clampF x = x) ∧
  (∀ (N : Numerics) (fs b : F32) (a : Params) (f : Fb), a.wf = true → unitInterval b = true →
    ∀ k, within fMin fMax ((fbUpdate N fs a b f).hp.get k).fc = true ∧
      within fMin fMax ((fbUpdate N fs a b f).lp.get k).fc = true) ∧
  ∀ b : F32, unitInterval b = true → within fMin fMax (riserNoiseFc b) = true

/-- 43_filter_bank.md R155: in dual-sweep the lowpass cutoff is at least the binary32 sum of the highpass cutoff and
2000 Hz, and the highpass cutoff at most 5000 Hz. That the separation is that of the binary32 sum is a reading of the
model (log entry 8). -/
def Obligations.DualSweepKeepsSeparation : Prop :=
  ∀ (a : Params) (p : F32), a.filterType = 2#32 → unitInterval p = true →
    fle (fadd (fbCutoff a p .hp) sepMin) (fbCutoff a p .lp) = true ∧ fle (fbCutoff a p .hp) fHpTop = true

/-- 41_numerics.md R116, 43_filter_bank.md R161: `SVF_COEF` is its operation sequence; and under every admissible numerics, a section with a cutoff in [20,
20000] Hz, a quality in [0.5, 10] and an accepted sample rate has positive finite coefficients, with the damping at
most 2 and the gain factor at most 1. That some numerics is admissible, and what admissible means, is log entry 1. -/
def Obligations.SectionCoefficientsAreStable : Prop :=
  (∀ (N : Numerics) (fs fc q g r2 : F32), g = N.tan (fdiv (fmul 0x40490FDB#32 fc) fs) → r2 = fdiv 0x3F800000#32 q →
    svfCoef N fs fc q =
      ⟨g, r2, fdiv 0x3F800000#32 (fadd (fadd 0x3F800000#32 (fmul r2 g)) (fmul g g))⟩) ∧
  ∀ (N : Numerics) (fs fc q : F32), N.Admissible → fsOk fs = true → within fMin fMax fc = true →
    within 0x3F000000#32 0x41200000#32 q = true →
    flt zero (svfCoef N fs fc q).g = true ∧ F32.isFinite (svfCoef N fs fc q).g = true ∧
    flt zero (svfCoef N fs fc q).r2 = true ∧ fle (svfCoef N fs fc q).r2 two = true ∧
    flt zero (svfCoef N fs fc q).h = true ∧ fle (svfCoef N fs fc q).h one = true

/-- 41_numerics.md R117: under every admissible numerics a one-pole coefficient lies in [0, 1), for every time from the
attack time to the longest riser release and every rate from the slowest transform frame rate to the fastest sample
rate. -/
def Obligations.SmootherCoefficientInUnit : Prop :=
  ∀ (N : Numerics) (t rate : F32), N.Admissible → within tAtt 0x40A00000#32 t = true →
    within (fdiv fsMin hopF) fsMax rate = true →
    fle zero (envCoef N t rate) = true ∧ flt (envCoef N t rate) one = true

/-- 41_numerics.md R118: the envelope follower's step: the attack coefficient when the input exceeds the envelope, the
release coefficient otherwise, the snap to zero, no negative value, and the exact product on silence. -/
def Obligations.EnvelopeStep : Prop :=
  ∀ env r aAtt aRel : F32, F32.isFinite env = true → F32.isFinite r = true → fle zero env = true → fle zero r = true →
    unitInterval aAtt = true → unitInterval aRel = true →
    fle zero (envTick env r aAtt aRel) = true ∧
    (envTick env r aAtt aRel = 0#32 ∨ fle 0x358637BD#32 (envTick env r aAtt aRel) = true) ∧
    (flt env r = true → envTick env r aAtt aRel =
      if flt (fadd r (fmul aAtt (fsub env r))) 0x358637BD#32 = true then 0#32 else fadd r (fmul aAtt (fsub env r))) ∧
    (flt env r = false → envTick env r aAtt aRel =
      if flt (fadd r (fmul aRel (fsub env r))) 0x358637BD#32 = true then 0#32 else fadd r (fmul aRel (fsub env r))) ∧
    (flt zero env = true → envTick env zero aAtt aRel =
      if flt (fmul aRel env) 0x358637BD#32 = true then 0#32 else fmul aRel env)

/-- 41_numerics.md R119: the generator's step modulo 2^32, the exact value of its sample, and that the samples are
exactly the 2^24 multiples of 2^-23 in [-1, 1). -/
def Obligations.NoiseSampleIsExact : Prop :=
  (∀ s : Word, (lcgNext s).toNat = (s.toNat * 1664525 + 1013904223) % 2 ^ 32 ∧
    F32.isFinite (lcgSample s) = true ∧
    F32.value (lcgSample s) = (((s.toNat / 256 : Nat) : ℚ) - 8388608) / 2 ^ 23 ∧
    -1 ≤ F32.value (lcgSample s) ∧ F32.value (lcgSample s) < 1) ∧
  ∀ m : Int, -(2 ^ 23) ≤ m → m < 2 ^ 23 → ∃ s : Word, F32.value (lcgSample (lcgNext s)) = (m : ℚ) / 2 ^ 23

/-- 46_riser.md R239 (a), R226, R229: the sine sweep never falls: the target frequency rises with the build-up and
stays within 50 and 4000 Hz, the smoothed frequency rises toward it without passing it, and the instantaneous
frequency stays below 4120 Hz. R239 is an inference the spec marks as its own. -/
def Obligations.SineSweepIsMonotone : Prop :=
  (∀ b b' : F32, unitInterval b = true → unitInterval b' = true → fle b b' = true →
    fle (riserTargetFreq .sine b) (riserTargetFreq .sine b') = true ∧
    within fSinLo fSinHi (riserTargetFreq .sine b) = true) ∧
  (∀ (fs : F32) (r : Rsr), within fSinLo fSinHi r.fsm = true → within fSinLo fSinHi r.ft = true →
    fle r.fsm r.ft = true →
    fle r.fsm (rsrGlide fs r).fsm = true ∧ fle (rsrGlide fs r).fsm r.ft = true) ∧
  ∀ (N : Numerics) (r : Rsr), N.Admissible → within fSinLo fSinHi r.fsm = true → within zero vibDepth r.vdepth = true →
    phaseOk r.vph = true → within zero 0x4580C000#32 (rsrFinst N r) = true

/-- 46_riser.md R236: for the four periodic variants the magnitude of the riser value is at most the level. -/
def Obligations.RiserValueIsBoundedByLevel : Prop :=
  ∀ (N : Numerics) (t : RiserType) (ph level amp : F32), N.Admissible → t ≠ .noise → phaseOk ph = true →
    unitInterval level = true → unitInterval amp = true →
    fle (F32.abs (fmul (fmul (riserWave N t ph) level) amp)) level = true

/-- 41_numerics.md R115: comparison, absolute value and finiteness on exact values. -/
def Obligations.ComparisonIsOfValues : Prop :=
  (∀ a b : F32, F32.isFinite a = true → F32.isFinite b = true →
    (flt a b = true ↔ F32.value a < F32.value b) ∧ (fle a b = true ↔ F32.value a ≤ F32.value b)) ∧
  (∀ a b : F32, F32.isNaN a = true ∨ F32.isNaN b = true → flt a b = false ∧ fle a b = false) ∧
  (∀ a : F32, (F32.isFinite a = true ↔ (a.extractLsb' 23 8) ≠ 0xFF#8) ∧
    (F32.isNaN a = true ↔ (a.extractLsb' 23 8) = 0xFF#8 ∧ (a.extractLsb' 0 23) ≠ 0#23) ∧
    F32.neg? (F32.abs a) = false ∧ (F32.isFinite a = true → F32.value (F32.abs a) = |F32.value a|)) ∧
  fle 0x80000000#32 zero = true ∧ fle zero 0x80000000#32 = true ∧ flt 0x80000000#32 zero = false

/-- 41_numerics.md R111: the four operations are correctly rounded on finite operands, ties to even, with subnormals kept
and overflow to infinity; an exact zero sum or difference is +0.0 unless both operands, the second negated for a difference,
are negative zeros; products and quotients have the sign of their operands' signs, zeros and infinities too; a non-zero
value over zero is an infinity; infinite operands as IEEE 754 says; an operation with a NaN operand, and 0/0, answer a
quiet NaN, of which nothing else is known (log entry 2). -/
def Obligations.ArithmeticIsCorrectlyRounded : Prop :=
  (∀ a b : F32, F32.isFinite a = true → F32.isFinite b = true →
    Nearest (F32.value a + F32.value b) (fadd a b) ∧ Nearest (F32.value a - F32.value b) (fsub a b) ∧
    Nearest (F32.value a * F32.value b) (fmul a b) ∧
    (F32.value b ≠ 0 → Nearest (F32.value a / F32.value b) (fdiv a b)) ∧
    (F32.value a + F32.value b = 0 → fadd a b = if F32.neg? a && F32.neg? b then 0x80000000#32 else 0#32) ∧
    (F32.value b = 0 → F32.value a ≠ 0 →
      F32.isInf (fdiv a b) = true ∧ F32.neg? (fdiv a b) = (F32.neg? a != F32.neg? b)) ∧
    (F32.value b = 0 → F32.value a = 0 → QuietNaN (fdiv a b)) ∧
    (F32.value a - F32.value b = 0 → fsub a b = if F32.neg? a && !F32.neg? b then 0x80000000#32 else 0#32) ∧
    F32.neg? (fmul a b) = (F32.neg? a != F32.neg? b) ∧
    (F32.value b ≠ 0 → F32.neg? (fdiv a b) = (F32.neg? a != F32.neg? b))) ∧
  (∀ a b : F32, F32.isInf a = true → F32.isInf b = true →
    (if F32.neg? a = F32.neg? b then fadd a b = a ∧ QuietNaN (fsub a b)
      else fsub a b = a ∧ QuietNaN (fadd a b)) ∧
    F32.isInf (fmul a b) = true ∧ F32.neg? (fmul a b) = (F32.neg? a != F32.neg? b) ∧ QuietNaN (fdiv a b)) ∧
  (∀ a b : F32, F32.isInf a = true → F32.isFinite b = true →
    fadd a b = a ∧ fadd b a = a ∧ fsub a b = a ∧ fsub b a = a ^^^ 0x80000000#32 ∧
    (if F32.value b = 0 then QuietNaN (fmul a b) ∧ QuietNaN (fmul b a)
      else F32.isInf (fmul a b) = true ∧ F32.neg? (fmul a b) = (F32.neg? a != F32.neg? b) ∧ fmul b a = fmul a b) ∧
    F32.isInf (fdiv a b) = true ∧ F32.neg? (fdiv a b) = (F32.neg? a != F32.neg? b) ∧
    F32.isZero (fdiv b a) = true ∧ F32.neg? (fdiv b a) = (F32.neg? b != F32.neg? a)) ∧
  ∀ a b : F32, F32.isNaN a = true ∨ F32.isNaN b = true →
    ∀ y ∈ [fadd a b, fsub a b, fmul a b, fdiv a b], QuietNaN y

/-- 41_numerics.md R113 (b): the square root of a finite non-negative value is the binary32 value nearest to the exact
root. -/
def Obligations.SquareRootIsCorrectlyRounded : Prop :=
  ∀ a w : F32, F32.isFinite a = true → 0 ≤ F32.value a → F32.isFinite w = true →
    F32.isFinite (fsqrt a) = true ∧
    |((F32.value (fsqrt a) : ℚ) : ℝ) - Real.sqrt ((F32.value a : ℚ) : ℝ)| ≤
      |((F32.value w : ℚ) : ℝ) - Real.sqrt ((F32.value a : ℚ) : ℝ)|

/-! ### The FFT vocoder at a hop -/

/-- 45_vocoder_fft.md R202, R206, R207: the frame of VFT that completes a hop: every channel of the block shifts its input
window, the hop counter returns to 0, channel 0 and then channel 1 is transformed on the shifted windows (by the
transform of `FftVocoderTransform`), and then every channel emits and shifts its accumulator; in a mono block channel 1
is left alone. -/
def Obligations.FftVocoderHopFrame : Prop :=
  ∀ (N : Numerics) (tb : Tables) (stereo : Bool) (v : Voc) (x : Pair F32), v.hopc = 255#32 →
    ∃ s t u : Voc,
      s = { v with hopc := 0#32, vft := s.vft } ∧
      (∀ c, c = .left ∨ stereo = true →
        (s.vft.get c).out = (v.vft.get c).out ∧ (s.vft.get c).env = (v.vft.get c).env ∧
        (∀ i, i < 511 → (s.vft.get c).inp.getD i zero = (v.vft.get c).inp.getD (i + 1) zero) ∧
        (s.vft.get c).inp.getD 511 zero = (if flt zero v.gain = true then x.get c else zero)) ∧
      t = (if stereo = true then vftTransform N tb .right (vftTransform N tb .left s) else vftTransform N tb .left s) ∧
      u = { t with vft := u.vft } ∧
      (∀ c, c = .left ∨ stereo = true →
        (u.vft.get c).inp = (t.vft.get c).inp ∧ (u.vft.get c).env = (t.vft.get c).env ∧
        (∀ i, i < 511 → (u.vft.get c).out.getD i zero = (t.vft.get c).out.getD (i + 1) zero) ∧
        (u.vft.get c).out.getD 511 zero = zero) ∧
      (stereo = false → u.vft.r = v.vft.r) ∧
      (vftTick N tb stereo v x).1 = u ∧
      ∀ c, c = .left ∨ stereo = true → (vftTick N tb stereo v x).2.get c =
        (if flt zero v.gain = true then fadd (x.get c) (fmul ((t.vft.get c).out.getD 0 zero) v.gain) else x.get c)

/-- 45_vocoder_fft.md R207 (corner cases), R209 (c), under every admissible numerics: a transform frame that leaves all
envelopes +0.0 changes no value of the accumulator; the first value after a clear is a zero, for envelopes up to 2^100;
and after 512 frames of silence with envelopes and input window zero the accumulator holds zeros only, the envelopes are
still zero, and a further silent frame adds a zero. R209 is an inference the spec marks as its own; that a transform's
result is finite is log entry 16. -/
def Obligations.FftVocoderFallsSilent : Prop :=
  (∀ (N : Numerics) (tb : Tables) (c : Chan) (v : Voc) (ch ch' : VftChan), N.Admissible → tb.hann = N.hann →
    ch = v.vft.get c → ch' = (vftTransform N tb c v).vft.get c →
    (ch'.env = ⟨0#32, 0#32, 0#32, 0#32⟩ → ∀ i, i < 512 → F32.isFinite (ch.out.getD i one) = true →
      F32.isFinite (ch'.out.getD i one) = true ∧ F32.value (ch'.out.getD i one) = F32.value (ch.out.getD i one)) ∧
    ((∀ k, BoundedBy 100 (ch'.env.get k)) → F32.isZero (ch.out.getD 0 one) = true →
      F32.isZero (ch'.out.getD 0 one) = true)) ∧
  ∀ (N : Numerics) (tb : Tables) (stereo : Bool) (v t : Voc) (c : Chan) (xs : List (Pair F32)),
    N.Admissible → tb.hann = N.hann → F32.isFinite v.arel = true → (c = .left ∨ stereo = true) →
    (∀ i, i < 512 → F32.isZero ((v.vft.get c).inp.getD i one) = true) →
    (v.vft.get c).env = ⟨0#32, 0#32, 0#32, 0#32⟩ → xs.length = 512 →
    (flt zero v.gain = true → ∀ x ∈ xs, F32.isZero (x.get c) = true) →
    t = (runUnit (vftTick N tb stereo) v xs).1 →
    (t.vft.get c).env = ⟨0#32, 0#32, 0#32, 0#32⟩ ∧
    (∀ i, i < 512 → F32.isZero ((t.vft.get c).out.getD i one) = true) ∧
    ∀ x : Pair F32, F32.isFinite v.gain = true → (flt zero v.gain = true → F32.isZero (x.get c) = true) →
      ∃ z, F32.isZero z = true ∧
        (vftTick N tb stereo t x).2.get c = if flt zero v.gain = true then fadd (x.get c) z else x.get c
end

