-- ==== Sys2Proof/Laws/Float.lean ====
section
/-! SUPPORT. Lemmas about binary32 on bit patterns: the order of the values, one lemma that says all of what rounding
does, and for each operation the bounds that follow (an operation whose exact result lies on one side of a binary32
value rounds to that side or to the value itself), and the same for a faithfully rounded function. -/

namespace Sys2Proof.Laws

open Machine Witness

/-! ### The order of the values -/

theorem finite_iff {x : F32} : F32.isFinite x = true ↔ F32.mag x < 2139095040 := by
  unfold F32.isFinite; rw [decide_eq_true_iff]; exact Iff.rfl

theorem notInf_of_finite {x : F32} (h : F32.isFinite x = true) : F32.isInf x = false := by
  rw [finite_iff] at h
  unfold F32.isInf F32.infMag
  simp; omega

theorem mag_lt (x : F32) : F32.mag x < 2 ^ 31 := Nat.mod_lt _ (by decide)

/-- Binary32 comparison of finite values is comparison of the exact values. -/
theorem le_iff_scaledInt {x y : F32} (hx : F32.isFinite x = true) (hy : F32.isFinite y = true) :
    F32.le x y = true ↔ F32.scaledInt x ≤ F32.scaledInt y := by
  unfold F32.le
  simp only [notNaN_of_finite hx, notNaN_of_finite hy, Bool.not_false, Bool.true_and, decide_eq_true_iff]
  rcases lt_trichotomy (F32.key x) (F32.key y) with h | h | h
  · exact iff_of_true h.le (scaledInt_lt_of_key_lt h).le
  · exact iff_of_true h.le (scaledInt_eq_of_key_eq h).le
  · exact iff_of_false (not_le.mpr h) (not_le.mpr (scaledInt_lt_of_key_lt h))

theorem lt_iff_scaledInt {x y : F32} (hx : F32.isFinite x = true) (hy : F32.isFinite y = true) :
    F32.lt x y = true ↔ F32.scaledInt x < F32.scaledInt y := by
  unfold F32.lt
  simp only [notNaN_of_finite hx, notNaN_of_finite hy, Bool.not_false, Bool.true_and, decide_eq_true_iff]
  rcases lt_trichotomy (F32.key x) (F32.key y) with h | h | h
  · exact iff_of_true h (scaledInt_lt_of_key_lt h)
  · exact iff_of_false (by omega) (by rw [scaledInt_eq_of_key_eq h]; omega)
  · exact iff_of_false (by omega) (not_lt.mpr (scaledInt_lt_of_key_lt h).le)

theorem value_le_iff_scaledInt (x y : F32) : F32.value x ≤ F32.value y ↔ F32.scaledInt x ≤ F32.scaledInt y := by
  unfold F32.value
  rw [div_le_div_iff_of_pos_right (by positivity)]
  exact Int.cast_le

theorem value_lt_iff_scaledInt (x y : F32) : F32.value x < F32.value y ↔ F32.scaledInt x < F32.scaledInt y := by
  rw [← not_le, ← not_le, value_le_iff_scaledInt]

theorem le_iff_value {x y : F32} (hx : F32.isFinite x = true) (hy : F32.isFinite y = true) :
    F32.le x y = true ↔ F32.value x ≤ F32.value y := by
  rw [le_iff_scaledInt hx hy, value_le_iff_scaledInt]

theorem lt_iff_value {x y : F32} (hx : F32.isFinite x = true) (hy : F32.isFinite y = true) :
    F32.lt x y = true ↔ F32.value x < F32.value y := by
  rw [lt_iff_scaledInt hx hy, value_lt_iff_scaledInt]

theorem not_isNaN_of_le {x y : F32} (h : F32.le x y = true) : F32.isNaN x = false ∧ F32.isNaN y = false := by
  unfold F32.le at h
  simp only [Bool.and_eq_true, Bool.not_eq_true'] at h
  exact h.1

theorem not_isNaN_of_lt {x y : F32} (h : F32.lt x y = true) : F32.isNaN x = false ∧ F32.isNaN y = false := by
  unfold F32.lt at h
  simp only [Bool.and_eq_true, Bool.not_eq_true'] at h
  exact h.1

theorem key_le_of_le {x y : F32} (h : F32.le x y = true) : F32.key x ≤ F32.key y := by
  unfold F32.le at h
  simp only [Bool.and_eq_true, decide_eq_true_iff] at h
  exact h.2

theorem le_trans {x y z : F32} (h1 : F32.le x y = true) (h2 : F32.le y z = true) : F32.le x z = true :=
  le_of_key_le (not_isNaN_of_le h1).1 (not_isNaN_of_le h2).2 ((key_le_of_le h1).trans (key_le_of_le h2))

theorem le_of_lt {x y : F32} (h : F32.lt x y = true) : F32.le x y = true := by
  unfold F32.lt at h; unfold F32.le
  simp only [Bool.and_eq_true, decide_eq_true_iff] at h ⊢
  exact ⟨h.1, h.2.le⟩

theorem lt_of_lt_of_le {x y z : F32} (h1 : F32.lt x y = true) (h2 : F32.le y z = true) : F32.lt x z = true := by
  unfold F32.lt at h1 ⊢; unfold F32.le at h2
  simp only [Bool.and_eq_true, decide_eq_true_iff] at h1 h2 ⊢
  exact ⟨⟨h1.1.1, h2.1.2⟩, by omega⟩

theorem lt_of_le_of_lt {x y z : F32} (h1 : F32.le x y = true) (h2 : F32.lt y z = true) : F32.lt x z = true := by
  unfold F32.lt at h2 ⊢; unfold F32.le at h1
  simp only [Bool.and_eq_true, decide_eq_true_iff] at h1 h2 ⊢
  exact ⟨⟨h1.1.1, h2.1.2⟩, by omega⟩

/-- Two values that are not NaNs and not in one order are in the other. -/
theorem le_of_not_lt {x y : F32} (hx : F32.isNaN x = false) (hy : F32.isNaN y = false) (h : F32.lt x y = false) :
    F32.le y x = true := by
  unfold F32.lt at h
  simp only [hx, hy, Bool.not_false, Bool.true_and, decide_eq_false_iff_not, not_lt] at h
  exact le_of_key_le hy hx h

/-- A value between two finite values is finite. -/
theorem finite_of_between {lo x hi : F32} (hlo : F32.isFinite lo = true) (hhi : F32.isFinite hi = true)
    (h1 : F32.le lo x = true) (h2 : F32.le x hi = true) : F32.isFinite x = true := by
  have k1 := key_le_of_le h1
  have k2 := key_le_of_le h2
  have b1 := key_finite hlo
  have b2 := key_finite hhi
  rw [finite_iff]
  unfold F32.key at k1 k2
  unfold F32.key at b1 b2
  rw [infMag_eq] at b1 b2
  generalize F32.neg? lo = s1 at *
  generalize F32.neg? x = s2 at *
  generalize F32.neg? hi = s3 at *
  cases s1 <;> cases s2 <;> cases s3 <;> simp at k1 k2 b1 b2 <;> omega

/-! ### Sign and magnitude -/

theorem scaledInt_withSign {s : Bool} {m : Nat} (h : m < 2 ^ 31) :
    F32.scaledInt (F32.withSign s m) = if s then -(scaledOfMag m : Int) else (scaledOfMag m : Int) := by
  rw [scaledInt_eq, neg_withSign h, mag_withSign h]

theorem finite_withSign {s : Bool} {m : Nat} (h : m < F32.infMag) : F32.isFinite (F32.withSign s m) = true := by
  rw [infMag_eq] at h
  rw [finite_iff, mag_withSign (by omega)]; exact h

theorem notNaN_withSign {s : Bool} {m : Nat} (h : m ≤ F32.infMag) : F32.isNaN (F32.withSign s m) = false := by
  have hi := infMag_eq
  unfold F32.isNaN
  rw [mag_withSign (by omega), decide_eq_false_iff_not]; omega

theorem withSign_neg_mag (x : F32) : F32.withSign (F32.neg? x) (F32.mag x) = x := by
  unfold F32.withSign F32.neg? F32.mag
  apply BitVec.eq_of_toNat_eq
  rw [BitVec.toNat_ofNat, BitVec.msb_eq_decide]
  have := x.isLt
  by_cases h : 2 ^ 31 ≤ x.toNat
  · rw [if_pos (by simpa using h)]; omega
  · rw [if_neg (by simpa using h)]; omega

theorem key_withSign {s : Bool} {m : Nat} (h : m < 2 ^ 31) :
    F32.key (F32.withSign s m) = if s then -(m : Int) else (m : Int) := by
  unfold F32.key; rw [neg_withSign h, mag_withSign h]

theorem neg_negate (x : F32) : F32.neg? (F32.negate x) = !F32.neg? x := by
  unfold F32.neg? F32.negate; rw [BitVec.msb_xor, show (0x80000000#32 : F32).msb = true from rfl, Bool.xor_true]

theorem mag_negate (x : F32) : F32.mag (F32.negate x) = F32.mag x := by
  have h : ∀ y : F32, F32.mag y = (y.extractLsb' 0 31).toNat := fun y => by
    unfold F32.mag; rw [BitVec.extractLsb'_toNat, Nat.shiftRight_zero]
  rw [h, h]
  unfold F32.negate
  rw [BitVec.extractLsb'_xor]
  simp

theorem finite_negate (x : F32) : F32.isFinite (F32.negate x) = F32.isFinite x := by
  unfold F32.isFinite; rw [mag_negate]

theorem isNaN_negate (x : F32) : F32.isNaN (F32.negate x) = F32.isNaN x := by
  unfold F32.isNaN; rw [mag_negate]

theorem scaledInt_negate (x : F32) : F32.scaledInt (F32.negate x) = -F32.scaledInt x := by
  rw [scaledInt_eq, scaledInt_eq, mag_negate, neg_negate]
  cases F32.neg? x <;> simp

theorem scaledInt_eq_zero_iff (x : F32) : F32.scaledInt x = 0 ↔ F32.isZero x = true := by
  rw [scaledInt_eq]
  unfold F32.isZero
  rw [beq_iff_eq]
  have : scaledOfMag (F32.mag x) = 0 ↔ F32.mag x = 0 := by
    constructor
    · intro h
      by_contra hc
      have := scaledOfMag_strictMono (Nat.pos_of_ne_zero hc)
      rw [scaledOfMag_zero] at this
      omega
    · intro h; rw [h]; rfl
  split <;> omega

/-! ### Rounding -/

/-- The magnitude with quantum `2^e` and significand `q`. -/
theorem scaledOfMag_compose {e q : Nat} (hq : q ≤ 2 ^ 24) (h : e = 0 ∨ 2 ^ 23 ≤ q) :
    scaledOfMag (e * 2 ^ 23 + q) = q * 2 ^ e := by
  unfold scaledOfMag
  by_cases h1 : q < 2 ^ 23
  · have he : e = 0 := by omega
    subst he
    have h2 : (0 * 2 ^ 23 + q) / 2 ^ 23 = 0 := by omega
    rw [if_pos h2]; omega
  · by_cases h2 : q = 2 ^ 24
    · subst h2
      have hd : (e * 2 ^ 23 + 2 ^ 24) / 2 ^ 23 = e + 2 := by omega
      have hm : (e * 2 ^ 23 + 2 ^ 24) % 2 ^ 23 = 0 := by omega
      rw [hd, hm, if_neg (by omega), Nat.shiftLeft_eq, show e + 2 - 1 = e + 1 by omega, pow_succ]
      ring
    · have hd : (e * 2 ^ 23 + q) / 2 ^ 23 = e + 1 := by omega
      have hm : (e * 2 ^ 23 + q) % 2 ^ 23 = q - 2 ^ 23 := by omega
      rw [hd, hm, if_neg (by omega), Nat.shiftLeft_eq, Nat.add_sub_cancel]
      congr 1; omega

/-- What rounding does: of the two neighbouring magnitudes that enclose `n / d`, the nearer one, the even one at a tie,
and infinity beyond the greatest finite magnitude. -/
theorem roundMag_spec (n : Nat) {d : Nat} (hd : 0 < d) :
    ∃ lo, d * scaledOfMag lo ≤ n ∧ n < d * scaledOfMag (lo + 1) ∧
      F32.roundMag n d = min (if d * (scaledOfMag lo + scaledOfMag (lo + 1)) < 2 * n ∨
        (d * (scaledOfMag lo + scaledOfMag (lo + 1)) = 2 * n ∧ lo % 2 = 1) then lo + 1 else lo) F32.infMag := by
  set f := n / d with hf
  set e := f.log2 - 23 with he
  set u := d <<< e with hu
  set q := n / u with hq
  have hu' : u = d * 2 ^ e := by rw [hu, Nat.shiftLeft_eq]
  have hp : 0 < 2 ^ e := Nat.two_pow_pos e
  have hupos : 0 < u := by rw [hu']; positivity
  have hqf : q = f / 2 ^ e := by rw [hq, hu', hf, Nat.div_div_eq_div_mul]
  have hf24 : f < 2 ^ (e + 24) := by
    rcases Nat.eq_zero_or_pos f with h | h
    · rw [h]; positivity
    · exact (Nat.log2_lt h.ne').mp (by omega)
  have hq24 : q < 2 ^ 24 := by
    rw [hqf, Nat.div_lt_iff_lt_mul hp, ← pow_add, Nat.add_comm 24 e]; exact hf24
  have hq23 : e = 0 ∨ 2 ^ 23 ≤ q := by
    rcases Nat.eq_zero_or_pos e with h | h
    · exact Or.inl h
    · right
      have h0 : f ≠ 0 := by intro h0; rw [h0] at he; simp at he; omega
      rw [hqf, Nat.le_div_iff_mul_le hp, ← pow_add]
      exact (Nat.le_log2 h0).mp (by omega)
  have hlo : scaledOfMag (e * 2 ^ 23 + q) = q * 2 ^ e := scaledOfMag_compose (by omega) hq23
  have hhi : scaledOfMag (e * 2 ^ 23 + q + 1) = (q + 1) * 2 ^ e := by
    rw [Nat.add_assoc]; exact scaledOfMag_compose (by omega) (by omega)
  have hdm : u * q + n % u = n := Nat.div_add_mod n u
  have hr : n % u < u := Nat.mod_lt _ hupos
  have e1 : d * (q * 2 ^ e) = u * q := by rw [hu']; ring
  have e2 : d * ((q + 1) * 2 ^ e) = u * q + u := by rw [hu']; ring
  have e3 : d * (q * 2 ^ e + (q + 1) * 2 ^ e) = 2 * (u * q) + u := by rw [hu']; ring
  refine ⟨e * 2 ^ 23 + q, ?_, ?_, ?_⟩
  · rw [hlo, e1]; omega
  · rw [hhi, e2]; omega
  · rw [hlo, hhi, e3]
    have hpar : (e * 2 ^ 23 + q) % 2 = q % 2 := by omega
    rw [hpar]
    change min (e * 2 ^ 23 + (if u < 2 * (n % u) ∨ (2 * (n % u) = u ∧ q % 2 = 1) then q + 1 else q)) F32.infMag = _
    by_cases hc : u < 2 * (n % u) ∨ (2 * (n % u) = u ∧ q % 2 = 1)
    · rw [if_pos hc, if_pos (by omega), Nat.add_assoc]
    · rw [if_neg hc, if_neg (by omega)]

theorem roundMag_le_infMag (n d : Nat) : F32.roundMag n d ≤ F32.infMag := Nat.min_le_right _ _

/-- Rounding does not pass a representable magnitude from below. -/
theorem roundMag_le {n d m : Nat} (hd : 0 < d) (h : n ≤ d * scaledOfMag m) : F32.roundMag n d ≤ m := by
  obtain ⟨lo, h1, h2, h3⟩ := roundMag_spec n hd
  rw [h3]
  have hmono := scaledOfMag_lt_succ lo
  rcases Nat.lt_or_ge lo m with hlt | hge
  · refine (Nat.min_le_left _ _).trans ?_
    split <;> omega
  · have hle := scaledOfMag_strictMono.monotone hge
    have hn : n = d * scaledOfMag lo := Nat.le_antisymm (h.trans (Nat.mul_le_mul_left d hle)) h1
    have heq : scaledOfMag m = scaledOfMag lo :=
      Nat.le_antisymm hle (Nat.le_of_mul_le_mul_left (hn ▸ h) hd)
    have hml : m = lo := scaledOfMag_strictMono.injective heq
    refine (Nat.min_le_left _ _).trans ?_
    have hgt : 2 * n < d * (scaledOfMag lo + scaledOfMag (lo + 1)) := by
      rw [hn, Nat.mul_add]
      have := Nat.mul_lt_mul_of_pos_left hmono hd
      omega
    rw [if_neg (by omega)]; omega

/-- Rounding does not pass a representable magnitude from above. -/
theorem le_roundMag {n d m : Nat} (hd : 0 < d) (hm : m ≤ F32.infMag) (h : d * scaledOfMag m ≤ n) :
    m ≤ F32.roundMag n d := by
  obtain ⟨lo, h1, h2, h3⟩ := roundMag_spec n hd
  rw [h3]
  have : scaledOfMag m < scaledOfMag (lo + 1) := Nat.lt_of_mul_lt_mul_left (Nat.lt_of_le_of_lt h h2)
  have hlt := scaledOfMag_strictMono.lt_iff_lt.mp this
  refine Nat.le_min.mpr ⟨?_, hm⟩
  split <;> omega

/-- A representable magnitude rounds to itself. -/
theorem roundMag_exact {d m : Nat} (hd : 0 < d) (hm : m ≤ F32.infMag) : F32.roundMag (d * scaledOfMag m) d = m :=
  Nat.le_antisymm (roundMag_le hd (Nat.le_refl _)) (le_roundMag hd hm (Nat.le_refl _))

/-! ### Signed rounding -/

/-- Key and exact value of a pattern by its sign. -/
theorem sign_cases (c : F32) :
    (F32.key c = (F32.mag c : Int) ∧ F32.scaledInt c = (scaledOfMag (F32.mag c) : Int)) ∨
      (F32.key c = -(F32.mag c : Int) ∧ F32.scaledInt c = -(scaledOfMag (F32.mag c) : Int)) := by
  rw [scaledInt_eq]
  unfold F32.key
  cases F32.neg? c with
  | false => exact Or.inl ⟨rfl, rfl⟩
  | true => exact Or.inr ⟨rfl, rfl⟩

theorem eq_zero_of_scaledOfMag {m : Nat} (h : scaledOfMag m = 0) : m = 0 := by
  by_contra hne
  have := scaledOfMag_strictMono (Nat.pos_of_ne_zero hne)
  rw [scaledOfMag_zero] at this
  omega

/-- The signed rounding of `z / d`, in units of 2^-149. -/
def signedRound (z : Int) (d : Nat) : F32 := F32.withSign (decide (z < 0)) (F32.roundMag z.natAbs d)

theorem notNaN_signedRound (z : Int) (d : Nat) : F32.isNaN (signedRound z d) = false :=
  notNaN_withSign (roundMag_le_infMag _ _)

theorem key_signedRound (z : Int) (d : Nat) :
    (0 ≤ z ∧ F32.key (signedRound z d) = (F32.roundMag z.natAbs d : Int)) ∨
      (z < 0 ∧ F32.key (signedRound z d) = -(F32.roundMag z.natAbs d : Int)) := by
  have hi := infMag_eq
  have hr := roundMag_le_infMag z.natAbs d
  unfold signedRound
  rw [key_withSign (by omega)]
  by_cases hz : z < 0
  · exact Or.inr ⟨hz, if_pos (decide_eq_true hz)⟩
  · exact Or.inl ⟨not_lt.mp hz, if_neg (by rw [decide_eq_true_iff]; exact hz)⟩

theorem natAbs_le_mul {z : Int} {d m : Nat} (h : z ≤ (d : Int) * (m : Int)) (h' : -z ≤ (d : Int) * (m : Int)) :
    z.natAbs ≤ d * m := by
  have : (z.natAbs : Int) ≤ ((d * m : Nat) : Int) := by push_cast; exact abs_le'.mpr ⟨h, h'⟩
  exact_mod_cast this

theorem mul_le_natAbs {z : Int} {d m : Nat} (h : (d : Int) * (m : Int) ≤ z ∨ (d : Int) * (m : Int) ≤ -z) :
    d * m ≤ z.natAbs := by
  have : ((d * m : Nat) : Int) ≤ (z.natAbs : Int) := by push_cast; exact le_abs.mpr h
  exact_mod_cast this

/-- A value that the exact `z / d` is not below is not above its rounding. -/
theorem le_signedRound {c : F32} {z : Int} {d : Nat} (hd : 0 < d) (hc : F32.isFinite c = true)
    (h : (d : Int) * F32.scaledInt c ≤ z) : F32.le c (signedRound z d) = true := by
  have hi := infMag_eq
  have hcm := finite_iff.mp hc
  refine le_of_key_le (notNaN_of_finite hc) (notNaN_signedRound z d) ?_
  have hnn : (0 : Int) ≤ (d : Int) * (scaledOfMag (F32.mag c) : Int) := by positivity
  rcases sign_cases c with ⟨hk, hs⟩ | ⟨hk, hs⟩ <;> rw [hs] at h <;> rw [hk] <;>
    rcases key_signedRound z d with ⟨hz, hr⟩ | ⟨hz, hr⟩ <;> rw [hr]
  · have := le_roundMag hd (by omega) (mul_le_natAbs (Or.inl h))
    omega
  · omega
  · omega
  · have := roundMag_le hd (natAbs_le_mul (z := z) (m := scaledOfMag (F32.mag c)) (by linarith) (by linarith))
    omega

/-- A value that the exact `z / d` is not above is not below its rounding. -/
theorem signedRound_le {c : F32} {z : Int} {d : Nat} (hd : 0 < d) (hc : F32.isFinite c = true)
    (h : z ≤ (d : Int) * F32.scaledInt c) : F32.le (signedRound z d) c = true := by
  have hi := infMag_eq
  have hcm := finite_iff.mp hc
  refine le_of_key_le (notNaN_signedRound z d) (notNaN_of_finite hc) ?_
  have hnn : (0 : Int) ≤ (d : Int) * (scaledOfMag (F32.mag c) : Int) := by positivity
  rcases sign_cases c with ⟨hk, hs⟩ | ⟨hk, hs⟩ <;> rw [hs] at h <;> rw [hk] <;>
    rcases key_signedRound z d with ⟨hz, hr⟩ | ⟨hz, hr⟩ <;> rw [hr]
  · have := roundMag_le hd (natAbs_le_mul h (by omega))
    omega
  · omega
  · have h0 : (d : Int) * (scaledOfMag (F32.mag c) : Int) = 0 := by linarith
    have h1 : F32.mag c = 0 := by
      rcases mul_eq_zero.mp h0 with h2 | h2
      · omega
      · exact eq_zero_of_scaledOfMag (by exact_mod_cast h2)
    have hz0 : z = 0 := by linarith
    have := roundMag_le (n := z.natAbs) (m := 0) hd (by rw [hz0]; exact Nat.zero_le _)
    omega
  · have := le_roundMag hd (by omega) (mul_le_natAbs (z := z) (m := scaledOfMag (F32.mag c)) (Or.inr (by linarith)))
    omega

/-- The rounding of a representable value is that value, up to the sign of a zero. -/
theorem signedRound_exact {c : F32} {d : Nat} (hd : 0 < d) (hc : F32.isFinite c = true) (h0 : F32.isZero c = false) :
    signedRound ((d : Int) * F32.scaledInt c) d = c := by
  have hcm := finite_iff.mp hc
  have hpos : 0 < scaledOfMag (F32.mag c) := by
    refine Nat.pos_of_ne_zero fun h => ?_
    unfold F32.isZero at h0
    rw [eq_zero_of_scaledOfMag h] at h0
    exact absurd h0 (by decide)
  have hdp : 0 < d * scaledOfMag (F32.mag c) := Nat.mul_pos hd hpos
  have key : ∀ s, F32.neg? c = s →
      signedRound ((d : Int) * F32.scaledInt c) d = F32.withSign s (F32.mag c) := by
    intro s hs
    have hz : (d : Int) * F32.scaledInt c
        = if s then -((d * scaledOfMag (F32.mag c) : Nat) : Int) else ((d * scaledOfMag (F32.mag c) : Nat) : Int) := by
      rw [scaledInt_eq, hs]; cases s <;> push_cast <;> simp
    unfold signedRound
    rw [hz]
    cases s with
    | false =>
      rw [if_neg (by decide), decide_eq_false (by omega), Int.natAbs_natCast, roundMag_exact hd (by rw [infMag_eq]; omega)]
    | true =>
      rw [if_pos rfl, decide_eq_true (by omega), Int.natAbs_neg, Int.natAbs_natCast,
        roundMag_exact hd (by rw [infMag_eq]; omega)]
  rw [key _ rfl, withSign_neg_mag]

/-! ### The operations on finite operands -/

/-- Addition of finite values is the rounding of the exact sum, or a zero. -/
theorem fadd_finite {a b : F32} (ha : F32.isFinite a = true) (hb : F32.isFinite b = true) :
    fadd a b = if F32.scaledInt a + F32.scaledInt b = 0 then F32.withSign (F32.neg? a && F32.neg? b) 0
      else signedRound (F32.scaledInt a + F32.scaledInt b) 1 := by
  unfold fadd F32.add
  simp only [notNaN_of_finite ha, notNaN_of_finite hb, notInf_of_finite ha, notInf_of_finite hb, Bool.or_self,
    Bool.false_eq_true, if_false]
  rfl

theorem fsub_finite {a b : F32} (ha : F32.isFinite a = true) (hb : F32.isFinite b = true) :
    fsub a b = if F32.scaledInt a - F32.scaledInt b = 0 then F32.withSign (F32.neg? a && !F32.neg? b) 0
      else signedRound (F32.scaledInt a - F32.scaledInt b) 1 := by
  have hn : F32.isFinite (F32.negate b) = true := (finite_negate b).trans hb
  unfold fsub F32.sub F32.add
  simp only [notNaN_of_finite ha, notNaN_of_finite hb, notNaN_of_finite hn, notInf_of_finite ha, notInf_of_finite hn,
    Bool.or_self, Bool.false_eq_true, if_false, scaledInt_negate, neg_negate, ← sub_eq_add_neg]
  rfl

theorem isZero_withSign_zero (s : Bool) : F32.isZero (F32.withSign s 0) = true := by cases s <;> decide

theorem finite_withSign_zero (s : Bool) : F32.isFinite (F32.withSign s 0) = true := by cases s <;> decide

theorem scaledInt_withSign_zero (s : Bool) : F32.scaledInt (F32.withSign s 0) = 0 := by cases s <;> decide

/-- A finite value bounds a zero by its own sign. -/
theorem fadd_le {a b c : F32} (ha : F32.isFinite a = true) (hb : F32.isFinite b = true) (hc : F32.isFinite c = true)
    (h : F32.scaledInt a + F32.scaledInt b ≤ F32.scaledInt c) : F32.le (fadd a b) c = true := by
  rw [fadd_finite ha hb]
  split
  · rw [le_iff_scaledInt (finite_withSign_zero _) hc, scaledInt_withSign_zero]; omega
  · exact signedRound_le Nat.one_pos hc (by rw [Nat.cast_one, one_mul]; exact h)

theorem le_fadd {a b c : F32} (ha : F32.isFinite a = true) (hb : F32.isFinite b = true) (hc : F32.isFinite c = true)
    (h : F32.scaledInt c ≤ F32.scaledInt a + F32.scaledInt b) : F32.le c (fadd a b) = true := by
  rw [fadd_finite ha hb]
  split
  · rw [le_iff_scaledInt hc (finite_withSign_zero _), scaledInt_withSign_zero]; omega
  · exact le_signedRound Nat.one_pos hc (by rw [Nat.cast_one, one_mul]; exact h)

theorem fsub_le {a b c : F32} (ha : F32.isFinite a = true) (hb : F32.isFinite b = true) (hc : F32.isFinite c = true)
    (h : F32.scaledInt a - F32.scaledInt b ≤ F32.scaledInt c) : F32.le (fsub a b) c = true := by
  rw [fsub_finite ha hb]
  split
  · rw [le_iff_scaledInt (finite_withSign_zero _) hc, scaledInt_withSign_zero]; omega
  · exact signedRound_le Nat.one_pos hc (by rw [Nat.cast_one, one_mul]; exact h)

theorem le_fsub {a b c : F32} (ha : F32.isFinite a = true) (hb : F32.isFinite b = true) (hc : F32.isFinite c = true)
    (h : F32.scaledInt c ≤ F32.scaledInt a - F32.scaledInt b) : F32.le c (fsub a b) = true := by
  rw [fsub_finite ha hb]
  split
  · rw [le_iff_scaledInt hc (finite_withSign_zero _), scaledInt_withSign_zero]; omega
  · exact le_signedRound Nat.one_pos hc (by rw [Nat.cast_one, one_mul]; exact h)

/-- A sum whose exact value is a representable non-zero value is that value. -/
theorem fadd_exact {a b c : F32} (ha : F32.isFinite a = true) (hb : F32.isFinite b = true) (hc : F32.isFinite c = true)
    (h0 : F32.isZero c = false) (h : F32.scaledInt a + F32.scaledInt b = F32.scaledInt c) : fadd a b = c := by
  have hne : F32.scaledInt c ≠ 0 := fun h1 => by rw [(scaledInt_eq_zero_iff c).mp h1] at h0; exact absurd h0 (by decide)
  rw [fadd_finite ha hb, h, if_neg hne]
  have := signedRound_exact Nat.one_pos hc h0
  rwa [Nat.cast_one, one_mul] at this

theorem fsub_exact {a b c : F32} (ha : F32.isFinite a = true) (hb : F32.isFinite b = true) (hc : F32.isFinite c = true)
    (h0 : F32.isZero c = false) (h : F32.scaledInt a - F32.scaledInt b = F32.scaledInt c) : fsub a b = c := by
  have hne : F32.scaledInt c ≠ 0 := fun h1 => by rw [(scaledInt_eq_zero_iff c).mp h1] at h0; exact absurd h0 (by decide)
  rw [fsub_finite ha hb, h, if_neg hne]
  have := signedRound_exact Nat.one_pos hc h0
  rwa [Nat.cast_one, one_mul] at this

theorem natAbs_scaledInt (x : F32) : (F32.scaledInt x).natAbs = F32.scaled x := by
  rw [scaledInt_eq, scaled_eq]; split <;> simp

/-- The sign of a product or quotient of non-zero operands. -/
theorem sign_mul {a b : F32} (ha : F32.isZero a = false) (hb : F32.isZero b = false) :
    (F32.neg? a != F32.neg? b) = decide (F32.scaledInt a * F32.scaledInt b < 0) := by
  have hpos : ∀ x : F32, F32.isZero x = false → 0 < (scaledOfMag (F32.mag x) : Int) := by
    intro x hx
    refine Int.natCast_pos.mpr (Nat.pos_of_ne_zero fun h => ?_)
    unfold F32.isZero at hx
    rw [eq_zero_of_scaledOfMag h] at hx
    exact absurd hx (by decide)
  have h1 := hpos a ha
  have h2 := hpos b hb
  have h3 := mul_pos h1 h2
  rw [scaledInt_eq, scaledInt_eq]
  cases F32.neg? a <;> cases F32.neg? b <;> simp <;> linarith

/-- Multiplication of finite non-zero values is the rounding of the exact product. -/
theorem fmul_finite {a b : F32} (ha : F32.isFinite a = true) (hb : F32.isFinite b = true)
    (ha0 : F32.isZero a = false) (hb0 : F32.isZero b = false) :
    fmul a b = signedRound (F32.scaledInt a * F32.scaledInt b) (2 ^ 149) := by
  unfold fmul F32.mul signedRound
  simp only [notNaN_of_finite ha, notNaN_of_finite hb, notInf_of_finite ha, notInf_of_finite hb, Bool.or_self,
    Bool.false_eq_true, if_false, sign_mul ha0 hb0, Int.natAbs_mul, natAbs_scaledInt]

theorem roundMag_zero (d : Nat) : F32.roundMag 0 d = 0 := by
  unfold F32.roundMag; simp

/-- A product with a zero is a zero. -/
theorem fmul_zero_of {a b : F32} (ha : F32.isFinite a = true) (hb : F32.isFinite b = true)
    (h : F32.isZero a = true ∨ F32.isZero b = true) : fmul a b = F32.withSign (F32.neg? a != F32.neg? b) 0 := by
  have hs : F32.scaled a * F32.scaled b = 0 := by
    rw [← natAbs_scaledInt, ← natAbs_scaledInt]
    rcases h with h | h <;> rw [(scaledInt_eq_zero_iff _).mpr h] <;> simp
  unfold fmul F32.mul
  simp only [notNaN_of_finite ha, notNaN_of_finite hb, notInf_of_finite ha, notInf_of_finite hb, Bool.or_self,
    Bool.false_eq_true, if_false, hs, roundMag_zero]

theorem fmul_le {a b c : F32} (ha : F32.isFinite a = true) (hb : F32.isFinite b = true) (hc : F32.isFinite c = true)
    (h : F32.scaledInt a * F32.scaledInt b ≤ 2 ^ 149 * F32.scaledInt c) : F32.le (fmul a b) c = true := by
  by_cases hz : F32.isZero a = true ∨ F32.isZero b = true
  · have h0 : F32.scaledInt a * F32.scaledInt b = 0 := by
      rcases hz with hz | hz <;> rw [(scaledInt_eq_zero_iff _).mpr hz] <;> simp
    rw [fmul_zero_of ha hb hz, le_iff_scaledInt (finite_withSign_zero _) hc, scaledInt_withSign_zero]
    rw [h0] at h; omega
  · rw [not_or, Bool.not_eq_true, Bool.not_eq_true] at hz
    rw [fmul_finite ha hb hz.1 hz.2]
    exact signedRound_le (by positivity) hc (by exact_mod_cast h)

theorem le_fmul {a b c : F32} (ha : F32.isFinite a = true) (hb : F32.isFinite b = true) (hc : F32.isFinite c = true)
    (h : 2 ^ 149 * F32.scaledInt c ≤ F32.scaledInt a * F32.scaledInt b) : F32.le c (fmul a b) = true := by
  by_cases hz : F32.isZero a = true ∨ F32.isZero b = true
  · have h0 : F32.scaledInt a * F32.scaledInt b = 0 := by
      rcases hz with hz | hz <;> rw [(scaledInt_eq_zero_iff _).mpr hz] <;> simp
    rw [fmul_zero_of ha hb hz, le_iff_scaledInt hc (finite_withSign_zero _), scaledInt_withSign_zero]
    rw [h0] at h; omega
  · rw [not_or, Bool.not_eq_true, Bool.not_eq_true] at hz
    rw [fmul_finite ha hb hz.1 hz.2]
    exact le_signedRound (by positivity) hc (by exact_mod_cast h)

/-- Division by a finite positive value is the rounding of the exact quotient, or a zero. -/
theorem fdiv_finite {a b : F32} (ha : F32.isFinite a = true) (hb : F32.isFinite b = true)
    (hpos : 0 < F32.scaledInt b) :
    fdiv a b = if F32.scaledInt a = 0 then F32.withSign (F32.neg? a != F32.neg? b) 0
      else signedRound (F32.scaledInt a * 2 ^ 149) (F32.scaled b) := by
  have hbz : F32.isZero b = false := by
    rw [← Bool.not_eq_true, ← scaledInt_eq_zero_iff]; omega
  unfold fdiv F32.div
  simp only [notNaN_of_finite ha, notNaN_of_finite hb, notInf_of_finite ha, notInf_of_finite hb, hbz, Bool.or_self,
    Bool.false_eq_true, if_false]
  by_cases h0 : F32.scaledInt a = 0
  · rw [if_pos h0]
    have : F32.scaled a = 0 := by rw [← natAbs_scaledInt, h0]; rfl
    rw [this, Nat.zero_mul, roundMag_zero]
  · rw [if_neg h0]
    have haz : F32.isZero a = false := by rw [← Bool.not_eq_true, ← scaledInt_eq_zero_iff]; exact h0
    unfold signedRound
    rw [sign_mul haz hbz, Int.natAbs_mul, natAbs_scaledInt]
    have hsgn : (F32.scaledInt a * F32.scaledInt b < 0) ↔ (F32.scaledInt a * 2 ^ 149 < 0) := by
      constructor <;> intro h <;> nlinarith
    rw [decide_eq_decide.mpr hsgn]
    rfl

theorem fdiv_le {a b c : F32} (ha : F32.isFinite a = true) (hb : F32.isFinite b = true) (hc : F32.isFinite c = true)
    (hpos : 0 < F32.scaledInt b) (h : F32.scaledInt a * 2 ^ 149 ≤ F32.scaledInt b * F32.scaledInt c) :
    F32.le (fdiv a b) c = true := by
  have hsb : (F32.scaled b : Int) = F32.scaledInt b := by rw [← natAbs_scaledInt]; omega
  rw [fdiv_finite ha hb hpos]
  split
  · rename_i h0
    rw [le_iff_scaledInt (finite_withSign_zero _) hc, scaledInt_withSign_zero]
    rw [h0, zero_mul] at h
    exact Int.not_lt.mp fun hn => by nlinarith
  · exact signedRound_le (by omega) hc (by rw [hsb]; exact h)

theorem le_fdiv {a b c : F32} (ha : F32.isFinite a = true) (hb : F32.isFinite b = true) (hc : F32.isFinite c = true)
    (hpos : 0 < F32.scaledInt b) (h : F32.scaledInt b * F32.scaledInt c ≤ F32.scaledInt a * 2 ^ 149) :
    F32.le c (fdiv a b) = true := by
  have hsb : (F32.scaled b : Int) = F32.scaledInt b := by rw [← natAbs_scaledInt]; omega
  rw [fdiv_finite ha hb hpos]
  split
  · rename_i h0
    rw [le_iff_scaledInt hc (finite_withSign_zero _), scaledInt_withSign_zero]
    rw [h0, zero_mul] at h
    exact Int.not_lt.mp fun hn => by nlinarith
  · exact le_signedRound (by omega) hc (by rw [hsb]; exact h)

/-! ### Faithfully rounded functions -/

/-- A faithful rounding does not pass a finite value from below. -/
theorem faithful_le {y : ℝ} {v c : F32} (h : Faithful y v) (hc : F32.isFinite c = true)
    (hy : y ≤ ((F32.value c : ℚ) : ℝ)) : F32.le v c = true := by
  rcases h with ⟨hv | hv, -⟩ | ⟨-, hmin⟩
  · rw [le_iff_value hv.1 hc]
    have := hv.2.trans hy
    exact_mod_cast this
  · refine le_of_key_le (notNaN_of_inf hv.1) (notNaN_of_finite hc) ?_
    rw [key_negInf hv.1 hv.2]
    exact (key_finite hc).1.le
  · exact hmin c (Or.inl ⟨hc, hy⟩)

/-- A faithful rounding does not pass a finite value from above. -/
theorem le_faithful {y : ℝ} {v c : F32} (h : Faithful y v) (hc : F32.isFinite c = true)
    (hy : ((F32.value c : ℚ) : ℝ) ≤ y) : F32.le c v = true := by
  rcases h with ⟨-, hmax⟩ | ⟨hv | hv, -⟩
  · exact hmax c (Or.inl ⟨hc, hy⟩)
  · rw [le_iff_value hc hv.1]
    have := hy.trans hv.2
    exact_mod_cast this
  · refine le_of_key_le (notNaN_of_finite hc) (notNaN_of_inf hv.1) ?_
    rw [key_posInf hv.1 hv.2]
    exact (key_finite hc).2.le

end Sys2Proof.Laws
end

