-- ==== Sys2Proof/Laws/State.lean ====
section
/-! SUPPORT. One lemma per field per update of State, true by `rfl`, so that no later proof unfolds a record update; and
the read-after-write lemmas of the containers State is made of. -/

namespace Sys2Proof.Laws

open Machine

/-! ### The response -/

@[simp] theorem respond_p (st : BitVec 8) (r0 r1 r2 r3 : Word) (s : State) :
    (respond st r0 r1 r2 r3 s).p = s.p := rfl

@[simp] theorem respond_a (st : BitVec 8) (r0 r1 r2 r3 : Word) (s : State) :
    (respond st r0 r1 r2 r3 s).a = s.a := rfl

@[simp] theorem respond_mode (st : BitVec 8) (r0 r1 r2 r3 : Word) (s : State) :
    (respond st r0 r1 r2 r3 s).mode = s.mode := rfl

@[simp] theorem respond_n (st : BitVec 8) (r0 r1 r2 r3 : Word) (s : State) :
    (respond st r0 r1 r2 r3 s).n = s.n := rfl

@[simp] theorem respond_blkLen (st : BitVec 8) (r0 r1 r2 r3 : Word) (s : State) :
    (respond st r0 r1 r2 r3 s).blkLen = s.blkLen := rfl

@[simp] theorem respond_blkNch (st : BitVec 8) (r0 r1 r2 r3 : Word) (s : State) :
    (respond st r0 r1 r2 r3 s).blkNch = s.blkNch := rfl

@[simp] theorem respond_bypass (st : BitVec 8) (r0 r1 r2 r3 : Word) (s : State) :
    (respond st r0 r1 r2 r3 s).bypass = s.bypass := rfl

@[simp] theorem respond_fs (st : BitVec 8) (r0 r1 r2 r3 : Word) (s : State) :
    (respond st r0 r1 r2 r3 s).fs = s.fs := rfl

@[simp] theorem respond_maxblk (st : BitVec 8) (r0 r1 r2 r3 : Word) (s : State) :
    (respond st r0 r1 r2 r3 s).maxblk = s.maxblk := rfl

@[simp] theorem respond_tables (st : BitVec 8) (r0 r1 r2 r3 : Word) (s : State) :
    (respond st r0 r1 r2 r3 s).tables = s.tables := rfl

@[simp] theorem respond_buS (st : BitVec 8) (r0 r1 r2 r3 : Word) (s : State) :
    (respond st r0 r1 r2 r3 s).buS = s.buS := rfl

@[simp] theorem respond_fb (st : BitVec 8) (r0 r1 r2 r3 : Word) (s : State) :
    (respond st r0 r1 r2 r3 s).fb = s.fb := rfl

@[simp] theorem respond_voc (st : BitVec 8) (r0 r1 r2 r3 : Word) (s : State) :
    (respond st r0 r1 r2 r3 s).voc = s.voc := rfl

@[simp] theorem respond_rsr (st : BitVec 8) (r0 r1 r2 r3 : Word) (s : State) :
    (respond st r0 r1 r2 r3 s).rsr = s.rsr := rfl

@[simp] theorem respond_errCause (st : BitVec 8) (r0 r1 r2 r3 : Word) (s : State) :
    (respond st r0 r1 r2 r3 s).errCause = s.errCause := rfl

@[simp] theorem respond_errCmd (st : BitVec 8) (r0 r1 r2 r3 : Word) (s : State) :
    (respond st r0 r1 r2 r3 s).errCmd = s.errCmd := rfl

@[simp] theorem respond_errSticky (st : BitVec 8) (r0 r1 r2 r3 : Word) (s : State) :
    (respond st r0 r1 r2 r3 s).errSticky = s.errSticky := rfl

@[simp] theorem respond_port (st : BitVec 8) (r0 r1 r2 r3 : Word) (s : State) :
    (respond st r0 r1 r2 r3 s).port = s.port := rfl

@[simp] theorem respond_resp (st : BitVec 8) (r0 r1 r2 r3 : Word) (s : State) :
    (respond st r0 r1 r2 r3 s).resp = some ⟨st.setWidth 32, r0, r1, r2, r3⟩ := rfl

/-! ### The response OK -/

@[simp] theorem ok_p (s : State) :
    (Machine.ok s).p = s.p := rfl

@[simp] theorem ok_a (s : State) :
    (Machine.ok s).a = s.a := rfl

@[simp] theorem ok_mode (s : State) :
    (Machine.ok s).mode = s.mode := rfl

@[simp] theorem ok_n (s : State) :
    (Machine.ok s).n = s.n := rfl

@[simp] theorem ok_blkLen (s : State) :
    (Machine.ok s).blkLen = s.blkLen := rfl

@[simp] theorem ok_blkNch (s : State) :
    (Machine.ok s).blkNch = s.blkNch := rfl

@[simp] theorem ok_bypass (s : State) :
    (Machine.ok s).bypass = s.bypass := rfl

@[simp] theorem ok_fs (s : State) :
    (Machine.ok s).fs = s.fs := rfl

@[simp] theorem ok_maxblk (s : State) :
    (Machine.ok s).maxblk = s.maxblk := rfl

@[simp] theorem ok_tables (s : State) :
    (Machine.ok s).tables = s.tables := rfl

@[simp] theorem ok_buS (s : State) :
    (Machine.ok s).buS = s.buS := rfl

@[simp] theorem ok_fb (s : State) :
    (Machine.ok s).fb = s.fb := rfl

@[simp] theorem ok_voc (s : State) :
    (Machine.ok s).voc = s.voc := rfl

@[simp] theorem ok_rsr (s : State) :
    (Machine.ok s).rsr = s.rsr := rfl

@[simp] theorem ok_errCause (s : State) :
    (Machine.ok s).errCause = s.errCause := rfl

@[simp] theorem ok_errCmd (s : State) :
    (Machine.ok s).errCmd = s.errCmd := rfl

@[simp] theorem ok_errSticky (s : State) :
    (Machine.ok s).errSticky = s.errSticky := rfl

@[simp] theorem ok_port (s : State) :
    (Machine.ok s).port = s.port := rfl

@[simp] theorem ok_resp (s : State) :
    (Machine.ok s).resp = some okResponse := rfl

/-! ### The refusal -/

@[simp] theorem refuse_p (c : Cause) (cw : Word) (s : State) :
    (refuse c cw s).p = s.p := rfl

@[simp] theorem refuse_a (c : Cause) (cw : Word) (s : State) :
    (refuse c cw s).a = s.a := rfl

@[simp] theorem refuse_mode (c : Cause) (cw : Word) (s : State) :
    (refuse c cw s).mode = s.mode := rfl

@[simp] theorem refuse_n (c : Cause) (cw : Word) (s : State) :
    (refuse c cw s).n = s.n := rfl

@[simp] theorem refuse_blkLen (c : Cause) (cw : Word) (s : State) :
    (refuse c cw s).blkLen = s.blkLen := rfl

@[simp] theorem refuse_blkNch (c : Cause) (cw : Word) (s : State) :
    (refuse c cw s).blkNch = s.blkNch := rfl

@[simp] theorem refuse_bypass (c : Cause) (cw : Word) (s : State) :
    (refuse c cw s).bypass = s.bypass := rfl

@[simp] theorem refuse_fs (c : Cause) (cw : Word) (s : State) :
    (refuse c cw s).fs = s.fs := rfl

@[simp] theorem refuse_maxblk (c : Cause) (cw : Word) (s : State) :
    (refuse c cw s).maxblk = s.maxblk := rfl

@[simp] theorem refuse_tables (c : Cause) (cw : Word) (s : State) :
    (refuse c cw s).tables = s.tables := rfl

@[simp] theorem refuse_buS (c : Cause) (cw : Word) (s : State) :
    (refuse c cw s).buS = s.buS := rfl

@[simp] theorem refuse_fb (c : Cause) (cw : Word) (s : State) :
    (refuse c cw s).fb = s.fb := rfl

@[simp] theorem refuse_voc (c : Cause) (cw : Word) (s : State) :
    (refuse c cw s).voc = s.voc := rfl

@[simp] theorem refuse_rsr (c : Cause) (cw : Word) (s : State) :
    (refuse c cw s).rsr = s.rsr := rfl

@[simp] theorem refuse_errCause (c : Cause) (cw : Word) (s : State) :
    (refuse c cw s).errCause = c.code := rfl

@[simp] theorem refuse_errCmd (c : Cause) (cw : Word) (s : State) :
    (refuse c cw s).errCmd = cw := rfl

@[simp] theorem refuse_errSticky (c : Cause) (cw : Word) (s : State) :
    (refuse c cw s).errSticky = true := rfl

@[simp] theorem refuse_port (c : Cause) (cw : Word) (s : State) :
    (refuse c cw s).port = s.port := rfl

@[simp] theorem refuse_resp (c : Cause) (cw : Word) (s : State) :
    (refuse c cw s).resp = some (refusedResponse c) := rfl

/-! ### DSP_RESET -/

@[simp] theorem dspReset_p (s : State) :
    (dspReset s).p = s.p := rfl

@[simp] theorem dspReset_a (s : State) :
    (dspReset s).a = s.a := rfl

@[simp] theorem dspReset_mode (s : State) :
    (dspReset s).mode = s.mode := rfl

@[simp] theorem dspReset_n (s : State) :
    (dspReset s).n = s.n := rfl

@[simp] theorem dspReset_blkLen (s : State) :
    (dspReset s).blkLen = s.blkLen := rfl

@[simp] theorem dspReset_blkNch (s : State) :
    (dspReset s).blkNch = s.blkNch := rfl

@[simp] theorem dspReset_bypass (s : State) :
    (dspReset s).bypass = false := rfl

@[simp] theorem dspReset_fs (s : State) :
    (dspReset s).fs = s.fs := rfl

@[simp] theorem dspReset_maxblk (s : State) :
    (dspReset s).maxblk = s.maxblk := rfl

@[simp] theorem dspReset_tables (s : State) :
    (dspReset s).tables = s.tables := rfl

@[simp] theorem dspReset_buS (s : State) :
    (dspReset s).buS = zero := rfl

@[simp] theorem dspReset_fb (s : State) :
    (dspReset s).fb = Fb.atReset := rfl

@[simp] theorem dspReset_voc (s : State) :
    (dspReset s).voc = Voc.atReset := rfl

@[simp] theorem dspReset_rsr (s : State) :
    (dspReset s).rsr = Rsr.atReset := rfl

@[simp] theorem dspReset_errCause (s : State) :
    (dspReset s).errCause = s.errCause := rfl

@[simp] theorem dspReset_errCmd (s : State) :
    (dspReset s).errCmd = s.errCmd := rfl

@[simp] theorem dspReset_errSticky (s : State) :
    (dspReset s).errSticky = s.errSticky := rfl

@[simp] theorem dspReset_port (s : State) :
    (dspReset s).port = s.port := rfl

@[simp] theorem dspReset_resp (s : State) :
    (dspReset s).resp = s.resp := rfl

/-! ### The snapshot -/

@[simp] theorem snapshot_p (s : State) :
    (snapshot s).p = s.p := rfl

@[simp] theorem snapshot_a (s : State) :
    (snapshot s).a = s.p := rfl

@[simp] theorem snapshot_mode (s : State) :
    (snapshot s).mode = s.mode := rfl

@[simp] theorem snapshot_n (s : State) :
    (snapshot s).n = s.n := rfl

@[simp] theorem snapshot_blkLen (s : State) :
    (snapshot s).blkLen = s.blkLen := rfl

@[simp] theorem snapshot_blkNch (s : State) :
    (snapshot s).blkNch = s.blkNch := rfl

@[simp] theorem snapshot_bypass (s : State) :
    (snapshot s).bypass = s.bypass := rfl

@[simp] theorem snapshot_fs (s : State) :
    (snapshot s).fs = s.fs := rfl

@[simp] theorem snapshot_maxblk (s : State) :
    (snapshot s).maxblk = s.maxblk := rfl

@[simp] theorem snapshot_tables (s : State) :
    (snapshot s).tables = s.tables := rfl

@[simp] theorem snapshot_buS (s : State) :
    (snapshot s).buS = s.buS := rfl

@[simp] theorem snapshot_fb (s : State) :
    (snapshot s).fb = s.fb := rfl

@[simp] theorem snapshot_voc (s : State) :
    (snapshot s).voc = s.voc := rfl

@[simp] theorem snapshot_rsr (s : State) :
    (snapshot s).rsr = s.rsr := rfl

@[simp] theorem snapshot_errCause (s : State) :
    (snapshot s).errCause = s.errCause := rfl

@[simp] theorem snapshot_errCmd (s : State) :
    (snapshot s).errCmd = s.errCmd := rfl

@[simp] theorem snapshot_errSticky (s : State) :
    (snapshot s).errSticky = s.errSticky := rfl

@[simp] theorem snapshot_port (s : State) :
    (snapshot s).port = s.port := rfl

@[simp] theorem snapshot_resp (s : State) :
    (snapshot s).resp = s.resp := rfl

/-! ### BYPASS_CLEAR -/

@[simp] theorem bypassClear_p (s : State) :
    (bypassClear s).p = s.p := rfl

@[simp] theorem bypassClear_a (s : State) :
    (bypassClear s).a = s.a := rfl

@[simp] theorem bypassClear_mode (s : State) :
    (bypassClear s).mode = s.mode := rfl

@[simp] theorem bypassClear_n (s : State) :
    (bypassClear s).n = s.n := rfl

@[simp] theorem bypassClear_blkLen (s : State) :
    (bypassClear s).blkLen = s.blkLen := rfl

@[simp] theorem bypassClear_blkNch (s : State) :
    (bypassClear s).blkNch = s.blkNch := rfl

@[simp] theorem bypassClear_bypass (s : State) :
    (bypassClear s).bypass = s.bypass := rfl

@[simp] theorem bypassClear_fs (s : State) :
    (bypassClear s).fs = s.fs := rfl

@[simp] theorem bypassClear_maxblk (s : State) :
    (bypassClear s).maxblk = s.maxblk := rfl

@[simp] theorem bypassClear_tables (s : State) :
    (bypassClear s).tables = s.tables := rfl

@[simp] theorem bypassClear_buS (s : State) :
    (bypassClear s).buS = zero := rfl

@[simp] theorem bypassClear_fb (s : State) :
    (bypassClear s).fb = fbNeutral s.fb := rfl

@[simp] theorem bypassClear_voc (s : State) :
    (bypassClear s).voc = { s.voc.clear with gain := zero } := rfl

@[simp] theorem bypassClear_rsr (s : State) :
    (bypassClear s).rsr = s.rsr.bypassClear := rfl

@[simp] theorem bypassClear_errCause (s : State) :
    (bypassClear s).errCause = s.errCause := rfl

@[simp] theorem bypassClear_errCmd (s : State) :
    (bypassClear s).errCmd = s.errCmd := rfl

@[simp] theorem bypassClear_errSticky (s : State) :
    (bypassClear s).errSticky = s.errSticky := rfl

@[simp] theorem bypassClear_port (s : State) :
    (bypassClear s).port = s.port := rfl

@[simp] theorem bypassClear_resp (s : State) :
    (bypassClear s).resp = s.resp := rfl

/-! ### The setup of a non-bypass block -/

@[simp] theorem activeSetup_p (N : Numerics) (s : State) :
    (activeSetup N s).p = s.p := rfl

@[simp] theorem activeSetup_a (N : Numerics) (s : State) :
    (activeSetup N s).a = s.a := rfl

@[simp] theorem activeSetup_mode (N : Numerics) (s : State) :
    (activeSetup N s).mode = s.mode := rfl

@[simp] theorem activeSetup_n (N : Numerics) (s : State) :
    (activeSetup N s).n = s.n := rfl

@[simp] theorem activeSetup_blkLen (N : Numerics) (s : State) :
    (activeSetup N s).blkLen = s.blkLen := rfl

@[simp] theorem activeSetup_blkNch (N : Numerics) (s : State) :
    (activeSetup N s).blkNch = s.blkNch := rfl

@[simp] theorem activeSetup_bypass (N : Numerics) (s : State) :
    (activeSetup N s).bypass = false := rfl

@[simp] theorem activeSetup_fs (N : Numerics) (s : State) :
    (activeSetup N s).fs = s.fs := rfl

@[simp] theorem activeSetup_maxblk (N : Numerics) (s : State) :
    (activeSetup N s).maxblk = s.maxblk := rfl

@[simp] theorem activeSetup_tables (N : Numerics) (s : State) :
    (activeSetup N s).tables = s.tables := rfl

@[simp] theorem activeSetup_buS (N : Numerics) (s : State) :
    (activeSetup N s).buS = smoothBuildUp s.a s.buS := rfl

@[simp] theorem activeSetup_fb (N : Numerics) (s : State) :
    (activeSetup N s).fb = fbUpdate N s.fs s.a (smoothBuildUp s.a s.buS) s.fb := rfl

@[simp] theorem activeSetup_voc (N : Numerics) (s : State) :
    (activeSetup N s).voc = vocUpdate N s.fs s.a (smoothBuildUp s.a s.buS) s.voc := rfl

@[simp] theorem activeSetup_rsr (N : Numerics) (s : State) :
    (activeSetup N s).rsr = rsrUpdate N s.fs s.a (smoothBuildUp s.a s.buS) s.rsr := rfl

@[simp] theorem activeSetup_errCause (N : Numerics) (s : State) :
    (activeSetup N s).errCause = s.errCause := rfl

@[simp] theorem activeSetup_errCmd (N : Numerics) (s : State) :
    (activeSetup N s).errCmd = s.errCmd := rfl

@[simp] theorem activeSetup_errSticky (N : Numerics) (s : State) :
    (activeSetup N s).errSticky = s.errSticky := rfl

@[simp] theorem activeSetup_port (N : Numerics) (s : State) :
    (activeSetup N s).port = s.port := rfl

@[simp] theorem activeSetup_resp (N : Numerics) (s : State) :
    (activeSetup N s).resp = s.resp := rfl

/-! ### A non-bypass frame -/

@[simp] theorem activeFrame_p (N : Numerics) (stereo : Bool) (s : State) (x : Pair F32) :
    ((activeFrame N stereo s x).1).p = s.p := rfl

@[simp] theorem activeFrame_a (N : Numerics) (stereo : Bool) (s : State) (x : Pair F32) :
    ((activeFrame N stereo s x).1).a = s.a := rfl

@[simp] theorem activeFrame_mode (N : Numerics) (stereo : Bool) (s : State) (x : Pair F32) :
    ((activeFrame N stereo s x).1).mode = s.mode := rfl

@[simp] theorem activeFrame_n (N : Numerics) (stereo : Bool) (s : State) (x : Pair F32) :
    ((activeFrame N stereo s x).1).n = s.n := rfl

@[simp] theorem activeFrame_blkLen (N : Numerics) (stereo : Bool) (s : State) (x : Pair F32) :
    ((activeFrame N stereo s x).1).blkLen = s.blkLen := rfl

@[simp] theorem activeFrame_blkNch (N : Numerics) (stereo : Bool) (s : State) (x : Pair F32) :
    ((activeFrame N stereo s x).1).blkNch = s.blkNch := rfl

@[simp] theorem activeFrame_bypass (N : Numerics) (stereo : Bool) (s : State) (x : Pair F32) :
    ((activeFrame N stereo s x).1).bypass = s.bypass := rfl

@[simp] theorem activeFrame_fs (N : Numerics) (stereo : Bool) (s : State) (x : Pair F32) :
    ((activeFrame N stereo s x).1).fs = s.fs := rfl

@[simp] theorem activeFrame_maxblk (N : Numerics) (stereo : Bool) (s : State) (x : Pair F32) :
    ((activeFrame N stereo s x).1).maxblk = s.maxblk := rfl

@[simp] theorem activeFrame_tables (N : Numerics) (stereo : Bool) (s : State) (x : Pair F32) :
    ((activeFrame N stereo s x).1).tables = s.tables := rfl

@[simp] theorem activeFrame_buS (N : Numerics) (stereo : Bool) (s : State) (x : Pair F32) :
    ((activeFrame N stereo s x).1).buS = s.buS := rfl

@[simp] theorem activeFrame_fb (N : Numerics) (stereo : Bool) (s : State) (x : Pair F32) :
    ((activeFrame N stereo s x).1).fb = (fbFrame stereo s.fb x).1 := rfl

@[simp] theorem activeFrame_voc (N : Numerics) (stereo : Bool) (s : State) (x : Pair F32) :
    ((activeFrame N stereo s x).1).voc = (vocFrame N s.tables s.a stereo s.voc (fbFrame stereo s.fb x).2).1 := rfl

@[simp] theorem activeFrame_rsr (N : Numerics) (stereo : Bool) (s : State) (x : Pair F32) :
    ((activeFrame N stereo s x).1).rsr = (rsrTick N s.fs (RiserType.ofCode s.a.riserType) stereo s.rsr
      (vocFrame N s.tables s.a stereo s.voc (fbFrame stereo s.fb x).2).2).1 := rfl

@[simp] theorem activeFrame_errCause (N : Numerics) (stereo : Bool) (s : State) (x : Pair F32) :
    ((activeFrame N stereo s x).1).errCause = s.errCause := rfl

@[simp] theorem activeFrame_errCmd (N : Numerics) (stereo : Bool) (s : State) (x : Pair F32) :
    ((activeFrame N stereo s x).1).errCmd = s.errCmd := rfl

@[simp] theorem activeFrame_errSticky (N : Numerics) (stereo : Bool) (s : State) (x : Pair F32) :
    ((activeFrame N stereo s x).1).errSticky = s.errSticky := rfl

@[simp] theorem activeFrame_port (N : Numerics) (stereo : Bool) (s : State) (x : Pair F32) :
    ((activeFrame N stereo s x).1).port = s.port := rfl

@[simp] theorem activeFrame_resp (N : Numerics) (stereo : Bool) (s : State) (x : Pair F32) :
    ((activeFrame N stereo s x).1).resp = s.resp := rfl

/-! ### The arrival of a command -/

@[simp] theorem withFetchWord_p (s : State) (nbits w : Nat) :
    (s.withFetchWord nbits w).p = s.p := rfl

@[simp] theorem withFetchWord_a (s : State) (nbits w : Nat) :
    (s.withFetchWord nbits w).a = s.a := rfl

@[simp] theorem withFetchWord_mode (s : State) (nbits w : Nat) :
    (s.withFetchWord nbits w).mode = s.mode := rfl

@[simp] theorem withFetchWord_n (s : State) (nbits w : Nat) :
    (s.withFetchWord nbits w).n = s.n := rfl

@[simp] theorem withFetchWord_blkLen (s : State) (nbits w : Nat) :
    (s.withFetchWord nbits w).blkLen = s.blkLen := rfl

@[simp] theorem withFetchWord_blkNch (s : State) (nbits w : Nat) :
    (s.withFetchWord nbits w).blkNch = s.blkNch := rfl

@[simp] theorem withFetchWord_bypass (s : State) (nbits w : Nat) :
    (s.withFetchWord nbits w).bypass = s.bypass := rfl

@[simp] theorem withFetchWord_fs (s : State) (nbits w : Nat) :
    (s.withFetchWord nbits w).fs = s.fs := rfl

@[simp] theorem withFetchWord_maxblk (s : State) (nbits w : Nat) :
    (s.withFetchWord nbits w).maxblk = s.maxblk := rfl

@[simp] theorem withFetchWord_tables (s : State) (nbits w : Nat) :
    (s.withFetchWord nbits w).tables = s.tables := rfl

@[simp] theorem withFetchWord_buS (s : State) (nbits w : Nat) :
    (s.withFetchWord nbits w).buS = s.buS := rfl

@[simp] theorem withFetchWord_fb (s : State) (nbits w : Nat) :
    (s.withFetchWord nbits w).fb = s.fb := rfl

@[simp] theorem withFetchWord_voc (s : State) (nbits w : Nat) :
    (s.withFetchWord nbits w).voc = s.voc := rfl

@[simp] theorem withFetchWord_rsr (s : State) (nbits w : Nat) :
    (s.withFetchWord nbits w).rsr = s.rsr := rfl

@[simp] theorem withFetchWord_errCause (s : State) (nbits w : Nat) :
    (s.withFetchWord nbits w).errCause = s.errCause := rfl

@[simp] theorem withFetchWord_errCmd (s : State) (nbits w : Nat) :
    (s.withFetchWord nbits w).errCmd = s.errCmd := rfl

@[simp] theorem withFetchWord_errSticky (s : State) (nbits w : Nat) :
    (s.withFetchWord nbits w).errSticky = s.errSticky := rfl

@[simp] theorem withFetchWord_port (s : State) (nbits w : Nat) :
    (s.withFetchWord nbits w).port = bundleOfBits nbits w :: s.port := rfl

@[simp] theorem withFetchWord_resp (s : State) (nbits w : Nat) :
    (s.withFetchWord nbits w).resp = s.resp := rfl

/-! ### Containers -/

@[simp] theorem pair_get_set_self {α : Type} (p : Pair α) (c : Chan) (x : α) : (p.set c x).get c = x := by
  cases c <;> rfl

theorem pair_get_set {α : Type} (p : Pair α) (c d : Chan) (x : α) :
    (p.set c x).get d = if d = c then x else p.get d := by
  cases c <;> cases d <;> rfl

theorem pair_ext {α : Type} {p q : Pair α} (h : ∀ c, p.get c = q.get c) : p = q := by
  cases p; cases q
  exact congr (congrArg Pair.mk (h .left)) (h .right)

@[simp] theorem quad_get_set_self {α : Type} (q : Quad α) (k : Fin 4) (x : α) : (q.set k x).get k = x := by
  match k with
  | 0 => rfl
  | 1 => rfl
  | 2 => rfl
  | 3 => rfl

theorem quad_get_set {α : Type} (q : Quad α) (k j : Fin 4) (x : α) :
    (q.set k x).get j = if j = k then x else q.get j := by
  match k, j with
  | 0, 0 => rfl
  | 0, 1 => rfl
  | 0, 2 => rfl
  | 0, 3 => rfl
  | 1, 0 => rfl
  | 1, 1 => rfl
  | 1, 2 => rfl
  | 1, 3 => rfl
  | 2, 0 => rfl
  | 2, 1 => rfl
  | 2, 2 => rfl
  | 2, 3 => rfl
  | 3, 0 => rfl
  | 3, 1 => rfl
  | 3, 2 => rfl
  | 3, 3 => rfl

theorem quad_ext {α : Type} {p q : Quad α} (h : ∀ k, p.get k = q.get k) : p = q := by
  cases p; cases q
  exact congr (congr (congr (congrArg Quad.mk (h 0)) (h 1)) (h 2)) (h 3)

@[simp] theorem quad_get_all {α : Type} (x : α) (k : Fin 4) : (Quad.all x).get k = x := by
  match k with
  | 0 => rfl
  | 1 => rfl
  | 2 => rfl
  | 3 => rfl

@[simp] theorem quad_get_tab {α : Type} (f : Fin 4 → α) (k : Fin 4) : (Quad.tab f).get k = f k := by
  match k with
  | 0 => rfl
  | 1 => rfl
  | 2 => rfl
  | 3 => rfl

@[simp] theorem quad_get_map {α β : Type} (f : α → β) (q : Quad α) (k : Fin 4) : (q.map f).get k = f (q.get k) := by
  match k with
  | 0 => rfl
  | 1 => rfl
  | 2 => rfl
  | 3 => rfl

/-- Buffers with equal elements are equal. -/
theorem buf_ext {α : Type} {n : Nat} {a b : Buf α n} (h : a.cells = b.cells) : a = b := by
  cases a; cases b; cases h; rfl

@[simp] theorem buf_getD_tab {α : Type} {n : Nat} (f : Nat → α) {i : Nat} (d : α) (h : i < n) :
    (Buf.tab n f).getD i d = f i := by
  simp [Buf.tab, Buf.getD, h]

@[simp] theorem buf_getD_fill {α : Type} {n : Nat} (x : α) {i : Nat} (d : α) (h : i < n) :
    (Buf.fill n x).getD i d = x := by
  simp [Buf.fill, Buf.getD, h]

/-- The elements of an element-by-element combination. -/
theorem buf_getD_zip {α β γ : Type} {n : Nat} (f : α → β → γ) (a : Buf α n) (b : Buf β n) {i : Nat} (da : α) (db : β)
    (d : γ) (h : i < n) : (a.zip f b).getD i d = f (a.getD i da) (b.getD i db) := by
  simp [Buf.zip, Buf.getD, List.getD_eq_getElem?_getD, a.len, b.len, h]

/-- A shift moves every element down by one position. -/
theorem buf_getD_shiftIn {α : Type} {n : Nat} (b : Buf α (n + 1)) (x : α) {i : Nat} (d : α) (h : i < n) :
    (b.shiftIn x).getD i d = b.getD (i + 1) d := by
  simp [Buf.shiftIn, Buf.getD, List.getD_eq_getElem?_getD, List.getElem?_append, b.len, h]

/-- A shift puts the new element at the last position. -/
@[simp] theorem buf_getD_shiftIn_last {α : Type} {n : Nat} (b : Buf α (n + 1)) (x d : α) :
    (b.shiftIn x).getD n d = x := by
  simp [Buf.shiftIn, Buf.getD, List.getD_eq_getElem?_getD, b.len]

/-! ### Parameter registers -/

/-- Reading a register of the file after a write to one register of it. -/
theorem params_get_set (p : Params) (r r' : ParamReg) (v : Word) :
    (p.set r v).get r' = if r' = r then v else p.get r' := by
  cases r <;> cases r' <;> rfl

/-- A parameter register is found at its index. -/
@[simp] theorem paramReg_ofIdx_idx (r : ParamReg) : ParamReg.ofIdx r.idx = some r := by cases r <;> rfl

/-- The register found at an index has that index. -/
theorem paramReg_idx_of_ofIdx {idx : BitVec 8} {r : ParamReg} (h : ParamReg.ofIdx idx = some r) : r.idx = idx := by
  revert idx r
  decide +kernel

/-- A status register is found at its index. -/
@[simp] theorem statusReg_ofIdx_idx (r : StatusReg) : StatusReg.ofIdx r.idx = some r := by
  cases r <;> first | rfl | (rename_i c k; cases c <;> fin_cases k <;> rfl) | (rename_i k; fin_cases k <;> rfl)

/-- The status register found at an index has that index. -/
theorem statusReg_idx_of_ofIdx {idx : BitVec 8} {r : StatusReg} (h : StatusReg.ofIdx idx = some r) : r.idx = idx := by
  have key : ∀ i : BitVec 8, (match StatusReg.ofIdx i with
      | some r => r.idx == i
      | none => true) = true := by decide +kernel
  have := key idx
  rw [h] at this
  exact eq_of_beq this

end Sys2Proof.Laws
end

