-- ==== Sys2Proof/Laws/Ops.lean ====
section
/-! SUPPORT. For each shared operation one lemma that says all it can do, which a proof cites instead of unfolding it. -/

namespace Sys2Proof.Laws

open Machine

/-! ### Fetch and step -/

/-- Fetching answers the oldest command and the rest of the port, or nothing from an empty port. -/
theorem fetch_eq (s : State) :
    (s.port = [] ∧ fetch s = none) ∨ ∃ b rest, s.port = b :: rest ∧ fetch s = some (b, { s with port := rest }) := by
  unfold fetch
  cases h : s.port with
  | nil => exact Or.inl ⟨rfl, rfl⟩
  | cons b rest => exact Or.inr ⟨b, rest, rfl, rfl⟩

/-- What a step can do: nothing on an empty port, the meaning of the decoded command, or the refusal BADOP. -/
theorem step_cases {s t : State} (h : step s = .next t) :
    (s.port = [] ∧ t = s) ∨
      (∃ b rest i, s.port = b :: rest ∧ decode b = .ok i ∧ exec i { s with port := rest } = .next t) ∨
      ∃ b rest e, s.port = b :: rest ∧ decode b = .error e ∧ t = refuse .badop b.cw { s with port := rest } := by
  rcases fetch_eq s with ⟨hp, hf⟩ | ⟨b, rest, hp, hf⟩
  · refine Or.inl ⟨hp, ?_⟩
    unfold step at h
    rw [hf] at h
    exact (Host.Outcome.next.inj h).symm
  · right
    unfold step at h
    rw [hf] at h
    cases hd : decode b with
    | ok i =>
      simp only [hd] at h
      exact Or.inl ⟨b, rest, i, hp, hd, h⟩
    | error e =>
      simp only [hd] at h
      exact Or.inr ⟨b, rest, e, hp, hd, (Host.Outcome.next.inj h).symm⟩

/-! ### The order of the checks -/

/-- The first cause of a list: none when every condition is false, otherwise the cause of the first true condition. -/
theorem firstCause_cons (b : Bool) (c : Cause) (rest : List (Bool × Cause)) :
    firstCause ((b, c) :: rest) = if b then some c else firstCause rest := rfl

theorem firstCause_eq_none_iff (l : List (Bool × Cause)) : firstCause l = none ↔ ∀ x ∈ l, x.1 = false := by
  induction l with
  | nil => exact iff_of_true rfl (fun _ h => absurd h List.not_mem_nil)
  | cons x rest ih =>
    obtain ⟨b, c⟩ := x
    rw [firstCause_cons]
    cases b
    · simp [ih]
    · simp

/-- Executing a decoded command always answers a next state: the refusal with its cause, or the command's effect. -/
theorem conclude_eq (i : Instr) (cause : Option Cause) (done : State → State) (s : State) :
    conclude i cause done s = .next (match cause with
      | some c => refuse c i.cw s
      | none => done s) := by
  cases cause <;> rfl

/-- The cause for which a command is refused in a state. -/
def causeOf : Instr → State → Option Cause
  | .nop, _ => none
  | .prepare fs mb, s => prepareCause fs mb s
  | .reset, s => resetCause s
  | .wrp idx v, _ => wrpCause idx v
  | .rdp idx, _ => rdpCause idx
  | .rds idx, _ => rdsCause idx
  | .beginBlock m nch, s => beginCause m nch s
  | .frame l r, s => frameCause l r s
  | .endBlock, s => endCause s

/-- The effect of an accepted command. -/
def doneOf : Instr → State → State
  | .nop, s => Machine.ok s
  | .prepare fs mb, s => prepareDone Config.num fs mb s
  | .reset, s => resetDone s
  | .wrp idx v, s => wrpDone idx v s
  | .rdp idx, s => rdpDone idx s
  | .rds idx, s => rdsDone idx s
  | .beginBlock m nch, s => beginDone Config.num m nch s
  | .frame l r, s => frameDone Config.num l r s
  | .endBlock, s => endDone s

/-- What executing a command can do: the one inversion lemma of `exec`. -/
theorem exec_eq (i : Instr) (s : State) :
    exec i s = .next (match causeOf i s with
      | some c => refuse c i.cw s
      | none => doneOf i s) := by
  cases i with
  | nop => exact conclude_eq .nop none Machine.ok s
  | prepare fs mb => exact conclude_eq (.prepare fs mb) (prepareCause fs mb s) (prepareDone Config.num fs mb) s
  | reset => exact conclude_eq .reset (resetCause s) resetDone s
  | wrp idx v => exact conclude_eq (.wrp idx v) (wrpCause idx v) (wrpDone idx v) s
  | rdp idx => exact conclude_eq (.rdp idx) (rdpCause idx) (rdpDone idx) s
  | rds idx => exact conclude_eq (.rds idx) (rdsCause idx) (rdsDone idx) s
  | beginBlock m nch => exact conclude_eq (.beginBlock m nch) (beginCause m nch s) (beginDone Config.num m nch) s
  | frame l r => exact conclude_eq (.frame l r) (frameCause l r s) (frameDone Config.num l r) s
  | endBlock => exact conclude_eq .endBlock (endCause s) endDone s

theorem exec_cases {i : Instr} {s t : State} (h : exec i s = .next t) :
    (∃ c, causeOf i s = some c ∧ t = refuse c i.cw s) ∨ (causeOf i s = none ∧ t = doneOf i s) := by
  rw [exec_eq] at h
  have h' := (Host.Outcome.next.inj h).symm
  cases hc : causeOf i s with
  | some c => rw [hc] at h'; exact Or.inl ⟨c, rfl, h'⟩
  | none => rw [hc] at h'; exact Or.inr ⟨rfl, h'⟩

/-! ### Block setup and frame pipeline -/

/-- What the block setup can do: bypass with its clearing, or the smoother and the three unit updates. -/
theorem blockSetup_cases (N : Numerics) (s : State) :
    (isBypassBlock s.p = true ∧ blockSetup N s = bypassClear { snapshot s with bypass := true }) ∨
      (isBypassBlock s.p = false ∧ blockSetup N s = activeSetup N (snapshot s)) := by
  unfold blockSetup
  cases h : isBypassBlock s.p with
  | true => exact Or.inl ⟨rfl, if_pos h⟩
  | false => exact Or.inr ⟨rfl, if_neg (by rw [snapshot_a, h]; exact Bool.false_ne_true)⟩

/-- What the frame pipeline can do: return the input, or run the three units. -/
theorem framePipe_cases (N : Numerics) (stereo : Bool) (s : State) (x : Pair F32) :
    (s.bypass = true ∧ framePipe N stereo s x = (s, ⟨x, x⟩)) ∨
      (s.bypass = false ∧ framePipe N stereo s x = activeFrame N stereo s x) := by
  unfold framePipe
  cases s.bypass with
  | true => exact Or.inl ⟨rfl, if_pos rfl⟩
  | false => exact Or.inr ⟨rfl, if_neg Bool.false_ne_true⟩

/-- The response of a frame changes the response field alone. -/
theorem frameRespond_eq (stereo : Bool) (o : FrameOut) (s : State) :
    frameRespond stereo o s = { s with resp := some (if stereo = true then ⟨0#32, o.out.l, o.out.r, o.send.l, o.send.r⟩
      else ⟨0#32, o.out.l, 0#32, o.send.l, 0#32⟩) } := by
  cases stereo <;> rfl

/-- What one stage does in a frame: its settings, flag and coefficients never change, and an inactive stage changes
nothing at all. -/
theorem stage_tick_frame (c : Chan) (t : Chain) (st : Stage) (x : F32) :
    (st.tick c t x).1.fc = st.fc ∧ (st.tick c t x).1.q = st.q ∧ (st.tick c t x).1.act = st.act ∧
      (st.tick c t x).1.co = st.co ∧ (st.act = false → st.tick c t x = (st, x)) := by
  unfold Stage.tick
  cases h : st.act <;> simp [h]

/-- What the hop counter does: it returns to 0 and a transform is due, or it advances and none is. -/
theorem vftHop_cases (v : Voc) :
    (v.hopc + 1#32 = hop ∧ vftHop v = ({ v with hopc := 0#32 }, true)) ∨
      (v.hopc + 1#32 ≠ hop ∧ vftHop v = ({ v with hopc := v.hopc + 1#32 }, false)) := by
  unfold vftHop
  by_cases h : v.hopc + 1#32 = hop
  · exact Or.inl ⟨h, if_pos h⟩
  · exact Or.inr ⟨h, if_neg h⟩

/-- A transform frame of channel `c` changes that channel's envelopes and accumulator and the generator, nothing else. -/
theorem vftTransform_frame (N : Numerics) (tb : Tables) (c : Chan) (v : Voc) :
    ∃ env out, vftTransform N tb c v =
      { v with vft := v.vft.set c { v.vft.get c with env := env, out := out }, rng := noiseAfter v.rng } :=
  ⟨_, _, rfl⟩

/-- What a frame emits: the oldest value of the accumulator, scaled and added, or the sample unchanged. -/
theorem vftEmit_eq (c : Chan) (v : Voc) (x : F32) :
    vftEmit c v x = ({ v with vft := v.vft.set c { v.vft.get c with out := (v.vft.get c).out.shiftIn zero } },
      if flt zero v.gain = true then fadd x (fmul ((v.vft.get c).out.getD 0 zero) v.gain) else x) := rfl

/-- The riser's frame changes none of the per-block values. -/
theorem rsrTick_frame (N : Numerics) (fs : F32) (t : RiserType) (stereo : Bool) (r : Rsr) (x : Pair F32) :
    (rsrTick N fs t stereo r x).1.target = r.target ∧ (rsrTick N fs t stereo r x).1.katt = r.katt ∧
      (rsrTick N fs t stereo r x).1.krel = r.krel ∧ (rsrTick N fs t stereo r x).1.ft = r.ft ∧
      (rsrTick N fs t stereo r x).1.vdepth = r.vdepth ∧ (rsrTick N fs t stereo r x).1.vrate = r.vrate ∧
      (rsrTick N fs t stereo r x).1.amp = r.amp ∧ (rsrTick N fs t stereo r x).1.nzco = r.nzco := by
  cases t <;> exact ⟨rfl, rfl, rfl, rfl, rfl, rfl, rfl, rfl⟩

end Sys2Proof.Laws
end

