-- ==== Sys2Proof/Laws/PerInstr.lean ====
section
/-! SUPPORT. Statements about every command, made command by command. `LegalEncoding` says that the encoder writes a
legal command word: an assigned opcode, no reserved bit, and an index only where the opcode takes one (30_encoding.md
R76, R80). -/

namespace Sys2Proof.Laws

/-- An assembled command word as a number. -/
theorem commandWord_toNat (op idx : BitVec 8) : (commandWord op idx).toNat = op.toNat * 2 ^ 24 + idx.toNat * 2 ^ 16 := by
  unfold commandWord
  have h1 := op.isLt
  have h2 := idx.isLt
  rw [BitVec.toNat_append, BitVec.toNat_append, BitVec.toNat_ofNat, Nat.shiftLeft_eq, Nat.shiftLeft_eq,
    Nat.zero_mod, Nat.or_zero, Nat.mul_comm op.toNat, ← Nat.two_pow_add_eq_or_of_lt h2]
  omega

/-- The opcode field of an assembled command word. -/
theorem op_commandWord (op idx : BitVec 8) (a b : Word) : (Bundle.mk (commandWord op idx) a b).op = op := by
  have h1 := op.isLt
  have h2 := idx.isLt
  apply BitVec.eq_of_toNat_eq
  unfold Bundle.op
  rw [BitVec.extractLsb'_toNat, commandWord_toNat, Nat.shiftRight_eq_div_pow]
  omega

/-- The index field of an assembled command word. -/
theorem idx_commandWord (op idx : BitVec 8) (a b : Word) : (Bundle.mk (commandWord op idx) a b).idx = idx := by
  have h1 := op.isLt
  have h2 := idx.isLt
  apply BitVec.eq_of_toNat_eq
  unfold Bundle.idx
  rw [BitVec.extractLsb'_toNat, commandWord_toNat, Nat.shiftRight_eq_div_pow]
  omega

/-- The reserved field of an assembled command word is zero. -/
theorem rsv_commandWord (op idx : BitVec 8) (a b : Word) : (Bundle.mk (commandWord op idx) a b).rsv = 0#16 := by
  apply BitVec.eq_of_toNat_eq
  unfold Bundle.rsv
  rw [BitVec.extractLsb'_toNat, commandWord_toNat, Nat.shiftRight_eq_div_pow, BitVec.toNat_ofNat]
  omega

theorem commandWord_wellFormed {op idx : BitVec 8} (a b : Word) (h : op ≤ 8#8) (hi : takesIndex op = true ∨ idx = 0#8) :
    (Bundle.mk (commandWord op idx) a b).wellFormed = true := by
  unfold Bundle.wellFormed
  rw [op_commandWord, idx_commandWord, rsv_commandWord]
  rcases hi with hi | hi <;> simp [hi, h]

/-- The encoder writes a legal command word. -/
def LegalEncoding.Statement (i : Instr) : Prop := (encode i).wellFormed = true

theorem LegalEncoding.nop : LegalEncoding.Statement .nop := commandWord_wellFormed _ _ (by decide) (Or.inr rfl)

theorem LegalEncoding.prepare (fs : F32) (maxblk : Word) : LegalEncoding.Statement (.prepare fs maxblk) :=
  commandWord_wellFormed _ _ (by decide) (Or.inr rfl)

theorem LegalEncoding.reset : LegalEncoding.Statement .reset := commandWord_wellFormed _ _ (by decide) (Or.inr rfl)

theorem LegalEncoding.wrp (idx : BitVec 8) (value : Word) : LegalEncoding.Statement (.wrp idx value) :=
  commandWord_wellFormed _ _ (by decide) (Or.inl rfl)

theorem LegalEncoding.rdp (idx : BitVec 8) : LegalEncoding.Statement (.rdp idx) :=
  commandWord_wellFormed _ _ (by decide) (Or.inl rfl)

theorem LegalEncoding.rds (idx : BitVec 8) : LegalEncoding.Statement (.rds idx) :=
  commandWord_wellFormed _ _ (by decide) (Or.inl rfl)

theorem LegalEncoding.beginBlock (m nch : Word) : LegalEncoding.Statement (.beginBlock m nch) :=
  commandWord_wellFormed _ _ (by decide) (Or.inr rfl)

theorem LegalEncoding.frame (l r : F32) : LegalEncoding.Statement (.frame l r) :=
  commandWord_wellFormed _ _ (by decide) (Or.inr rfl)

theorem LegalEncoding.endBlock : LegalEncoding.Statement .endBlock := commandWord_wellFormed _ _ (by decide) (Or.inr rfl)

end Sys2Proof.Laws
end

