-- ==== Sys2Proof/Tests/Slice0.lean ====
section
/-! SUPPORT. Tests: the checks of WellFormed each on an ill-formed term; decoding on words written out from spec/; small
tests of the shared arithmetic and of each command, with the values of spec/95_test_vectors.md or of the worked examples
of the rules (each comment names its source); and for each statement with hypotheses a state and operands that meet
them. -/

-- One theorem at a time: each evaluation waits for the kernel, and waiting tasks each hold a thread.
set_option Elab.async false

open Sys2Proof Sys2Proof.Machine

namespace Sys2Proof.Tests

/-! ### WellFormed: one ill-formed term for each check -/

theorem test_wf_prepare_nan : (Instr.prepare 0x7FC00000#32 512#32).wellFormed = false := by decide
theorem test_wf_prepare_below : (Instr.prepare 0x472C43FF#32 512#32).wellFormed = false := by decide
theorem test_wf_prepare_above : (Instr.prepare 0x483B8001#32 512#32).wellFormed = false := by decide
theorem test_wf_prepare_empty : (Instr.prepare 0x472C4400#32 0#32).wellFormed = false := by decide
theorem test_wf_prepare_long : (Instr.prepare 0x472C4400#32 0x80000000#32).wellFormed = false := by decide
theorem test_wf_prepare : (Instr.prepare 0x483B8000#32 0x7FFFFFFF#32).wellFormed = true := by decide
theorem test_wf_wrp_reserved : (Instr.wrp 14#8 0#32).wellFormed = false := by decide
theorem test_wf_wrp_range : (Instr.wrp 4#8 0x3E800000#32).wellFormed = false := by decide
theorem test_wf_wrp_enumerator : (Instr.wrp 9#8 5#32).wellFormed = false := by decide
theorem test_wf_wrp_minus_zero : (Instr.wrp 0#8 0x80000000#32).wellFormed = true := by decide
theorem test_wf_rdp_reserved : (Instr.rdp 14#8).wellFormed = false := by decide
theorem test_wf_rds_reserved : (Instr.rds 12#8).wellFormed = false := by decide
theorem test_wf_begin_channels : (Instr.beginBlock 4#32 3#32).wellFormed = false := by decide
theorem test_wf_frame_inf : (Instr.frame 0x7F800000#32 0#32).wellFormed = false := by decide
theorem test_wf_bundle_opcode : (Bundle.mk 0x09000000#32 0#32 0#32).wellFormed = false := by decide
theorem test_wf_bundle_reserved : (Bundle.mk 0x07000001#32 0#32 0#32).wellFormed = false := by decide
theorem test_wf_bundle_index : (Bundle.mk 0x00010000#32 0#32 0#32).wellFormed = false := by decide

/-! ### Decoding: the words of vectors T1 and T2, bits written out from R76 and R80 -/

/-- opcode 00000000, index and reserved bits zero -/
theorem test_decode_nop : decode ⟨0b00000000_00000000_0000000000000000#32, 1#32, 2#32⟩ = .ok .nop := rfl
theorem test_decode_prepare : decode ⟨0b00000001_00000000_0000000000000000#32, 0x472C4400#32, 0x200#32⟩
    = .ok (.prepare 0x472C4400#32 0x200#32) := rfl
theorem test_decode_reset : decode ⟨0b00000010_00000000_0000000000000000#32, 0#32, 0#32⟩ = .ok .reset := rfl
/-- WRP vocMode, fft: index 13 -/
theorem test_decode_wrp : decode ⟨0b00000011_00001101_0000000000000000#32, 1#32, 9#32⟩ = .ok (.wrp 13#8 1#32) := rfl
/-- RDP filterResonance: index 4 -/
theorem test_decode_rdp : decode ⟨0b00000100_00000100_0000000000000000#32, 0#32, 0#32⟩ = .ok (.rdp 4#8) := rfl
/-- RDS HOPC: index 61 -/
theorem test_decode_rds : decode ⟨0b00000101_00111101_0000000000000000#32, 0#32, 0#32⟩ = .ok (.rds 61#8) := rfl
theorem test_decode_begin : decode ⟨0b00000110_00000000_0000000000000000#32, 4#32, 2#32⟩
    = .ok (.beginBlock 4#32 2#32) := rfl
theorem test_decode_frame : decode ⟨0b00000111_00000000_0000000000000000#32, 0x3F000000#32, 0xBE800000#32⟩
    = .ok (.frame 0x3F000000#32 0xBE800000#32) := rfl
theorem test_decode_end : decode ⟨0b00001000_00000000_0000000000000000#32, 0#32, 0#32⟩ = .ok .endBlock := rfl

/-- A WRP of index 255 decodes (T2); it is refused with BADREG when executed. -/
theorem test_decode_wrp_255 : decode ⟨0x03FF0000#32, 0#32, 0#32⟩ = .ok (.wrp 255#8 0#32) := rfl
theorem test_illegal_op9 : decode ⟨0x09000000#32, 0#32, 0#32⟩ = .error .reservedOpcode := rfl
theorem test_illegal_opFF : decode ⟨0xFF000000#32, 0#32, 0#32⟩ = .error .reservedOpcode := rfl
theorem test_illegal_nop_index : decode ⟨0x00010000#32, 0#32, 0#32⟩ = .error .indexNotZero := rfl
theorem test_illegal_frame_bit : decode ⟨0x07000001#32, 0#32, 0#32⟩ = .error .reservedBits := rfl
theorem test_illegal_wrp_bit : decode ⟨0x03FF0001#32, 0#32, 0#32⟩ = .error .reservedBits := rfl
theorem test_illegal_begin_bits : decode ⟨0x0600FF00#32, 0#32, 0#32⟩ = .error .reservedBits := rfl

/-- A table word whose operand words are not in the table's bits is read with operands of zeros. -/
theorem test_table_word : decodeTableWord 32 0x07000000 = some (.frame 0#32 0#32) := rfl
theorem test_bytes : (Bundle.mk 0x03040000#32 0x40800000#32 0#32).bytes
    = [0x00#8, 0x00#8, 0x04#8, 0x03#8, 0x00#8, 0x00#8, 0x80#8, 0x40#8, 0#8, 0#8, 0#8, 0#8] := rfl

/-! ### The text form: lines of T1 -/

theorem test_asm_wrp : (AsmLine.wrp (.name "filterType") (.enumerator "dual")).assemble
    = some ⟨0x03020000#32, 2#32, 0#32⟩ := by decide +kernel
theorem test_asm_frame : (AsmLine.frame (.decimal ⟨false, 5, 1⟩) (.decimal ⟨true, 25, 2⟩)).assemble
    = some ⟨0x07000000#32, 0x3F000000#32, 0xBE800000#32⟩ := by decide +kernel
theorem test_asm_wrp_reserved : (AsmLine.wrp (.index 14) (.decimal ⟨false, 0, 0⟩)).assemble
    = some ⟨0x030E0000#32, 0#32, 0#32⟩ := by decide +kernel
theorem test_asm_rds : (AsmLine.rds (.name "VFB_ENV[1][2]")).assemble = some ⟨0x05160000#32, 0#32, 0#32⟩ := by
  decide +kernel

/-! ### Arithmetic -/

/-- T12, samples 0 and 1, with the coefficients given there. -/
theorem test_svf_sample0 : svfTick zero zero ⟨0x3DB90F0A#32, 0x40000000#32, 0x3F5753DB#32⟩ one
    = ⟨0x3F5753DB#32, 0x3D9BA840#32, 0x3BE10B76#32, 0x3E1BA840#32, 0x3C610B76#32⟩ := by decide +kernel
theorem test_svf_sample1 :
    svfTick 0x3E1BA840#32 0x3C610B76#32 ⟨0x3DB90F0A#32, 0x40000000#32, 0x3F5753DB#32⟩ zero
    = ⟨0xBE8EC1F0#32, 0x3E01DB9E#32, 0x3CCE6511#32, 0x3DD01DF7#32, 0x3D162234#32⟩ := by decide +kernel
/-- T20: the argument of EXP for 10 ms at 44100 Hz. -/
theorem test_coef_argument : fdiv lnD (fmul 0x3C23D70A#32 fsMin) = 0xBCD5DD1A#32 := by decide +kernel
/-- T21: attack and release. -/
theorem test_env_attack : envTick zero one 0x3F17DFAC#32 0x3F79673B#32 = 0x3ED040A8#32 := by decide +kernel
theorem test_env_floor : envTick 0x35C9539C#32 zero zero 0x3F000000#32 = zero := by decide +kernel
/-- T22: the first step from seed 1 and its sample; the first step from seed 2. -/
theorem test_lcg : lcgNext 1#32 = 0x3C88596C#32 := by decide
theorem test_lcg_sample : lcgSample 0x3C88596C#32 = 0xBF06EF4E#32 := by decide +kernel
theorem test_lcg_riser : lcgNext 2#32 = 0x3CA1BF79#32 := by decide
/-- T24. -/
theorem test_lerp : lerp1 0x3E800000#32 one kBu = 0x3EE00000#32 := by decide +kernel
theorem test_clamp : (clampF 0x41200000#32, clampF 0x46C35000#32) = (fMin, fMax) := by decide +kernel
theorem test_wrap : (wrap1 0x3FA00000#32, wrap1 one, wrap1 0x3F7FFFFF#32)
    = (0x3E800000#32, zero, 0x3F7FFFFF#32) := by decide +kernel
/-- IEEE 754 corners, by hand: a tie to even, gradual underflow, overflow, the sign of an exact zero sum, x/0. -/
theorem test_tie_even : fadd 0x4B800000#32 one = 0x4B800000#32 := by decide +kernel
theorem test_subnormal : fmul 0x00800000#32 0x3F000000#32 = 0x00400000#32 := by decide +kernel
theorem test_overflow : fmul 0x7F7FFFFF#32 two = 0x7F800000#32 := by decide +kernel
theorem test_zero_sum : (fsub one one, fadd 0x80000000#32 0x80000000#32) = (0#32, 0x80000000#32) := by decide +kernel
theorem test_div_zero : fdiv minusOne zero = 0xFF800000#32 := by decide +kernel
/-- The square root of 2, correctly rounded. -/
theorem test_sqrt : fsqrt two = 0x3FB504F3#32 := by decide +kernel

/-! ### The units -/

/-- T40, row 2 (lowpass, s24, resonance 10) and row 3 (dual) at bu_s = 0.25: cutoffs and resonance. -/
theorem test_lp_cutoff : fbCutoff { Params.atReset with filterType := 1#32 } 0x3E800000#32 .lp = 0x466C5400#32 := by
  decide +kernel
theorem test_dual_cutoffs :
    (fbCutoff { Params.atReset with filterType := 2#32 } 0x3E800000#32 .hp,
      fbCutoff { Params.atReset with filterType := 2#32 } 0x3E800000#32 .lp) = (0x43A5A000#32, 0x4692BA80#32) := by
  decide +kernel
theorem test_resonance : fbResonance { Params.atReset with filterResonance := 0x41200000#32 } 0x3E800000#32
    = 0x40380000#32 := by decide +kernel
/-- R178's worked example: the first noise frame from reset at brightness 0. -/
theorem test_vfb_noise : (vfbNoise Voc.atReset).2 = 0xBE06EF4E#32 := by decide +kernel
/-- T50: the make-up gains at brightness 50 %. -/
theorem test_makeup : vocMakeup 0x3F000000#32 = ⟨0x3F800000#32, 0x3FE00000#32, 0x40200000#32, 0x40700000#32⟩ := by
  decide +kernel
/-- R201: at 44100 Hz bin 3 is in band 0, bin 9 in band 1, bin 232 in band 3, bin 233 in none. -/
theorem test_bands : [2, 3, 8, 9, 26, 27, 81, 82, 232, 233].map (fun j => bandOfFreq (binFreq fsMin j))
    = [none, some 0, some 0, some 1, some 1, some 2, some 2, some 3, some 3, none] := by decide +kernel
/-- R201 (a): the values it gives under `Num_ref`, positions 1, 511, 2, 128, 384, 255 and 257. -/
theorem test_window : [1, 511, 2, 128, 384, 255, 257].map Witness.hannWord = [0x381DE964#32, 0x381DE964#32, 0x391DE7DF#32,
    0x3F000000#32, 0x3F000000#32, 0x3F7FFD88#32, 0x3F7FFD88#32] := by decide +kernel
/-- R231, R235 at b = 0.25: 111.71875 Hz and 24.21875 Hz. -/
theorem test_riser_targets : (riserTargetFreq .sine 0x3E800000#32, riserTargetFreq .sub 0x3E800000#32)
    = (0x42DF7000#32, 0x41C1C000#32) := by decide +kernel
/-- R237's worked example, frame 0: level and smoothed frequency. -/
theorem test_riser_level : (rsrLevel { Rsr.atReset with target := 0x3E800000#32, katt := 0x3CD318A0#32 }).level
    = 0x3BD318A0#32 := by decide +kernel
theorem test_riser_glide :
    (rsrGlide fsMin { Rsr.atReset with ft := 0x42DF7000#32, vrate := 0x40880000#32 }).fsm = 0x42483F33#32 := by
  decide +kernel

/-! ### The commands, one step each -/

/-- A prepared machine between blocks (T14: fs 44100, 512 frames). -/
def prepared : State := { State.reset with mode := .idle, fs := fsMin, maxblk := 512#32 }

/-- An open block of two frames on it, of `nch` channels, `n` frames in. -/
def inBlock (bypass : Bool) (nch n : Word) : State :=
  { prepared with mode := .inblk, bypass := bypass, blkLen := 2#32, blkNch := nch, n := n }

/-- The response of the next step when a bundle arrives. -/
def respOf (s : State) (b : Bundle) : Option Response :=
  match step (s.present [b]) with
  | .next t => t.resp
  | _ => none

/-- The next state when a bundle arrives; the state itself where there is none. -/
def after (s : State) (b : Bundle) : State :=
  match step (s.present [b]) with
  | .next t => t
  | _ => s

/-- R96's example: NOP in a block does not count as a frame. -/
theorem test_nop : (after (inBlock true 1#32 1#32) ⟨0#32, 0#32, 0#32⟩).n = 1#32 := by decide +kernel
/-- T14. -/
theorem test_prepare_low : respOf State.reset ⟨0x01000000#32, 0x472C4300#32, 512#32⟩ = some (refusedResponse .badlen) := by
  decide +kernel
/-- R97's example: STATUS after PREPARE. -/
theorem test_prepare_status : statusWord (after State.reset ⟨0x01000000#32, 0x472C4400#32, 512#32⟩) = 1#32 := by
  decide +kernel
/-- R98's example. -/
theorem test_reset_rng : (after { prepared with voc := { Voc.atReset with rng := 7#32 } } ⟨0x02000000#32, 0#32, 0#32⟩).voc.rng
    = 1#32 := by decide +kernel
theorem test_reset_inblk : respOf (inBlock true 1#32 0#32) ⟨0x02000000#32, 0#32, 0#32⟩
    = some (refusedResponse .badstate) := by decide +kernel
/-- T11: -0.0 is stored with its bits; 100.00001 is refused and the register kept. -/
theorem test_wrp : (after State.reset ⟨0x03000000#32, 0x80000000#32, 0#32⟩).p.buildUp = 0x80000000#32 := by
  decide +kernel
theorem test_wrp_range : respOf State.reset ⟨0x03000000#32, 0x42C80001#32, 0#32⟩ = some (refusedResponse .badval) := by
  decide +kernel
/-- T10. -/
theorem test_rdp : respOf State.reset ⟨0x040A0000#32, 0#32, 0#32⟩ = some ⟨0#32, 0x3C23D70A#32, 0#32, 0#32, 0#32⟩ := by
  decide +kernel
theorem test_rds_id : respOf State.reset ⟨0x050B0000#32, 0#32, 0#32⟩ = some ⟨0#32, 0x42555637#32, 0#32, 0#32, 0#32⟩ := by
  decide +kernel
/-- R259's example: BEGIN at power-on, then STATUS is 0x00000208. -/
theorem test_begin_status : statusWord (after State.reset ⟨0x06000000#32, 64#32, 2#32⟩) = 0x208#32 := by decide +kernel
/-- T31: the smoothed build-up of the first block at 50 %. -/
theorem test_begin_smoother :
    (after { prepared with p := { Params.atReset with buildUp := 0x42480000#32 } } ⟨0x06000000#32, 2#32, 2#32⟩).buS
      = 0x3E000000#32 := by decide +kernel
/-- R103's example: a frame of a bypass block. -/
theorem test_frame : respOf (inBlock true 2#32 0#32) ⟨0x07000000#32, 0x3F000000#32, 0xBE800000#32⟩
    = some ⟨0#32, 0x3F000000#32, 0xBE800000#32, 0x3F000000#32, 0xBE800000#32⟩ := by decide +kernel
/-- T13: a NaN when the block is full is BADSTATE. -/
theorem test_frame_full : respOf (inBlock true 1#32 2#32) ⟨0x07000000#32, 0x7FC00000#32, 0#32⟩
    = some (refusedResponse .badstate) := by decide +kernel
theorem test_end : (after (inBlock true 1#32 2#32) ⟨0x08000000#32, 0#32, 0#32⟩).mode = .idle := by decide +kernel
theorem test_end_early : respOf (inBlock true 1#32 1#32) ⟨0x08000000#32, 0#32, 0#32⟩
    = some (refusedResponse .badstate) := by decide +kernel
/-- The machine is idle with an empty port. -/
theorem test_idle : step prepared = .next prepared := rfl
/-- A command that arrives is the next to run, before those that wait. -/
theorem test_fetch_word : decodeTableWord 32 0x02000000 = some .reset ∧
    (step ((inBlock true 1#32 2#32).withFetchWord 32 0x08000000)
      = exec .endBlock (inBlock true 1#32 2#32)) := ⟨rfl, rfl⟩

/-! ### Witnesses: for each statement with hypotheses, a state and operands that meet all of them; where a statement has
several clauses, one witness for each, at the boundary values of its ranges -/

/-- The RDP row selects RDP's word, and that word decodes. -/
theorem test_witness_DecodeFollowsOpcodeMap :
    (∃ r ∈ opcodeMap, r.selects 0x04FF0000#32 = true) ∧ decode ⟨0x04FF0000#32, 1#32, 2#32⟩ = .ok (.rdp 255#8) :=
  ⟨by decide, rfl⟩

/-- Each way a word is illegal at its least value (opcode 9, reserved bit 0, index 1), a legal word, and the first and
last reserved indices. -/
theorem test_witness_IllegalEncodingIsBadop :
    (prepared.present [⟨0x09000000#32, 0#32, 0#32⟩]).port = ⟨0x09000000#32, 0#32, 0#32⟩ :: [] ∧
    (∀ r ∈ opcodeMap, r.selects 0x09000000#32 = false) ∧ (∀ r ∈ opcodeMap, r.selects 0x07000001#32 = false) ∧
    (∀ r ∈ opcodeMap, r.selects 0x00010000#32 = false) ∧ (∀ r ∈ opcodeMap, r.selects 0xFF000000#32 = false) ∧
    (∃ r ∈ opcodeMap, r.selects 0x030E0000#32 = true) ∧ (∃ r ∈ opcodeMap, r.selects 0x050C0000#32 = true) ∧
    (∃ r ∈ opcodeMap, r.selects 0x053E0000#32 = true) ∧
    ((Bundle.mk 0x030E0000#32 0#32 0#32).op = 3#8 ∧ 14 ≤ (Bundle.mk 0x030E0000#32 0#32 0#32).idx.toNat) ∧
    ((Bundle.mk 0x050C0000#32 0#32 0#32).op = 5#8 ∧ (Bundle.mk 0x050C0000#32 0#32 0#32).idx.toNat = 12) ∧
    ((Bundle.mk 0x053E0000#32 0#32 0#32).op = 5#8 ∧ 62 ≤ (Bundle.mk 0x053E0000#32 0#32 0#32).idx.toNat) :=
  ⟨rfl, by decide, by decide, by decide, by decide, by decide, by decide, by decide, by decide, by decide, by decide⟩

theorem test_witness_TransportBytes : (0 < 12 ∧ 11 < 12) ∧ 19 < 20 := by decide

/-- A command at the port, and an empty port. -/
theorem test_witness_StepRunsDecodedCommand :
    (prepared.present [⟨0x02000000#32, 0#32, 0#32⟩]).port = ⟨0x02000000#32, 0#32, 0#32⟩ :: [] ∧
      decode ⟨0x02000000#32, 0#32, 0#32⟩ = .ok .reset ∧ prepared.port = [] := ⟨rfl, rfl, rfl⟩

/-- A command at the port of a mono block that is no FRAME, RDP or RDS, and one that is refused. -/
theorem test_witness_EveryCommandResponds :
    let s := (inBlock true 1#32 0#32).present [⟨0x08000000#32, 0#32, 0#32⟩]
    s.port = ⟨0x08000000#32, 0#32, 0#32⟩ :: [] ∧ s.blkNch = 1#32 ∧
      decode ⟨0x08000000#32, 0#32, 0#32⟩ = .ok .endBlock ∧
      ∃ t, step s = .next t ∧ t.resp = some (refusedResponse .badstate) ∧ (refusedResponse .badstate).st ≠ 0#32 :=
  ⟨rfl, rfl, rfl, _, rfl, rfl, by decide⟩

/-- A refused command, an accepted one that is no PREPARE, and an accepted PREPARE. -/
theorem test_witness_RefusalChangesOnlyErrorRegisters :
    (∃ t, step (prepared.present [⟨0x08000000#32, 0#32, 0#32⟩]) = .next t ∧
      t.resp = some (refusedResponse .badstate) ∧ (refusedResponse .badstate).st ≠ 0#32) ∧
    (∃ t, step (prepared.present [⟨0#32, 0#32, 0#32⟩]) = .next t ∧ t.resp = some okResponse ∧
      ∀ fs mb, decode ⟨0#32, 0#32, 0#32⟩ ≠ .ok (.prepare fs mb)) ∧
    (∃ t, step (prepared.present [⟨0x01000000#32, fsMin, 512#32⟩]) = .next t ∧ t.resp = some okResponse ∧
      ∃ fs mb, decode ⟨0x01000000#32, fsMin, 512#32⟩ = .ok (.prepare fs mb)) := by
  refine ⟨⟨_, rfl, rfl, by decide⟩, ⟨_, rfl, rfl, ?_⟩, ⟨_, rfl, ?_, _, _, rfl⟩⟩
  · intro fs mb h
    have h' : Except.ok (ε := DecodeError) Instr.nop = .ok (.prepare fs mb) := h
    cases h'
  · decide +kernel

/-- An open block of one and of two channels. Each outcome at a boundary: a bad word; BEGIN in a block; index 14; a block longer than maxblk by one, three
channels; a sample that is infinite, a value just out of range; and accepted commands at the same boundaries. -/
theorem test_witness_FirstCauseIsReported :
    ((inBlock true 1#32 2#32).mode = .inblk ∧ (inBlock true 1#32 2#32).blkNch = 1#32 ∧
      (inBlock true 2#32 0#32).blkNch = 2#32) ∧
    (Bundle.mk 0x09000000#32 0#32 0#32).wellFormed = false ∧ (Bundle.mk 0x03000000#32 0#32 0#32).wellFormed = true ∧
    NotLegal (.beginBlock 2#32 2#32) (inBlock true 1#32 2#32) ∧ NotLegal (.frame zero zero) (inBlock true 1#32 2#32) ∧
    NotLegal .endBlock (inBlock true 1#32 1#32) ∧ ¬NotLegal .endBlock (inBlock true 1#32 2#32) ∧
    ReservedIndex (.wrp 14#8 0#32) ∧ ¬ReservedIndex (.wrp 13#8 0#32) ∧
    ReservedIndex (.rds 62#8) ∧ ¬ReservedIndex (.rds 61#8) ∧
    BadLength (.beginBlock 513#32 1#32) prepared ∧ ¬BadLength (.beginBlock 512#32 2#32) prepared ∧
    BadLength (.beginBlock 0#32 3#32) prepared ∧ BadLength (.prepare fsMin 0x80000000#32) prepared ∧
    BadLength (.prepare fsMin 0#32) prepared ∧
    BadValue (.frame 0x7F800000#32 zero) (inBlock true 1#32 0#32) ∧
    BadValue (.frame zero 0xFF800000#32) (inBlock true 2#32 0#32) ∧
    ¬BadValue (.frame zero 0xFF800000#32) (inBlock true 1#32 0#32) ∧ Acceptable .filterType 2#32 ∧
    ¬Acceptable .filterType 3#32 ∧ ¬Acceptable .vocMode 2#32 := by
  refine ⟨⟨rfl, rfl, rfl⟩, by decide, by decide, ?_, ?_, ?_, ?_, ?_, ?_, ?_, ?_, ?_, ?_, ?_, ?_, ?_, ?_, ?_, ?_, ?_, ?_, ?_⟩
  all_goals solve
    | simp [NotLegal, inBlock, prepared]
    | simp [ReservedIndex]
    | simp [BadLength, prepared]
    | simp [Acceptable]
    | (simp only [BadValue]; decide)

/-- An accepted frame and a refused one of a block whose count is consistent. -/
theorem test_witness_ModeTransitions :
    protocolWf (inBlock true 1#32 1#32) = true ∧ protocolWf (inBlock true 1#32 2#32) = true ∧
    (∃ t, exec (.frame zero zero) (inBlock true 1#32 1#32) = .next t ∧
      t.resp = some ⟨0#32, zero, 0#32, zero, 0#32⟩) ∧
    (∃ t, exec (.frame zero zero) (inBlock true 1#32 2#32) = .next t ∧ t.resp = some (refusedResponse .badstate)) := by
  refine ⟨by decide +kernel, by decide +kernel, ⟨_, Laws.exec_eq _ _, ?_⟩, ⟨_, Laws.exec_eq _ _, ?_⟩⟩ <;>
    decide +kernel

/-- A register with a range of values that starts at 0, a NaN, an infinity, and both bounds of it. -/
theorem test_witness_InRangeIsTheClosedRange :
    ParamReg.buildUp.type = .float zero hundred ∧ F32.isNaN 0x7FC00000#32 = true ∧ F32.isInf 0xFF800000#32 = true ∧
    inRange .buildUp hundred = true ∧ inRange .buildUp zero = true ∧ inRange .buildUp 0x42C80001#32 = false ∧
    inRange .buildUp 0x80000001#32 = false := by decide +kernel

theorem test_witness_NopDoesNothing :
    (prepared.present [⟨0#32, 0#32, 0#32⟩]).port = ⟨0#32, 0#32, 0#32⟩ :: [] ∧
    (Bundle.mk 0#32 0#32 0#32).op = 0#8 ∧ (Bundle.mk 0#32 0#32 0#32).idx = 0#8 ∧ (Bundle.mk 0#32 0#32 0#32).rsv = 0#16 ∧
    (Bundle.mk 0x00010000#32 0#32 0#32).op = 0#8 ∧ (Bundle.mk 0x00010000#32 0#32 0#32).idx ≠ 0#8 ∧
    (Bundle.mk 0x00008000#32 0#32 0#32).op = 0#8 ∧ (Bundle.mk 0x00008000#32 0#32 0#32).rsv ≠ 0#16 :=
  ⟨rfl, by decide⟩

/-- Both bounds of the sample rate and of the block length. -/
theorem test_witness_PrepareConfigures :
    (State.reset.mode ≠ .inblk ∧ F32.isFinite fsMin = true ∧ 44100 ≤ F32.value fsMin ∧ F32.value fsMin ≤ 192000 ∧
      1 ≤ (1#32).toNat ∧ (1#32).toNat ≤ 2 ^ 31 - 1) ∧
    (prepared.mode ≠ .inblk ∧ F32.isFinite fsMax = true ∧ 44100 ≤ F32.value fsMax ∧ F32.value fsMax ≤ 192000 ∧
      1 ≤ (0x7FFFFFFF#32).toNat ∧ (0x7FFFFFFF#32).toNat ≤ 2 ^ 31 - 1) := by
  have h1 : F32.value fsMin = 44100 := by
    have e : F32.scaledInt fsMin = 44100 * 2 ^ 149 := by decide +kernel
    rw [F32.value, e]; norm_num
  have h2 : F32.value fsMax = 192000 := by
    have e : F32.scaledInt fsMax = 192000 * 2 ^ 149 := by decide +kernel
    rw [F32.value, e]; norm_num
  rw [h1, h2]
  refine ⟨⟨by decide, by decide, ?_, ?_, by decide, by decide⟩, ⟨by decide, by decide, ?_, ?_, by decide, by decide⟩⟩
  all_goals norm_num

theorem test_witness_ResetMutes : State.reset.mode ≠ .inblk ∧ prepared.mode ≠ .inblk := by decide

/-- The BADOP clauses of WRP, RDP, RDS and END. -/
theorem test_witness_reserved_bits :
    (prepared.present [⟨0x03000001#32, 0#32, 0#32⟩]).port = ⟨0x03000001#32, 0#32, 0#32⟩ :: [] ∧
    (Bundle.mk 0x03000001#32 0#32 0#32).op = 3#8 ∧ (Bundle.mk 0x03000001#32 0#32 0#32).rsv ≠ 0#16 ∧
    (Bundle.mk 0x04008000#32 0#32 0#32).op = 4#8 ∧ (Bundle.mk 0x04008000#32 0#32 0#32).rsv ≠ 0#16 ∧
    (Bundle.mk 0x05000001#32 0#32 0#32).op = 5#8 ∧ (Bundle.mk 0x05000001#32 0#32 0#32).rsv ≠ 0#16 ∧
    (Bundle.mk 0x08010000#32 0#32 0#32).op = 8#8 ∧ (Bundle.mk 0x08010000#32 0#32 0#32).idx ≠ 0#8 := ⟨rfl, by decide⟩

/-- The last register and the first reserved index; a value in and one out of range. -/
theorem test_witness_WrpWritesOneRegister :
    14 ≤ (14#8).toNat ∧ ParamReg.vocMode.idx = 13#8 ∧ ParamReg.buildUp.idx = 0#8 ∧ inRange .vocMode 1#32 = true ∧
    inRange .vocMode 2#32 = false ∧ State.reset.p.get .vocMode = 0#32 ∧ ParamReg.buildUp.type = .float zero hundred := by
  decide

theorem test_witness_RdpReadsPending : 14 ≤ (14#8).toNat ∧ ParamReg.vocMode.idx = 13#8 := by decide

theorem test_witness_RdsReadsStatus :
    (12#8).toNat = 12 ∧ (15#8).toNat = 15 ∧ 62 ≤ (62#8).toNat ∧
    ¬((61#8).toNat = 12 ∨ (61#8).toNat = 15 ∨ 62 ≤ (61#8).toNat) ∧ StatusReg.hopc.idx = 61#8 := by decide

theorem test_witness_StatusMap : (62#8 : BitVec 8).toNat = 62 ∧ 62 ≤ (255#8 : BitVec 8).toNat := by decide

/-- A prepared machine with a given pending build-up. -/
def withBuildUp (bu : F32) : State := { prepared with p := { Params.atReset with buildUp := bu } }

/-- The greatest build-up that makes a bypass block, just below 0.1 %, with the longest block allowed. -/
theorem test_witness_BeginBypassBlock :
    (withBuildUp 0x3DCCCCCC#32).mode = .idle ∧ (512#32).toNat ≤ (withBuildUp 0x3DCCCCCC#32).maxblk.toNat ∧
    (2#32 : Word) = 2#32 ∧ flt (fdiv (withBuildUp 0x3DCCCCCC#32).p.buildUp hundred) 0x3A83126F#32 = true := by
  decide +kernel

/-- The least build-up that makes an active block. -/
theorem test_witness_BeginActiveBlock :
    (withBuildUp 0x3DCCCCCD#32).mode = .idle ∧ (512#32).toNat ≤ (withBuildUp 0x3DCCCCCD#32).maxblk.toNat ∧
    (1#32 : Word) = 1#32 ∧ flt (fdiv (withBuildUp 0x3DCCCCCD#32).p.buildUp hundred) 0x3A83126F#32 = false := by
  decide +kernel

/-- The last frame of a stereo bypass block, and the first of a mono one whose right operand is a NaN. -/
theorem test_witness_FrameOfBypassBlock :
    ((inBlock true 2#32 1#32).mode = .inblk ∧ (inBlock true 2#32 1#32).n ≠ (inBlock true 2#32 1#32).blkLen ∧
      (inBlock true 2#32 1#32).bypass = true ∧ (inBlock true 2#32 1#32).blkNch = 2#32 ∧ F32.isFinite one = true ∧
      ((inBlock true 2#32 1#32).blkNch = 2#32 → F32.isFinite minusOne = true)) ∧
    ((inBlock true 1#32 0#32).bypass = true ∧ (inBlock true 1#32 0#32).blkNch = 1#32 ∧
      ((inBlock true 1#32 0#32).blkNch = 2#32 → F32.isFinite 0x7FC00000#32 = true)) := by decide

theorem test_witness_FrameOfActiveBlock :
    (inBlock false 2#32 1#32).mode = .inblk ∧ (inBlock false 2#32 1#32).n ≠ (inBlock false 2#32 1#32).blkLen ∧
    (inBlock false 2#32 1#32).bypass = false ∧ (inBlock false 2#32 1#32).a.wf = true ∧
    (inBlock false 2#32 1#32).blkNch = 2#32 ∧ F32.isFinite one = true ∧
    ((inBlock false 2#32 1#32).blkNch = 2#32 → F32.isFinite minusOne = true) := by decide +kernel

theorem test_witness_EndClosesBlock :
    ((inBlock true 1#32 2#32).mode = .inblk ∧ (inBlock true 1#32 2#32).n = (inBlock true 1#32 2#32).blkLen) ∧
    (inBlock true 1#32 1#32).n ≠ (inBlock true 1#32 1#32).blkLen ∧ prepared.mode ≠ .inblk := by decide

/-- Parameters in range of each filter type; the product just below and at the threshold; first and last stage. -/
theorem test_witness_FilterBankUpdate :
    { Params.atReset with filterSlope := 2#32 }.wf = true ∧
    { Params.atReset with filterType := 1#32, filterSlope := 2#32 }.wf = true ∧
    { Params.atReset with filterType := 2#32, filterSlope := 2#32 }.wf = true ∧
    flt 0x3A83126E#32 0x3A83126F#32 = true ∧ flt 0x3A83126F#32 0x3A83126F#32 = false ∧
    (2 : Fin 4).val ≤ (2#32).toNat ∧ ¬(3 : Fin 4).val ≤ (2#32).toNat := by decide +kernel

/-- The mode that last ran, and the other one. -/
theorem test_witness_VocoderUpdate :
    Params.atReset.wf = true ∧ { Params.atReset with vocMode := 1#32 }.wf = true ∧
    Params.atReset.vocMode = (if Voc.atReset.prev then 1#32 else 0#32) ∧
    { Params.atReset with vocMode := 1#32 }.vocMode ≠ (if Voc.atReset.prev then 1#32 else 0#32) := by decide +kernel

theorem test_witness_RiserUpdate :
    { Params.atReset with riserType := 0#32 }.riserType = 0#32 ∧ { Params.atReset with riserType := 1#32 }.riserType = 1#32 ∧
    { Params.atReset with riserType := 2#32 }.riserType = 2#32 ∧ { Params.atReset with riserType := 3#32 }.riserType = 3#32 ∧
    { Params.atReset with riserType := 4#32 }.riserType = 4#32 := ⟨rfl, rfl, rfl, rfl, rfl⟩

theorem test_witness_FilterBankTickIsTheLoop :
    ∃ f1 l f2 r, stageOrder.foldl (fbLoopBody .left) (Fb.atReset, one) = (f1, l) ∧
      stageOrder.foldl (fbLoopBody .right) (f1, minusOne) = (f2, r) := ⟨_, _, _, _, rfl, rfl⟩

/-- The channel of a mono block, and the second one of a stereo block; a gain that is and one that is not positive. -/
theorem test_witness_FilterbankVocoderFrame :
    (Chan.left = .left ∨ false = true) ∧ (Chan.right = .left ∨ true = true) ∧ flt zero Voc.atReset.gain = false ∧
    flt zero { Voc.atReset with gain := 0x00000001#32 }.gain = true := by decide

/-- The first and the last frame of a hop that is no transform frame. -/
theorem test_witness_FftVocoderBetweenHops :
    Voc.atReset.hopc.toNat < 255 ∧ { Voc.atReset with hopc := 254#32 }.hopc.toNat < 255 ∧
    (Chan.right = .left ∨ true = true) := by decide

/-- `k` draws written out as buffers. -/
theorem test_witness_FftVocoderTransform :
    ∃ (xw wn : Buf F32 512) (ch : VftChan), ch = Voc.atReset.vft.get .left ∧
      (∀ i, i < 512 → xw.getD i zero = fmul (ch.inp.getD i zero) (Tables.atReset.hann.getD i zero)) ∧
      ∀ i, i < 512 → wn.getD i zero = lcgSample (lcgNext^[i + 1] Voc.atReset.rng) := by
  have tab : ∀ (f : Nat → F32) (i : Nat), i < 512 → (Buf.tab 512 f).getD i zero = f i := by
    intro f i h
    simp [Buf.tab, Buf.getD, h]
  exact ⟨Buf.tab 512 fun i => fmul (VftChan.cleared.inp.getD i zero) (Tables.atReset.hann.getD i zero),
    Buf.tab 512 fun i => lcgSample (lcgNext^[i + 1] Voc.atReset.rng), _, rfl, tab _, tab _⟩

theorem test_witness_FftVocoderHopFrame :
    { Voc.atReset with hopc := 255#32 }.hopc = 255#32 ∧ (Chan.right = .left ∨ true = true) := by decide

/-- Silence on a cleared vocoder: the hypotheses of both parts. -/
theorem test_witness_FftVocoderFallsSilent :
    Witness.record.Admissible ∧ { Tables.atReset with hann := Witness.record.hann }.hann = Witness.record.hann ∧
    F32.isFinite Voc.atReset.arel = true ∧ (Chan.left = .left ∨ false = true) ∧
    (∀ i, i < 512 → F32.isZero ((Voc.atReset.vft.get .left).inp.getD i one) = true) ∧
    (Voc.atReset.vft.get .left).env = ⟨0#32, 0#32, 0#32, 0#32⟩ ∧ (List.replicate 512 (Pair.mk zero zero)).length = 512 ∧
    flt zero Voc.atReset.gain = false ∧ F32.isFinite Voc.atReset.gain = true ∧ F32.isZero (Pair.mk zero zero).l = true := by
  refine ⟨Witness.record_admissible, rfl, by decide, Or.inl rfl, fun i h => ?_, rfl, List.length_replicate, by decide,
    by decide, by decide⟩
  have : (Voc.atReset.vft.get .left).inp.getD i one = zero := Laws.buf_getD_fill _ _ h
  rw [this]; decide

/-- With the witness numerics, whose transforms answer zeros, a transform frame of a cleared vocoder leaves zero
envelopes, which are bounded, so the hypotheses of the first part hold. -/
theorem test_witness_FftVocoderFallsSilent_transform :
    ((vftTransform Witness.record { Tables.atReset with hann := Witness.record.hann } .left Voc.atReset).vft.get
      .left).env = ⟨0#32, 0#32, 0#32, 0#32⟩ ∧
    BoundedBy 100 0#32 ∧ F32.isZero (VftChan.cleared.out.getD 0 one) = true ∧
    F32.isFinite (VftChan.cleared.out.getD 511 one) = true :=
  ⟨by decide +kernel, Witness.boundedBy_zero 100, by decide +kernel, by decide +kernel⟩

/-- A level at the threshold and one just below it. -/
theorem test_witness_RiserFrame :
    fle 0x38D1B717#32 0x38D1B717#32 = true ∧ fle 0x38D1B717#32 0x38D1B716#32 = false ∧ RiserType.sub ≠ .noise := by
  decide

/-- A machine in an active block that holds every invariant, with a NOP at the port. -/
def invState : State := (inBlock false 2#32 1#32).present [⟨0#32, 0#32, 0#32⟩]

theorem test_witness_StepKeepsInvariants :
    invState.wf = true ∧ invState.p.wf = true ∧ unitInterval invState.buS = true ∧ riserLevelOk invState.rsr = true ∧
    riserRatesOk invState.rsr = true ∧ riserPhasesOk invState.rsr = true ∧ ∃ t, step invState = .next t :=
  ⟨by decide +kernel, by decide +kernel, by decide +kernel, by decide +kernel, by decide +kernel, by decide +kernel, _,
    rfl⟩

/-- Every command answers a next state, so the hypotheses `exec i s = .next t` can be met by each. -/
theorem test_witness_exec_next (i : Instr) (s : State) : ∃ t, exec i s = .next t := ⟨_, Laws.exec_eq i s⟩

theorem test_witness_PerBlockValuesAreConstant :
    ∃ t, exec (.frame one minusOne) (inBlock false 2#32 1#32) = .next t ∧ t.n = 2#32 :=
  ⟨_, Laws.exec_eq _ _, rfl⟩

/-- A NOP, and a WRP, which is the command excluded from the second clause. -/
theorem test_witness_ParametersChangeOnlyByWrpAndBegin :
    (∃ t, exec .endBlock (inBlock true 1#32 2#32) = .next t) ∧ (∀ m nch, Instr.endBlock ≠ .beginBlock m nch) ∧
    (∀ k v, Instr.endBlock ≠ .wrp k v) ∧ ∀ k, Instr.endBlock ≠ .rdp k :=
  ⟨⟨_, rfl⟩, nofun, nofun, nofun⟩

/-- A refused WRP before a FRAME, and a NOP before an END. -/
theorem test_witness_ControlCommandsLeaveBlockAlone :
    isControl (.wrp 14#8 0#32) = true ∧ isControl .nop = true ∧
    (∃ t, exec (.wrp 14#8 0#32) (inBlock false 2#32 1#32) = .next t) ∧
    (∃ l r, Instr.frame one minusOne = .frame l r) := ⟨rfl, rfl, ⟨_, rfl⟩, _, _, rfl⟩

/-- Gains that are not positive: zero, and minus zero. -/
theorem test_witness_GainZeroVocoderIsSilent :
    flt zero Voc.atReset.gain = false ∧ flt zero { Voc.atReset with gain := 0x80000000#32 }.gain = false := by decide

theorem test_witness_MonoBlockLeavesChannelOne :
    (inBlock false 1#32 1#32).blkNch = 1#32 ∧ ∃ t, exec (.frame one minusOne) (inBlock false 1#32 1#32) = .next t :=
  ⟨rfl, _, Laws.exec_eq _ _⟩

/-- An accepted frame of an active FFT block at a transform frame, and a refused command. -/
theorem test_witness_NoiseGeneratorsAdvance :
    { Params.atReset with vocMode := 1#32 }.wf = true ∧ (inBlock false 2#32 1#32).blkNch = 2#32 ∧
    (∃ t w, exec (.frame one one) { inBlock false 2#32 1#32 with
        a := { Params.atReset with vocMode := 1#32 }, voc := { Voc.atReset with hopc := 255#32 } } = .next t ∧
      t.resp = some w ∧ w.st = 0#32) ∧
    (∃ t w, exec .reset (inBlock true 1#32 0#32) = .next t ∧ t.resp = some w ∧ w.st ≠ 0#32) :=
  ⟨by decide +kernel, rfl, ⟨_, _, Laws.exec_eq _ _, rfl, rfl⟩, ⟨_, _, rfl, rfl, by decide⟩⟩

/-- The dry parameters on an active block of two frames, and a bypass block of none. -/
theorem test_witness_DryBlockIsIdentity :
    ((withBuildUp hundred).wf = true ∧ unitInterval (withBuildUp hundred).buS = true ∧
      (withBuildUp hundred).mode = .idle ∧ [Pair.mk one one, Pair.mk zero one].length ≤ (withBuildUp hundred).maxblk.toNat ∧
      (∀ x ∈ [Pair.mk one one, Pair.mk zero one], F32.isFinite x.l = true ∧ F32.isFinite x.r = true) ∧
      F32.isZero (withBuildUp hundred).p.filterIntensity = true ∧ F32.isZero (withBuildUp hundred).p.noiseAmount = true ∧
      F32.isZero (withBuildUp hundred).p.riserAmount = true ∧ F32.isZero (withBuildUp hundred).rsr.level = true) ∧
    (prepared.wf = true ∧ unitInterval prepared.buS = true ∧ prepared.mode = .idle ∧
      ([] : List (Pair F32)).length ≤ prepared.maxblk.toNat ∧ flt (fdiv prepared.p.buildUp hundred) epsBu = true) := by
  decide +kernel

/-- Each of the two conditions of the neutral filter bank, and build-up zero. -/
theorem test_witness_NeutralFilterBankPassesThrough :
    (F32.isZero Params.atReset.filterIntensity = true ∧ unitInterval one = true) ∧
    flt (fmul one (fdiv { Params.atReset with filterIntensity := 0x3DCCCCCC#32 }.filterIntensity hundred)) epsFilt = true ∧
    F32.isZero Params.atReset.buildUp = true := by decide +kernel

/-- A number at each bound, one on each side, a NaN; parameters in range and the bounds of the build-up. -/
theorem test_witness_CutoffsAreClamped :
    within fMin fMax fMin = true ∧ within fMin fMax fMax = true ∧ flt 0x419FFFFF#32 fMin = true ∧
    flt fMax 0x469C4001#32 = true ∧ F32.isNaN fMin = false ∧ F32.isNaN 0x7FC00000#32 = true ∧
    Params.atReset.wf = true ∧ unitInterval zero = true ∧ unitInterval one = true := by decide +kernel

theorem test_witness_DualSweepKeepsSeparation :
    { Params.atReset with filterType := 2#32 }.filterType = 2#32 ∧ unitInterval one = true ∧ unitInterval zero = true := by
  decide

/-- Both bounds of rate, cutoff and quality, under an admissible numerics. -/
theorem test_witness_SectionCoefficientsAreStable :
    Witness.record.Admissible ∧ fsOk fsMin = true ∧ fsOk fsMax = true ∧ within fMin fMax fMin = true ∧
    within fMin fMax fMax = true ∧ within 0x3F000000#32 0x41200000#32 0x3F000000#32 = true ∧
    within 0x3F000000#32 0x41200000#32 0x41200000#32 = true := ⟨Witness.record_admissible, by decide +kernel⟩

theorem test_witness_SmootherCoefficientInUnit :
    Witness.record.Admissible ∧ within tAtt 0x40A00000#32 tAtt = true ∧ within tAtt 0x40A00000#32 0x40A00000#32 = true ∧
    within (fdiv fsMin hopF) fsMax (fdiv fsMin hopF) = true ∧ within (fdiv fsMin hopF) fsMax fsMax = true :=
  ⟨Witness.record_admissible, by decide +kernel⟩

/-- An attack, a release, and silence on a positive envelope. -/
theorem test_witness_EnvelopeStep :
    F32.isFinite one = true ∧ fle zero one = true ∧ unitInterval 0x3F000000#32 = true ∧ flt zero one = true ∧
    flt one zero = false ∧ F32.isFinite zero = true ∧ fle zero zero = true := by decide

theorem test_witness_NoiseSampleIsExact : (-(2 ^ 23 : Int) ≤ -(2 ^ 23) ∧ (2 ^ 23 - 1 : Int) < 2 ^ 23) := by decide

/-- Build-ups at both bounds, a riser at the lowest frequency with a higher target, and the greatest vibrato depth. -/
theorem test_witness_SineSweepIsMonotone :
    unitInterval zero = true ∧ unitInterval one = true ∧ fle zero one = true ∧
    within fSinLo fSinHi Rsr.atReset.fsm = true ∧ within fSinLo fSinHi { Rsr.atReset with ft := fSinHi }.ft = true ∧
    fle Rsr.atReset.fsm { Rsr.atReset with ft := fSinHi }.ft = true ∧ Witness.record.Admissible ∧
    within zero vibDepth { Rsr.atReset with vdepth := vibDepth }.vdepth = true ∧ phaseOk Rsr.atReset.vph = true :=
  ⟨by decide, by decide, by decide, by decide, by decide, by decide, Witness.record_admissible, by decide, by decide⟩

theorem test_witness_RiserValueIsBoundedByLevel :
    Witness.record.Admissible ∧ RiserType.saw ≠ .noise ∧ phaseOk 0x3F7FFFFF#32 = true ∧ unitInterval one = true :=
  ⟨Witness.record_admissible, by decide, by decide, by decide⟩

theorem test_witness_ComparisonIsOfValues :
    F32.isFinite 0x7F7FFFFF#32 = true ∧ F32.isFinite 0x80000001#32 = true ∧ F32.isNaN 0x7F800001#32 = true := by decide

/-- A cancelling pair, a zero divisor under a non-zero and a zero value, a non-zero divisor, a NaN, both infinities. -/
theorem test_witness_ArithmeticIsCorrectlyRounded :
    F32.isFinite one = true ∧ F32.isFinite minusOne = true ∧ F32.value one + F32.value minusOne = 0 ∧
    F32.value zero = 0 ∧ F32.value one ≠ 0 ∧ F32.isNaN 0xFFC00000#32 = true ∧
    F32.isInf 0x7F800000#32 = true ∧ F32.isInf 0xFF800000#32 = true := by
  have h1 : F32.value one = 1 := by
    have e : F32.scaledInt one = 2 ^ 149 := by decide +kernel
    rw [F32.value, e]; norm_num
  have h2 : F32.value minusOne = -1 := by
    have e : F32.scaledInt minusOne = -2 ^ 149 := by decide +kernel
    rw [F32.value, e]; norm_num
  have h3 : F32.value zero = 0 := by
    have e : F32.scaledInt zero = 0 := by decide +kernel
    rw [F32.value, e]; norm_num
  rw [h1, h2, h3]
  exact ⟨by decide, by decide, by norm_num, rfl, by norm_num, by decide, by decide, by decide⟩

theorem test_witness_SquareRootIsCorrectlyRounded :
    F32.isFinite 0x80000000#32 = true ∧ 0 ≤ F32.value 0x80000000#32 ∧ F32.isFinite 0x7F7FFFFF#32 = true := by
  have h : F32.value 0x80000000#32 = 0 := by
    have e : F32.scaledInt 0x80000000#32 = 0 := by decide +kernel
    rw [F32.value, e]; norm_num
  exact ⟨by decide, le_of_eq h.symm, by decide⟩

end Sys2Proof.Tests
end

section
/-! PROOFS. The status map (10_state.md R27): what RDS does at the index of a status register and at a reserved index,
the STATUS word as a sum of its fields, and the statement assembled from them. -/

namespace Sys2Proof.Proofs

open Machine Laws

/-! ### RDS at the index of a status register -/

theorem rdsCause_idx (r : StatusReg) : rdsCause r.idx = none := by
  unfold rdsCause
  rw [statusReg_ofIdx_idx]
  rfl

theorem rdsDone_idx (r : StatusReg) (s : State) :
    rdsDone r.idx s = respond 0#8 (statusValue s r) 0#32 0#32 0#32 s := by
  unfold rdsDone
  rw [statusReg_ofIdx_idx]

/-- RDS of an assigned index is accepted: it answers the register's value and writes nothing but the response. -/
theorem exec_rds_idx (r : StatusReg) (s : State) :
    exec (.rds r.idx) s = .next (respond 0#8 (statusValue s r) 0#32 0#32 0#32 s) := by
  have hcause : causeOf (.rds r.idx) s = none := rdsCause_idx r
  rw [exec_eq, hcause]
  exact congrArg Host.Outcome.next (rdsDone_idx r s)

theorem readsAs_of_idx {k : Nat} (r : StatusReg) (s : State) (hk : BitVec.ofNat 8 k = r.idx) :
    ReadsAs s k (statusValue s r) := by
  unfold ReadsAs
  rw [hk]
  exact exec_rds_idx r s

/-! ### RDS at a reserved index -/

/-- No status register has a reserved index. -/
theorem statusReg_idx_assigned (r : StatusReg) :
    ¬(r.idx.toNat = 12 ∨ r.idx.toNat = 15 ∨ 62 ≤ r.idx.toNat) := by
  have channelOffset (c : Chan) : Chan.base c ≤ 4 := by cases c <;> decide
  have chainOffset (t : Chain) : Chain.base t ≤ 4 := by cases t <;> decide
  cases r with
  | vfbEnv c k | vftEnv c k =>
    have := channelOffset c
    simp only [StatusReg.idx, BitVec.toNat_ofNat]
    omega
  | fbFc t i | fbQ t i | fbAct t i =>
    have := chainOffset t
    simp only [StatusReg.idx, BitVec.toNat_ofNat]
    omega
  | rsrPh w =>
    simp only [StatusReg.idx, BitVec.toNat_ofNat]
    omega
  | _ => decide

theorem statusReg_ofIdx_reserved {idx : BitVec 8} (h : idx.toNat = 12 ∨ idx.toNat = 15 ∨ 62 ≤ idx.toNat) :
    StatusReg.ofIdx idx = none := by
  cases hr : StatusReg.ofIdx idx with
  | none => rfl
  | some r =>
    rw [← statusReg_idx_of_ofIdx hr] at h
    exact absurd h (statusReg_idx_assigned r)

theorem rdsCause_reserved {idx : BitVec 8} (h : idx.toNat = 12 ∨ idx.toNat = 15 ∨ 62 ≤ idx.toNat) :
    rdsCause idx = some .badreg := by
  unfold rdsCause
  rw [statusReg_ofIdx_reserved h]
  rfl

/-- The command word a refused RDS leaves in `err_cmd` (R256). -/
theorem rds_cw (idx : BitVec 8) : (Instr.rds idx).cw = 0x05000000#32 ||| idx.setWidth 32 <<< 16 := by
  have hidx := idx.isLt
  apply BitVec.eq_of_toNat_eq
  calc (Instr.rds idx).cw.toNat
      = 5 * 2 ^ 24 + idx.toNat * 2 ^ 16 := commandWord_toNat 0x05#8 idx
    _ = 2 ^ 24 * 5 ||| idx.toNat * 2 ^ 16 := by
        rw [Nat.mul_comm 5, Nat.two_pow_add_eq_or_of_lt (by omega)]
    _ = (0x05000000#32 ||| idx.setWidth 32 <<< 16).toNat := by
        rw [BitVec.toNat_or, BitVec.toNat_shiftLeft, BitVec.toNat_setWidth, Nat.shiftLeft_eq,
          Nat.mod_eq_of_lt (by omega : idx.toNat < 2 ^ 32), Nat.mod_eq_of_lt (by omega)]
        rfl

/-- RDS of a reserved index is refused with BADREG (R101). -/
theorem exec_rds_reserved {idx : BitVec 8} (s : State)
    (h : idx.toNat = 12 ∨ idx.toNat = 15 ∨ 62 ≤ idx.toNat) :
    exec (.rds idx) s = .next (refuse .badreg (0x05000000#32 ||| idx.setWidth 32 <<< 16) s) := by
  have hcause : causeOf (.rds idx) s = some .badreg := rdsCause_reserved h
  rw [exec_eq, hcause, rds_cw]

/-! ### The STATUS word -/

theorem toNat_append_eq_add {m n : Nat} (x : BitVec m) (y : BitVec n) :
    (x ++ y).toNat = x.toNat * 2 ^ n + y.toNat := by
  rw [BitVec.toNat_append, Nat.shiftLeft_eq, Nat.mul_comm, ← Nat.two_pow_add_eq_or_of_lt y.isLt]

/-- The fields of STATUS, each at the weight of its lowest bit (R27). -/
theorem statusWord_toNat (s : State) :
    (statusWord s).toNat = s.mode.code.toNat + 4 * s.bypass.toNat + 8 * s.errSticky.toNat + 16 * s.voc.prev.toNat
      + 256 * s.errCause.toNat := by
  simp only [statusWord, toNat_append_eq_add, BitVec.toNat_ofBool, BitVec.toNat_ofNat]
  omega

/-! ### The map -/

/-- Settles O18: each register is read at its index, STATUS is the sum of its fields, and a reserved index has no
register. -/
theorem statusMap : Obligations.StatusMap := by
  unfold Obligations.StatusMap
  intro s
  have read (r : StatusReg) {k : Nat} (hk : BitVec.ofNat 8 k = r.idx) : ReadsAs s k (statusValue s r) :=
    readsAs_of_idx r s hk
  refine ⟨⟨statusWord s, read .status rfl, ?_⟩, read .errCmd rfl, read .fs rfl, read .maxblk rfl,
    read .blkLen rfl, read .nch rfl, read .n rfl, read .buS rfl, read .vocGain rfl, read .rsrLevel rfl,
    read .rsrFsm rfl, read .id rfl, read .vocRng rfl, read .rsrRng rfl, fun k => ?_, read .rsrVph rfl,
    read .hopc rfl, fun _ => exec_rds_reserved s⟩
  · rw [statusWord_toNat]
    cases s.mode <;> rfl
  · exact ⟨read (.vfbEnv .left k) rfl, read (.vfbEnv .right k) rfl, read (.vftEnv .left k) rfl,
      read (.vftEnv .right k) rfl, read (.fbFc .hp k) rfl, read (.fbFc .lp k) rfl, read (.fbQ .hp k) rfl,
      read (.fbQ .lp k) rfl, read (.fbAct .hp k) rfl, read (.fbAct .lp k) rfl, read (.rsrPh k) rfl⟩

end Sys2Proof.Proofs
end

section
/-! PROOFS. Illegal encodings (30_encoding.md R81): a row of the opcode map looks at the three fields of the command word,
so a word is a row's exactly when it is well-formed, and exactly then it decodes; what a step does with an illegal word
and with a reserved register index; and the statement assembled from them. -/

namespace Sys2Proof.Proofs

open Machine Laws

/-! ### The fields of a command word -/

/-- A command word is its three fields side by side (R76). -/
theorem cw_toNat (b : Bundle) : b.cw.toNat = b.op.toNat * 2 ^ 24 + b.idx.toNat * 2 ^ 16 + b.rsv.toNat := by
  have hcw := b.cw.isLt
  simp only [Bundle.op, Bundle.idx, Bundle.rsv, BitVec.extractLsb'_toNat, Nat.shiftRight_eq_div_pow]
  omega

/-- A command word with no reserved bit set is assembled from its opcode and its index. -/
theorem commandWord_fields {b : Bundle} (hrsv : b.rsv = 0#16) : commandWord b.op b.idx = b.cw := by
  apply BitVec.eq_of_toNat_eq
  rw [commandWord_toNat, cw_toNat, hrsv, BitVec.toNat_ofNat, Nat.zero_mod, Nat.add_zero]

theorem cw_eq_commandWord_iff {b : Bundle} {op idx : BitVec 8} :
    b.cw = commandWord op idx ↔ b.op = op ∧ b.idx = idx ∧ b.rsv = 0#16 := by
  obtain ⟨cw, a, c⟩ := b
  constructor
  · rintro rfl
    exact ⟨op_commandWord op idx a c, idx_commandWord op idx a c, rsv_commandWord op idx a c⟩
  · rintro ⟨rfl, rfl, hrsv⟩
    exact (commandWord_fields hrsv).symm

/-! ### The rows of the opcode map -/

/-- The row of an opcode without index: every bit of the command word is fixed. -/
theorem selects_plain {m : String} {op : BitVec 8} {b : Bundle} :
    OpcodeRow.selects ⟨m, commandWord op 0#8, 0xFFFFFFFF#32⟩ b.cw = true ↔
      b.op = op ∧ b.idx = 0#8 ∧ b.rsv = 0#16 := by
  have hmask : b.cw &&& 0xFFFFFFFF#32 = b.cw := BitVec.and_allOnes
  rw [OpcodeRow.selects, beq_iff_eq, hmask, cw_eq_commandWord_iff]

/-- A command with the bits of its command word kept that a row of an opcode with index looks at. -/
def clearIndex (b : Bundle) : Bundle := ⟨b.cw &&& 0xFF00FFFF#32, b.opa, b.opb⟩

@[simp] theorem clearIndex_op (b : Bundle) : (clearIndex b).op = b.op :=
  BitVec.extractLsb'_and.trans BitVec.and_allOnes

@[simp] theorem clearIndex_idx (b : Bundle) : (clearIndex b).idx = 0#8 :=
  BitVec.extractLsb'_and.trans BitVec.and_zero

@[simp] theorem clearIndex_rsv (b : Bundle) : (clearIndex b).rsv = b.rsv :=
  BitVec.extractLsb'_and.trans BitVec.and_allOnes

/-- The row of an opcode with index: the mask hides the index field. -/
theorem selects_indexed {m : String} {op : BitVec 8} {b : Bundle} :
    OpcodeRow.selects ⟨m, commandWord op 0#8, 0xFF00FFFF#32⟩ b.cw = true ↔ b.op = op ∧ b.rsv = 0#16 := by
  have hmask : b.cw &&& 0xFF00FFFF#32 = (clearIndex b).cw := rfl
  rw [OpcodeRow.selects, beq_iff_eq, hmask, cw_eq_commandWord_iff]
  simp

/-- The opcode map with its patterns written as assembled command words (R80). -/
theorem opcodeMap_eq : opcodeMap =
    [⟨"NOP", commandWord 0#8 0#8, 0xFFFFFFFF#32⟩, ⟨"PREPARE", commandWord 1#8 0#8, 0xFFFFFFFF#32⟩,
      ⟨"RESET", commandWord 2#8 0#8, 0xFFFFFFFF#32⟩, ⟨"WRP", commandWord 3#8 0#8, 0xFF00FFFF#32⟩,
      ⟨"RDP", commandWord 4#8 0#8, 0xFF00FFFF#32⟩, ⟨"RDS", commandWord 5#8 0#8, 0xFF00FFFF#32⟩,
      ⟨"BEGIN", commandWord 6#8 0#8, 0xFFFFFFFF#32⟩, ⟨"FRAME", commandWord 7#8 0#8, 0xFFFFFFFF#32⟩,
      ⟨"END", commandWord 8#8 0#8, 0xFFFFFFFF#32⟩] := rfl

/-! ### The legal encodings -/

theorem wellFormed_iff {b : Bundle} :
    b.wellFormed = true ↔ b.op ≤ 8#8 ∧ b.rsv = 0#16 ∧ (takesIndex b.op = true ∨ b.idx = 0#8) := by
  simp [Bundle.wellFormed, and_assoc]

theorem assigned_opcode {op : BitVec 8} :
    op ≤ 8#8 ↔ op = 0#8 ∨ op = 1#8 ∨ op = 2#8 ∨ op = 3#8 ∨ op = 4#8 ∨ op = 5#8 ∨ op = 6#8 ∨ op = 7#8 ∨ op = 8#8 := by
  revert op
  decide +kernel

/-- The assigned opcodes that take no index (R76). -/
theorem plain_opcode {op : BitVec 8} (h : op ≤ 8#8) : op.toNat ∈ [0, 1, 2, 6, 7, 8] ↔ takesIndex op = false := by
  revert op
  decide +kernel

/-- The rows of the opcode map select the legal encodings and no other word. -/
theorem exists_row_iff_wellFormed {b : Bundle} :
    (∃ r ∈ opcodeMap, r.selects b.cw = true) ↔ b.wellFormed = true := by
  rw [opcodeMap_eq, wellFormed_iff, assigned_opcode]
  simp only [List.exists_mem_cons_iff, List.not_mem_nil, false_and, exists_false, or_false, selects_plain,
    selects_indexed, takesIndex, Bool.or_eq_true, beq_iff_eq]
  by_cases hrsv : b.rsv = 0#16
  · by_cases hidx : b.idx = 0#8
    · simp only [hrsv, hidx, and_true, or_true]
    · simp only [hrsv, hidx, and_true, and_false, false_or, or_false, true_and, or_assoc]
      exact (and_iff_right_of_imp fun hindexed => by tauto).symm
  · simp only [hrsv, and_false, false_and, or_false]

theorem no_row_iff_not_wellFormed {b : Bundle} :
    (∀ r ∈ opcodeMap, r.selects b.cw = false) ↔ b.wellFormed = false := by
  rw [← Bool.not_eq_true b.wellFormed, ← exists_row_iff_wellFormed]
  simp only [not_exists, not_and, Bool.not_eq_true]

/-- The illegal encodings as R81 lists them. -/
theorem not_wellFormed_iff {b : Bundle} : b.wellFormed = false ↔
    (9 ≤ b.op.toNat ∨ b.rsv ≠ 0#16 ∨ (b.op.toNat ∈ [0, 1, 2, 6, 7, 8] ∧ b.idx ≠ 0#8)) := by
  rw [← Bool.not_eq_true, wellFormed_iff]
  by_cases hop : b.op ≤ 8#8
  · have hsmall : ¬9 ≤ b.op.toNat := by bv_omega
    rw [plain_opcode hop, ← Bool.not_eq_true]
    tauto
  · have hlarge : 9 ≤ b.op.toNat := by bv_omega
    exact iff_of_true (fun h => hop h.1) (Or.inl hlarge)

/-! ### Decoding -/

theorem decode_wrp {b : Bundle} (hop : b.op = 3#8) (hrsv : b.rsv = 0#16) : decode b = .ok (.wrp b.idx b.opa) := by
  simp [decode, takesIndex, hop, hrsv]

theorem decode_rdp {b : Bundle} (hop : b.op = 4#8) (hrsv : b.rsv = 0#16) : decode b = .ok (.rdp b.idx) := by
  simp [decode, takesIndex, hop, hrsv]

theorem decode_rds {b : Bundle} (hop : b.op = 5#8) (hrsv : b.rsv = 0#16) : decode b = .ok (.rds b.idx) := by
  simp [decode, takesIndex, hop, hrsv]

theorem decode_plain {b : Bundle} (hop : b.op ≤ 8#8) (hrsv : b.rsv = 0#16) (hplain : takesIndex b.op = false)
    (hidx : b.idx = 0#8) : decode b = decodePlain b := by
  simp [decode, BitVec.not_lt.mpr hop, hrsv, hplain, hidx]

/-- Every opcode without index has its command. -/
theorem decodePlain_ok {b : Bundle} (h : b.op.toNat ∈ [0, 1, 2, 6, 7, 8]) : ∃ i, decodePlain b = .ok i := by
  simp only [List.mem_cons, List.not_mem_nil, or_false] at h
  rcases h with h | h | h | h | h | h <;> exact ⟨_, by simp only [decodePlain, h]; rfl⟩

theorem decode_ok_of_wellFormed {b : Bundle} (h : b.wellFormed = true) : ∃ i, decode b = .ok i := by
  obtain ⟨hop, hrsv, hindex⟩ := wellFormed_iff.mp h
  cases htakes : takesIndex b.op with
  | true =>
    simp only [takesIndex, Bool.or_eq_true, beq_iff_eq] at htakes
    obtain (h3 | h4) | h5 := htakes
    · exact ⟨_, decode_wrp h3 hrsv⟩
    · exact ⟨_, decode_rdp h4 hrsv⟩
    · exact ⟨_, decode_rds h5 hrsv⟩
  | false =>
    have hidx : b.idx = 0#8 := hindex.resolve_left (by simp [htakes])
    rw [decode_plain hop hrsv htakes hidx]
    exact decodePlain_ok ((plain_opcode hop).mpr htakes)

/-- The three refusals of the decoder, in its order. -/
theorem decode_error_of_not_wellFormed {b : Bundle} (h : b.wellFormed = false) : ∃ e, decode b = .error e := by
  unfold decode
  by_cases hop : 8#8 < b.op
  · exact ⟨_, if_pos hop⟩
  rw [if_neg hop]
  by_cases hrsv : b.rsv = 0#16
  · have hindex : ¬(takesIndex b.op = true ∨ b.idx = 0#8) := fun hi =>
      Bool.eq_false_iff.mp h (wellFormed_iff.mpr ⟨BitVec.not_lt.mp hop, hrsv, hi⟩)
    obtain ⟨htakes, hidx⟩ := not_or.mp hindex
    rw [if_neg (not_not.mpr hrsv), if_neg htakes, if_pos hidx]
    exact ⟨_, rfl⟩
  · exact ⟨_, if_pos hrsv⟩

/-! ### The step on a waiting command -/

section
variable {s : State} {b : Bundle} {rest : List Bundle}

theorem step_of_decode_ok {i : Instr} (hport : s.port = b :: rest) (hdec : decode b = .ok i) :
    step s = exec i { s with port := rest } := by
  simp only [step, fetch, hport, hdec]

theorem step_of_decode_error {e : DecodeError} (hport : s.port = b :: rest) (hdec : decode b = .error e) :
    step s = .next (refuse .badop b.cw { s with port := rest }) := by
  simp only [step, fetch, hport, hdec, refuseIllegal]

/-- A command with a cause against it is refused with that cause, and its own command word is recorded (R256). -/
theorem step_refused {i : Instr} {c : Cause} (hport : s.port = b :: rest) (hdec : decode b = .ok i)
    (hcw : i.cw = b.cw) (hcause : causeOf i { s with port := rest } = some c) :
    step s = .next (refuse c b.cw { s with port := rest }) := by
  rw [step_of_decode_ok hport hdec, exec_eq, hcause, hcw]

end

/-! ### Reserved register indices -/

theorem paramReg_ofIdx_reserved {idx : BitVec 8} (h : 14 ≤ idx.toNat) : ParamReg.ofIdx idx = none := by
  cases hr : ParamReg.ofIdx idx with
  | none => rfl
  | some r =>
    have hassigned : r.idx.toNat < 14 := by cases r <;> decide
    rw [paramReg_idx_of_ofIdx hr] at hassigned
    omega

theorem wrpCause_reserved {idx : BitVec 8} (v : Word) (h : 14 ≤ idx.toNat) : wrpCause idx v = some .badreg := by
  simp only [wrpCause, paramReg_ofIdx_reserved h]

theorem rdpCause_reserved {idx : BitVec 8} (h : 14 ≤ idx.toNat) : rdpCause idx = some .badreg := by
  unfold rdpCause
  rw [paramReg_ofIdx_reserved h]
  rfl

/-- A WRP, RDP or RDS with no reserved bit set but a reserved index is refused with BADREG (R81). -/
theorem step_reserved_index {s : State} {b : Bundle} {rest : List Bundle} (hport : s.port = b :: rest)
    (hrsv : b.rsv = 0#16)
    (h : ((b.op = 3#8 ∨ b.op = 4#8) ∧ 14 ≤ b.idx.toNat) ∨
      (b.op = 5#8 ∧ (b.idx.toNat = 12 ∨ b.idx.toNat = 15 ∨ 62 ≤ b.idx.toNat))) :
    step s = .next (refuse .badreg b.cw { s with port := rest }) := by
  have hcw : commandWord b.op b.idx = b.cw := commandWord_fields hrsv
  obtain ⟨hop | hop, hidx⟩ | ⟨hop, hidx⟩ := h <;> rw [hop] at hcw
  · exact step_refused hport (decode_wrp hop hrsv) hcw (wrpCause_reserved b.opa hidx)
  · exact step_refused hport (decode_rdp hop hrsv) hcw (rdpCause_reserved hidx)
  · exact step_refused hport (decode_rds hop hrsv) hcw (rdsCause_reserved hidx)

/-! ### The statement -/

/-- Settles O3: the words no row selects are those that are not well-formed, and these are the ones the decoder
rejects. -/
theorem illegalEncodingIsBadop : Obligations.IllegalEncodingIsBadop := by
  unfold Obligations.IllegalEncodingIsBadop
  intro s b rest hport
  refine ⟨no_row_iff_not_wellFormed.trans not_wellFormed_iff, fun hnone => ?_, fun hrow => ?_, fun hrow => ?_⟩
  · obtain ⟨e, hdec⟩ := decode_error_of_not_wellFormed (no_row_iff_not_wellFormed.mp hnone)
    exact step_of_decode_error hport hdec
  · exact decode_ok_of_wellFormed (exists_row_iff_wellFormed.mp hrow)
  · obtain ⟨-, hrsv, -⟩ := wellFormed_iff.mp (exists_row_iff_wellFormed.mp hrow)
    exact step_reserved_index hport hrsv

end Sys2Proof.Proofs
end

section
/-! PROOFS. The commands that touch no DSP state (40_commands.md R96, R99 to R101, R104): what a command answers when a
cause stands against it and when none does, the command word of an indexed command, and the statements about NOP, the
register accesses and END assembled from the value of each one's check and of each one's effect. -/

namespace Sys2Proof.Proofs

open Machine Laws

/-! ### Accepted, refused, illegal -/

theorem exec_refused {i : Instr} {s : State} {c : Cause} (h : causeOf i s = some c) :
    exec i s = .next (refuse c i.cw s) := by
  rw [exec_eq, h]

theorem exec_accepted {i : Instr} {s : State} (h : causeOf i s = none) : exec i s = .next (doneOf i s) := by
  rw [exec_eq, h]

section
variable {s : State} {b : Bundle} {rest : List Bundle}

theorem step_of_not_wellFormed (hport : s.port = b :: rest) (h : b.wellFormed = false) :
    step s = .next (refuse .badop b.cw { s with port := rest }) := by
  obtain ⟨e, hdec⟩ := decode_error_of_not_wellFormed h
  exact step_of_decode_error hport hdec

/-- A reserved bit is illegal with every opcode (R81). -/
theorem step_of_reserved_bit (hport : s.port = b :: rest) (hrsv : b.rsv ≠ 0#16) :
    step s = .next (refuse .badop b.cw { s with port := rest }) :=
  step_of_not_wellFormed hport (not_wellFormed_iff.mpr (Or.inr (Or.inl hrsv)))

/-- A reserved or index bit is illegal with an opcode that takes no index (R81). -/
theorem step_of_extra_bit (hport : s.port = b :: rest) (hop : b.op.toNat ∈ [0, 1, 2, 6, 7, 8])
    (h : b.idx ≠ 0#8 ∨ b.rsv ≠ 0#16) : step s = .next (refuse .badop b.cw { s with port := rest }) := by
  obtain hidx | hrsv := h
  · exact step_of_not_wellFormed hport (not_wellFormed_iff.mpr (Or.inr (Or.inr ⟨hop, hidx⟩)))
  · exact step_of_reserved_bit hport hrsv

end

/-- A command word with an index is the one with index 0 and the index put into its field (R76). -/
theorem commandWord_eq_or (op idx : BitVec 8) :
    commandWord op idx = commandWord op 0#8 ||| idx.setWidth 32 <<< 16 := by
  have hidx := idx.isLt
  have hfield : (idx.setWidth 32 <<< 16).toNat = idx.toNat * 2 ^ 16 := by
    rw [BitVec.toNat_shiftLeft, BitVec.toNat_setWidth, Nat.shiftLeft_eq]
    omega
  have hlow : idx.toNat * 2 ^ 16 < 2 ^ 24 := by omega
  apply BitVec.eq_of_toNat_eq
  rw [BitVec.toNat_or, hfield, commandWord_toNat, commandWord_toNat, BitVec.toNat_ofNat, Nat.zero_mod, Nat.zero_mul,
    Nat.add_zero, Nat.mul_comm op.toNat, Nat.two_pow_add_eq_or_of_lt hlow]

theorem ok_eq (s : State) : Machine.ok s = { s with resp := some okResponse } := rfl

/-! ### NOP -/

theorem exec_nop (s : State) : exec .nop s = .next { s with resp := some okResponse } :=
  exec_accepted (i := .nop) rfl

theorem decode_nop {b : Bundle} (hop : b.op = 0#8) (hidx : b.idx = 0#8) (hrsv : b.rsv = 0#16) :
    decode b = .ok .nop := by
  rw [decode_plain (by rw [hop]; decide) hrsv (by rw [hop]; rfl) hidx]
  simp only [decodePlain, hop]
  rfl

/-- Settles O12: no cause ever stands against a decoded NOP, and the decoder rejects every other word of its opcode. -/
theorem nopDoesNothing : Obligations.NopDoesNothing := by
  unfold Obligations.NopDoesNothing
  refine ⟨exec_nop, fun s b rest hport hop => ⟨?_, fun hextra => ?_⟩⟩
  · rintro ⟨hidx, hrsv⟩
    rw [step_of_decode_ok hport (decode_nop hop hidx hrsv), exec_nop]
  · exact step_of_extra_bit hport (by rw [hop]; decide) hextra

/-! ### WRP -/

theorem wrpCause_idx (r : ParamReg) (v : Word) :
    wrpCause r.idx v = if inRange r v = true then none else some .badval := by
  simp only [wrpCause, paramReg_ofIdx_idx, firstCause_cons]
  cases inRange r v <;> rfl

theorem wrpDone_idx (r : ParamReg) (v : Word) (s : State) :
    wrpDone r.idx v s = { s with p := s.p.set r v, resp := some okResponse } := by
  simp only [wrpDone, paramReg_ofIdx_idx, ok_eq]

/-- Writing the value a register already holds changes nothing (R99). -/
theorem params_set_get_self (p : Params) (r : ParamReg) : p.set r (p.get r) = p := by
  cases r <;> rfl

/-- The ranges that begin at 0.0 end at 100.0 or at 1.0 (R22 to R24). -/
theorem paramType_zero_based {r : ParamReg} {hi : F32} (h : r.type = .float zero hi) : hi = hundred ∨ hi = one := by
  cases r <;> cases h
  case gateLevel => exact Or.inr rfl
  all_goals exact Or.inl rfl

/-- -0.0 compares equal to a bound 0.0 (R109, R115). -/
theorem inRange_negZero {r : ParamReg} {hi : F32} (h : r.type = .float zero hi) : inRange r 0x80000000#32 = true := by
  simp only [inRange, h]
  obtain rfl | rfl := paramType_zero_based h <;> decide

/-- The command word a refused WRP leaves in `err_cmd` (R256). -/
theorem wrp_cw (idx : BitVec 8) (v : Word) : (Instr.wrp idx v).cw = 0x03000000#32 ||| idx.setWidth 32 <<< 16 :=
  commandWord_eq_or 3#8 idx

theorem exec_wrp_reserved {idx : BitVec 8} (v : Word) (s : State) (h : 14 ≤ idx.toNat) :
    exec (.wrp idx v) s = .next (refuse .badreg (0x03000000#32 ||| idx.setWidth 32 <<< 16) s) := by
  rw [exec_refused (i := .wrp idx v) (wrpCause_reserved v h), wrp_cw]

theorem exec_wrp_outOfRange {r : ParamReg} {v : Word} (s : State) (h : inRange r v = false) :
    exec (.wrp r.idx v) s = .next (refuse .badval (0x03000000#32 ||| r.idx.setWidth 32 <<< 16) s) := by
  have hcause : causeOf (.wrp r.idx v) s = some .badval := (wrpCause_idx r v).trans (if_neg (by simp [h]))
  rw [exec_refused hcause, wrp_cw]

theorem exec_wrp_inRange {r : ParamReg} {v : Word} (s : State) (h : inRange r v = true) :
    exec (.wrp r.idx v) s = .next { s with p := s.p.set r v, resp := some okResponse } := by
  have hcause : causeOf (.wrp r.idx v) s = none := (wrpCause_idx r v).trans (if_pos h)
  rw [exec_accepted hcause]
  exact congrArg Host.Outcome.next (wrpDone_idx r v s)

/-- Settles O15: the three refusals and the accepted write, each read off the check of the named register. -/
theorem wrpWritesOneRegister : Obligations.WrpWritesOneRegister := by
  unfold Obligations.WrpWritesOneRegister
  intro s idx v
  refine ⟨fun b rest hport _ => step_of_reserved_bit hport, exec_wrp_reserved v s, ?_⟩
  rintro r rfl
  refine ⟨exec_wrp_outOfRange s, fun hrange => ?_, fun _ => inRange_negZero⟩
  refine ⟨s.p.set r v, exec_wrp_inRange s hrange, ?_, fun r' hne => ?_, ?_⟩
  · rw [params_get_set, if_pos rfl]
  · rw [params_get_set, if_neg hne]
  · rintro rfl
    exact params_set_get_self s.p r

/-! ### RDP -/

theorem rdpCause_idx (r : ParamReg) : rdpCause r.idx = none := by
  unfold rdpCause
  rw [paramReg_ofIdx_idx]
  rfl

theorem rdpDone_idx (r : ParamReg) (s : State) : rdpDone r.idx s = respond 0#8 (s.p.get r) 0#32 0#32 0#32 s := by
  unfold rdpDone
  rw [paramReg_ofIdx_idx]

/-- The command word a refused RDP leaves in `err_cmd` (R256). -/
theorem rdp_cw (idx : BitVec 8) : (Instr.rdp idx).cw = 0x04000000#32 ||| idx.setWidth 32 <<< 16 :=
  commandWord_eq_or 4#8 idx

theorem exec_rdp_reserved {idx : BitVec 8} (s : State) (h : 14 ≤ idx.toNat) :
    exec (.rdp idx) s = .next (refuse .badreg (0x04000000#32 ||| idx.setWidth 32 <<< 16) s) := by
  rw [exec_refused (i := .rdp idx) (rdpCause_reserved h), rdp_cw]

/-- RDP of an implemented register answers its pending value and writes nothing but the response. -/
theorem exec_rdp_idx (r : ParamReg) (s : State) :
    exec (.rdp r.idx) s = .next (respond 0#8 (s.p.get r) 0#32 0#32 0#32 s) := by
  rw [exec_accepted (i := .rdp r.idx) (rdpCause_idx r)]
  exact congrArg Host.Outcome.next (rdpDone_idx r s)

/-- Settles O16: the pending value is read at the register's index, and the power-on value of the gate level is 1.0. -/
theorem rdpReadsPending : Obligations.RdpReadsPending := by
  unfold Obligations.RdpReadsPending
  intro s idx
  refine ⟨fun b rest hport _ => step_of_reserved_bit hport, exec_rdp_reserved s, ?_,
    _, exec_rdp_idx .gateLevel State.reset, rfl⟩
  rintro r rfl
  exact exec_rdp_idx r s

/-! ### RDS -/

/-- Every index that is not reserved names a status register (R27). -/
theorem exists_statusReg_of_assigned {idx : BitVec 8} (h : ¬(idx.toNat = 12 ∨ idx.toNat = 15 ∨ 62 ≤ idx.toNat)) :
    ∃ r : StatusReg, r.idx = idx := by
  have found : ∀ i : BitVec 8, ¬(i.toNat = 12 ∨ i.toNat = 15 ∨ 62 ≤ i.toNat) → (StatusReg.ofIdx i).isSome = true := by
    decide +kernel
  obtain ⟨r, hr⟩ := Option.isSome_iff_exists.mp (found idx h)
  exact ⟨r, statusReg_idx_of_ofIdx hr⟩

/-- Settles O17: an index is reserved or the index of a status register; the two power-on values are read off the
reset state. -/
theorem rdsReadsStatus : Obligations.RdsReadsStatus := by
  unfold Obligations.RdsReadsStatus
  intro s idx
  refine ⟨fun b rest hport _ => step_of_reserved_bit hport, exec_rds_reserved s, fun hassigned => ?_,
    readsAs_of_idx .id State.reset rfl, readsAs_of_idx .status State.reset rfl⟩
  obtain ⟨r, rfl⟩ := exists_statusReg_of_assigned hassigned
  exact ⟨r, rfl, exec_rds_idx r s⟩

/-! ### END -/

/-- The check of END, one condition with one cause (R104). -/
theorem endCause_eq (s : State) :
    endCause s = if s.mode ≠ .inblk ∨ s.n ≠ s.blkLen then some .badstate else none := by
  simp only [endCause, Bool.or_eq_true, bne_iff_ne, firstCause]

/-- Settles O23: the check of END is the disjunction of the two refusal conditions. -/
theorem endClosesBlock : Obligations.EndClosesBlock := by
  unfold Obligations.EndClosesBlock
  intro s
  refine ⟨fun hmode hcount => ?_, fun howed => ?_, fun b rest hport hop => ?_⟩
  · have hcause : causeOf .endBlock s = none := (endCause_eq s).trans (if_neg (by simp [hmode, hcount]))
    exact exec_accepted hcause
  · have hcause : causeOf .endBlock s = some .badstate := (endCause_eq s).trans (if_pos howed)
    exact exec_refused hcause
  · exact step_of_extra_bit hport (by rw [hop]; decide)

end Sys2Proof.Proofs
end

section
/-! PROOFS. The mode and the frame count (40_commands.md R105): BADSTATE is the first check of every command that has
one, so it is answered exactly when the command is not legal; the mode and the count after an accepted command; and the
table assembled from them. -/

namespace Sys2Proof.Proofs

open Machine Laws

/-! ### BADSTATE is reported exactly when the command is not legal -/

theorem mem_of_firstCause {l : List (Bool × Cause)} {c : Cause} (h : firstCause l = some c) : (true, c) ∈ l := by
  induction l with
  | nil => cases h
  | cons x rest ih =>
    obtain ⟨b, c'⟩ := x
    rw [firstCause_cons] at h
    cases b with
    | true => cases h; exact List.mem_cons_self
    | false => exact List.mem_cons_of_mem _ (ih h)

/-- A cause that heads a list of checks and does not come again is reported exactly when its condition holds. -/
theorem firstCause_head_iff {b : Bool} {c : Cause} {rest : List (Bool × Cause)} (h : (true, c) ∉ rest) :
    firstCause ((b, c) :: rest) = some c ↔ b = true := by
  rw [firstCause_cons]
  cases b with
  | true => exact iff_of_true rfl rfl
  | false => exact iff_of_false (fun hrest => h (mem_of_firstCause hrest)) Bool.false_ne_true

theorem wrpCause_ne_badstate (idx : BitVec 8) (v : Word) : wrpCause idx v ≠ some .badstate := by
  unfold wrpCause
  cases ParamReg.ofIdx idx with
  | none => simp
  | some r => exact fun h => absurd (mem_of_firstCause h) (by simp)

/-- The mode check comes first wherever there is one (R95, R259, R264). -/
theorem causeOf_eq_badstate_iff (i : Instr) (s : State) : causeOf i s = some .badstate ↔ NotLegal i s := by
  cases i with
  | nop => exact iff_of_false (by simp [causeOf]) id
  | prepare fs mb => exact (firstCause_head_iff (by simp)).trans beq_iff_eq
  | reset => exact (firstCause_head_iff (by simp)).trans beq_iff_eq
  | wrp idx v => exact iff_of_false (wrpCause_ne_badstate idx v) id
  | rdp idx => exact iff_of_false (fun h => absurd (mem_of_firstCause h) (by simp)) id
  | rds idx => exact iff_of_false (fun h => absurd (mem_of_firstCause h) (by simp)) id
  | beginBlock m nch => exact (firstCause_head_iff (by simp)).trans bne_iff_ne
  | frame l r => exact (firstCause_head_iff (by simp)).trans (by simp [NotLegal])
  | endBlock => exact (firstCause_head_iff (by simp)).trans (by simp [NotLegal])

/-! ### The effect of an accepted command on mode and count -/

/-- The mode after an accepted command (R105). -/
def modeAfter : Instr → Mode → Mode
  | .prepare _ _, _ => .idle
  | .beginBlock _ _, _ => .inblk
  | .endBlock, _ => .idle
  | .nop, m | .reset, m | .wrp _ _, m | .rdp _, m | .rds _, m | .frame _ _, m => m

/-- The frame count after an accepted command (R105). -/
def countAfter : Instr → Word → Word
  | .prepare _ _, _ => 0#32
  | .beginBlock _ _, _ => 0#32
  | .frame _ _, n => n + 1#32
  | .nop, n | .reset, n | .wrp _ _, n | .rdp _, n | .rds _, n | .endBlock, n => n

theorem framePipe_mode (N : Numerics) (stereo : Bool) (s : State) (x : Pair F32) :
    (framePipe N stereo s x).1.mode = s.mode := by
  obtain ⟨-, h⟩ | ⟨-, h⟩ := framePipe_cases N stereo s x <;> rw [h]
  rfl

/-- Block setup keeps mode and count. -/
theorem blockSetup_mode_n (N : Numerics) (s : State) :
    (blockSetup N s).mode = s.mode ∧ (blockSetup N s).n = s.n := by
  obtain ⟨-, h⟩ | ⟨-, h⟩ := blockSetup_cases N s <;> rw [h] <;> exact ⟨rfl, rfl⟩

/-- An accepted command moves mode and count as the table says, and its response has status OK. -/
theorem doneOf_transition (i : Instr) (s : State) :
    (doneOf i s).mode = modeAfter i s.mode ∧ (doneOf i s).n = countAfter i s.n ∧
      ∃ r, (doneOf i s).resp = some r ∧ r.st = 0#32 := by
  cases i with
  | nop | prepare | reset | endBlock => exact ⟨rfl, rfl, _, rfl, rfl⟩
  | wrp idx v =>
    simp only [doneOf, wrpDone]
    cases ParamReg.ofIdx idx <;> exact ⟨rfl, rfl, _, rfl, rfl⟩
  | rdp idx =>
    simp only [doneOf, rdpDone]
    cases ParamReg.ofIdx idx <;> exact ⟨rfl, rfl, _, rfl, rfl⟩
  | rds idx =>
    simp only [doneOf, rdsDone]
    cases StatusReg.ofIdx idx <;> exact ⟨rfl, rfl, _, rfl, rfl⟩
  | beginBlock m nch =>
    obtain ⟨hmode, hn⟩ := blockSetup_mode_n Config.num { s with blkLen := m, blkNch := nch, n := 0#32, mode := .inblk }
    exact ⟨hmode, hn, _, rfl, rfl⟩
  | frame l r =>
    have hmode := framePipe_mode Config.num s.stereo s ⟨l, r⟩
    simp only [doneOf, frameDone, frameRespond_eq]
    exact ⟨hmode, rfl, _, rfl, by split <;> rfl⟩

/-! ### Outcome and status of a command -/

/-- A command answers BADSTATE exactly when it is not legal; refused, it keeps mode and count, and accepted, it moves
them as the table says. -/
theorem exec_outcome {i : Instr} {s t : State} {r : Response} (h : exec i s = .next t) (hr : t.resp = some r) :
    (r.st = 2#32 ↔ NotLegal i s) ∧ (r.st ≠ 0#32 → t.mode = s.mode ∧ t.n = s.n) ∧
      (r.st = 0#32 → t.mode = modeAfter i s.mode ∧ t.n = countAfter i s.n) := by
  rw [← causeOf_eq_badstate_iff]
  obtain ⟨c, hc, rfl⟩ | ⟨hnone, rfl⟩ := exec_cases h
  · obtain rfl : refusedResponse c = r := Option.some.inj hr
    have hrefused : (refusedResponse c).st ≠ 0#32 := by cases c <;> decide
    have hcode : (refusedResponse c).st = 2#32 ↔ c = .badstate := by cases c <;> decide
    rw [hcode, hc, Option.some_inj]
    exact ⟨Iff.rfl, fun _ => ⟨rfl, rfl⟩, fun hst => absurd hst hrefused⟩
  · obtain ⟨hmode, hn, r', hr', hst⟩ := doneOf_transition i s
    obtain rfl : r' = r := Option.some.inj (hr'.symm.trans hr)
    rw [hst, hnone]
    exact ⟨iff_of_false (by decide) nofun, fun hne => absurd rfl hne, fun _ => ⟨hmode, hn⟩⟩

/-! ### Legality in the words of the table -/

theorem mode_ne_idle_iff {m : Mode} : m ≠ .idle ↔ m = .unprep ∨ m = .inblk := by cases m <;> decide

theorem mode_ne_inblk_iff {m : Mode} : m ≠ .inblk ↔ m = .unprep ∨ m = .idle := by cases m <;> decide

theorem n_le_blkLen {s : State} (hwf : protocolWf s = true) (hmode : s.mode = .inblk) : s.n ≤ s.blkLen := by
  simp only [protocolWf, hmode, Bool.and_eq_true, decide_eq_true_eq] at hwf
  obtain ⟨⟨⟨-, hn⟩, -⟩, -⟩ := hwf
  exact hn

/-- A condition on the count matters in an open block only. -/
theorem not_inblk_or_iff {m : Mode} {p q : Prop} (h : m = .inblk → (p ↔ q)) :
    m ≠ .inblk ∨ p ↔ m = .unprep ∨ m = .idle ∨ q := by
  rw [← or_assoc, ← mode_ne_inblk_iff]
  exact or_congr_right' fun hmode => h (not_not.mp hmode)

/-- FRAME is legal exactly in a block that frames are owed to. -/
theorem frame_notLegal_iff {s : State} {l r : F32} (hwf : protocolWf s = true) :
    NotLegal (.frame l r) s ↔ s.mode = .unprep ∨ s.mode = .idle ∨ ¬s.n < s.blkLen :=
  not_inblk_or_iff fun hmode => by
    have := n_le_blkLen hwf hmode
    bv_omega

/-- END is legal exactly in a block that no frame is owed to. -/
theorem endBlock_notLegal_iff {s : State} (hwf : protocolWf s = true) :
    NotLegal .endBlock s ↔ s.mode = .unprep ∨ s.mode = .idle ∨ s.n < s.blkLen :=
  not_inblk_or_iff fun hmode => by
    have := n_le_blkLen hwf hmode
    bv_omega

theorem toNat_add_one_of_lt {x y : Word} (h : x < y) : (x + 1#32).toNat = x.toNat + 1 := by
  bv_omega

/-! ### The statement -/

/-- Settles O10: `exec_outcome` gives the three parts, and the legality of each command gives its row of the table. -/
theorem modeTransitions : Obligations.ModeTransitions := by
  unfold Obligations.ModeTransitions
  intro i s t r hwf hexec hresp
  obtain ⟨hbadstate, hrefused, haccepted⟩ := exec_outcome hexec hresp
  refine ⟨hrefused, fun hst => ?_, hbadstate.trans ?_⟩
  · have hlegal : ¬NotLegal i s := by rw [← hbadstate, hst]; decide
    obtain ⟨hmode, hn⟩ := haccepted hst
    cases i with
    | nop | wrp | rdp | rds => exact ⟨hmode, hn⟩
    | prepare | reset => exact ⟨mode_ne_inblk_iff.mp hlegal, hmode, hn⟩
    | beginBlock => exact ⟨not_not.mp hlegal, hmode, hn⟩
    | frame =>
      obtain ⟨hinblk, hmore⟩ := not_or.mp hlegal
      have hopen : s.mode = .inblk := not_not.mp hinblk
      have howed : s.n < s.blkLen := BitVec.lt_of_le_ne (n_le_blkLen hwf hopen) hmore
      exact ⟨hopen, howed, hmode.trans hopen, (congrArg BitVec.toNat hn).trans (toNat_add_one_of_lt howed)⟩
    | endBlock =>
      obtain ⟨hinblk, hcomplete⟩ := not_or.mp hlegal
      exact ⟨not_not.mp hinblk, not_not.mp hcomplete, hmode, hn⟩
  · cases i with
    | beginBlock => exact mode_ne_idle_iff
    | frame => exact frame_notLegal_iff hwf
    | endBlock => exact endBlock_notLegal_iff hwf
    | _ => exact Iff.rfl

end Sys2Proof.Proofs
end

section
/-! PROOFS. Clamped cutoffs (41_numerics.md R120): `CLAMPF` answers a number in [20, 20000] for every number, so a cutoff
is in range as soon as the sum that is clamped is no NaN. The operands of these sums are finite because every control
value lies in a finite range, which one lemma per operation carries from the operands to the result. -/

namespace Sys2Proof.Proofs

open Machine Witness Laws

/-! ### The order of the values -/

theorem not_lt_of_le {x y : F32} (h : F32.le y x = true) : F32.lt x y = false := by
  unfold F32.lt
  simp only [Bool.and_eq_false_imp, decide_eq_false_iff_not, not_lt]
  exact fun _ => key_le_of_le h

/-! ### Values in a range -/

theorem within_iff {lo hi x : F32} : within lo hi x = true ↔ fle lo x = true ∧ fle x hi = true := by
  unfold within
  rw [Bool.and_eq_true]

theorem notNaN_of_within {lo hi x : F32} (h : within lo hi x = true) : F32.isNaN x = false :=
  (not_isNaN_of_le (within_iff.mp h).2).1

theorem finite_of_within {lo hi x : F32} (hlo : F32.isFinite lo = true) (hhi : F32.isFinite hi = true)
    (h : within lo hi x = true) : F32.isFinite x = true :=
  finite_of_between hlo hhi (within_iff.mp h).1 (within_iff.mp h).2

theorem scaledInt_zero : F32.scaledInt zero = 0 := by decide

theorem scaledInt_one : F32.scaledInt one = 2 ^ 149 := by decide +kernel

/-- A range that begins at 0.0, on the exact values. -/
theorem within_zero_iff {c x : F32} (hc : F32.isFinite c = true) (hx : F32.isFinite x = true) :
    within zero c x = true ↔ 0 ≤ F32.scaledInt x ∧ F32.scaledInt x ≤ F32.scaledInt c := by
  rw [within_iff, le_iff_scaledInt rfl hx, le_iff_scaledInt hx hc, scaledInt_zero]

theorem unitInterval_iff {x : F32} (hx : F32.isFinite x = true) :
    unitInterval x = true ↔ 0 ≤ F32.scaledInt x ∧ F32.scaledInt x ≤ 2 ^ 149 := by
  rw [← scaledInt_one]
  exact within_zero_iff rfl hx

theorem finite_of_unitInterval {x : F32} (h : unitInterval x = true) : F32.isFinite x = true :=
  finite_of_within rfl rfl h

/-! ### What the operations do to a range -/

/-- A value scaled by a factor in [0, 1] stays between 0.0 and its bound. -/
theorem fmul_within {m c x : F32} (hm : unitInterval m = true) (hc : F32.isFinite c = true)
    (hx : within zero c x = true) : within zero c (fmul m x) = true := by
  have hmf := finite_of_unitInterval hm
  have hxf := finite_of_within rfl hc hx
  obtain ⟨hm0, hm1⟩ := (unitInterval_iff hmf).mp hm
  obtain ⟨hx0, hxc⟩ := (within_zero_iff hc hxf).mp hx
  refine within_iff.mpr ⟨le_fmul hmf hxf rfl ?_, fmul_le hmf hxf hc (mul_le_mul hm1 hxc hx0 (by positivity))⟩
  rw [scaledInt_zero, mul_zero]
  exact mul_nonneg hm0 hx0

theorem fmul_unitInterval {a b : F32} (ha : unitInterval a = true) (hb : unitInterval b = true) :
    unitInterval (fmul a b) = true := fmul_within ha rfl hb

/-- A value over a positive bound of it is a fraction. -/
theorem fdiv_unitInterval {a c : F32} (hc : F32.isFinite c = true) (hpos : 0 < F32.scaledInt c)
    (ha : within zero c a = true) : unitInterval (fdiv a c) = true := by
  have haf := finite_of_within rfl hc ha
  obtain ⟨ha0, hac⟩ := (within_zero_iff hc haf).mp ha
  refine within_iff.mpr ⟨le_fdiv haf hc rfl hpos ?_, fdiv_le haf hc rfl hpos ?_⟩
  · rw [scaledInt_zero, mul_zero]
    exact mul_nonneg ha0 (by positivity)
  · rw [scaledInt_one]
    exact mul_le_mul_of_nonneg_right hac (by positivity)

/-- The length of a range `[b, a]` above 0.0 is at most its upper bound. -/
theorem fsub_within {a b : F32} (ha : F32.isFinite a = true) (hb : within zero a b = true) :
    within zero a (fsub a b) = true := by
  have hbf := finite_of_within rfl ha hb
  obtain ⟨hb0, hba⟩ := (within_zero_iff ha hbf).mp hb
  refine within_iff.mpr ⟨le_fsub ha hbf rfl ?_, fsub_le ha hbf ha ?_⟩
  · rw [scaledInt_zero]
    exact sub_nonneg.mpr hba
  · exact sub_le_self _ hb0

/-- What an addition of finite values answers, whatever the exact sum `z`, is no NaN: an overflow gives an infinity. -/
theorem notNaN_roundedSum (z : Int) (s : Bool) :
    F32.isNaN (if z = 0 then F32.withSign s 0 else signedRound z 1) = false := by
  split
  · exact notNaN_withSign (Nat.zero_le _)
  · exact notNaN_signedRound _ _

theorem notNaN_fadd {a b : F32} (ha : F32.isFinite a = true) (hb : F32.isFinite b = true) :
    F32.isNaN (fadd a b) = false := by
  rw [fadd_finite ha hb]
  exact notNaN_roundedSum _ _

theorem notNaN_fsub {a b : F32} (ha : F32.isFinite a = true) (hb : F32.isFinite b = true) :
    F32.isNaN (fsub a b) = false := by
  rw [fsub_finite ha hb]
  exact notNaN_roundedSum _ _

/-- The fraction `m` of a range `[b, a]` above 0.0 is finite: the term every sweep adds to its start. -/
theorem finite_sweepTerm {m a b : F32} (hm : unitInterval m = true) (ha : F32.isFinite a = true)
    (hb : within zero a b = true) : F32.isFinite (fmul m (fsub a b)) = true :=
  finite_of_within rfl ha (fmul_within hm ha (fsub_within ha hb))

/-! ### CLAMPF -/

theorem clampF_of_lt {x : F32} (h : flt x fMin = true) : clampF x = fMin := if_pos h

theorem clampF_of_gt {x : F32} (h : flt fMax x = true) : clampF x = fMax := by
  have habove : flt x fMin = false := not_lt_of_le (le_trans (by decide : fle fMin fMax = true) (le_of_lt h))
  unfold clampF
  rw [if_neg (Bool.eq_false_iff.mp habove), if_pos h]

theorem clampF_eq_self {x : F32} (hlo : flt x fMin = false) (hhi : flt fMax x = false) : clampF x = x := by
  unfold clampF
  rw [if_neg (Bool.eq_false_iff.mp hlo), if_neg (Bool.eq_false_iff.mp hhi)]

theorem clampF_of_within {x : F32} (h : within fMin fMax x = true) : clampF x = x :=
  clampF_eq_self (not_lt_of_le (within_iff.mp h).1) (not_lt_of_le (within_iff.mp h).2)

/-- A NaN is on no side of a bound (R115), so it passes. -/
theorem clampF_of_isNaN {x : F32} (h : F32.isNaN x = true) : clampF x = x := by
  apply clampF_eq_self <;> simp [F32.lt, h]

theorem clampF_within {x : F32} (h : F32.isNaN x = false) : within fMin fMax (clampF x) = true := by
  cases hlo : flt x fMin with
  | true => rw [clampF_of_lt hlo]; decide
  | false =>
    cases hhi : flt fMax x with
    | true => rw [clampF_of_gt hhi]; decide
    | false =>
      rw [clampF_eq_self hlo hhi]
      exact within_iff.mpr ⟨le_of_not_lt h rfl hlo, le_of_not_lt rfl h hhi⟩

/-! ### The control values of the filter bank -/

theorem inRange_of_wf {a : Params} (h : a.wf = true) (r : ParamReg) : inRange r (a.get r) = true :=
  List.all_eq_true.mp h r (by cases r <;> decide)

theorem fbProduct_unitInterval {a : Params} {b : F32} (hwf : a.wf = true) (hb : unitInterval b = true) :
    unitInterval (fbProduct a b) = true := by
  have hrange : within zero hundred a.filterIntensity = true := inRange_of_wf hwf .filterIntensity
  exact fmul_unitInterval hb (fdiv_unitInterval rfl (by decide +kernel) hrange)

theorem fbMapping_unitInterval {a : Params} {p : F32} (hp : unitInterval p = true) :
    unitInterval (fbMapping a p) = true := by
  unfold fbMapping
  split
  · exact fmul_unitInterval hp hp
  · exact hp

/-! ### The cutoffs -/

theorem fbHpCutoff_within {m : F32} (hm : unitInterval m = true) : within fMin fMax (fbHpCutoff m) = true :=
  clampF_within (notNaN_fadd rfl (finite_sweepTerm hm rfl (by decide)))

theorem fbLpCutoff_within {m : F32} (hm : unitInterval m = true) : within fMin fMax (fbLpCutoff m) = true :=
  clampF_within (notNaN_fsub rfl (finite_sweepTerm hm rfl (by decide)))

/-- The separation rule clamps one of two numbers (R155). -/
theorem fbSeparate_within {hpfc lpfc : F32} (hhp : within fMin fMax hpfc = true) (hlp : within fMin fMax lpfc = true) :
    within fMin fMax (fbSeparate hpfc lpfc) = true := by
  apply clampF_within
  split
  · exact notNaN_fadd (finite_of_within rfl rfl hhp) rfl
  · exact notNaN_of_within hlp

theorem fbLpFinal_within {a : Params} {m : F32} (hm : unitInterval m = true) :
    within fMin fMax (fbLpFinal a m) = true := by
  unfold fbLpFinal
  split
  · exact fbSeparate_within (fbHpCutoff_within hm) (fbLpCutoff_within hm)
  · exact fbLpCutoff_within hm

theorem fbCutoff_within {a : Params} {p : F32} (hp : unitInterval p = true) (t : Chain) :
    within fMin fMax (fbCutoff a p t) = true := by
  cases t with
  | hp => exact fbHpCutoff_within (fbMapping_unitInterval hp)
  | lp => exact fbLpFinal_within (fbMapping_unitInterval hp)

theorem riserNoiseFc_within {b : F32} (hb : unitInterval b = true) : within fMin fMax (riserNoiseFc b) = true :=
  clampF_within (notNaN_fadd rfl (finite_sweepTerm (fmul_unitInterval hb hb) rfl (by decide)))

/-! ### The stages -/

/-- The cutoff a stage has after the update: the chain's when it works, the neutral one otherwise (R156, R159). -/
theorem fbStageUpdate_fc (N : Numerics) (fs : F32) (a : Params) (p : F32) (t : Chain) (i : Fin 4) (st : Stage) :
    (fbStageUpdate N fs a p t i st).fc = if fbStageOn a p t i then fbCutoff a p t else neutralFc t := by
  unfold fbStageUpdate
  split
  · rfl
  · cases t <;> rfl

theorem neutralFc_within (t : Chain) : within fMin fMax (neutralFc t) = true := by cases t <;> decide

theorem fbChainUpdate_fc_within {p : F32} (N : Numerics) (fs : F32) (a : Params) (hp : unitInterval p = true)
    (t : Chain) (c : Quad Stage) (k : Fin 4) :
    within fMin fMax ((fbChainUpdate N fs a p t c).get k).fc = true := by
  unfold fbChainUpdate
  rw [quad_get_tab, fbStageUpdate_fc]
  split
  · exact fbCutoff_within hp t
  · exact neutralFc_within t

/-! ### The statement -/

/-- Settles O48: `CLAMPF` by the side of its operand, the stages by the product `p` being in [0, 1]. -/
theorem cutoffsAreClamped : Obligations.CutoffsAreClamped := by
  unfold Obligations.CutoffsAreClamped
  refine ⟨fun x hx => ⟨clampF_within hx, clampF_of_within, clampF_of_lt, clampF_of_gt⟩, fun x => clampF_of_isNaN,
    fun N fs b a f hwf hb k => ?_, fun b => riserNoiseFc_within⟩
  have hp := fbProduct_unitInterval hwf hb
  exact ⟨fbChainUpdate_fc_within N fs a hp .hp f.hp k, fbChainUpdate_fc_within N fs a hp .lp f.lp k⟩

end Sys2Proof.Proofs
end

section
/-! PROOFS. FRAME (40_commands.md R103, 42_sequencer.md R140 to R142): when no cause stands against a FRAME, what an
accepted FRAME answers and changes given what the frame pipeline does, and the bypass block. -/

namespace Sys2Proof.Proofs

open Machine Laws

/-! ### The check of FRAME -/

theorem stereo_iff {s : State} : s.stereo = true ↔ s.blkNch = 2#32 := beq_iff_eq

/-- FRAME is accepted exactly when it is legal and each sample of the block's channels is finite (R103). -/
theorem frameCause_eq_none_iff {s : State} {l r : F32} :
    frameCause l r s = none ↔
      (s.mode = .inblk ∧ s.n ≠ s.blkLen) ∧ F32.isFinite l = true ∧ (s.blkNch = 2#32 → F32.isFinite r = true) := by
  rw [frameCause, firstCause_eq_none_iff, ← stereo_iff]
  simp

/-! ### The effect of FRAME -/

/-- An accepted FRAME keeps what the frame pipeline leaves, advances the count and answers the pipeline's output and wet
send, with zeros for the second channel of a mono block (R103, R142). -/
theorem exec_frame_accepted {s u : State} {l r : F32} {o : FrameOut} (hcause : frameCause l r s = none)
    (hpipe : framePipe Config.num s.stereo s ⟨l, r⟩ = (u, o)) :
    exec (.frame l r) s = .next { u with
      n := s.n + 1#32
      resp := some (if s.blkNch = 2#32 then ⟨0#32, o.out.l, o.out.r, o.send.l, o.send.r⟩
        else ⟨0#32, o.out.l, 0#32, o.send.l, 0#32⟩) } := by
  have hexec : exec (.frame l r) s = .next (frameDone Config.num l r s) := exec_accepted hcause
  simp only [hexec, frameDone, hpipe, frameRespond_eq, stereo_iff]

/-- The frame pipeline of a bypass block returns the state and the frame as they are (R141). -/
theorem framePipe_bypass {s : State} (N : Numerics) (stereo : Bool) (x : Pair F32) (h : s.bypass = true) :
    framePipe N stereo s x = (s, ⟨x, x⟩) :=
  if_pos h

/-! ### The statement -/

/-- Settles O21: the hypotheses are those of an accepted FRAME, and the pipeline of a bypass block is the identity. -/
theorem frameOfBypassBlock : Obligations.FrameOfBypassBlock := by
  unfold Obligations.FrameOfBypassBlock
  intro s l r hmode howed hbypass _ hl hr
  have hcause : frameCause l r s = none := frameCause_eq_none_iff.mpr ⟨⟨hmode, howed⟩, hl, hr⟩
  exact exec_frame_accepted hcause (framePipe_bypass Config.num s.stereo ⟨l, r⟩ hbypass)

end Sys2Proof.Proofs
end

section
/-! PROOFS. Refusals (60_exceptions.md R256): a decoded command has the command word it was decoded from, so a step on a
waiting command is the refusal of that word or the effect of the command; an accepted command other than PREPARE keeps
the error registers; and what RDS reads of them. -/

namespace Sys2Proof.Proofs

open Machine Laws

/-! ### The command word of a decoded command -/

theorem wellFormed_of_decode_ok {b : Bundle} {i : Instr} (h : decode b = .ok i) : b.wellFormed = true := by
  rw [← Bool.not_eq_false]
  intro hill
  obtain ⟨e, he⟩ := decode_error_of_not_wellFormed hill
  cases he.symm.trans h

/-- The command word of a command without index is its opcode alone. -/
theorem cw_of_decodePlain {b : Bundle} {i : Instr} (h : decodePlain b = .ok i) : i.cw = commandWord b.op 0#8 := by
  have opcode {k : BitVec 8} (hk : b.op.toNat = k.toNat) : commandWord k 0#8 = commandWord b.op 0#8 :=
    congrArg (commandWord · 0#8) (BitVec.eq_of_toNat_eq hk.symm)
  unfold decodePlain at h
  split at h
  case h_7 => cases h
  all_goals
    cases h
    exact opcode ‹_›

/-- A refusal of a decoded command records the word that was presented (R256). -/
theorem cw_of_decode {b : Bundle} {i : Instr} (h : decode b = .ok i) : i.cw = b.cw := by
  obtain ⟨hop, hrsv, hindex⟩ := wellFormed_iff.mp (wellFormed_of_decode_ok h)
  rw [← commandWord_fields hrsv]
  cases htakes : takesIndex b.op with
  | true =>
    simp only [takesIndex, Bool.or_eq_true, beq_iff_eq] at htakes
    obtain (h3 | h4) | h5 := htakes
    · cases (decode_wrp h3 hrsv).symm.trans h
      rw [h3]; rfl
    · cases (decode_rdp h4 hrsv).symm.trans h
      rw [h4]; rfl
    · cases (decode_rds h5 hrsv).symm.trans h
      rw [h5]; rfl
  | false =>
    have hidx : b.idx = 0#8 := hindex.resolve_left (by simp [htakes])
    rw [hidx]
    exact cw_of_decodePlain ((decode_plain hop hrsv htakes hidx).symm.trans h)

/-- What a step on a waiting command can do: refuse its command word, or execute the decoded command. -/
theorem step_outcome {s t : State} {b : Bundle} {rest : List Bundle} (hport : s.port = b :: rest)
    (hstep : step s = .next t) :
    (∃ c, t = refuse c b.cw { s with port := rest }) ∨
      ∃ i, decode b = .ok i ∧ t = doneOf i { s with port := rest } := by
  cases hdec : decode b with
  | error e =>
    rw [step_of_decode_error hport hdec] at hstep
    exact Or.inl ⟨.badop, (Host.Outcome.next.inj hstep).symm⟩
  | ok i =>
    rw [step_of_decode_ok hport hdec] at hstep
    obtain ⟨c, -, rfl⟩ | ⟨-, rfl⟩ := exec_cases hstep
    · exact Or.inl ⟨c, by rw [cw_of_decode hdec]⟩
    · exact Or.inr ⟨i, rfl, rfl⟩

/-! ### The error registers after an accepted command -/

/-- `t` has the error registers of `s`. -/
def SameErrors (t s : State) : Prop :=
  t.errCause = s.errCause ∧ t.errCmd = s.errCmd ∧ t.errSticky = s.errSticky

theorem sameErrors_blockSetup (N : Numerics) (s : State) : SameErrors (blockSetup N s) s := by
  obtain ⟨-, h⟩ | ⟨-, h⟩ := blockSetup_cases N s <;> rw [h] <;> exact ⟨rfl, rfl, rfl⟩

theorem sameErrors_framePipe (N : Numerics) (stereo : Bool) (s : State) (x : Pair F32) :
    SameErrors (framePipe N stereo s x).1 s := by
  obtain ⟨-, h⟩ | ⟨-, h⟩ := framePipe_cases N stereo s x <;> rw [h] <;> exact ⟨rfl, rfl, rfl⟩

/-- Of the accepted commands PREPARE alone writes the error registers (R38, R97). -/
theorem sameErrors_doneOf {i : Instr} (s : State) (h : ∀ fs mb, i ≠ .prepare fs mb) : SameErrors (doneOf i s) s := by
  cases i with
  | nop | reset | endBlock => exact ⟨rfl, rfl, rfl⟩
  | prepare fs mb => exact absurd rfl (h fs mb)
  | wrp idx v =>
    simp only [doneOf, wrpDone]
    cases ParamReg.ofIdx idx <;> exact ⟨rfl, rfl, rfl⟩
  | rdp idx =>
    simp only [doneOf, rdpDone]
    cases ParamReg.ofIdx idx <;> exact ⟨rfl, rfl, rfl⟩
  | rds idx =>
    simp only [doneOf, rdsDone]
    cases StatusReg.ofIdx idx <;> exact ⟨rfl, rfl, rfl⟩
  | beginBlock m nch =>
    exact sameErrors_blockSetup Config.num { s with blkLen := m, blkNch := nch, n := 0#32, mode := .inblk }
  | frame l r =>
    simp only [doneOf, frameDone, frameRespond_eq]
    exact sameErrors_framePipe Config.num s.stereo s ⟨l, r⟩

/-! ### The error registers as RDS reads them -/

/-- `err_cause` stands in bits 15 to 8 of STATUS (R27). -/
theorem statusWord_errCause (s : State) : (statusWord s).extractLsb' 8 8 = s.errCause := by
  have hmode := s.mode.code.isLt
  have hbypass := s.bypass.toNat_le
  have hsticky := s.errSticky.toNat_le
  have hprev := s.voc.prev.toNat_le
  have hcause := s.errCause.isLt
  apply BitVec.eq_of_toNat_eq
  rw [BitVec.extractLsb'_toNat, statusWord_toNat, Nat.shiftRight_eq_div_pow]
  omega

/-- `err_sticky` is bit 3 of STATUS (R27). -/
theorem statusWord_errSticky (s : State) : (statusWord s).getLsbD 3 = s.errSticky := by
  have hmode := s.mode.code.isLt
  have hbypass := s.bypass.toNat_le
  have hbit : (statusWord s).toNat / 2 ^ 3 % 2 = s.errSticky.toNat := by
    have hsticky := s.errSticky.toNat_le
    rw [statusWord_toNat]
    omega
  rw [BitVec.getLsbD, Nat.testBit_eq_decide_div_mod_eq, hbit]
  cases s.errSticky <;> rfl

theorem cause_code_range (c : Cause) : 1 ≤ c.code.toNat ∧ c.code.toNat ≤ 5 := by
  cases c <;> decide

/-- The status word of a refusal carries the cause and nothing above it (R78). -/
theorem refusedResponse_st_toNat (c : Cause) : (refusedResponse c).st.toNat = c.code.toNat := by
  cases c <;> rfl

theorem refusedResponse_st_setWidth (c : Cause) : (refusedResponse c).st.setWidth 8 = c.code := by
  cases c <;> rfl

theorem refusedResponse_st_ne_zero (c : Cause) : (refusedResponse c).st ≠ 0#32 := by
  cases c <;> decide

theorem refuse_eq (c : Cause) (cw : Word) (s : State) :
    refuse c cw s =
      { s with errCause := c.code, errCmd := cw, errSticky := true, resp := some (refusedResponse c) } := rfl

/-! ### The statement -/

/-- Settles O8: a step refuses the word or executes the command; the status tells which, and each has its effect on the
error registers. -/
theorem refusalChangesOnlyErrorRegisters : Obligations.RefusalChangesOnlyErrorRegisters := by
  unfold Obligations.RefusalChangesOnlyErrorRegisters
  intro s t b rest r hport hstep hresp
  obtain ⟨c, rfl⟩ | ⟨i, hdec, rfl⟩ := step_outcome hport hstep
  · obtain rfl : refusedResponse c = r := Option.some.inj hresp
    have hne := refusedResponse_st_ne_zero c
    refine ⟨fun _ => ?_, fun hst => absurd hst hne, fun hst => absurd hst hne⟩
    rw [refusedResponse_st_toNat, refusedResponse_st_setWidth]
    obtain ⟨hlow, hhigh⟩ := cause_code_range c
    exact ⟨hlow, hhigh, refuse_eq c b.cw _, readsAs_of_idx .errCmd _ rfl, _, readsAs_of_idx .status _ rfl,
      statusWord_errCause _, statusWord_errSticky _⟩
  · obtain ⟨-, -, r', hr', hst⟩ := doneOf_transition i { s with port := rest }
    obtain rfl : r' = r := Option.some.inj (hr'.symm.trans hresp)
    refine ⟨fun hne => absurd hst hne, fun _ hother => ?_, fun _ hprepare => ?_⟩
    · exact sameErrors_doneOf _ fun fs mb heq => hother fs mb (heq ▸ hdec)
    · obtain ⟨fs, mb, hdec'⟩ := hprepare
      cases hdec.symm.trans hdec'
      exact ⟨rfl, rfl, rfl⟩

end Sys2Proof.Proofs
end

section
/-! PROOFS. The order of the causes (40_commands.md R95, 60_exceptions.md R258 to R264): the checks of the operands on
exact values; each command's list of checks as a chain of conditions; and from these one lemma per cause: it is
reported when its condition is the first that holds. -/

namespace Sys2Proof.Proofs

open Machine Witness Laws

/-! ### Bounds as exact values -/

/-- A binary32 value that is a natural number. -/
theorem value_eq_natCast {x : F32} {k : ℕ} (h : F32.scaledInt x = k * 2 ^ 149) : F32.value x = k := by
  rw [F32.value, h]
  push_cast
  exact mul_div_cancel_right₀ _ (by positivity)

theorem value_zero : F32.value zero = 0 := (value_eq_natCast (k := 0) (by decide)).trans Nat.cast_zero

theorem value_half : F32.value 0x3F000000#32 = 1 / 2 := by
  have h : F32.scaledInt 0x3F000000#32 = 2 ^ 148 := by decide
  rw [F32.value, h]
  norm_num

theorem value_fsMin : F32.value fsMin = 44100 := value_eq_natCast (by decide)

theorem value_fsMax : F32.value fsMax = 192000 := value_eq_natCast (by decide)

/-! ### The rates, lengths and channel counts (R261) -/

theorem flt_eq_false_iff {x y : F32} (hx : F32.isFinite x = true) (hy : F32.isFinite y = true) :
    flt x y = false ↔ F32.value y ≤ F32.value x := by
  rw [← Bool.not_eq_true, ← not_lt]
  exact not_congr (lt_iff_value hx hy)

theorem fsOk_iff {fs : F32} :
    fsOk fs = true ↔ F32.isFinite fs = true ∧ 44100 ≤ F32.value fs ∧ F32.value fs ≤ 192000 := by
  simp only [fsOk, Bool.and_eq_true, Bool.not_eq_true', and_assoc]
  refine and_congr_right fun hfinite => ?_
  rw [flt_eq_false_iff hfinite rfl, flt_eq_false_iff rfl hfinite, value_fsMin, value_fsMax]

theorem maxblkOk_iff {mb : Word} : maxblkOk mb = true ↔ ¬(mb.toNat = 0 ∨ 2 ^ 31 - 1 < mb.toNat) := by
  simp only [maxblkOk, maxblkMax, Bool.and_eq_true, decide_eq_true_eq, BitVec.le_def, BitVec.toNat_ofNat]
  omega

theorem nchOk_iff {nch : Word} : nchOk nch = true ↔ ¬(nch.toNat ≠ 1 ∧ nch.toNat ≠ 2) := by
  simp only [nchOk, Bool.or_eq_true, beq_iff_eq]
  bv_omega

theorem badLength_prepare_iff {fs : F32} {mb : Word} {s : State} :
    BadLength (.prepare fs mb) s ↔ ¬(fsOk fs = true ∧ maxblkOk mb = true) := by
  rw [fsOk_iff, maxblkOk_iff, not_and_or, not_not]
  rfl

theorem badLength_begin_iff {m nch : Word} {s : State} :
    BadLength (.beginBlock m nch) s ↔ ¬(m ≤ s.maxblk ∧ nchOk nch = true) := by
  rw [nchOk_iff, not_and_or, not_not, BitVec.le_def, not_le]
  rfl

/-! ### The values of the parameter registers and of the samples (R262) -/

/-- A register with a range of values accepts the values of the closed range; no NaN and no infinity lies in it. -/
theorem inRange_float_iff {r : ParamReg} {v lo hi : F32} (htype : r.type = .float lo hi)
    (hlo : F32.isFinite lo = true) (hhi : F32.isFinite hi = true) :
    inRange r v = true ↔ ValueBetween (F32.value lo) (F32.value hi) v := by
  have hwithin : inRange r v = within lo hi v := by simp only [inRange, htype, within]
  have hbounds (hv : F32.isFinite v = true) :
      within lo hi v = true ↔ F32.value lo ≤ F32.value v ∧ F32.value v ≤ F32.value hi := by
    rw [within_iff]
    exact and_congr (le_iff_value hlo hv) (le_iff_value hv hhi)
  rw [hwithin]
  constructor
  · intro h
    have hv := finite_of_within hlo hhi h
    exact ⟨hv, (hbounds hv).mp h⟩
  · rintro ⟨hv, h⟩
    exact (hbounds hv).mpr h

theorem inRange_percent_iff {r : ParamReg} {v : F32} (htype : r.type = .float zero hundred) :
    inRange r v = true ↔ ValueBetween 0 100 v := by
  have hhundred : F32.value hundred = 100 := value_eq_natCast (by decide)
  rw [inRange_float_iff htype rfl rfl, value_zero, hhundred]

/-- A register with codes accepts the codes up to the greatest. -/
theorem inRange_enumerated_iff {r : ParamReg} {v last : Word} (htype : r.type = .enumerated last) :
    inRange r v = true ↔ v.toNat ≤ last.toNat := by
  simp only [inRange, htype, decide_eq_true_eq, BitVec.le_def]

theorem inRange_iff_acceptable (r : ParamReg) (v : Word) : inRange r v = true ↔ Acceptable r v := by
  cases r with
  | filterType | filterSlope | riserType | vocMode =>
    rw [inRange_enumerated_iff rfl]
    rfl
  | filterResonance =>
    have hten : F32.value 0x41200000#32 = 10 := value_eq_natCast (by decide)
    rw [inRange_float_iff rfl rfl rfl, value_half, hten]
    rfl
  | riserRelease =>
    have hfive : F32.value 0x40A00000#32 = 5 := value_eq_natCast (by decide)
    rw [inRange_float_iff rfl rfl rfl, hfive]
    rfl
  | gateLevel =>
    have hone : F32.value one = 1 := (value_eq_natCast (k := 1) (by decide)).trans Nat.cast_one
    rw [inRange_float_iff rfl rfl rfl, value_zero, hone]
    rfl
  | _ => exact inRange_percent_iff rfl

theorem badValue_wrp_iff (r : ParamReg) (v : Word) (s : State) : BadValue (.wrp r.idx v) s ↔ ¬inRange r v = true := by
  rw [inRange_iff_acceptable]
  constructor
  · exact fun h => h r rfl
  · intro h r' hidx
    have hsame : some r' = some r := by rw [← paramReg_ofIdx_idx r', hidx, paramReg_ofIdx_idx]
    exact Option.some.inj hsame ▸ h

theorem badValue_frame_iff {l r : F32} {s : State} :
    BadValue (.frame l r) s ↔ ¬(F32.isFinite l = true ∧ (s.blkNch = 2#32 → F32.isFinite r = true)) := by
  have hstereo : s.blkNch.toNat = 2 ↔ s.blkNch = 2#32 := BitVec.toNat_inj (y := 2#32)
  simp only [BadValue, hstereo, not_and_or, Classical.not_imp, Bool.not_eq_true]

/-! ### The checks of a command in their order -/

theorem prepareCause_eq (fs : F32) (mb : Word) (s : State) :
    prepareCause fs mb s = if s.mode = .inblk then some .badstate
      else if fsOk fs = true ∧ maxblkOk mb = true then none else some .badlen := by
  simp only [prepareCause, firstCause, beq_iff_eq]
  cases fsOk fs <;> cases maxblkOk mb <;> rfl

theorem resetCause_eq (s : State) : resetCause s = if s.mode = .inblk then some .badstate else none := by
  simp only [resetCause, firstCause, beq_iff_eq]

theorem beginCause_eq (m nch : Word) (s : State) :
    beginCause m nch s = if s.mode ≠ .idle then some .badstate
      else if m ≤ s.maxblk ∧ nchOk nch = true then none else some .badlen := by
  have hlength : (decide (s.maxblk < m) || !nchOk nch) = true ↔ ¬(m ≤ s.maxblk ∧ nchOk nch = true) := by
    simp only [Bool.or_eq_true, decide_eq_true_eq, Bool.not_eq_true', not_and_or, BitVec.not_le, Bool.not_eq_true]
  simp only [beginCause, firstCause, bne_iff_ne, hlength, ite_not]

theorem frameCause_eq (l r : F32) (s : State) :
    frameCause l r s = if s.mode ≠ .inblk ∨ s.n = s.blkLen then some .badstate
      else if F32.isFinite l = true ∧ (s.blkNch = 2#32 → F32.isFinite r = true) then none else some .badval := by
  simp only [frameCause, firstCause, Bool.or_eq_true, bne_iff_ne, beq_iff_eq, ← stereo_iff]
  cases F32.isFinite l <;> cases s.stereo <;> cases F32.isFinite r <;> rfl

/-- Every index below 14 names a parameter register (R25). -/
theorem exists_paramReg_of_assigned {idx : BitVec 8} (h : ¬14 ≤ idx.toNat) : ∃ r : ParamReg, r.idx = idx := by
  have found : ∀ k : Fin 14, (ParamReg.ofIdx (BitVec.ofNat 8 k)).isSome = true := by decide
  have hidx : BitVec.ofNat 8 idx.toNat = idx := (BitVec.ofNat_toNat 8 idx).trans idx.setWidth_eq
  obtain ⟨r, hr⟩ := Option.isSome_iff_exists.mp (found ⟨idx.toNat, not_le.mp h⟩)
  exact ⟨r, (paramReg_idx_of_ofIdx hr).trans hidx⟩

/-! ### The first cause that holds -/

section
variable {i : Instr} {s : State}

/-- BADREG: only the register accesses have an index, and they are legal in every mode (R260). -/
theorem causeOf_of_reservedIndex (h : ReservedIndex i) : causeOf i s = some .badreg := by
  cases i with
  | wrp idx v => exact wrpCause_reserved v h
  | rdp idx => exact rdpCause_reserved h
  | rds idx => exact rdsCause_reserved h
  | _ => exact h.elim

/-- BADLEN: a PREPARE or BEGIN that is legal (R261). -/
theorem causeOf_of_badLength (hlegal : ¬NotLegal i s) (h : BadLength i s) : causeOf i s = some .badlen := by
  cases i with
  | prepare fs mb =>
    exact (prepareCause_eq fs mb s).trans ((if_neg hlegal).trans (if_neg (badLength_prepare_iff.mp h)))
  | beginBlock m nch =>
    exact (beginCause_eq m nch s).trans ((if_neg hlegal).trans (if_neg (badLength_begin_iff.mp h)))
  | _ => exact h.elim

/-- BADVAL: a WRP of an implemented register, or a legal FRAME (R262). -/
theorem causeOf_of_badValue (hlegal : ¬NotLegal i s) (hassigned : ¬ReservedIndex i) (h : BadValue i s) :
    causeOf i s = some .badval := by
  cases i with
  | wrp idx v =>
    obtain ⟨r, rfl⟩ := exists_paramReg_of_assigned hassigned
    exact (wrpCause_idx r v).trans (if_neg ((badValue_wrp_iff r v s).mp h))
  | frame l r =>
    exact (frameCause_eq l r s).trans ((if_neg hlegal).trans (if_neg (badValue_frame_iff.mp h)))
  | _ => exact h.elim

/-- No cause stands against a command that none of the four conditions holds for. -/
theorem causeOf_eq_none (hlegal : ¬NotLegal i s) (hassigned : ¬ReservedIndex i) (hlength : ¬BadLength i s)
    (hvalue : ¬BadValue i s) : causeOf i s = none := by
  cases i with
  | nop => rfl
  | prepare fs mb =>
    have hok := not_not.mp (mt badLength_prepare_iff.mpr hlength)
    exact (prepareCause_eq fs mb s).trans ((if_neg hlegal).trans (if_pos hok))
  | reset => exact (resetCause_eq s).trans (if_neg hlegal)
  | wrp idx v =>
    obtain ⟨r, rfl⟩ := exists_paramReg_of_assigned hassigned
    exact (wrpCause_idx r v).trans (if_pos (not_not.mp (mt (badValue_wrp_iff r v s).mpr hvalue)))
  | rdp idx =>
    obtain ⟨r, rfl⟩ := exists_paramReg_of_assigned hassigned
    exact rdpCause_idx r
  | rds idx =>
    obtain ⟨r, rfl⟩ := exists_statusReg_of_assigned hassigned
    exact rdsCause_idx r
  | beginBlock m nch =>
    have hok := not_not.mp (mt badLength_begin_iff.mpr hlength)
    exact (beginCause_eq m nch s).trans ((if_neg hlegal).trans (if_pos hok))
  | frame l r =>
    have hok := not_not.mp (mt badValue_frame_iff.mpr hvalue)
    exact (frameCause_eq l r s).trans ((if_neg hlegal).trans (if_pos hok))
  | endBlock => exact (endCause_eq s).trans (if_neg hlegal)

end

/-! ### The statement -/

/-- Taking a command from the port makes no condition true or false. -/
theorem causeOf_port (i : Instr) (s : State) (rest : List Bundle) :
    causeOf i { s with port := rest } = causeOf i s := by
  cases i <;> rfl

/-- A step on a decoded command, by the cause that stands against the command. -/
theorem step_by_cause {s : State} {b : Bundle} {rest : List Bundle} {i : Instr} (hport : s.port = b :: rest)
    (hdec : decode b = .ok i) :
    ∃ t r, step s = .next t ∧ t.resp = some r ∧
      (∀ {c}, causeOf i s = some c → t = refuse c b.cw { s with port := rest }) ∧
      (causeOf i s = none → r.st = 0#32) := by
  rw [step_of_decode_ok hport hdec, ← causeOf_port i s rest, ← cw_of_decode hdec]
  cases hcause : causeOf i { s with port := rest } with
  | some c => exact ⟨_, _, exec_refused hcause, rfl, fun h => by rw [Option.some.inj h], nofun⟩
  | none =>
    obtain ⟨-, -, r, hresp, hst⟩ := doneOf_transition i { s with port := rest }
    exact ⟨_, r, exec_accepted hcause, hresp, nofun, fun _ => hst⟩

/-- Settles O9: an illegal word is BADOP, a legal one decodes, and the cause that stands against its command is the one
its conditions name. -/
theorem firstCauseIsReported : Obligations.FirstCauseIsReported := by
  unfold Obligations.FirstCauseIsReported
  intro s b rest hport _
  refine ⟨step_of_not_wellFormed hport, fun hwf => ?_⟩
  obtain ⟨i, hdec⟩ := decode_ok_of_wellFormed hwf
  obtain ⟨t, r, hstep, hresp, hrefused, haccepted⟩ := step_by_cause hport hdec
  exact ⟨i, t, r, hdec, hstep, hresp,
    fun hillegal => hrefused ((causeOf_eq_badstate_iff i s).mpr hillegal),
    fun _ hreserved => hrefused (causeOf_of_reservedIndex hreserved),
    fun hlegal _ hlength => hrefused (causeOf_of_badLength hlegal hlength),
    fun hlegal hassigned _ hvalue => hrefused (causeOf_of_badValue hlegal hassigned hvalue),
    fun hlegal hassigned hlength hvalue => haccepted (causeOf_eq_none hlegal hassigned hlength hvalue)⟩

end Sys2Proof.Proofs
end

section
/-! PROOFS. Power-on (10_state.md R40, 70_reset_and_hazards.md R275): the power-on values that stand in a table, a stage,
a channel or a buffer, at every index of it, and the statement assembled from them. -/

namespace Sys2Proof.Proofs

open Machine Laws

@[simp] theorem pair_get_both {α : Type} (x : α) (c : Chan) : (Pair.both x).get c = x := by
  cases c <;> rfl

/-! ### The indexed values -/

/-- Before the first PREPARE every coefficient and window value is zero, and no bin lies in a band. -/
theorem tables_atReset :
    (∀ k, Tables.atReset.vco.get k = Coef.zeros) ∧
    (∀ (d : F32) (i : Nat), i < 512 → Tables.atReset.hann.getD i d = zero) ∧
    ∀ (d : Option (Fin 4)) (j : Nat), j < 257 → Tables.atReset.bandOfBin.getD j d = none :=
  ⟨fun k => quad_get_all _ k, fun d _ hi => buf_getD_fill _ d hi, fun d _ hj => buf_getD_fill _ d hj⟩

/-- All four stages of a chain start alike. -/
theorem fb_atReset_stages (k : Fin 4) :
    Fb.atReset.hp.get k = Stage.atReset .hp ∧ Fb.atReset.lp.get k = Stage.atReset .lp :=
  ⟨quad_get_all _ k, quad_get_all _ k⟩

theorem vftChan_cleared_buffers (d : F32) {i : Nat} (hi : i < 512) :
    VftChan.cleared.inp.getD i d = zero ∧ VftChan.cleared.out.getD i d = zero :=
  ⟨buf_getD_fill _ d hi, buf_getD_fill _ d hi⟩

/-- Both forms of the vocoder start cleared on both channels. -/
theorem voc_atReset_channels (c : Chan) :
    Voc.atReset.vfb.get c = VfbChan.cleared ∧ Voc.atReset.vft.get c = VftChan.cleared :=
  ⟨pair_get_both _ c, pair_get_both _ c⟩

/-! ### The first block -/

/-- The build-up at power-on is zero, which is below the bypass threshold of R137. -/
theorem isBypassBlock_atReset : isBypassBlock Params.atReset = true := by decide

/-! ### The statement -/

/-- Settles O32: a register or flag of its own has its value by the definition of the reset state; the values in tables,
stages, channels and buffers have theirs at every index by the lemmas above. -/
theorem powerOnState : Obligations.PowerOnState := by
  unfold Obligations.PowerOnState
  obtain ⟨hvco, hhann, hband⟩ := tables_atReset
  refine ⟨rfl, rfl, rfl, rfl, rfl, rfl, rfl, rfl, rfl, rfl, rfl, rfl, hvco, hhann _, hband _, rfl, fb_atReset_stages,
    fun c => ?vocoderChannel, rfl, rfl, rfl, rfl, rfl, rfl, rfl, rfl, rfl, rfl, rfl, isBypassBlock_atReset⟩
  case vocoderChannel =>
    obtain ⟨hvfb, hvft⟩ : State.reset.voc.vfb.get c = VfbChan.cleared ∧ State.reset.voc.vft.get c = VftChan.cleared :=
      voc_atReset_channels c
    rw [hvft]
    exact ⟨hvfb, fun _ hi => vftChan_cleared_buffers _ hi, rfl⟩

end Sys2Proof.Proofs
end

section
/-! PROOFS. Encoding and decoding (30_encoding.md R75 to R80, 20_memory.md R63): decoding a command word with the used
operands of a command gives the command whatever stands in the unused operand words; a decoded command encodes to the
word and the used operands it came from; a row of the opcode map is fixed by the opcode of the words it selects; and a
list of bytes as the digits of a number to the base 256. -/

-- One theorem at a time: a waiting task holds a thread.
set_option Elab.async false

namespace Sys2Proof.Proofs

open Machine Laws

/-! ### Decoding an encoded command -/

theorem legalEncoding (i : Instr) : (encode i).wellFormed = true := by
  cases i with
  | nop => exact LegalEncoding.nop
  | prepare fs mb => exact LegalEncoding.prepare fs mb
  | reset => exact LegalEncoding.reset
  | wrp idx v => exact LegalEncoding.wrp idx v
  | rdp idx => exact LegalEncoding.rdp idx
  | rds idx => exact LegalEncoding.rds idx
  | beginBlock m nch => exact LegalEncoding.beginBlock m nch
  | frame l r => exact LegalEncoding.frame l r
  | endBlock => exact LegalEncoding.endBlock

/-- An assembled command word of an opcode without index decodes by its opcode alone. -/
theorem decode_commandWord_plain {op : BitVec 8} {a b : Word} (hop : op ≤ 8#8) (hplain : takesIndex op = false) :
    decode ⟨commandWord op 0#8, a, b⟩ = decodePlain ⟨commandWord op 0#8, a, b⟩ :=
  decode_plain (by rwa [op_commandWord]) (rsv_commandWord ..) (by rwa [op_commandWord]) (idx_commandWord ..)

/-- The operand words a command does not use may hold anything (R75). -/
theorem decode_encode_unused (i : Instr) (x y : Word) :
    decode ⟨(encode i).cw, if i.usesOpa then (encode i).opa else x, if i.usesOpb then (encode i).opb else y⟩ =
      .ok i := by
  cases i with
  | wrp idx v =>
    have h := decode_wrp (b := ⟨commandWord 3#8 idx, v, y⟩) (op_commandWord ..) (rsv_commandWord ..)
    rwa [idx_commandWord] at h
  | rdp idx =>
    have h := decode_rdp (b := ⟨commandWord 4#8 idx, x, y⟩) (op_commandWord ..) (rsv_commandWord ..)
    rwa [idx_commandWord] at h
  | rds idx =>
    have h := decode_rds (b := ⟨commandWord 5#8 idx, x, y⟩) (op_commandWord ..) (rsv_commandWord ..)
    rwa [idx_commandWord] at h
  | nop | prepare | reset | beginBlock | frame | endBlock =>
    refine (decode_commandWord_plain (by decide) rfl).trans ?_
    simp only [decodePlain, op_commandWord]
    rfl

theorem decode_encode (i : Instr) : decode (encode i) = .ok i := by
  have h := decode_encode_unused i 0#32 0#32
  cases i <;> exact h

/-! ### Encoding a decoded command -/

/-- The operand words of a command without index. -/
theorem operands_of_decodePlain {b : Bundle} {i : Instr} (h : decodePlain b = .ok i) :
    (encode i).opa = (if i.usesOpa then b.opa else 0#32) ∧ (encode i).opb = (if i.usesOpb then b.opb else 0#32) := by
  unfold decodePlain at h
  split at h <;> cases h <;> exact ⟨rfl, rfl⟩

/-- A command takes from its bundle the operand words it uses (R77). -/
theorem operands_of_decode {b : Bundle} {i : Instr} (h : decode b = .ok i) :
    (encode i).opa = (if i.usesOpa then b.opa else 0#32) ∧ (encode i).opb = (if i.usesOpb then b.opb else 0#32) := by
  obtain ⟨hop, hrsv, hindex⟩ := wellFormed_iff.mp (wellFormed_of_decode_ok h)
  cases htakes : takesIndex b.op with
  | true =>
    simp only [takesIndex, Bool.or_eq_true, beq_iff_eq] at htakes
    obtain (h3 | h4) | h5 := htakes
    · cases (decode_wrp h3 hrsv).symm.trans h; exact ⟨rfl, rfl⟩
    · cases (decode_rdp h4 hrsv).symm.trans h; exact ⟨rfl, rfl⟩
    · cases (decode_rds h5 hrsv).symm.trans h; exact ⟨rfl, rfl⟩
  | false =>
    have hidx : b.idx = 0#8 := hindex.resolve_left (by simp [htakes])
    exact operands_of_decodePlain ((decode_plain hop hrsv htakes hidx).symm.trans h)

/-- A decoded command encodes to the word it came from and the operand words it uses. -/
theorem encode_of_decode {b : Bundle} {i : Instr} (h : decode b = .ok i) :
    encode i = ⟨b.cw, if i.usesOpa then b.opa else 0#32, if i.usesOpb then b.opb else 0#32⟩ := by
  obtain ⟨hopa, hopb⟩ := operands_of_decode h
  rw [← hopa, ← hopb, ← cw_of_decode h]
  rfl

/-- A decoded command stays the same when the operand words it does not use change. -/
theorem decode_unused_of_decode {b : Bundle} {i : Instr} (h : decode b = .ok i) (x y : Word) :
    decode ⟨b.cw, if i.usesOpa then b.opa else x, if i.usesOpb then b.opb else y⟩ = .ok i := by
  obtain ⟨hopa, hopb⟩ := operands_of_decode h
  have hused := decode_encode_unused i x y
  rw [hopa, hopb, show (encode i).cw = b.cw from cw_of_decode h] at hused
  cases ha : i.usesOpa <;> cases hb : i.usesOpb <;> rw [ha, hb] at hused <;> exact hused

/-! ### The rows of the opcode map -/

/-- The pattern of a row is the opcode of every word it selects (R80). -/
theorem pattern_of_selects {b : Bundle} {r : OpcodeRow} (hr : r ∈ opcodeMap) (h : r.selects b.cw = true) :
    r.pattern = commandWord b.op 0#8 := by
  rw [opcodeMap_eq] at hr
  simp only [List.mem_cons, List.not_mem_nil, or_false] at hr
  obtain rfl | rfl | rfl | rfl | rfl | rfl | rfl | rfl | rfl := hr
  case inr.inr.inr.inl | inr.inr.inr.inr.inl | inr.inr.inr.inr.inr.inl =>
    rw [(selects_indexed.mp h).1]
  all_goals rw [(selects_plain.mp h).1]

theorem row_eq_of_pattern_eq : ∀ r ∈ opcodeMap, ∀ r' ∈ opcodeMap, r'.pattern = r.pattern → r' = r := by decide +kernel

theorem row_unique {b : Bundle} {r r' : OpcodeRow} (hr : r ∈ opcodeMap) (hr' : r' ∈ opcodeMap)
    (h : r.selects b.cw = true) (h' : r'.selects b.cw = true) : r' = r :=
  row_eq_of_pattern_eq r hr r' hr' ((pattern_of_selects hr' h').trans (pattern_of_selects hr h).symm)

/-- A mask of ones on the bits the index field leaves: the row of an opcode with index selects every index. -/
theorem selects_commandWord_indexed (m : String) (op idx : BitVec 8) :
    OpcodeRow.selects ⟨m, commandWord op 0#8, 0xFF00FFFF#32⟩ (commandWord op idx) = true :=
  (selects_indexed (b := ⟨commandWord op idx, 0#32, 0#32⟩)).mpr ⟨op_commandWord .., rsv_commandWord ..⟩

theorem selects_commandWord_plain (m : String) (op : BitVec 8) :
    OpcodeRow.selects ⟨m, commandWord op 0#8, 0xFFFFFFFF#32⟩ (commandWord op 0#8) = true :=
  (selects_plain (b := ⟨commandWord op 0#8, 0#32, 0#32⟩)).mpr
    ⟨op_commandWord .., idx_commandWord .., rsv_commandWord ..⟩

/-- The row of a command selects its command word (R80). -/
theorem exists_row_of_cw (i : Instr) : ∃ r ∈ opcodeMap, r.selects i.cw = true ∧ r.mnemonic = i.mnemonic := by
  rw [opcodeMap_eq]
  cases i with
  | wrp idx => exact ⟨_, by simp, selects_commandWord_indexed "WRP" 3#8 idx, rfl⟩
  | rdp idx => exact ⟨_, by simp, selects_commandWord_indexed "RDP" 4#8 idx, rfl⟩
  | rds idx => exact ⟨_, by simp, selects_commandWord_indexed "RDS" 5#8 idx, rfl⟩
  | nop => exact ⟨_, by simp, selects_commandWord_plain "NOP" 0#8, rfl⟩
  | prepare => exact ⟨_, by simp, selects_commandWord_plain "PREPARE" 1#8, rfl⟩
  | reset => exact ⟨_, by simp, selects_commandWord_plain "RESET" 2#8, rfl⟩
  | beginBlock => exact ⟨_, by simp, selects_commandWord_plain "BEGIN" 6#8, rfl⟩
  | frame => exact ⟨_, by simp, selects_commandWord_plain "FRAME" 7#8, rfl⟩
  | endBlock => exact ⟨_, by simp, selects_commandWord_plain "END" 8#8, rfl⟩

/-- Settles O2: a selected word is well-formed and so decodes, to the command of the one row that selects it; and a
decoded command keeps its word and the operands it uses. -/
theorem decodeFollowsOpcodeMap : Obligations.DecodeFollowsOpcodeMap := by
  unfold Obligations.DecodeFollowsOpcodeMap
  intro b
  have row {i : Instr} (h : decode b = .ok i) : ∃ r ∈ opcodeMap, r.selects b.cw = true ∧ r.mnemonic = i.mnemonic :=
    cw_of_decode h ▸ exists_row_of_cw i
  refine ⟨fun r hr hsel => ⟨?_, fun r' hr' hsel' => row_unique hr hr' hsel hsel'⟩, fun i h => ?_⟩
  · obtain ⟨i, hi⟩ := decode_ok_of_wellFormed (exists_row_iff_wellFormed.mp ⟨r, hr, hsel⟩)
    obtain ⟨r', hr', hsel', hmn⟩ := row hi
    exact ⟨i, hi, by rw [← hmn, row_unique hr hr' hsel hsel']⟩
  · exact ⟨row h, encode_of_decode h, decode_unused_of_decode h⟩

/-- Settles O5: each word is evaluated by the decoder. -/
theorem exampleWordsDecode : Obligations.ExampleWordsDecode := by
  unfold Obligations.ExampleWordsDecode
  exact ⟨rfl, rfl, rfl, rfl, rfl, rfl, rfl, rfl, rfl, rfl⟩

/-! ### Bytes -/

/-- The number whose base-256 digits are the bytes, least significant first (R63). -/
def bytesValue (l : List Byte) : Nat := Nat.ofDigits 256 (l.map BitVec.toNat)

theorem bytesValue_cons (a : Byte) (l : List Byte) : bytesValue (a :: l) = a.toNat + 256 * bytesValue l := by
  unfold bytesValue
  rw [List.map_cons, Nat.ofDigits_cons]

theorem bytesValue_append (l l' : List Byte) :
    bytesValue (l ++ l') = bytesValue l + 256 ^ l.length * bytesValue l' := by
  unfold bytesValue
  rw [List.map_append, Nat.ofDigits_append, List.length_map]

/-- Byte `k` is the digit at position `k`. -/
theorem getD_toNat_eq_digit (l : List Byte) (k : Nat) : (l.getD k 0#8).toNat = bytesValue l / 256 ^ k % 256 := by
  induction l generalizing k with
  | nil => simp [bytesValue]
  | cons a l ih =>
    have ha := a.isLt
    rw [bytesValue_cons]
    cases k with
    | zero => simp only [List.getD_cons_zero, pow_zero, Nat.div_one]; omega
    | succ k =>
      rw [List.getD_cons_succ, ih, pow_succ', ← Nat.div_div_eq_div_mul]
      congr 2
      omega

/-- The four bytes of a word spell its number. -/
theorem bytesValue_wordBytes (w : Word) : bytesValue (wordBytes w) = w.toNat := by
  have hw := w.isLt
  simp only [wordBytes, bytesValue_cons, BitVec.extractLsb'_toNat, Nat.shiftRight_eq_div_pow]
  simp only [bytesValue, List.map_nil, Nat.ofDigits_nil]
  omega

theorem length_wordBytes (w : Word) : (wordBytes w).length = 4 := rfl

/-- Reading the four bytes of a word gives the word back. -/
theorem wordOfBytes_extract (w : Word) :
    wordOfBytes (w.extractLsb' 0 8) (w.extractLsb' 8 8) (w.extractLsb' 16 8) (w.extractLsb' 24 8) = w := by
  have hw := w.isLt
  apply BitVec.eq_of_toNat_eq
  simp only [wordOfBytes, toNat_append_eq_add, BitVec.extractLsb'_toNat, Nat.shiftRight_eq_div_pow]
  omega

/-- Reading the bytes of a bundle gives the bundle back and leaves the bytes that follow. -/
theorem ofBytes_bytes (b : Bundle) (rest : List Byte) : Bundle.ofBytes (b.bytes ++ rest) = .ok (b, rest) := by
  have h : Bundle.ofBytes (b.bytes ++ rest) = .ok (⟨wordOfBytes (b.cw.extractLsb' 0 8) (b.cw.extractLsb' 8 8)
      (b.cw.extractLsb' 16 8) (b.cw.extractLsb' 24 8), wordOfBytes (b.opa.extractLsb' 0 8) (b.opa.extractLsb' 8 8)
      (b.opa.extractLsb' 16 8) (b.opa.extractLsb' 24 8), wordOfBytes (b.opb.extractLsb' 0 8) (b.opb.extractLsb' 8 8)
      (b.opb.extractLsb' 16 8) (b.opb.extractLsb' 24 8)⟩, rest) := rfl
  rw [h, wordOfBytes_extract, wordOfBytes_extract, wordOfBytes_extract]

theorem bytesValue_bundle (b : Bundle) :
    bytesValue b.bytes = b.cw.toNat + 2 ^ 32 * b.opa.toNat + 2 ^ 64 * b.opb.toNat := by
  simp only [Bundle.bytes, bytesValue_append, bytesValue_wordBytes, List.length_append, length_wordBytes]
  norm_num

theorem bytesValue_response (r : Response) : bytesValue r.bytes = r.st.toNat + 2 ^ 32 * r.r0.toNat
    + 2 ^ 64 * r.r1.toNat + 2 ^ 96 * r.r2.toNat + 2 ^ 128 * r.r3.toNat := by
  simp only [Response.bytes, bytesValue_append, bytesValue_wordBytes, List.length_append, length_wordBytes]
  norm_num

/-- Settles O4: the bytes are the digits of the words put side by side. -/
theorem transportBytes : Obligations.TransportBytes := by
  unfold Obligations.TransportBytes
  refine ⟨fun b rest => ⟨rfl, ofBytes_bytes b rest, fun k _ => ?_⟩, fun r => ⟨rfl, fun k _ => ?_⟩⟩
  · rw [getD_toNat_eq_digit, bytesValue_bundle]
  · rw [getD_toNat_eq_digit, bytesValue_response]

theorem decodeBytes_bytes {b : Bundle} {i : Instr} (h : decode b = .ok i) : decodeBytes b.bytes = .ok (i, []) := by
  have hread : Bundle.ofBytes b.bytes = .ok (b, []) := by
    have := ofBytes_bytes b []
    rwa [List.append_nil] at this
  simp only [decodeBytes, hread, h]

/-- Settles O1: the encoding is legal command by command, its fields decode to the command, and its bytes spell it. -/
theorem decodeOfEncode : Obligations.DecodeOfEncode := by
  unfold Obligations.DecodeOfEncode
  exact fun i => ⟨legalEncoding i, decode_encode i, decodeBytes_bytes (decode_encode i)⟩

/-! ### The step -/

/-- With an empty port the hardware is idle (R265, R272). -/
theorem step_idle {s : State} (h : s.port = []) : step s = .next s := by
  simp only [step, fetch, h]

/-- Settles O6: what the step does with the first bundle, and with none. -/
theorem stepRunsDecodedCommand : Obligations.StepRunsDecodedCommand := by
  unfold Obligations.StepRunsDecodedCommand
  exact ⟨fun s b rest i hport hdec => step_of_decode_ok hport hdec, fun s => step_idle⟩

end Sys2Proof.Proofs
end

section
/-! PROOFS. The filter bank and the riser as units (43_filter_bank.md R150 to R160, 46_riser.md R226 to R237): what a
frame does to each stage, the loop over the stages, the block updates value by value, and one frame of the riser. -/

-- One theorem at a time: a waiting task holds a thread.
set_option Elab.async false

namespace Sys2Proof.Proofs

open Machine Laws

/-! ### One stage in a frame -/

/-- `st'` has the settings of `st`, and all of `st` if `st` is inactive: what frames keep of a stage. -/
def StageKept (st st' : Stage) : Prop :=
  st'.fc = st.fc ∧ st'.q = st.q ∧ st'.act = st.act ∧ st'.co = st.co ∧ (st.act = false → st' = st)

theorem StageKept.refl (st : Stage) : StageKept st st := ⟨rfl, rfl, rfl, rfl, fun _ => rfl⟩

theorem StageKept.trans {a b c : Stage} (h₁ : StageKept a b) (h₂ : StageKept b c) : StageKept a c := by
  obtain ⟨hfc, hq, hact, hco, hidle⟩ := h₁
  obtain ⟨hfc', hq', hact', hco', hidle'⟩ := h₂
  exact ⟨hfc'.trans hfc, hq'.trans hq, hact'.trans hact, hco'.trans hco,
    fun h => (hidle' (hact.trans h)).trans (hidle h)⟩

theorem stageKept_tick (c : Chan) (t : Chain) (st : Stage) (x : F32) : StageKept st (st.tick c t x).1 := by
  obtain ⟨hfc, hq, hact, hco, hidle⟩ := stage_tick_frame c t st x
  exact ⟨hfc, hq, hact, hco, fun h => by rw [hidle h]⟩

/-- A tick on channel 0 leaves the integrators of channel 1 (R142). -/
theorem stage_tick_left_keeps_right (t : Chain) (st : Stage) (x : F32) :
    (st.tick .left t x).1.ic1.r = st.ic1.r ∧ (st.tick .left t x).1.ic2.r = st.ic2.r := by
  unfold Stage.tick
  split <;> exact ⟨rfl, rfl⟩

/-! ### The chains in a frame -/

/-- Every value of a scanned quadruple is the step's result on the old value and some running value. -/
theorem quad_scan_get {α β : Type} (f : α → β → α × β) (q : Quad α) (b : β) (k : Fin 4) :
    ∃ b', (q.scan f b).1.get k = (f (q.get k) b').1 := by
  match k with
  | 0 | 1 | 2 | 3 => exact ⟨_, rfl⟩

theorem fbTick_stage (c : Chan) (f : Fb) (x : F32) (t : Chain) (k : Fin 4) :
    ∃ y, ((fbTick c f x).1.get t).get k = (((f.get t).get k).tick c t y).1 := by
  cases t with
  | hp => exact quad_scan_get (Stage.tick c .hp) f.hp x k
  | lp => exact quad_scan_get (Stage.tick c .lp) f.lp _ k

theorem stageKept_fbTick (c : Chan) (f : Fb) (x : F32) (t : Chain) (k : Fin 4) :
    StageKept ((f.get t).get k) (((fbTick c f x).1.get t).get k) := by
  obtain ⟨y, hy⟩ := fbTick_stage c f x t k
  rw [hy]
  exact stageKept_tick c t _ y

/-- A frame keeps the settings of every stage, and inactive stages as they are. -/
theorem stageKept_fbFrame (stereo : Bool) (f : Fb) (x : Pair F32) (t : Chain) (k : Fin 4) :
    StageKept ((f.get t).get k) (((fbFrame stereo f x).1.get t).get k) := by
  cases stereo with
  | false => exact stageKept_fbTick .left f x.l t k
  | true => exact (stageKept_fbTick .left f x.l t k).trans (stageKept_fbTick .right _ x.r t k)

/-- A mono frame leaves the integrators of channel 1 (R142). -/
theorem fbFrame_mono_keeps_right (f : Fb) (x : Pair F32) (t : Chain) (k : Fin 4) :
    (((fbFrame false f x).1.get t).get k).ic1.r = ((f.get t).get k).ic1.r ∧
      (((fbFrame false f x).1.get t).get k).ic2.r = ((f.get t).get k).ic2.r := by
  obtain ⟨y, hy⟩ := fbTick_stage .left f x.l t k
  rw [show (fbFrame false f x).1 = (fbTick .left f x.l).1 from rfl, hy]
  exact stage_tick_left_keeps_right t _ y

/-! ### The loop over the stages -/

/-- The loop body ticks one stage and writes it back; an inactive stage is written back unchanged. -/
theorem fbLoopBody_eq (c : Chan) (f : Fb) (x : F32) (t : Chain) (i : Fin 4) :
    fbLoopBody c (f, x) (t, i) =
      (f.setStage t i (((f.get t).get i).tick c t x).1, (((f.get t).get i).tick c t x).2) := by
  have hself : f.setStage t i ((f.get t).get i) = f := by
    cases t with
    | hp => match i with
      | 0 | 1 | 2 | 3 => rfl
    | lp => match i with
      | 0 | 1 | 2 | 3 => rfl
  cases hact : ((f.get t).get i).act with
  | true =>
    cases t with
    | hp | lp => simp only [fbLoopBody, Stage.tick, hact, if_true]
  | false => simp only [fbLoopBody, Stage.tick, hact, hself, Bool.false_eq_true, if_false]

theorem fbTick_eq_foldl (c : Chan) (f : Fb) (x : F32) : fbTick c f x = stageOrder.foldl (fbLoopBody c) (f, x) := by
  simp only [stageOrder, List.foldl_cons, List.foldl_nil, fbLoopBody_eq]
  rfl

/-- Settles O27: the section is its operation sequence, and the loop body is the tick of one stage. -/
theorem filterBankTickIsTheLoop : Obligations.FilterBankTickIsTheLoop := by
  unfold Obligations.FilterBankTickIsTheLoop
  refine ⟨?_, fbTick_eq_foldl, fun f x => ⟨?_, fun f1 l f2 r hleft hright => ?_⟩⟩
  · rintro ic1 ic2 g r2 h x _ _ _ _ _ rfl rfl rfl rfl rfl
    rfl
  · rw [← fbTick_eq_foldl]
    rfl
  · rw [← fbTick_eq_foldl] at hleft hright
    simp only [fbFrame, hleft, hright, if_true]

/-! ### The block update of the filter bank -/

theorem fsub_hpSpan : fsub fHpTop fMin = 0x459BA000#32 := by decide +kernel

theorem fsub_lpSpan : fsub fMax fLpBot = 0x46985800#32 := by decide +kernel

theorem filterSlope_le {a : Params} (hwf : a.wf = true) : a.filterSlope.toNat ≤ 3 :=
  (inRange_enumerated_iff (r := .filterSlope) rfl).mp (inRange_of_wf hwf .filterSlope)

/-- Stage `k` of a chain works when the slope has more than `k` stages (R158). -/
theorem stage_lt_fbStages_iff {a : Params} (hwf : a.wf = true) (k : Fin 4) :
    BitVec.ofNat 32 k.val < fbStages a ↔ k.val ≤ a.filterSlope.toNat := by
  have hslope := filterSlope_le hwf
  have hk := k.isLt
  unfold fbStages
  rw [BitVec.lt_def, BitVec.toNat_add, BitVec.toNat_ofNat, BitVec.toNat_ofNat]
  omega

theorem fbEngaged_hp_iff {a : Params} {p : F32} :
    fbEngaged a p .hp = true ↔ flt p epsFilt = false ∧ (a.filterType = 0#32 ∨ a.filterType = 2#32) := by
  simp [fbEngaged]

theorem fbEngaged_lp_iff {a : Params} {p : F32} :
    fbEngaged a p .lp = true ↔ flt p epsFilt = false ∧ (a.filterType = 1#32 ∨ a.filterType = 2#32) := by
  simp [fbEngaged]

theorem fbStageOn_iff {a : Params} {p : F32} (hwf : a.wf = true) (t : Chain) (k : Fin 4) :
    fbStageOn a p t k = true ↔ fbEngaged a p t = true ∧ k.val ≤ a.filterSlope.toNat := by
  rw [fbStageOn, Bool.and_eq_true, decide_eq_true_iff, stage_lt_fbStages_iff hwf]

theorem fbStageOn_hp_iff {a : Params} {p : F32} (hwf : a.wf = true) (k : Fin 4) :
    fbStageOn a p .hp k = true ↔
      flt p epsFilt = false ∧ (a.filterType = 0#32 ∨ a.filterType = 2#32) ∧ k.val ≤ a.filterSlope.toNat := by
  rw [fbStageOn_iff hwf, fbEngaged_hp_iff, and_assoc]

theorem fbStageOn_lp_iff {a : Params} {p : F32} (hwf : a.wf = true) (k : Fin 4) :
    fbStageOn a p .lp k = true ↔
      flt p epsFilt = false ∧ (a.filterType = 1#32 ∨ a.filterType = 2#32) ∧ k.val ≤ a.filterSlope.toNat := by
  rw [fbStageOn_iff hwf, fbEngaged_lp_iff, and_assoc]

/-- A stage after the update of its chain (R159). -/
theorem fbChainUpdate_get (N : Numerics) (fs : F32) (a : Params) (p : F32) (t : Chain) (c : Quad Stage) (k : Fin 4) :
    (fbChainUpdate N fs a p t c).get k =
      if fbStageOn a p t k = true then (c.get k).engage N fs (fbCutoff a p t) (fbStageQ a p k)
      else (c.get k).neutral t := by
  unfold fbChainUpdate
  rw [quad_get_tab]
  rfl

/-- The update of a stage by a condition that says whether it works. -/
theorem fbChainUpdate_get_cases (N : Numerics) (fs : F32) {a : Params} {p : F32} {t : Chain} (c : Quad Stage)
    {k : Fin 4} {on : Prop} [Decidable on] (hon : fbStageOn a p t k = true ↔ on) :
    if on then (fbChainUpdate N fs a p t c).get k = (c.get k).engage N fs (fbCutoff a p t) (fbStageQ a p k)
    else (fbChainUpdate N fs a p t c).get k = (c.get k).neutral t := by
  rw [fbChainUpdate_get]
  split
  case isTrue h => exact if_pos (hon.mpr h)
  case isFalse h => exact if_neg (mt hon.mp h)

/-- Settles O24: a stage of an engaged chain below the slope's count is engaged, every other one is neutral. -/
theorem filterBankUpdate : Obligations.FilterBankUpdate := by
  unfold Obligations.FilterBankUpdate
  intro N fs b p m hpfc lp0 lpfc q1 a f hwf hp hq1 hm hhp hlp0 hlp k
  rw [← fsub_hpSpan] at hhp
  rw [← fsub_lpSpan] at hlp0
  have hproduct : fbProduct a b = p := hp.symm
  have hmapping : fbMapping a p = m := hm.symm
  have hresonance : fbResonance a p = q1 := hq1.symm
  have hhpCutoff : fbCutoff a p .hp = hpfc := by
    rw [hhp, ← hmapping]
    rfl
  have hlpCutoff : fbCutoff a p .lp = lpfc := by
    rw [hlp, hlp0, hhp, ← hmapping]
    rfl
  have hstageHp := fbChainUpdate_get_cases N fs f.hp (fbStageOn_hp_iff (p := p) hwf k)
  have hstageLp := fbChainUpdate_get_cases N fs f.lp (fbStageOn_lp_iff (p := p) hwf k)
  rw [fbStageQ, hresonance, hhpCutoff] at hstageHp
  rw [fbStageQ, hresonance, hlpCutoff] at hstageLp
  rw [fbUpdate, hproduct]
  exact ⟨hstageHp, hstageLp⟩

/-! ### The riser -/

/-- Settles O26: the code selects the variant, and each value of the update is the variant's. -/
theorem riserUpdate : Obligations.RiserUpdate := by
  unfold Obligations.RiserUpdate
  rintro N fs b _ _ _ a r _ rfl rfl rfl rfl
  have update {t : RiserType} (h : RiserType.ofCode a.riserType = t) :
      rsrUpdate N fs a b r = { r with
        target := riserTarget a b, katt := fsub one (envCoef N tRsrAtt fs)
        krel := fsub one (envCoef N a.riserRelease fs), ft := riserTargetFreq t b, amp := riserAmp t b
        vdepth := riserDepth t b, vrate := fadd vibRate0 (fmul vibRate1 b),
        nzco := riserNoiseCoef N fs t b r.nzco } := by
    rw [← h]
    rfl
  refine ⟨fun h => ?_, fun h => ?_, fun h => ?_, fun h => ?_, fun h => ?_⟩ <;> exact update (by rw [h])

/-- The level after the envelope's step (R227). -/
theorem rsrLevel_eq (r : Rsr) : rsrLevel r = { r with
    level := fadd r.level (fmul (if flt zero (fsub r.target r.level) = true then r.katt else r.krel)
      (fsub r.target r.level)) } := rfl

theorem riser_addTo_sounding {r : Rsr} (h : fle epsRsr r.level = true) (wave x : F32) :
    r.addTo wave x = fadd x (fmul (fmul wave r.level) r.amp) := if_pos h

theorem riser_addTo_silent {r : Rsr} (h : ¬fle epsRsr r.level = true) (wave x : F32) : r.addTo wave x = x := if_neg h

/-- The output of the riser's frame: the sample with the value added, or the sample (R228, R236). -/
theorem rsrTick_out (N : Numerics) (fs : F32) (t : RiserType) (stereo : Bool) (r : Rsr) (x : Pair F32) :
    (rsrTick N fs t stereo r x).2 =
      if fle epsRsr (rsrTick N fs t stereo r x).1.level = true then
        ⟨fadd x.l (fmul (fmul (rsrOsc N fs t (rsrLevel r)).2 (rsrTick N fs t stereo r x).1.level)
            (rsrTick N fs t stereo r x).1.amp),
          if stereo then fadd x.r (fmul (fmul (rsrOsc N fs t (rsrLevel r)).2 (rsrTick N fs t stereo r x).1.level)
            (rsrTick N fs t stereo r x).1.amp) else x.r⟩
      else x := by
  simp only [rsrTick]
  by_cases h : fle epsRsr (rsrOsc N fs t (rsrLevel r)).1.level = true
  · simp only [riser_addTo_sounding h]
    exact (if_pos h).symm
  · simp only [riser_addTo_silent h, ite_self]
    exact (if_neg h).symm

/-- A frame moves the level by the envelope's step alone. -/
theorem rsrTick_level (N : Numerics) (fs : F32) (t : RiserType) (stereo : Bool) (r : Rsr) (x : Pair F32) :
    (rsrTick N fs t stereo r x).1.level = (rsrLevel r).level := by
  cases t <;> rfl

/-- The state after the frame of a periodic variant. -/
theorem rsrTick_periodic {t : RiserType} (ht : t ≠ .noise) (N : Numerics) (fs : F32) (stereo : Bool) (r : Rsr)
    (x : Pair F32) : (rsrTick N fs t stereo r x).1 = rsrAdvance N fs t (rsrGlide fs (rsrLevel r)) := by
  cases t with
  | noise => exact absurd rfl ht
  | sine | saw | square | sub => rfl

/-- Settles O31: the level by `rsrLevel`, the output by `rsrTick_out`, and the oscillator variant by variant. -/
theorem riserFrame : Obligations.RiserFrame := by
  unfold Obligations.RiserFrame
  rintro N fs t stereo r x _ rfl
  refine ⟨(rsrOsc N fs t (rsrLevel r)).2, ?_, ?_, fun ht => ?_⟩
  · have hamp : (rsrTick N fs t stereo r x).1.amp = r.amp := by cases t <;> rfl
    rw [rsrTick_out, rsrTick_level, hamp, rsrLevel_eq]
    rfl
  · rintro rfl
    exact ⟨rfl, rfl⟩
  · rw [rsrTick_periodic ht]
    refine ⟨_, _, _, _, _, t.phase, _, rfl, rfl, rfl, rfl, ?_, ?_, ?_, ?_, rfl, quad_get_set_self _ _ _,
      fun w' hw => (quad_get_set _ _ _ _).trans (if_neg hw), rfl, ?_, ?_, ?_⟩
    iterate 4 (rintro rfl; rfl)
    · rintro (rfl | rfl) <;> rfl
    iterate 2 (rintro rfl; rfl)

end Sys2Proof.Proofs
end

section
/-! PROOFS. The vocoder, both forms (44_vocoder_filterbank.md R176 to R186, 45_vocoder_fft.md R201 to R209): the block
update; one frame of the filterbank form, channel by channel; a frame of the FFT form as a shift of the input windows,
the transforms that are due, and an emission from the accumulators; and what a frame does when the gain is not
positive. -/

-- One theorem at a time: a waiting task holds a thread.
set_option Elab.async false

namespace Sys2Proof.Proofs

open Machine Laws

/-! ### The block update -/

theorem fsub_relSpan : fsub tRelMax tRelMin = 0x3F7D70A4#32 := by decide +kernel

theorem vocMode_le {a : Params} (hwf : a.wf = true) : a.vocMode.toNat ≤ 1 :=
  (inRange_enumerated_iff (r := .vocMode) rfl).mp (inRange_of_wf hwf .vocMode)

theorem vocMode_cases {a : Params} (hwf : a.wf = true) : a.vocMode = 0#32 ∨ a.vocMode = 1#32 := by
  have h := vocMode_le hwf
  bv_omega

/-- What a change of mode does: everything of both forms is cleared and the mode recorded; without one nothing
(R176). -/
theorem voc_switch_cases {a : Params} (hwf : a.wf = true) (v : Voc) :
    (a.vocMode = v.prevMode ∧ v.switch a = v) ∨
      (a.vocMode ≠ v.prevMode ∧ v.switch a = { v.clear with prev := !v.prev }) := by
  unfold Voc.switch
  by_cases h : a.vocMode = v.prevMode
  · exact Or.inl ⟨h, if_neg (not_not.mpr h)⟩
  · refine Or.inr ⟨h, (if_pos h).trans ?_⟩
    have hbit : a.vocMode.getLsbD 0 = !v.prev := by
      unfold Voc.prevMode at h
      obtain h0 | h1 := vocMode_cases hwf
      · cases hp : v.prev
        · exact absurd (by rw [h0, hp]; rfl) h
        · rw [h0]; rfl
      · cases hp : v.prev
        · rw [h1]; rfl
        · exact absurd (by rw [h1, hp]; rfl) h
    rw [hbit]

/-- Settles O25: the switch by `voc_switch_cases`, the per-block values by the definition of the update. -/
theorem vocoderUpdate : Obligations.VocoderUpdate := by
  unfold Obligations.VocoderUpdate
  rintro N fs b _ a v hwf rfl
  refine ⟨v.switch a, voc_switch_cases hwf v, ?_⟩
  rw [← fsub_relSpan]
  rfl

/-! ### One frame of the filterbank form -/

/-- A frame of the filterbank form changes the noise source and the channels, nothing else (R178, R183). -/
theorem vfbTick_frame (vco : Quad Coef) (stereo : Bool) (v : Voc) (x : Pair F32) :
    (vfbTick vco stereo v x).1 = { (vfbNoise v).1 with vfb := (vfbTick vco stereo v x).1.vfb } := by
  cases stereo <;> rfl

/-- A channel of the block: the channel's step on its old state, the gain rule and the common noise sample (R183). -/
theorem vfbTick_channel (vco : Quad Coef) {stereo : Bool} (v : Voc) (x : Pair F32) {c : Chan}
    (hc : c = .left ∨ stereo = true) :
    (vfbTick vco stereo v x).1.vfb.get c = (vfbChan v vco (v.vfb.get c) (v.input (x.get c)) (vfbNoise v).2).1 ∧
    (vfbTick vco stereo v x).2.get c =
      v.addTo (vfbChan v vco (v.vfb.get c) (v.input (x.get c)) (vfbNoise v).2).2 (x.get c) := by
  cases c with
  | left => cases stereo <;> exact ⟨rfl, rfl⟩
  | right =>
    obtain rfl : stereo = true := hc.resolve_left nofun
    exact ⟨rfl, rfl⟩

/-- A mono frame leaves channel 1 alone (R142). -/
theorem vfbTick_mono_right (vco : Quad Coef) (v : Voc) (x : Pair F32) :
    (vfbTick vco false v x).1.vfb.r = v.vfb.r ∧ (vfbTick vco false v x).2.r = x.r := ⟨rfl, rfl⟩

/-- The envelope of band `k` after a channel's step (R179). -/
def bandEnv (v : Voc) (vco : Quad Coef) (ch : VfbChan) (u : F32) (k : Fin 4) : F32 :=
  envTick (ch.env.get k) (F32.abs (fmul (svfTick (ch.an1.get k) (ch.an2.get k) (vco.get k) u).bp (vco.get k).r2))
    v.aatt v.arel

/-- The term of band `k` in the band sum (R180). -/
def bandTerm (v : Voc) (vco : Quad Coef) (ch : VfbChan) (u nz : F32) (k : Fin 4) : F32 :=
  fmul (fmul (fmul (svfTick (ch.sy1.get k) (ch.sy2.get k) (vco.get k) nz).bp (vco.get k).r2) (bandEnv v vco ch u k))
    (v.gk.get k)

theorem vfbBand_acc (v : Voc) (vco : Quad Coef) (ch : VfbChan) (u nz : F32) (k : Fin 4) (acc : F32) :
    (vfbBand v vco ch u nz k acc).acc = fadd acc (bandTerm v vco ch u nz k) := rfl

/-- The bands of a channel's step (R179, R180). -/
theorem vfbChan_bands (v : Voc) (vco : Quad Coef) (ch : VfbChan) (u nz : F32) (k : Fin 4) :
    (vfbChan v vco ch u nz).1.an1.get k = (svfTick (ch.an1.get k) (ch.an2.get k) (vco.get k) u).ic1 ∧
    (vfbChan v vco ch u nz).1.an2.get k = (svfTick (ch.an1.get k) (ch.an2.get k) (vco.get k) u).ic2 ∧
    (vfbChan v vco ch u nz).1.env.get k = bandEnv v vco ch u k ∧
    (vfbChan v vco ch u nz).1.sy1.get k = (svfTick (ch.sy1.get k) (ch.sy2.get k) (vco.get k) nz).ic1 ∧
    (vfbChan v vco ch u nz).1.sy2.get k = (svfTick (ch.sy1.get k) (ch.sy2.get k) (vco.get k) nz).ic2 := by
  match k with
  | 0 | 1 | 2 | 3 => exact ⟨rfl, rfl, rfl, rfl, rfl⟩

/-- The output smoother takes the sum of the band terms in increasing order (R180, R181). -/
theorem vfbChan_osm (v : Voc) (vco : Quad Coef) (ch : VfbChan) (u nz : F32) :
    (vfbChan v vco ch u nz).1.osm = fadd ch.osm (fmul kOut (fsub
      (fadd (fadd (fadd (fadd zero (bandTerm v vco ch u nz 0)) (bandTerm v vco ch u nz 1)) (bandTerm v vco ch u nz 2))
        (bandTerm v vco ch u nz 3)) ch.osm)) := by
  simp only [vfbChan, vfbBand_acc, lerp1]

/-- The emphasis memories and the emphasised value (R181). -/
theorem vfbChan_emphasis (v : Voc) (vco : Quad Coef) (ch : VfbChan) (u nz : F32) :
    (vfbChan v vco ch u nz).1.e1p = (vfbChan v vco ch u nz).1.osm ∧
    (vfbChan v vco ch u nz).1.e2p = emphasis (vfbChan v vco ch u nz).1.osm ch.e1p ∧
    (vfbChan v vco ch u nz).2 = emphasis (vfbChan v vco ch u nz).1.e2p ch.e2p := ⟨rfl, rfl, rfl⟩

/-- Settles O28: the frame of the noise source, then the channel's step of `vfbTick_channel` read off band by band. -/
theorem filterbankVocoderFrame : Obligations.FilterbankVocoderFrame := by
  unfold Obligations.FilterbankVocoderFrame
  rintro vco stereo v x _ _ _ _ c _ _ _ rfl rfl rfl rfl hc rfl rfl rfl
  obtain ⟨hstate, hout⟩ := vfbTick_channel vco v x hc
  refine ⟨vfbTick_frame vco stereo v x, ?_⟩
  rw [hstate, hout]
  obtain ⟨he1, he2, hy⟩ := vfbChan_emphasis v vco (v.vfb.get c) (v.input (x.get c)) (vfbNoise v).2
  refine ⟨vfbChan_bands v vco _ _ _, ⟨bandTerm v vco (v.vfb.get c) (v.input (x.get c)) (vfbNoise v).2, fun k => ?_,
    vfbChan_osm v vco _ _ _⟩, he1, he2, ?_⟩
  · obtain ⟨-, -, henv, -⟩ := vfbChan_bands v vco (v.vfb.get c) (v.input (x.get c)) (vfbNoise v).2 k
    rw [bandTerm, ← henv]
    rfl
  · rw [hy]
    rfl

/-! ### One frame of the FFT form: shift, transform, emit -/

/-- Every channel of the block shifts its sample into its input window (R202). -/
def vftShifted (stereo : Bool) (v : Voc) (x : Pair F32) : Voc :=
  if stereo then vftShift .right (vftShift .left v x.l) x.r else vftShift .left v x.l

/-- Every channel of the block emits the oldest value of its accumulator (R206). -/
def vftEmitted (stereo : Bool) (v : Voc) (x : Pair F32) : Voc × Pair F32 :=
  let a := vftEmit .left v x.l
  if stereo then
    let b := vftEmit .right a.1 x.r
    (b.1, ⟨a.2, b.2⟩)
  else (a.1, ⟨a.2, x.r⟩)

/-- Every channel of the block is transformed, channel 0 before channel 1 (R207). -/
def vftTransformed (N : Numerics) (tb : Tables) (stereo : Bool) (v : Voc) : Voc :=
  if stereo then vftTransform N tb .right (vftTransform N tb .left v) else vftTransform N tb .left v

theorem vftShifted_frame (stereo : Bool) (v : Voc) (x : Pair F32) :
    vftShifted stereo v x = { v with vft := (vftShifted stereo v x).vft } := by
  cases stereo <;> rfl

theorem vftShifted_channel {stereo : Bool} (v : Voc) (x : Pair F32) {c : Chan} (hc : c = .left ∨ stereo = true) :
    (vftShifted stereo v x).vft.get c =
      { v.vft.get c with inp := (v.vft.get c).inp.shiftIn (v.input (x.get c)) } := by
  cases c with
  | left => cases stereo <;> rfl
  | right =>
    obtain rfl : stereo = true := hc.resolve_left nofun
    rfl

theorem vftEmitted_frame (stereo : Bool) (v : Voc) (x : Pair F32) :
    (vftEmitted stereo v x).1 = { v with vft := (vftEmitted stereo v x).1.vft } := by
  cases stereo <;> rfl

theorem vftEmitted_channel {stereo : Bool} (v : Voc) (x : Pair F32) {c : Chan} (hc : c = .left ∨ stereo = true) :
    (vftEmitted stereo v x).1.vft.get c = { v.vft.get c with out := (v.vft.get c).out.shiftIn zero } ∧
    (vftEmitted stereo v x).2.get c = v.addTo ((v.vft.get c).out.getD 0 zero) (x.get c) := by
  cases c with
  | left => cases stereo <;> exact ⟨rfl, rfl⟩
  | right =>
    obtain rfl : stereo = true := hc.resolve_left nofun
    exact ⟨rfl, rfl⟩

/-- The hop counter is full at 255 (R202). -/
theorem hop_due_iff {h : Word} : h + 1#32 = hop ↔ h = 255#32 := by
  unfold hop
  bv_omega

/-- A frame shifts, counts, transforms when the counter is full, and emits (R207). -/
theorem vftTick_eq (N : Numerics) (tb : Tables) {stereo : Bool} {v w : Voc} {x : Pair F32} {due : Bool}
    (h : vftHop (vftShifted stereo v x) = (w, due)) :
    vftTick N tb stereo v x = vftEmitted stereo (if due then vftTransformed N tb stereo w else w) x := by
  unfold vftShifted at h
  cases stereo <;> cases due <;>
    simp only [Bool.false_eq_true, if_false, if_true] at h <;>
    simp only [vftTick, vftEmitted, vftTransformed, h, Bool.false_eq_true, if_false, if_true, Bool.and_true,
      Bool.and_false]

theorem vftShifted_hopc (stereo : Bool) (v : Voc) (x : Pair F32) : (vftShifted stereo v x).hopc = v.hopc := by
  cases stereo <;> rfl

theorem vftShifted_gain (stereo : Bool) (v : Voc) (x : Pair F32) : (vftShifted stereo v x).gain = v.gain := by
  cases stereo <;> rfl

/-- A frame with the hop counter not full shifts and emits. -/
theorem vftTick_between (N : Numerics) (tb : Tables) (stereo : Bool) {v : Voc} (x : Pair F32) (h : v.hopc ≠ 255#32) :
    vftTick N tb stereo v x = vftEmitted stereo { vftShifted stereo v x with hopc := v.hopc + 1#32 } x := by
  have hhop : vftHop (vftShifted stereo v x) = ({ vftShifted stereo v x with hopc := v.hopc + 1#32 }, false) := by
    unfold vftHop
    rw [vftShifted_hopc]
    exact if_neg (mt hop_due_iff.mp h)
  rw [vftTick_eq N tb hhop, if_neg Bool.false_ne_true]

/-- A frame with the hop counter full shifts, transforms every channel and emits. -/
theorem vftTick_hop (N : Numerics) (tb : Tables) (stereo : Bool) {v : Voc} (x : Pair F32) (h : v.hopc = 255#32) :
    vftTick N tb stereo v x =
      vftEmitted stereo (vftTransformed N tb stereo { vftShifted stereo v x with hopc := 0#32 }) x := by
  have hhop : vftHop (vftShifted stereo v x) = ({ vftShifted stereo v x with hopc := 0#32 }, true) := by
    unfold vftHop
    rw [vftShifted_hopc]
    exact if_pos (hop_due_iff.mpr h)
  rw [vftTick_eq N tb hhop, if_pos rfl]

/-- Settles O29: the shift and the emission of each channel; nothing else happens between hops. -/
theorem fftVocoderBetweenHops : Obligations.FftVocoderBetweenHops := by
  unfold Obligations.FftVocoderBetweenHops
  intro N tb stereo v x c hcount hc
  have hne : v.hopc ≠ 255#32 := by bv_omega
  rw [vftTick_between N tb stereo x hne]
  obtain ⟨hstate, hout⟩ := vftEmitted_channel { vftShifted stereo v x with hopc := v.hopc + 1#32 } x hc
  have hshift := vftShifted_channel v x hc
  refine ⟨?_, ?_⟩
  · rw [vftEmitted_frame, vftShifted_frame]
  · rw [hstate, hout, hshift]
    refine ⟨rfl, fun i hi => ⟨buf_getD_shiftIn _ _ _ hi, buf_getD_shiftIn _ _ _ hi⟩, buf_getD_shiftIn_last _ _ _,
      buf_getD_shiftIn_last _ _ _, ?_⟩
    simp only [Voc.addTo, Voc.sounding, vftShifted_gain]

/-- The state of the FFT form at the emission of a frame: shifted, counted, and transformed at the end of a hop. -/
def vftReady (N : Numerics) (tb : Tables) (stereo : Bool) (v : Voc) (x : Pair F32) : Voc :=
  if v.hopc = 255#32 then vftTransformed N tb stereo { vftShifted stereo v x with hopc := 0#32 }
  else { vftShifted stereo v x with hopc := v.hopc + 1#32 }

theorem vftTick_eq_emitted (N : Numerics) (tb : Tables) (stereo : Bool) (v : Voc) (x : Pair F32) :
    vftTick N tb stereo v x = vftEmitted stereo (vftReady N tb stereo v x) x := by
  unfold vftReady
  split
  case isTrue h => rw [vftTick_hop N tb stereo x h]
  case isFalse h => rw [vftTick_between N tb stereo x h]

/-- The generator after the transforms of one hop: 512 draws a channel (R205). -/
def noiseAfterHop (stereo : Bool) (s : Word) : Word := if stereo then noiseAfter (noiseAfter s) else noiseAfter s

theorem vftTransformed_frame (N : Numerics) (tb : Tables) (stereo : Bool) (v : Voc) :
    vftTransformed N tb stereo v =
      { v with vft := (vftTransformed N tb stereo v).vft, rng := noiseAfterHop stereo v.rng } := by
  have one (c : Chan) (w : Voc) :
      vftTransform N tb c w = { w with vft := (vftTransform N tb c w).vft, rng := noiseAfter w.rng } := rfl
  unfold vftTransformed noiseAfterHop
  split
  · rw [one .right, one .left]
  · rw [one .left]

/-- What a frame changes outside the channels: the hop counter, and the generator at the end of a hop. -/
theorem vftReady_frame (N : Numerics) (tb : Tables) (stereo : Bool) (v : Voc) (x : Pair F32) :
    vftReady N tb stereo v x = { v with
      vft := (vftReady N tb stereo v x).vft
      hopc := if v.hopc = 255#32 then 0#32 else v.hopc + 1#32
      rng := if v.hopc = 255#32 then noiseAfterHop stereo v.rng else v.rng } := by
  unfold vftReady
  split
  · rw [vftTransformed_frame, vftShifted_frame]
  · rw [vftShifted_frame]

theorem vftTick_frame (N : Numerics) (tb : Tables) (stereo : Bool) (v : Voc) (x : Pair F32) :
    (vftTick N tb stereo v x).1 = { v with
      vft := (vftTick N tb stereo v x).1.vft
      hopc := if v.hopc = 255#32 then 0#32 else v.hopc + 1#32
      rng := if v.hopc = 255#32 then noiseAfterHop stereo v.rng else v.rng } := by
  rw [vftTick_eq_emitted, vftEmitted_frame, vftReady_frame]

theorem vftReady_gain (N : Numerics) (tb : Tables) (stereo : Bool) (v : Voc) (x : Pair F32) :
    (vftReady N tb stereo v x).gain = v.gain := by
  rw [vftReady_frame]

theorem vftShifted_mono_right (v : Voc) (x : Pair F32) : (vftShifted false v x).vft.r = v.vft.r := rfl

theorem vftTransformed_mono_right (N : Numerics) (tb : Tables) (v : Voc) :
    (vftTransformed N tb false v).vft.r = v.vft.r := by
  obtain ⟨env, out, h⟩ := vftTransform_frame N tb .left v
  rw [show vftTransformed N tb false v = vftTransform N tb .left v from rfl, h]
  rfl

theorem vftEmitted_mono_right (v : Voc) (x : Pair F32) :
    (vftEmitted false v x).1.vft.r = v.vft.r ∧ (vftEmitted false v x).2.r = x.r := ⟨rfl, rfl⟩

/-- A mono frame leaves channel 1 alone (R142). -/
theorem vftTick_mono_right (N : Numerics) (tb : Tables) (v : Voc) (x : Pair F32) :
    (vftTick N tb false v x).1.vft.r = v.vft.r ∧ (vftTick N tb false v x).2.r = x.r := by
  have hready : (vftReady N tb false v x).vft.r = v.vft.r := by
    unfold vftReady
    split
    · rw [vftTransformed_mono_right, vftShifted_mono_right]
    · rw [vftShifted_mono_right]
  obtain ⟨hstate, hout⟩ := vftEmitted_mono_right (vftReady N tb false v x) x
  rw [vftTick_eq_emitted]
  exact ⟨hstate.trans hready, hout⟩

/-- Settles O59: shift, transform, emit, each by its effect on a channel. -/
theorem fftVocoderHopFrame : Obligations.FftVocoderHopFrame := by
  unfold Obligations.FftVocoderHopFrame
  intro N tb stereo v x hfull
  have htick := vftTick_hop N tb stereo x hfull
  have hshift {c : Chan} (hc : c = .left ∨ stereo = true) := vftShifted_channel v x hc
  have hrest := vftShifted_frame stereo v x
  generalize vftShifted stereo v x = s at htick hshift hrest
  have hgain : (vftTransformed N tb stereo { s with hopc := 0#32 }).gain = v.gain := by
    rw [vftTransformed_frame, hrest]
  refine ⟨{ s with hopc := 0#32 }, vftTransformed N tb stereo { s with hopc := 0#32 }, _, ?_, fun c hc => ?_, rfl,
    vftEmitted_frame stereo (vftTransformed N tb stereo { s with hopc := 0#32 }) x, ?_, ?_, congrArg Prod.fst htick, ?_⟩
  · rw [hrest]
  · rw [show ({ s with hopc := 0#32 } : Voc).vft = s.vft from rfl, hshift hc]
    exact ⟨rfl, rfl, fun i hi => buf_getD_shiftIn _ _ _ hi, buf_getD_shiftIn_last _ _ _⟩
  all_goals generalize vftTransformed N tb stereo { s with hopc := 0#32 } = t at htick hgain ⊢
  · intro c hc
    obtain ⟨hstate, -⟩ := vftEmitted_channel t x hc
    rw [hstate]
    exact ⟨rfl, rfl, fun i hi => buf_getD_shiftIn _ _ _ hi, buf_getD_shiftIn_last _ _ _⟩
  · rintro rfl
    rw [← htick]
    exact (vftTick_mono_right N tb v x).1
  · intro c hc
    obtain ⟨-, hout⟩ := vftEmitted_channel t x hc
    rw [htick, hout, ← hgain]
    rfl

/-! ### A gain that is not positive -/

section
variable {v : Voc} (h : flt zero v.gain = false)
include h

theorem voc_addTo_silent (y x : F32) : v.addTo y x = x := if_neg (Bool.eq_false_iff.mp h)

theorem voc_input_silent (x : F32) : v.input x = zero := if_neg (Bool.eq_false_iff.mp h)

/-- The channels of a silent filterbank frame do not see the samples (R184). -/
theorem vfbTick_silent (vco : Quad Coef) (stereo : Bool) (x y : Pair F32) :
    (vfbTick vco stereo v x).2 = x ∧ (vfbTick vco stereo v x).1 = (vfbTick vco stereo v y).1 := by
  have channel {c : Chan} (hc : c = .left ∨ stereo = true) :
      (vfbTick vco stereo v x).2.get c = x.get c ∧
        (vfbTick vco stereo v x).1.vfb.get c = (vfbTick vco stereo v y).1.vfb.get c := by
    obtain ⟨hx, hout⟩ := vfbTick_channel vco v x hc
    obtain ⟨hy, -⟩ := vfbTick_channel vco v y hc
    rw [hx, hy, hout, voc_addTo_silent h, voc_input_silent h, voc_input_silent h]
    exact ⟨rfl, rfl⟩
  have right : (vfbTick vco stereo v x).2.r = x.r ∧
      (vfbTick vco stereo v x).1.vfb.r = (vfbTick vco stereo v y).1.vfb.r := by
    cases stereo with
    | true => exact channel (c := .right) (Or.inr rfl)
    | false =>
      obtain ⟨hx, hout⟩ := vfbTick_mono_right vco v x
      obtain ⟨hy, -⟩ := vfbTick_mono_right vco v y
      exact ⟨hout, hx.trans hy.symm⟩
  obtain ⟨hout, hvfb⟩ := channel (c := .left) (Or.inl rfl)
  have hvfb' : (vfbTick vco stereo v x).1.vfb = (vfbTick vco stereo v y).1.vfb :=
    pair_ext fun c => by cases c with
      | left => exact hvfb
      | right => exact right.2
  refine ⟨pair_ext fun c => ?_, ?_⟩
  · cases c with
    | left => exact hout
    | right => exact right.1
  · rw [vfbTick_frame vco stereo v x, vfbTick_frame vco stereo v y, hvfb']

theorem vftShift_silent (c : Chan) (x y : F32) : vftShift c v x = vftShift c v y := by
  unfold vftShift
  rw [voc_input_silent h, voc_input_silent h]

theorem vftShifted_silent (stereo : Bool) (x y : Pair F32) : vftShifted stereo v x = vftShifted stereo v y := by
  have hleft := vftShift_silent h .left x.l y.l
  cases stereo with
  | false => exact hleft
  | true =>
    exact (congrArg (vftShift .right · x.r) hleft).trans (vftShift_silent (v := vftShift .left v y.l) h .right _ _)

theorem vftReady_silent (N : Numerics) (tb : Tables) (stereo : Bool) (x y : Pair F32) :
    vftReady N tb stereo v x = vftReady N tb stereo v y := by
  unfold vftReady
  rw [vftShifted_silent h stereo x y]

theorem vftEmitted_silent (stereo : Bool) (x y : Pair F32) :
    (vftEmitted stereo v x).2 = x ∧ (vftEmitted stereo v x).1 = (vftEmitted stereo v y).1 := by
  refine ⟨pair_ext fun c => ?_, by cases stereo <;> rfl⟩
  cases c with
  | left =>
    obtain ⟨-, hout⟩ := vftEmitted_channel v x (c := .left) (stereo := stereo) (Or.inl rfl)
    rw [hout, voc_addTo_silent h]
  | right =>
    cases stereo with
    | false => rfl
    | true =>
      obtain ⟨-, hout⟩ := vftEmitted_channel v x (c := .right) (stereo := true) (Or.inr rfl)
      rw [hout, voc_addTo_silent h]

theorem vftTick_silent (N : Numerics) (tb : Tables) (stereo : Bool) (x y : Pair F32) :
    (vftTick N tb stereo v x).2 = x ∧ (vftTick N tb stereo v x).1 = (vftTick N tb stereo v y).1 := by
  have hready : flt zero (vftReady N tb stereo v x).gain = false := by rw [vftReady_gain, h]
  rw [vftTick_eq_emitted, vftTick_eq_emitted, ← vftReady_silent h N tb stereo x y]
  exact vftEmitted_silent hready stereo x y

end

/-- Settles O41: form by form. -/
theorem gainZeroVocoderIsSilent : Obligations.GainZeroVocoderIsSilent := by
  unfold Obligations.GainZeroVocoderIsSilent
  intro N tb a stereo v x y h
  unfold vocFrame
  split
  · exact vfbTick_silent h tb.vco stereo x y
  · exact vftTick_silent h N tb stereo x y

/-! ### One transform frame, indexed -/

/-- Buffers that agree at every index are equal. -/
theorem buf_eq_of_getD {α : Type} {n : Nat} {a b : Buf α n} (d : α) (h : ∀ i, i < n → a.getD i d = b.getD i d) :
    a = b := by
  refine buf_ext (List.ext_getElem (a.len.trans b.len.symm) fun i ha hb => ?_)
  have hi := h i (a.len ▸ ha)
  unfold Buf.getD at hi
  rwa [List.getD_eq_getElem _ _ ha, List.getD_eq_getElem _ _ hb] at hi

theorem lcgDraws_succ (k : Nat) (s : Word) : lcgDraws (k + 1) s =
    (lcgSample (lcgNext s) :: (lcgDraws k (lcgNext s)).1, (lcgDraws k (lcgNext s)).2) := rfl

/-- The samples of `k` draws, and the generator after them (R119). -/
theorem lcgDraws_getD (k : Nat) (s : Word) {i : Nat} (h : i < k) :
    (lcgDraws k s).1.getD i zero = lcgSample (lcgNext^[i + 1] s) := by
  induction k generalizing s i with
  | zero => exact absurd h (Nat.not_lt_zero i)
  | succ k ih =>
    rw [lcgDraws_succ]
    cases i with
    | zero => rw [List.getD_cons_zero, Function.iterate_one]
    | succ i =>
      rw [List.getD_cons_succ, ih (lcgNext s) (Nat.lt_of_succ_lt_succ h), Function.iterate_succ_apply lcgNext (i + 1)]

theorem lcgDraws_state (k : Nat) (s : Word) : (lcgDraws k s).2 = lcgNext^[k] s := by
  induction k generalizing s with
  | zero => rfl
  | succ k ih => rw [lcgDraws_succ, Function.iterate_succ_apply, ← ih]

theorem noiseAfter_eq (s : Word) : noiseAfter s = lcgNext^[512] s := by
  rw [noiseAfter, lcgDraws_state]

theorem noiseAfterHop_eq (stereo : Bool) (s : Word) :
    noiseAfterHop stereo s = if stereo then lcgNext^[1024] s else lcgNext^[512] s := by
  unfold noiseAfterHop
  rw [noiseAfter_eq, noiseAfter_eq, show 1024 = 512 + 512 from rfl, Function.iterate_add_apply]

/-- The sum of band `k` over a list of bins (R203). -/
theorem bandSums_get (l : List (Option (Fin 4) × Cpx)) (q : Quad F32) (k : Fin 4) :
    (bandSums l q).get k =
      (l.filter fun p => p.1 == some k).foldl (fun sum p => fadd sum (binMag p.2)) (q.get k) := by
  induction l generalizing q with
  | nil => rfl
  | cons p rest ih =>
    obtain ⟨band, x⟩ := p
    cases band with
    | none =>
      rw [List.filter_cons_of_neg (by simp)]
      exact ih q
    | some j =>
      have hstep : bandSums ((some j, x) :: rest) q = bandSums rest (q.set j (fadd (q.get j) (binMag x))) := rfl
      rw [hstep, ih, quad_get_set]
      by_cases hjk : k = j
      · subst hjk
        rw [List.filter_cons_of_pos (by simp), if_pos rfl]
        rfl
      · rw [List.filter_cons_of_neg (by simpa using Ne.symm hjk), if_neg hjk]

/-- The bins 1 to 255 by their numbers. -/
theorem bandedBins_eq (bands : Buf (Option (Fin 4)) 257) (x : Buf Cpx 257) :
    bandedBins bands x =
      ((List.range 255).map (· + 1)).map fun j => (bands.getD j none, x.getD j ⟨zero, zero⟩) := by
  have hb := bands.len
  have hx := x.len
  refine List.ext_getElem ?_ fun i h₁ h₂ => ?_
  · simp [bandedBins, hb, hx]
  · have hi : i < 255 := by simpa using h₂
    have hbi : 1 + i < bands.cells.length := by omega
    have hxi : 1 + i < x.cells.length := by omega
    simp only [bandedBins, List.getElem_take, List.getElem_drop, List.getElem_zip, List.getElem_map,
      List.getElem_range, Buf.getD, Nat.add_comm i 1]
    rw [List.getD_eq_getElem _ _ hbi, List.getD_eq_getElem _ _ hxi]

/-- The bins of the loop of R203 that are not of the excluded ends. -/
theorem inner_bins (p : Nat → Bool) :
    (List.range 257).filter (fun j => decide (1 ≤ j) && decide (j ≤ 255) && p j) =
      ((List.range 255).map (· + 1)).filter p := by
  rw [show 257 = 255 + 1 + 1 from rfl, List.range_succ, List.range_succ_eq_map, List.filter_append,
    List.filter_cons_of_neg (by simp), List.filter_cons_of_neg (by simp), List.filter_nil, List.append_nil]
  refine List.filter_congr fun j hj => ?_
  obtain ⟨i, hi, rfl⟩ := List.mem_map.mp hj
  have := List.mem_range.mp hi
  simp
  omega

/-- The model's band sum is the loop of R203. -/
theorem bandSums_eq_loop (bands : Buf (Option (Fin 4)) 257) (x : Buf Cpx 257) (k : Fin 4) :
    (bandSums (bandedBins bands x) (Quad.all zero)).get k = bandSumLoop bands x k := by
  rw [bandSums_get, bandedBins_eq, quad_get_all, List.filter_map, List.foldl_map]
  unfold bandSumLoop
  rw [inner_bins fun j => bands.getD j none == some k]
  rfl

theorem vftEnergies_get (N : Numerics) (tb : Tables) (inp : Buf F32 512) (k : Fin 4) :
    (vftEnergies N tb inp).get k =
      fmul (bandSumLoop tb.bandOfBin (N.dft (inp.zip fmul tb.hann)) k) energyScale := by
  unfold vftEnergies
  rw [quad_get_map, bandSums_eq_loop]

theorem bandWeight_eq_bandGain (env : Quad F32) (k : Fin 4) : bandWeight env k = bandGain env k := by
  have h : F32.ofNat 1 = one ∧ F32.ofNat 2 = two ∧ F32.ofNat 3 = 0x40400000#32 ∧ F32.ofNat 4 = 0x40800000#32 := by
    decide +kernel
  obtain ⟨h1, h2, h3, h4⟩ := h
  unfold bandWeight
  match k with
  | 0 => exact congrArg (fdiv env.q0) h1
  | 1 => exact congrArg (fdiv env.q1) h2
  | 2 => exact congrArg (fdiv env.q2) h3
  | 3 => exact congrArg (fdiv env.q3) h4

theorem shapeBin_eq_shapedBin (bands : Buf (Option (Fin 4)) 257) (env : Quad F32) (w : Buf Cpx 257) {j : Nat}
    (hj : j < 257) :
    ((innerBands bands).zip (shapeBin env) w).getD j ⟨zero, zero⟩ = shapedBin bands env w j := by
  rw [buf_getD_zip (shapeBin env) (innerBands bands) w none ⟨zero, zero⟩ ⟨zero, zero⟩ hj]
  unfold innerBands shapedBin
  rw [buf_getD_tab _ _ hj]
  split
  · cases bands.getD j none with
    | none => rfl
    | some k => simp only [shapeBin, bandWeight_eq_bandGain]
  · rfl

/-- Settles O30: the windowed input and the noise are the given buffers, and the spectrum and the accumulator are read
at every index. -/
theorem fftVocoderTransform : Obligations.FftVocoderTransform := by
  unfold Obligations.FftVocoderTransform
  rintro N tb c v xw wn _ env rfl hxw hwn henv
  obtain rfl : (v.vft.get c).inp.zip fmul tb.hann = xw := buf_eq_of_getD zero fun i hi =>
    (buf_getD_zip fmul _ _ zero zero zero hi).trans (hxw i hi).symm
  obtain rfl : noiseFrame v.rng = wn := buf_eq_of_getD zero fun i hi =>
    (lcgDraws_getD 512 v.rng hi).trans (hwn i hi).symm
  obtain rfl : vftEnvs v (v.vft.get c).env (vftEnergies N tb (v.vft.get c).inp) = env := quad_ext fun k => by
    rw [henv k, vftEnvs, quad_get_tab, vftEnergies_get]
    rfl
  set env := vftEnvs v (v.vft.get c).env (vftEnergies N tb (v.vft.get c).inp)
  refine ⟨_, (v.vft.get c).out.zip fadd ((vftSynth N tb env v.rng).zip fmul tb.hann),
    fun j hj => shapeBin_eq_shapedBin tb.bandOfBin _ _ hj, fun i hi => ?_, ?_⟩
  · rw [buf_getD_zip fadd _ _ zero zero zero hi, buf_getD_zip fmul _ _ zero zero zero hi]
    rfl
  · rw [← noiseAfter_eq]
    rfl

end Sys2Proof.Proofs
end

section
/-! PROOFS. Whole commands (40_commands.md R97 to R108, 42_sequencer.md R135 to R143): the response and the port after
every command, RESET, BEGIN and FRAME completely, and what a command does not look at or change: the pending
parameters, the error registers, channel 1 of a mono block, the noise generators. -/

-- One theorem at a time: a waiting task holds a thread.
set_option Elab.async false

namespace Sys2Proof.Proofs

open Machine Laws

/-! ### The response and the port -/

/-- What is zero in the response of a command: every word the command does not define (R78). -/
structure ResponseOk (i : Instr) (nch : Word) (r : Response) : Prop where
  status : r.st = 0#32
  notFrame : (∀ x y, i ≠ .frame x y) → r.r1 = 0#32 ∧ r.r2 = 0#32 ∧ r.r3 = 0#32
  noRead : (∀ x y, i ≠ .frame x y) → (∀ k, i ≠ .rdp k) → (∀ k, i ≠ .rds k) → r.r0 = 0#32
  mono : nch = 1#32 → r.r1 = 0#32 ∧ r.r3 = 0#32

theorem responseOk_zeros (i : Instr) (nch : Word) : ResponseOk i nch okResponse :=
  ⟨rfl, fun _ => ⟨rfl, rfl, rfl⟩, fun _ _ _ => rfl, fun _ => ⟨rfl, rfl⟩⟩

theorem not_stereo_of_mono {s : State} (h : s.blkNch = 1#32) : ¬s.blkNch = 2#32 := by
  rw [h]
  decide

/-- The response of an accepted command (R78, R106). -/
theorem doneOf_resp (i : Instr) (s : State) : ∃ r, (doneOf i s).resp = some r ∧ ResponseOk i s.blkNch r := by
  cases i with
  | nop | prepare | reset | endBlock | beginBlock => exact ⟨_, rfl, responseOk_zeros _ _⟩
  | wrp idx v =>
    simp only [doneOf, wrpDone]
    cases ParamReg.ofIdx idx <;> exact ⟨_, rfl, responseOk_zeros _ _⟩
  | rdp idx =>
    simp only [doneOf, rdpDone]
    cases ParamReg.ofIdx idx with
    | none => exact ⟨_, rfl, responseOk_zeros _ _⟩
    | some r => exact ⟨_, rfl, rfl, fun _ => ⟨rfl, rfl, rfl⟩, fun _ h _ => absurd rfl (h idx), fun _ => ⟨rfl, rfl⟩⟩
  | rds idx =>
    simp only [doneOf, rdsDone]
    cases StatusReg.ofIdx idx with
    | none => exact ⟨_, rfl, responseOk_zeros _ _⟩
    | some r => exact ⟨_, rfl, rfl, fun _ => ⟨rfl, rfl, rfl⟩, fun _ _ h => absurd rfl (h idx), fun _ => ⟨rfl, rfl⟩⟩
  | frame l r =>
    simp only [doneOf, frameDone, frameRespond_eq]
    refine ⟨_, rfl, ?_, fun h => absurd rfl (h l r), fun h => absurd rfl (h l r), fun hmono => ?_⟩
    · split <;> rfl
    · rw [if_neg (mt stereo_iff.mp (not_stereo_of_mono hmono))]
      exact ⟨rfl, rfl⟩

theorem framePipe_port (N : Numerics) (stereo : Bool) (s : State) (x : Pair F32) :
    (framePipe N stereo s x).1.port = s.port := by
  obtain ⟨-, h⟩ | ⟨-, h⟩ := framePipe_cases N stereo s x <;> rw [h]
  rfl

/-- No command looks at the commands that wait behind it. -/
theorem doneOf_port (i : Instr) (s : State) : (doneOf i s).port = s.port := by
  cases i with
  | nop | prepare | reset | endBlock => rfl
  | wrp idx v =>
    simp only [doneOf, wrpDone]
    cases ParamReg.ofIdx idx <;> rfl
  | rdp idx =>
    simp only [doneOf, rdpDone]
    cases ParamReg.ofIdx idx <;> rfl
  | rds idx =>
    simp only [doneOf, rdsDone]
    cases StatusReg.ofIdx idx <;> rfl
  | beginBlock m nch =>
    simp only [doneOf, beginDone, ok_port]
    obtain ⟨-, h⟩ | ⟨-, h⟩ :=
      blockSetup_cases Config.num { s with blkLen := m, blkNch := nch, n := 0#32, mode := .inblk } <;> rw [h] <;> rfl
  | frame l r =>
    simp only [doneOf, frameDone, frameRespond_eq]
    exact framePipe_port Config.num s.stereo s ⟨l, r⟩

/-- A step always answers a next state. -/
theorem step_next {s : State} {b : Bundle} {rest : List Bundle} (hport : s.port = b :: rest) :
    ∃ t, step s = .next t := by
  cases hdec : decode b with
  | error e => exact ⟨_, step_of_decode_error hport hdec⟩
  | ok i => exact ⟨_, (step_of_decode_ok hport hdec).trans (exec_eq i _)⟩

/-- Settles O7: a refusal answers its code and zeros, an accepted command the response of `doneOf_resp`. -/
theorem everyCommandResponds : Obligations.EveryCommandResponds := by
  unfold Obligations.EveryCommandResponds
  intro s b rest hport
  obtain ⟨t, hstep⟩ := step_next hport
  obtain ⟨c, rfl⟩ | ⟨i, hdec, rfl⟩ := step_outcome hport hstep
  · have hst : (refusedResponse c).st.toNat ≤ 5 := (refusedResponse_st_toNat c).trans_le (cause_code_range c).2
    exact ⟨_, _, hstep, rfl, rfl, hst, fun _ => ⟨rfl, rfl, rfl, rfl⟩, fun _ => ⟨rfl, rfl, rfl⟩, fun _ _ _ => rfl,
      fun _ => ⟨rfl, rfl⟩⟩
  · obtain ⟨r, hresp, hok⟩ := doneOf_resp i { s with port := rest }
    have other {j : Instr} (h : decode b ≠ .ok j) : i ≠ j := fun hij => h (hij ▸ hdec)
    exact ⟨_, r, hstep, doneOf_port i _, hresp, by rw [hok.status]; decide, fun h => absurd hok.status h,
      fun h => hok.notFrame fun x y => other (h x y),
      fun h hrdp hrds => hok.noRead (fun x y => other (h x y)) (fun k => other (hrdp k)) (fun k => other (hrds k)),
      hok.mono⟩

/-! ### RESET -/

theorem exec_reset {s : State} (h : s.mode ≠ .inblk) : exec .reset s = .next
    { s with bypass := false, buS := zero, fb := Fb.atReset, voc := Voc.atReset, rsr := Rsr.atReset,
             resp := some okResponse } :=
  exec_accepted (i := .reset) ((resetCause_eq s).trans (if_neg h))

/-- Settles O14: the reset values do not depend on what was there. -/
theorem resetMutes : Obligations.ResetMutes := by
  unfold Obligations.ResetMutes
  intro s hmode
  refine ⟨exec_reset hmode, fun _ _ _ _ _ => ?_⟩
  rw [exec_reset hmode]
  exact exec_reset hmode

/-! ### BEGIN -/

section
variable {s : State} {m nch : Word}

theorem beginCause_none (hmode : s.mode = .idle) (hm : m.toNat ≤ s.maxblk.toNat) (hnch : nch = 1#32 ∨ nch = 2#32) :
    beginCause m nch s = none := by
  have hok : nchOk nch = true := by simpa [nchOk] using hnch
  rw [beginCause_eq, if_neg (not_not.mpr hmode), if_pos ⟨BitVec.le_def.mpr hm, hok⟩]

/-- The state at the block setup: the block registers of R102 written, the mode INBLK. -/
def opened (m nch : Word) (s : State) : State := { s with blkLen := m, blkNch := nch, n := 0#32, mode := .inblk }

theorem exec_begin_accepted (h : beginCause m nch s = none) :
    exec (.beginBlock m nch) s = .next (Machine.ok (blockSetup Config.num (opened m nch s))) :=
  exec_accepted (i := .beginBlock m nch) h

theorem blockSetup_bypass (N : Numerics) (h : isBypassBlock s.p = true) :
    blockSetup N s = bypassClear { snapshot s with bypass := true } := if_pos h

theorem blockSetup_active (N : Numerics) (h : isBypassBlock s.p = false) :
    blockSetup N s = activeSetup N (snapshot s) := if_neg (Bool.eq_false_iff.mp h)

end

/-- Settles O19: an accepted BEGIN whose setup is the bypass column. -/
theorem beginBypassBlock : Obligations.BeginBypassBlock := by
  unfold Obligations.BeginBypassBlock
  intro s m nch hmode hm hnch hbypass
  rw [exec_begin_accepted (beginCause_none hmode hm hnch), blockSetup_bypass Config.num (s := opened m nch s) hbypass]
  rfl

/-- Settles O20: an accepted BEGIN whose setup is the smoother and the three unit updates. -/
theorem beginActiveBlock : Obligations.BeginActiveBlock := by
  unfold Obligations.BeginActiveBlock
  rintro s m nch _ hmode hm hnch hactive rfl
  rw [exec_begin_accepted (beginCause_none hmode hm hnch), blockSetup_active Config.num (s := opened m nch s) hactive]
  rfl

/-! ### FRAME -/

theorem framePipe_active {s : State} (N : Numerics) (stereo : Bool) (x : Pair F32) (h : s.bypass = false) :
    framePipe N stereo s x = activeFrame N stereo s x := if_neg (Bool.eq_false_iff.mp h)

/-- Settles O22: an accepted FRAME whose pipeline runs the three units. -/
theorem frameOfActiveBlock : Obligations.FrameOfActiveBlock := by
  unfold Obligations.FrameOfActiveBlock
  rintro s l r _ _ _ _ hmode howed hactive _ _ hl hr rfl rfl rfl rfl
  have hcause : frameCause l r s = none := frameCause_eq_none_iff.mpr ⟨⟨hmode, howed⟩, hl, hr⟩
  exact exec_frame_accepted hcause (framePipe_active Config.num s.stereo ⟨l, r⟩ hactive)

/-- The fields a FRAME may change: its units' states, the count and the response. -/
theorem doneOf_frame_eq (l r : F32) (s : State) : ∃ fb voc rsr resp,
    doneOf (.frame l r) s = { s with fb := fb, voc := voc, rsr := rsr, n := s.n + 1#32, resp := resp } := by
  simp only [doneOf, frameDone, frameRespond_eq]
  obtain ⟨-, h⟩ | ⟨-, h⟩ := framePipe_cases Config.num s.stereo s ⟨l, r⟩ <;> rw [h] <;> exact ⟨_, _, _, _, rfl⟩

/-- Settles O45: by induction on the frames, the units run on the first frame being those of `activeFrame`. -/
theorem blockOrderIsFrameOrder : Obligations.BlockOrderIsFrameOrder := by
  unfold Obligations.BlockOrderIsFrameOrder
  intro N stereo s xs
  induction xs generalizing s with
  | nil => rfl
  | cons x xs ih =>
    simp only [frameOrder, ih]
    rfl

/-- Settles O43: no rule of the units mentions the register. -/
theorem filterDriveIsNeverRead : Obligations.FilterDriveIsNeverRead := by
  unfold Obligations.FilterDriveIsNeverRead
  exact fun _ _ _ _ _ _ _ _ _ _ _ => ⟨rfl, rfl, rfl, rfl, rfl, rfl⟩

end Sys2Proof.Proofs
end

section
/-! PROOFS. What commands keep and do not see (10_state.md R21, 42_sequencer.md R139, R142, 40_commands.md R108,
70_reset_and_hazards.md R289): the values that are constant through a block, the pending parameters and the error
registers that a frame does not look at, channel 1 of a mono block, and the two noise generators. -/

-- One theorem at a time: a waiting task holds a thread.
set_option Elab.async false

namespace Sys2Proof.Proofs

open Machine Laws

/-! ### The units keep the per-block values -/

/-- The values of the vocoder that only a block update or a reset writes (R176). -/
def VocKept (v v' : Voc) : Prop :=
  v'.gain = v.gain ∧ v'.bright = v.bright ∧ v'.aatt = v.aatt ∧ v'.arel = v.arel ∧ v'.gk = v.gk ∧ v'.prev = v.prev

theorem vocKept_vocFrame (N : Numerics) (tb : Tables) (a : Params) (stereo : Bool) (v : Voc) (x : Pair F32) :
    VocKept v (vocFrame N tb a stereo v x).1 := by
  unfold vocFrame
  split
  · rw [vfbTick_frame]
    exact ⟨rfl, rfl, rfl, rfl, rfl, rfl⟩
  · rw [vftTick_frame]
    exact ⟨rfl, rfl, rfl, rfl, rfl, rfl⟩

/-- What a frame does to the units' states: nothing in a bypass block, one frame of each unit otherwise. -/
theorem doneOf_frame_units (l r : F32) (s : State) :
    ((doneOf (.frame l r) s).fb = s.fb ∧ (doneOf (.frame l r) s).voc = s.voc ∧ (doneOf (.frame l r) s).rsr = s.rsr ∧
        s.bypass = true) ∨
      (∃ y z, (doneOf (.frame l r) s).fb = (fbFrame s.stereo s.fb ⟨l, r⟩).1 ∧
        (doneOf (.frame l r) s).voc = (vocFrame Config.num s.tables s.a s.stereo s.voc y).1 ∧
        (doneOf (.frame l r) s).rsr =
          (rsrTick Config.num s.fs (RiserType.ofCode s.a.riserType) s.stereo s.rsr z).1 ∧ s.bypass = false) := by
  simp only [doneOf, frameDone, frameRespond_eq]
  obtain ⟨hb, h⟩ | ⟨hb, h⟩ := framePipe_cases Config.num s.stereo s ⟨l, r⟩ <;> rw [h]
  · exact Or.inl ⟨rfl, rfl, rfl, hb⟩
  · exact Or.inr ⟨(fbFrame s.stereo s.fb ⟨l, r⟩).2,
      (vocFrame Config.num s.tables s.a s.stereo s.voc (fbFrame s.stereo s.fb ⟨l, r⟩).2).2, rfl, rfl, rfl, hb⟩

theorem stageKept_frame (l r : F32) (s : State) (t : Chain) (k : Fin 4) :
    StageKept ((s.fb.get t).get k) (((doneOf (.frame l r) s).fb.get t).get k) := by
  obtain ⟨hfb, -⟩ | ⟨_, _, hfb, -⟩ := doneOf_frame_units l r s <;> rw [hfb]
  · exact StageKept.refl _
  · exact stageKept_fbFrame s.stereo s.fb ⟨l, r⟩ t k

theorem vocKept_frame (l r : F32) (s : State) : VocKept s.voc (doneOf (.frame l r) s).voc := by
  obtain ⟨-, hvoc, -⟩ | ⟨_, _, -, hvoc, -⟩ := doneOf_frame_units l r s <;> rw [hvoc]
  · exact ⟨rfl, rfl, rfl, rfl, rfl, rfl⟩
  · exact vocKept_vocFrame Config.num s.tables s.a s.stereo s.voc _

/-- The values of the riser that only a block update or a reset writes (R226). -/
def RsrKept (r r' : Rsr) : Prop :=
  r'.target = r.target ∧ r'.katt = r.katt ∧ r'.krel = r.krel ∧ r'.ft = r.ft ∧ r'.vdepth = r.vdepth ∧
    r'.vrate = r.vrate ∧ r'.amp = r.amp ∧ r'.nzco = r.nzco

theorem rsrKept_frame (l r : F32) (s : State) : RsrKept s.rsr (doneOf (.frame l r) s).rsr := by
  obtain ⟨-, -, hrsr, -⟩ | ⟨_, _, -, -, hrsr, -⟩ := doneOf_frame_units l r s <;> rw [hrsr]
  · exact ⟨rfl, rfl, rfl, rfl, rfl, rfl, rfl, rfl⟩
  · exact rsrTick_frame Config.num s.fs _ s.stereo s.rsr _

/-! ### What a frame does not see -/

/-- The state with other pending parameters, error registers and response: what the control commands write. -/
def withControl (s : State) (p : Params) (cause : BitVec 8) (cmd : Word) (sticky : Bool) (resp : Option Response) :
    State :=
  { s with p := p, errCause := cause, errCmd := cmd, errSticky := sticky, resp := resp }

section
variable (s : State) (p : Params) (cause : BitVec 8) (cmd : Word) (sticky : Bool) (resp : Option Response)

/-- No check of FRAME or END looks at what the control commands write. -/
theorem causeOf_withControl {i : Instr} (hi : (∃ l r, i = .frame l r) ∨ i = .endBlock) :
    causeOf i (withControl s p cause cmd sticky resp) = causeOf i s := by
  obtain ⟨l, r, rfl⟩ | rfl := hi <;> rfl

theorem framePipe_withControl (N : Numerics) (stereo : Bool) (x : Pair F32) :
    framePipe N stereo (withControl s p cause cmd sticky resp) x =
      (withControl (framePipe N stereo s x).1 p cause cmd sticky resp, (framePipe N stereo s x).2) := by
  cases hb : s.bypass with
  | true =>
    rw [framePipe_bypass N stereo x hb]
    exact framePipe_bypass (s := withControl s p cause cmd sticky resp) N stereo x hb
  | false =>
    rw [framePipe_active N stereo x hb]
    exact framePipe_active (s := withControl s p cause cmd sticky resp) N stereo x hb

/-- FRAME and END do the same whatever the control commands wrote, and answer the same. -/
theorem doneOf_withControl {i : Instr} (hi : (∃ l r, i = .frame l r) ∨ i = .endBlock) :
    doneOf i (withControl s p cause cmd sticky resp) =
      withControl (doneOf i s) p cause cmd sticky (doneOf i s).resp := by
  obtain ⟨l, r, rfl⟩ | rfl := hi
  · simp only [doneOf, frameDone, frameRespond_eq]
    rw [show (withControl s p cause cmd sticky resp).stereo = s.stereo from rfl, framePipe_withControl]
    rfl
  · rfl

end

/-! ### Per-block values are constant -/

/-- A FRAME executed with other pending parameters. -/
theorem exec_frame_with_p {s t : State} {l r : F32} (h : exec (.frame l r) s = .next t) (p : Params) :
    exec (.frame l r) { s with p := p } = .next { t with p := p } := by
  have hcause : causeOf (.frame l r) { s with p := p } = causeOf (.frame l r) s := rfl
  obtain ⟨c, hc, rfl⟩ | ⟨hnone, rfl⟩ := exec_cases h
  · exact exec_refused (hcause.trans hc)
  · have hdone := doneOf_withControl s p s.errCause s.errCmd s.errSticky s.resp (i := .frame l r) (Or.inl ⟨l, r, rfl⟩)
    refine (exec_accepted (hcause.trans hnone)).trans (congrArg Host.Outcome.next (hdone.trans ?_))
    obtain ⟨_, _, _, _, heq⟩ := doneOf_frame_eq l r s
    rw [heq]
    rfl

/-- Settles O38: the stages, the vocoder and the riser by what a frame keeps of each, the rest by the fields a FRAME
writes. -/
theorem perBlockValuesAreConstant : Obligations.PerBlockValuesAreConstant := by
  unfold Obligations.PerBlockValuesAreConstant
  intro s t l r h
  have hp := exec_frame_with_p h
  obtain ⟨c, -, rfl⟩ | ⟨-, rfl⟩ := exec_cases h
  · exact ⟨rfl, rfl, rfl, rfl, rfl, rfl, rfl, rfl, rfl, fun _ => ⟨rfl, rfl, rfl, rfl, rfl, rfl, rfl, rfl⟩,
      rfl, rfl, rfl, rfl, rfl, rfl, rfl, rfl, rfl, rfl, rfl, rfl, rfl, rfl, hp⟩
  · have hstages (k : Fin 4) := And.intro (stageKept_frame l r s .hp k) (stageKept_frame l r s .lp k)
    obtain ⟨hgain, hbright, haatt, harel, hgk, hprev⟩ := vocKept_frame l r s
    obtain ⟨htarget, hkatt, hkrel, hft, hvdepth, hvrate, hamp, hnzco⟩ := rsrKept_frame l r s
    refine ⟨?_, ?_, ?_, ?_, ?_, ?_, ?_, ?_, ?_, fun k => ?_, hgain, hbright, haatt, harel, hgk, hprev, htarget, hkatt,
      hkrel, hft, hvdepth, hvrate, hamp, hnzco, hp⟩
    case refine_10 =>
      obtain ⟨⟨hfc, hq, hact, hco, -⟩, hfc', hq', hact', hco', -⟩ := hstages k
      exact ⟨hfc, hq, hact, hco, hfc', hq', hact', hco'⟩
    all_goals
      obtain ⟨_, _, _, _, heq⟩ := doneOf_frame_eq l r s
      rw [heq]

/-! ### The parameter files -/

theorem blockSetup_params (N : Numerics) (s : State) : (blockSetup N s).p = s.p ∧ (blockSetup N s).a = s.p := by
  obtain ⟨-, h⟩ | ⟨-, h⟩ := blockSetup_cases N s <;> rw [h] <;> exact ⟨rfl, rfl⟩

/-- The active parameters after an accepted command: BEGIN copies the pending ones (R21, R136). -/
theorem doneOf_a (i : Instr) (s : State) :
    ((∃ m nch, i = .beginBlock m nch) ∧ (doneOf i s).a = s.p) ∨
        ((∀ m nch, i ≠ .beginBlock m nch) ∧ (doneOf i s).a = s.a) := by
  cases i with
  | nop | prepare | reset | endBlock => exact Or.inr ⟨nofun, rfl⟩
  | wrp idx v =>
    simp only [doneOf, wrpDone]
    cases ParamReg.ofIdx idx <;> exact Or.inr ⟨nofun, rfl⟩
  | rdp idx =>
    simp only [doneOf, rdpDone]
    cases ParamReg.ofIdx idx <;> exact Or.inr ⟨nofun, rfl⟩
  | rds idx =>
    simp only [doneOf, rdsDone]
    cases StatusReg.ofIdx idx <;> exact Or.inr ⟨nofun, rfl⟩
  | beginBlock m nch => exact Or.inl ⟨⟨m, nch, rfl⟩, (blockSetup_params Config.num (opened m nch s)).2⟩
  | frame l r =>
    obtain ⟨_, _, _, _, heq⟩ := doneOf_frame_eq l r s
    rw [heq]
    exact Or.inr ⟨nofun, rfl⟩

/-- The pending parameters after an accepted command: only WRP writes them. -/
theorem doneOf_p {i : Instr} (h : ∀ k v, i ≠ .wrp k v) (s : State) : (doneOf i s).p = s.p := by
  cases i with
  | nop | prepare | reset | endBlock => rfl
  | wrp idx v => exact absurd rfl (h idx v)
  | rdp idx =>
    simp only [doneOf, rdpDone]
    cases ParamReg.ofIdx idx <;> rfl
  | rds idx =>
    simp only [doneOf, rdsDone]
    cases StatusReg.ofIdx idx <;> rfl
  | beginBlock m nch => exact (blockSetup_params Config.num (opened m nch s)).1
  | frame l r =>
    obtain ⟨_, _, _, _, heq⟩ := doneOf_frame_eq l r s
    rw [heq]

/-- A command other than WRP, RDP and BEGIN does the same with other pending parameters (R280). -/
theorem exec_with_p {i : Instr} {s t : State} (hbegin : ∀ m nch, i ≠ .beginBlock m nch) (hwrp : ∀ k v, i ≠ .wrp k v)
    (hrdp : ∀ k, i ≠ .rdp k) (h : exec i s = .next t) (p : Params) :
    exec i { s with p := p } = .next { t with p := p } := by
  cases i with
  | frame l r => exact exec_frame_with_p h p
  | wrp idx v => exact absurd rfl (hwrp idx v)
  | rdp idx => exact absurd rfl (hrdp idx)
  | beginBlock m nch => exact absurd rfl (hbegin m nch)
  | nop | prepare | reset | endBlock =>
    obtain ⟨c, hc, rfl⟩ | ⟨hnone, rfl⟩ := exec_cases h
    · exact exec_refused hc
    · exact exec_accepted hnone
  | rds idx =>
    obtain ⟨c, hc, rfl⟩ | ⟨hnone, rfl⟩ := exec_cases h
    · exact exec_refused (s := { s with p := p }) hc
    · refine (exec_accepted (s := { s with p := p }) hnone).trans (congrArg Host.Outcome.next ?_)
      simp only [doneOf, rdsDone]
      cases ParamReg.ofIdx idx <;> cases hr : StatusReg.ofIdx idx with
      | none => rfl
      | some r => cases r <;> rfl

/-- Settles O39: a refusal keeps both files, an accepted command writes them as `doneOf_a` and `doneOf_p` say. -/
theorem parametersChangeOnlyByWrpAndBegin : Obligations.ParametersChangeOnlyByWrpAndBegin := by
  unfold Obligations.ParametersChangeOnlyByWrpAndBegin
  intro i s t h
  refine ⟨fun hbegin => ?_, ?_, fun hwrp => ?_, fun hbegin hwrp hrdp => exec_with_p hbegin hwrp hrdp h⟩ <;>
    obtain ⟨c, -, rfl⟩ | ⟨-, rfl⟩ := exec_cases h
  · rfl
  · obtain ⟨⟨m, nch, rfl⟩, -⟩ | ⟨-, ha⟩ := doneOf_a i s
    · exact absurd rfl (hbegin m nch)
    · exact ha
  · exact Or.inl rfl
  · obtain ⟨-, ha⟩ | ⟨-, ha⟩ := doneOf_a i s
    · exact Or.inr ha
    · exact Or.inl ha
  · rfl
  · exact doneOf_p hwrp s

/-! ### Control commands before a FRAME or an END -/

/-- What a control command can change (R108). -/
theorem exec_control {c : Instr} {s t : State} (hc : isControl c = true) (h : exec c s = .next t) :
    t = withControl s t.p t.errCause t.errCmd t.errSticky t.resp := by
  obtain ⟨c, -, rfl⟩ | ⟨-, rfl⟩ := exec_cases h
  · rfl
  · cases c with
    | nop => rfl
    | wrp idx v =>
      simp only [doneOf, wrpDone]
      cases ParamReg.ofIdx idx <;> rfl
    | rdp idx =>
      simp only [doneOf, rdpDone]
      cases ParamReg.ofIdx idx <;> rfl
    | rds idx =>
      simp only [doneOf, rdsDone]
      cases StatusReg.ofIdx idx <;> rfl
    | prepare | reset | beginBlock | frame | endBlock => cases hc

/-- Settles O40: FRAME and END look at nothing a control command writes. -/
theorem controlCommandsLeaveBlockAlone : Obligations.ControlCommandsLeaveBlockAlone := by
  unfold Obligations.ControlCommandsLeaveBlockAlone
  intro c i s t hcontrol hi hc
  rw [exec_control hcontrol hc]
  have hcause := causeOf_withControl s t.p t.errCause t.errCmd t.errSticky t.resp hi
  cases hcase : causeOf i s with
  | some cause => exact ⟨_, _, exec_refused hcase, exec_refused (hcause.trans hcase), rfl, rfl⟩
  | none =>
    refine ⟨_, _, exec_accepted hcase, exec_accepted (hcause.trans hcase), ?_⟩
    rw [doneOf_withControl s t.p t.errCause t.errCmd t.errSticky t.resp hi]
    exact ⟨rfl, rfl⟩

/-! ### Channel 1 of a mono block -/

theorem fbFrame_mono (f : Fb) (l r : F32) :
    fbFrame false f ⟨l, r⟩ = ((fbTick .left f l).1, ⟨(fbTick .left f l).2, r⟩) := rfl

/-- A mono vocoder frame does not look at the right sample, and hands it through. -/
theorem vocFrame_mono (N : Numerics) (tb : Tables) (a : Params) (v : Voc) (l : F32) :
    ∃ v' l', ∀ r, vocFrame N tb a false v ⟨l, r⟩ = (v', ⟨l', r⟩) := by
  unfold vocFrame
  split
  · exact ⟨(vfbTick tb.vco false v ⟨l, l⟩).1, (vfbTick tb.vco false v ⟨l, l⟩).2.l, fun r => rfl⟩
  · refine ⟨(vftTick N tb false v ⟨l, l⟩).1, (vftTick N tb false v ⟨l, l⟩).2.l, fun r => ?_⟩
    have hready : vftReady N tb false v ⟨l, r⟩ = vftReady N tb false v ⟨l, l⟩ := rfl
    rw [vftTick_eq_emitted, vftTick_eq_emitted, hready]
    rfl

theorem rsrTick_mono (N : Numerics) (fs : F32) (t : RiserType) (u : Rsr) (l : F32) :
    ∃ u' l', ∀ r, rsrTick N fs t false u ⟨l, r⟩ = (u', ⟨l', r⟩) :=
  ⟨(rsrTick N fs t false u ⟨l, l⟩).1, (rsrTick N fs t false u ⟨l, l⟩).2.l, fun _ => rfl⟩

/-- A mono frame does the same with every right operand, but for handing it through. -/
theorem activeFrame_mono (N : Numerics) (s : State) (l : F32) :
    ∃ u o w, ∀ r, activeFrame N false s ⟨l, r⟩ = (u, ⟨⟨o, r⟩, ⟨w, r⟩⟩) := by
  obtain ⟨v', w, hv⟩ := vocFrame_mono N s.tables s.a s.voc (fbTick .left s.fb l).2
  obtain ⟨u', o, hr⟩ := rsrTick_mono N s.fs (RiserType.ofCode s.a.riserType) s.rsr w
  refine ⟨{ s with fb := (fbTick .left s.fb l).1, voc := v', rsr := u' }, o, w, fun r => ?_⟩
  simp only [activeFrame, fbFrame_mono, hv, hr]

theorem framePipe_mono (N : Numerics) (s : State) (l : F32) :
    ∃ u o w, ∀ r, framePipe N false s ⟨l, r⟩ = (u, ⟨⟨o, r⟩, ⟨w, r⟩⟩) := by
  cases hb : s.bypass with
  | true => exact ⟨s, l, l, fun r => framePipe_bypass N false ⟨l, r⟩ hb⟩
  | false =>
    obtain ⟨u, o, w, h⟩ := activeFrame_mono N s l
    exact ⟨u, o, w, fun r => (framePipe_active N false ⟨l, r⟩ hb).trans (h r)⟩

section
variable {s : State} (hmono : s.blkNch = 1#32)
include hmono

theorem stereo_false_of_mono : s.stereo = false :=
  Bool.eq_false_iff.mpr (mt stereo_iff.mp (not_stereo_of_mono hmono))

theorem frameCause_mono (l r r' : F32) : frameCause l r' s = frameCause l r s := by
  simp only [frameCause, stereo_false_of_mono hmono, Bool.false_and]

theorem frameDone_mono (N : Numerics) (l r r' : F32) : frameDone N l r' s = frameDone N l r s := by
  obtain ⟨u, o, w, h⟩ := framePipe_mono N s l
  simp only [frameDone, stereo_false_of_mono hmono, h, frameRespond_eq]
  rfl

/-- A FRAME of a mono block does not look at its right operand (R103). -/
theorem exec_frame_mono (l r r' : F32) : exec (.frame l r') s = exec (.frame l r) s := by
  rw [exec_eq, exec_eq]
  simp only [causeOf, doneOf, frameCause_mono hmono l r r', frameDone_mono hmono Config.num l r r']
  rfl

end

theorem vocFrame_mono_keeps_right (N : Numerics) (tb : Tables) (a : Params) (v : Voc) (x : Pair F32) :
    (vocFrame N tb a false v x).1.vfb.r = v.vfb.r ∧ (vocFrame N tb a false v x).1.vft.r = v.vft.r := by
  unfold vocFrame
  split
  · refine ⟨(vfbTick_mono_right tb.vco v x).1, ?_⟩
    rw [vfbTick_frame]
    rfl
  · refine ⟨?_, (vftTick_mono_right N tb v x).1⟩
    rw [vftTick_frame]

/-- Settles O42: the right operand by `exec_frame_mono`, the channel-1 state unit by unit. -/
theorem monoBlockLeavesChannelOne : Obligations.MonoBlockLeavesChannelOne := by
  unfold Obligations.MonoBlockLeavesChannelOne
  intro s t l r hmono h
  refine ⟨fun r' => (exec_frame_mono hmono l r r').trans h, fun w hw => ?_, ?_⟩
  · obtain ⟨c, -, rfl⟩ | ⟨-, rfl⟩ := exec_cases h
    · cases hw
      exact ⟨rfl, rfl⟩
    · obtain ⟨w', hw', hok⟩ := doneOf_resp (.frame l r) s
      obtain rfl : w' = w := Option.some.inj (hw'.symm.trans hw)
      exact hok.mono hmono
  · obtain ⟨c, -, rfl⟩ | ⟨-, rfl⟩ := exec_cases h
    · exact ⟨fun _ => ⟨rfl, rfl, rfl, rfl⟩, rfl, rfl⟩
    · obtain ⟨hfb, hvoc, -⟩ | ⟨y, z, hfb, hvoc, -⟩ := doneOf_frame_units l r s
      · rw [hfb, hvoc]
        exact ⟨fun _ => ⟨rfl, rfl, rfl, rfl⟩, rfl, rfl⟩
      · rw [hfb, hvoc, stereo_false_of_mono hmono]
        refine ⟨fun k => ?_, vocFrame_mono_keeps_right Config.num s.tables s.a s.voc y⟩
        obtain ⟨h1, h2⟩ := fbFrame_mono_keeps_right s.fb ⟨l, r⟩ .hp k
        obtain ⟨h3, h4⟩ := fbFrame_mono_keeps_right s.fb ⟨l, r⟩ .lp k
        exact ⟨h1, h2, h3, h4⟩

end Sys2Proof.Proofs
end

section
/-! PROOFS. The noise generators (70_reset_and_hazards.md R289) and the invariant of the protocol and the parameters
(10_state.md R42 (a), (b), (d), (f), 70_reset_and_hazards.md R291): the parts of the invariant one by one, each kept by
the commands that write what it speaks of. -/

-- One theorem at a time: a waiting task holds a thread.
set_option Elab.async false

namespace Sys2Proof.Proofs

open Machine Laws

/-! ### The noise generators -/

theorem vocFrame_rng (N : Numerics) (tb : Tables) (a : Params) (stereo : Bool) (v : Voc) (x : Pair F32) :
    (vocFrame N tb a stereo v x).1.rng =
      if a.vocMode = 0#32 then lcgNext v.rng else if v.hopc = 255#32 then noiseAfterHop stereo v.rng else v.rng := by
  unfold vocFrame
  split
  · rw [vfbTick_frame]
    rfl
  · rw [vftTick_frame]

theorem riserType_eq_noise_iff {w : Word} : RiserType.ofCode w = .noise ↔ w = 3#32 := by
  unfold RiserType.ofCode
  constructor
  · intro h
    split at h
    · cases h
    split at h
    · cases h
    split at h
    · assumption
    split at h <;> cases h
  · rintro rfl
    rfl

theorem rsrTick_rng (N : Numerics) (fs : F32) (w : Word) (stereo : Bool) (r : Rsr) (x : Pair F32) :
    (rsrTick N fs (RiserType.ofCode w) stereo r x).1.rng = if w = 3#32 then lcgNext r.rng else r.rng := by
  split
  case isTrue h =>
    rw [riserType_eq_noise_iff.mpr h]
    rfl
  case isFalse h =>
    rw [rsrTick_periodic (mt riserType_eq_noise_iff.mp h)]
    rfl

theorem vocUpdate_rng (N : Numerics) (fs : F32) (a : Params) (b : F32) (v : Voc) :
    (vocUpdate N fs a b v).rng = v.rng := by
  change (v.switch a).rng = v.rng
  unfold Voc.switch
  split <;> rfl

theorem blockSetup_rng (N : Numerics) (s : State) :
    (blockSetup N s).voc.rng = s.voc.rng ∧ (blockSetup N s).rsr.rng = s.rsr.rng := by
  obtain ⟨-, h⟩ | ⟨-, h⟩ := blockSetup_cases N s <;> rw [h]
  · exact ⟨rfl, rfl⟩
  · exact ⟨vocUpdate_rng N _ _ _ _, rfl⟩

theorem stereo_eq_decide (s : State) : s.stereo = decide (s.blkNch = 2#32) := by
  cases h : s.stereo with
  | true => exact (decide_eq_true (stereo_iff.mp h)).symm
  | false => exact (decide_eq_false (mt stereo_iff.mpr (Bool.eq_false_iff.mp h))).symm

/-- The generators after an accepted FRAME (R289). -/
theorem doneOf_frame_rng (l r : F32) (s : State) :
    if s.bypass = true then
      (doneOf (.frame l r) s).voc.rng = s.voc.rng ∧ (doneOf (.frame l r) s).rsr.rng = s.rsr.rng
    else
      (doneOf (.frame l r) s).voc.rng =
        (if s.a.vocMode = 0#32 then lcgNext s.voc.rng
        else if s.voc.hopc = 255#32 then
          (if s.blkNch = 2#32 then lcgNext^[1024] s.voc.rng else lcgNext^[512] s.voc.rng)
        else s.voc.rng) ∧
      (doneOf (.frame l r) s).rsr.rng = (if s.a.riserType = 3#32 then lcgNext s.rsr.rng else s.rsr.rng) := by
  obtain ⟨-, hvoc, hrsr, hb⟩ | ⟨y, z, -, hvoc, hrsr, hb⟩ := doneOf_frame_units l r s <;> rw [hvoc, hrsr]
  · rw [if_pos hb]
    exact ⟨rfl, rfl⟩
  · rw [if_neg (Bool.eq_false_iff.mp hb), vocFrame_rng, rsrTick_rng, noiseAfterHop_eq, stereo_eq_decide]
    simp only [decide_eq_true_iff, and_self]

/-- Settles O44: of the accepted commands PREPARE and RESET reseed, FRAME draws, and the others keep both generators. -/
theorem noiseGeneratorsAdvance : Obligations.NoiseGeneratorsAdvance := by
  unfold Obligations.NoiseGeneratorsAdvance
  intro i s t w _ _ h hw
  obtain ⟨c, -, rfl⟩ | ⟨-, rfl⟩ := exec_cases h
  · obtain rfl : refusedResponse c = w := Option.some.inj hw
    exact ⟨fun _ => ⟨rfl, rfl⟩, fun hst => absurd hst (refusedResponse_st_ne_zero c)⟩
  · obtain ⟨-, -, w', hw', hst⟩ := doneOf_transition i s
    obtain rfl : w' = w := Option.some.inj (hw'.symm.trans hw)
    refine ⟨fun hne => absurd hst hne, fun _ => ?_⟩
    cases i with
    | nop | prepare | reset | endBlock => exact ⟨rfl, rfl⟩
    | wrp idx v =>
      simp only [doneOf, wrpDone]
      cases ParamReg.ofIdx idx <;> exact ⟨rfl, rfl⟩
    | rdp idx =>
      simp only [doneOf, rdpDone]
      cases ParamReg.ofIdx idx <;> exact ⟨rfl, rfl⟩
    | rds idx =>
      simp only [doneOf, rdsDone]
      cases StatusReg.ofIdx idx <;> exact ⟨rfl, rfl⟩
    | beginBlock m nch => exact blockSetup_rng Config.num (opened m nch s)
    | frame l r => exact doneOf_frame_rng l r s

/-! ### The invariant part by part -/

theorem state_wf_iff {s : State} : s.wf = true ↔
    s.p.wf = true ∧ s.a.wf = true ∧ protocolWf s = true ∧ chainWf .hp s.fb.hp = true ∧ chainWf .lp s.fb.lp = true ∧
      s.voc.hopc < hop := by
  simp only [State.wf, Bool.and_eq_true, decide_eq_true_iff, and_assoc]

theorem params_wf_iff {p : Params} : p.wf = true ↔ ∀ r, inRange r (p.get r) = true :=
  ⟨fun h r => inRange_of_wf h r, fun h => List.all_eq_true.mpr fun r _ => h r⟩

/-- Writing a value in range keeps the file in range. -/
theorem params_wf_set {p : Params} {r : ParamReg} {v : Word} (hp : p.wf = true) (hv : inRange r v = true) :
    (p.set r v).wf = true := by
  rw [params_wf_iff] at hp ⊢
  intro r'
  rw [params_get_set]
  split
  case isTrue h => rw [h]; exact hv
  case isFalse => exact hp r'

/-! ### The stages -/

theorem chainWf_iff {t : Chain} {c : Quad Stage} : chainWf t c = true ↔ ∀ k, (c.get k).wf t = true := by
  simp only [chainWf, Bool.and_eq_true, and_assoc]
  constructor
  · rintro ⟨h0, h1, h2, h3⟩ k
    match k with
    | 0 => exact h0
    | 1 => exact h1
    | 2 => exact h2
    | 3 => exact h3
  · exact fun h => ⟨h 0, h 1, h 2, h 3⟩

/-- The stages of both chains are well-formed (R42 (d)). -/
def FbWf (f : Fb) : Prop := ∀ t k, ((f.get t).get k).wf t = true

theorem fbWf_iff {f : Fb} : FbWf f ↔ chainWf .hp f.hp = true ∧ chainWf .lp f.lp = true := by
  rw [chainWf_iff, chainWf_iff]
  refine ⟨fun h => ⟨h .hp, h .lp⟩, fun ⟨hhp, hlp⟩ t => ?_⟩
  cases t with
  | hp => exact hhp
  | lp => exact hlp

/-- A neutral stage is well-formed. -/
theorem neutral_wf (t : Chain) (st : Stage) : (st.neutral t).wf t = true := by
  cases t <;> rfl

/-- An active stage is well-formed. -/
theorem active_wf {t : Chain} {st : Stage} (h : st.act = true) : st.wf t = true := by
  unfold Stage.wf
  rw [h]
  rfl

theorem stage_wf_of_kept {t : Chain} {st st' : Stage} (hkept : StageKept st st') (h : st.wf t = true) :
    st'.wf t = true := by
  obtain ⟨-, -, hact, -, hidle⟩ := hkept
  cases hst : st.act with
  | true => exact active_wf (hact.trans hst)
  | false => rwa [hidle hst]

theorem fbWf_atReset : FbWf Fb.atReset := by
  rw [fbWf_iff]
  decide

theorem fbWf_neutral (f : Fb) : FbWf (fbNeutral f) := by
  intro t k
  cases t with
  | hp =>
    rw [show (fbNeutral f).get .hp = f.hp.map (Stage.neutral .hp) from rfl, quad_get_map]
    exact neutral_wf .hp _
  | lp =>
    rw [show (fbNeutral f).get .lp = f.lp.map (Stage.neutral .lp) from rfl, quad_get_map]
    exact neutral_wf .lp _

theorem chainUpdate_wf (N : Numerics) (fs : F32) (a : Params) (p : F32) (t : Chain) (c : Quad Stage) (k : Fin 4) :
    ((fbChainUpdate N fs a p t c).get k).wf t = true := by
  rw [fbChainUpdate_get]
  split
  · exact active_wf rfl
  · exact neutral_wf t _

theorem fbWf_update (N : Numerics) (fs : F32) (a : Params) (b : F32) (f : Fb) : FbWf (fbUpdate N fs a b f) := by
  intro t k
  cases t with
  | hp => exact chainUpdate_wf N fs a _ .hp f.hp k
  | lp => exact chainUpdate_wf N fs a _ .lp f.lp k

/-! ### The hop counter -/

theorem zero_lt_hop : 0#32 < hop := by decide

theorem vocFrame_hopc (N : Numerics) (tb : Tables) (a : Params) (stereo : Bool) {v : Voc} (x : Pair F32)
    (h : v.hopc < hop) : (vocFrame N tb a stereo v x).1.hopc < hop := by
  unfold vocFrame
  split
  · rw [vfbTick_frame]
    exact h
  · rw [vftTick_frame]
    unfold hop at h ⊢
    change (if v.hopc = 255#32 then 0#32 else v.hopc + 1#32) < 256#32
    split <;> bv_omega

theorem vocUpdate_hopc (N : Numerics) (fs : F32) (a : Params) (b : F32) {v : Voc} (h : v.hopc < hop) :
    (vocUpdate N fs a b v).hopc < hop := by
  change (v.switch a).hopc < hop
  unfold Voc.switch
  split
  · exact zero_lt_hop
  · exact h

/-! ### The protocol state -/

/-- The state a block is opened in (R42 (b)). -/
theorem protocolWf_idle {s : State} (hmode : s.mode = .idle) :
    protocolWf s = true ↔ fsOk s.fs = true ∧ maxblkOk s.maxblk = true := by
  simp only [protocolWf, hmode, Bool.and_eq_true]

theorem protocolWf_inblk {s : State} (hmode : s.mode = .inblk) :
    protocolWf s = true ↔ fsOk s.fs = true ∧ maxblkOk s.maxblk = true ∧ s.n ≤ s.blkLen ∧ s.blkLen ≤ s.maxblk ∧
      nchOk s.blkNch = true := by
  simp only [protocolWf, hmode, Bool.and_eq_true, decide_eq_true_iff, and_assoc]

theorem prepareCause_none {fs : F32} {mb : Word} {s : State} (h : prepareCause fs mb s = none) :
    fsOk fs = true ∧ maxblkOk mb = true := by
  rw [prepareCause_eq] at h
  split at h
  · cases h
  split at h
  · assumption
  · cases h

theorem of_beginCause_none {m nch : Word} {s : State} (h : beginCause m nch s = none) :
    s.mode = .idle ∧ m ≤ s.maxblk ∧ nchOk nch = true := by
  rw [beginCause_eq] at h
  split at h
  · cases h
  split at h
  · exact ⟨not_not.mp ‹_›, ‹_›⟩
  · cases h

theorem of_endCause_none {s : State} (h : endCause s = none) : s.mode = .inblk ∧ s.n = s.blkLen := by
  rw [endCause_eq] at h
  split at h
  · cases h
  · exact not_or.mp ‹_› |>.imp not_not.mp not_not.mp

theorem blockSetup_protocolWf (N : Numerics) (s : State) : protocolWf (blockSetup N s) = protocolWf s := by
  obtain ⟨-, h⟩ | ⟨-, h⟩ := blockSetup_cases N s <;> rw [h] <;> rfl

/-! ### Every accepted command keeps the invariant -/

/-- Block setup keeps the stages and the hop counter well-formed. -/
theorem blockSetup_units_wf (N : Numerics) {s : State} (h : s.voc.hopc < hop) :
    FbWf (blockSetup N s).fb ∧ (blockSetup N s).voc.hopc < hop := by
  obtain ⟨-, hb⟩ | ⟨-, hb⟩ := blockSetup_cases N s <;> rw [hb]
  · exact ⟨fbWf_neutral s.fb, zero_lt_hop⟩
  · exact ⟨fbWf_update N _ _ _ _, vocUpdate_hopc N _ _ _ h⟩

theorem doneOf_begin_wf {m nch : Word} {s : State} (hwf : s.wf = true) (h : beginCause m nch s = none) :
    (doneOf (.beginBlock m nch) s).wf = true := by
  obtain ⟨hp, -, hprot, -, -, hhop⟩ := state_wf_iff.mp hwf
  obtain ⟨hmode, hm, hnch⟩ := of_beginCause_none h
  obtain ⟨hfs, hmb⟩ := (protocolWf_idle hmode).mp hprot
  obtain ⟨hp', ha'⟩ := blockSetup_params Config.num (opened m nch s)
  obtain ⟨hfb, hhop'⟩ := blockSetup_units_wf Config.num (s := opened m nch s) hhop
  obtain ⟨hhp, hlp⟩ := fbWf_iff.mp hfb
  have hopened : protocolWf (opened m nch s) = true :=
    (protocolWf_inblk rfl).mpr ⟨hfs, hmb, BitVec.le_def.mpr (Nat.zero_le _), hm, hnch⟩
  refine state_wf_iff.mpr ⟨?_, ?_, (blockSetup_protocolWf Config.num (opened m nch s)).trans hopened, hhp, hlp, hhop'⟩
  · rw [show (doneOf (.beginBlock m nch) s).p = s.p from hp']
    exact hp
  · rw [show (doneOf (.beginBlock m nch) s).a = s.p from ha']
    exact hp

theorem doneOf_frame_wf {l r : F32} {s : State} (hwf : s.wf = true) (h : frameCause l r s = none) :
    (doneOf (.frame l r) s).wf = true := by
  obtain ⟨hp, ha, hprot, hhp, hlp, hhop⟩ := state_wf_iff.mp hwf
  obtain ⟨⟨hmode, howed⟩, -, -⟩ := frameCause_eq_none_iff.mp h
  obtain ⟨hfs, hmb, hn, hlen, hnch⟩ := (protocolWf_inblk hmode).mp hprot
  have hfb : FbWf (doneOf (.frame l r) s).fb := fun t k =>
    stage_wf_of_kept (stageKept_frame l r s t k) (fbWf_iff.mpr ⟨hhp, hlp⟩ t k)
  have hhop' : (doneOf (.frame l r) s).voc.hopc < hop := by
    obtain ⟨-, hvoc, -⟩ | ⟨y, _, -, hvoc, -⟩ := doneOf_frame_units l r s <;> rw [hvoc]
    · exact hhop
    · exact vocFrame_hopc Config.num s.tables s.a s.stereo y hhop
  obtain ⟨_, _, _, _, heq⟩ := doneOf_frame_eq l r s
  rw [heq] at hfb hhop' ⊢
  obtain ⟨hhp', hlp'⟩ := fbWf_iff.mp hfb
  have hn' : s.n + 1#32 ≤ s.blkLen := by bv_omega
  refine state_wf_iff.mpr ⟨hp, ha, ?_, hhp', hlp', hhop'⟩
  exact (protocolWf_inblk (by exact hmode)).mpr ⟨hfs, hmb, hn', hlen, hnch⟩

theorem doneOf_wrp_wf {idx : BitVec 8} {v : Word} {s : State} (hwf : s.wf = true) (h : wrpCause idx v = none) :
    (doneOf (.wrp idx v) s).wf = true := by
  simp only [doneOf, wrpDone]
  cases hr : ParamReg.ofIdx idx with
  | none => exact hwf
  | some r =>
    obtain ⟨hp, hrest⟩ := state_wf_iff.mp hwf
    have hrange : inRange r v = true := by
      rw [← paramReg_idx_of_ofIdx hr, wrpCause_idx] at h
      by_contra hout
      rw [if_neg hout] at h
      cases h
    exact state_wf_iff.mpr ⟨params_wf_set hp hrange, hrest⟩

/-- An accepted command keeps the invariant (R291). -/
theorem doneOf_wf {i : Instr} {s : State} (hwf : s.wf = true) (h : causeOf i s = none) : (doneOf i s).wf = true := by
  cases i with
  | nop => exact hwf
  | rdp idx =>
    simp only [doneOf, rdpDone]
    cases ParamReg.ofIdx idx <;> exact hwf
  | rds idx =>
    simp only [doneOf, rdsDone]
    cases StatusReg.ofIdx idx <;> exact hwf
  | wrp idx v => exact doneOf_wrp_wf hwf h
  | beginBlock m nch => exact doneOf_begin_wf hwf h
  | frame l r => exact doneOf_frame_wf hwf h
  | prepare fs mb =>
    obtain ⟨hp, ha, -⟩ := state_wf_iff.mp hwf
    obtain ⟨hhp, hlp⟩ := fbWf_iff.mp fbWf_atReset
    exact state_wf_iff.mpr ⟨hp, ha, (protocolWf_idle rfl).mpr (prepareCause_none h), hhp, hlp, zero_lt_hop⟩
  | reset =>
    obtain ⟨hp, ha, hprot, -⟩ := state_wf_iff.mp hwf
    obtain ⟨hhp, hlp⟩ := fbWf_iff.mp fbWf_atReset
    exact state_wf_iff.mpr ⟨hp, ha, hprot, hhp, hlp, zero_lt_hop⟩
  | endBlock =>
    obtain ⟨hp, ha, hprot, hrest⟩ := state_wf_iff.mp hwf
    obtain ⟨hmode, -⟩ := of_endCause_none h
    obtain ⟨hfs, hmb, -⟩ := (protocolWf_inblk hmode).mp hprot
    exact state_wf_iff.mpr ⟨hp, ha, (protocolWf_idle rfl).mpr ⟨hfs, hmb⟩, hrest⟩

/-! ### From the commands to the step -/

/-- What holds at every step: a property of the state that the port and the error registers do not enter, and that every
accepted command keeps. -/
theorem step_keeps {P Q : State → Prop} (hidle : ∀ s, P s → Q s)
    (hrefuse : ∀ s rest c cw, P s → Q (refuse c cw { s with port := rest }))
    (hdone : ∀ i s rest, P s → causeOf i { s with port := rest } = none → Q (doneOf i { s with port := rest }))
    {s t : State} (hs : P s) (h : step s = .next t) : Q t := by
  obtain ⟨-, rfl⟩ | ⟨b, rest, i, -, -, hexec⟩ | ⟨b, rest, -, -, -, rfl⟩ := step_cases h
  · exact hidle _ hs
  · obtain ⟨c, -, rfl⟩ | ⟨hnone, rfl⟩ := exec_cases hexec
    · exact hrefuse s rest c _ hs
    · exact hdone i s rest hs hnone
  · exact hrefuse s rest _ _ hs

/-- Settles O34: idling and refusing change nothing the invariant speaks of, accepted commands by `doneOf_wf`. -/
theorem stepKeepsStateWf : Obligations.StepKeepsStateWf := by
  unfold Obligations.StepKeepsStateWf
  intro s t hs h
  exact step_keeps (P := fun s => s.wf = true) (Q := fun s => s.wf = true) (fun _ hs => hs) (fun _ _ _ _ hs => hs)
    (fun _ s rest hs hnone => doneOf_wf (s := { s with port := rest }) hs hnone) hs h

end Sys2Proof.Proofs
end

section
/-! PROOFS. Rounding is monotone: of two exact results the smaller is not rounded above the greater, whatever the
operands they come from. From this the interpolation step of R122 stays between its two values, and with it the
smoothed build-up (10_state.md R42 (c)) in [0, 1]. -/

-- One theorem at a time: a waiting task holds a thread.
set_option Elab.async false

namespace Sys2Proof.Proofs

open Machine Witness Laws

/-! ### Rounding of magnitudes -/

/-- The smaller of two fractions is not rounded above the greater. -/
theorem roundMag_mono {n d n' d' : Nat} (hd : 0 < d) (hd' : 0 < d') (h : n * d' ≤ n' * d) :
    F32.roundMag n d ≤ F32.roundMag n' d' := by
  obtain ⟨lo, hlo, hhi, heq⟩ := roundMag_spec n hd
  obtain ⟨lo', hlo', hhi', heq'⟩ := roundMag_spec n' hd'
  have hcross : d * scaledOfMag lo * d' < d' * scaledOfMag (lo' + 1) * d :=
    (Nat.mul_le_mul_right d' hlo).trans_lt (h.trans_lt (Nat.mul_lt_mul_of_pos_right hhi' hd))
  have hle : lo ≤ lo' := by
    have hscaled : d * d' * scaledOfMag lo < d * d' * scaledOfMag (lo' + 1) := by
      calc d * d' * scaledOfMag lo = d * scaledOfMag lo * d' := by ring
        _ < d' * scaledOfMag (lo' + 1) * d := hcross
        _ = d * d' * scaledOfMag (lo' + 1) := by ring
    exact Nat.lt_succ_iff.mp (scaledOfMag_strictMono.lt_iff_lt.mp (Nat.lt_of_mul_lt_mul_left hscaled))
  rw [heq, heq']
  refine min_le_min_right _ ?_
  rcases hle.lt_or_eq with hlt | rfl
  · split <;> split <;> omega
  · generalize scaledOfMag lo + scaledOfMag (lo + 1) = mid
    have hmid : d * mid ≤ 2 * n → d' * mid ≤ 2 * n' := fun hm => by
      refine Nat.le_of_mul_le_mul_right ?_ hd
      calc d' * mid * d = d * mid * d' := by ring
        _ ≤ 2 * n * d' := Nat.mul_le_mul_right d' hm
        _ ≤ 2 * n' * d := by linarith
    have hmid' : d * mid < 2 * n → d' * mid < 2 * n' := fun hm => by
      refine Nat.lt_of_mul_lt_mul_right (a := d) ?_
      calc d' * mid * d = d * mid * d' := by ring
        _ < 2 * n * d' := Nat.mul_lt_mul_of_pos_right hm hd'
        _ ≤ 2 * n' * d := by linarith
    split
    case isFalse => split <;> omega
    case isTrue hup =>
      rw [if_pos]
      obtain hup | ⟨htie, hodd⟩ := hup
      · exact Or.inl (hmid' hup)
      · rcases (hmid htie.le).lt_or_eq with hlt | heqm
        · exact Or.inl hlt
        · exact Or.inr ⟨heqm, hodd⟩

/-! ### The key of a result -/

/-- The key of the rounding of `z / d`: the rounded magnitude with the sign of `z`. -/
theorem key_signedRound_eq (z : Int) (d : Nat) :
    F32.key (signedRound z d) =
      if z < 0 then -(F32.roundMag z.natAbs d : Int) else (F32.roundMag z.natAbs d : Int) := by
  obtain ⟨hz, h⟩ | ⟨hz, h⟩ := key_signedRound z d
  · rw [h, if_neg (not_lt.mpr hz)]
  · rw [h, if_pos hz]

/-- Signed rounding is monotone. -/
theorem key_signedRound_mono {z z' : Int} {d d' : Nat} (hd : 0 < d) (hd' : 0 < d') (h : z * d' ≤ z' * d) :
    F32.key (signedRound z d) ≤ F32.key (signedRound z' d') := by
  rw [key_signedRound_eq, key_signedRound_eq]
  split <;> split
  case isTrue.isTrue hz hz' =>
    have hmag : z'.natAbs * d ≤ z.natAbs * d' := by zify; rw [abs_of_neg hz, abs_of_neg hz']; linarith
    have := roundMag_mono hd' hd hmag
    omega
  case isTrue.isFalse => omega
  case isFalse.isTrue hz hz' =>
    have h1 : 0 ≤ z * d' := mul_nonneg (not_lt.mp hz) (by positivity)
    have h2 : z' * d < 0 := mul_neg_of_neg_of_pos hz' (by exact_mod_cast hd)
    omega
  case isFalse.isFalse hz hz' =>
    have hmag : z.natAbs * d' ≤ z'.natAbs * d := by
      zify
      rw [abs_of_nonneg (not_lt.mp hz), abs_of_nonneg (not_lt.mp hz')]
      exact h
    have := roundMag_mono hd hd' hmag
    omega

theorem key_withSign_zero (s : Bool) : F32.key (F32.withSign s 0) = 0 := by cases s <;> decide

theorem key_signedRound_zero (d : Nat) : F32.key (signedRound 0 d) = 0 := by
  rw [key_signedRound_eq, if_neg (lt_irrefl 0), Int.natAbs_zero, roundMag_zero]
  rfl

section
variable {a b : F32} (ha : F32.isFinite a = true) (hb : F32.isFinite b = true)
include ha hb

theorem key_fadd : F32.key (fadd a b) = F32.key (signedRound (F32.scaledInt a + F32.scaledInt b) 1) := by
  rw [fadd_finite ha hb]
  split
  case isTrue h => rw [h, key_withSign_zero, key_signedRound_zero]
  case isFalse => rfl

theorem key_fsub : F32.key (fsub a b) = F32.key (signedRound (F32.scaledInt a - F32.scaledInt b) 1) := by
  rw [fsub_finite ha hb]
  split
  case isTrue h => rw [h, key_withSign_zero, key_signedRound_zero]
  case isFalse => rfl

theorem key_fmul : F32.key (fmul a b) = F32.key (signedRound (F32.scaledInt a * F32.scaledInt b) (2 ^ 149)) := by
  by_cases hz : F32.isZero a = true ∨ F32.isZero b = true
  · have h0 : F32.scaledInt a * F32.scaledInt b = 0 := by
      rcases hz with hz | hz <;> rw [(scaledInt_eq_zero_iff _).mpr hz] <;> simp
    rw [fmul_zero_of ha hb hz, h0, key_withSign_zero, key_signedRound_zero]
  · rw [not_or, Bool.not_eq_true, Bool.not_eq_true] at hz
    rw [fmul_finite ha hb hz.1 hz.2]

theorem key_fdiv (hpos : 0 < F32.scaledInt b) :
    F32.key (fdiv a b) = F32.key (signedRound (F32.scaledInt a * 2 ^ 149) (F32.scaled b)) := by
  rw [fdiv_finite ha hb hpos]
  split
  case isTrue h => rw [h, zero_mul, key_withSign_zero, key_signedRound_zero]
  case isFalse => rfl

theorem notNaN_fmul : F32.isNaN (fmul a b) = false := by
  by_cases hz : F32.isZero a = true ∨ F32.isZero b = true
  · rw [fmul_zero_of ha hb hz]
    exact notNaN_withSign (Nat.zero_le _)
  · rw [not_or, Bool.not_eq_true, Bool.not_eq_true] at hz
    rw [fmul_finite ha hb hz.1 hz.2]
    exact notNaN_signedRound _ _

theorem notNaN_fdiv (hpos : 0 < F32.scaledInt b) : F32.isNaN (fdiv a b) = false := by
  rw [fdiv_finite ha hb hpos]
  split
  · exact notNaN_withSign (Nat.zero_le _)
  · exact notNaN_signedRound _ _

end

/-! ### Monotone operations -/

section
variable {a b a' b' : F32} (ha : F32.isFinite a = true) (hb : F32.isFinite b = true) (ha' : F32.isFinite a' = true)
  (hb' : F32.isFinite b' = true)
include ha hb ha' hb'

theorem fadd_mono (h : F32.scaledInt a + F32.scaledInt b ≤ F32.scaledInt a' + F32.scaledInt b') :
    fle (fadd a b) (fadd a' b') = true := by
  refine le_of_key_le (notNaN_fadd ha hb) (notNaN_fadd ha' hb') ?_
  rw [key_fadd ha hb, key_fadd ha' hb']
  exact key_signedRound_mono Nat.one_pos Nat.one_pos (by simpa using h)

theorem fmul_mono (h : F32.scaledInt a * F32.scaledInt b ≤ F32.scaledInt a' * F32.scaledInt b') :
    fle (fmul a b) (fmul a' b') = true := by
  refine le_of_key_le (notNaN_fmul ha hb) (notNaN_fmul ha' hb') ?_
  rw [key_fmul ha hb, key_fmul ha' hb']
  exact key_signedRound_mono (by positivity) (by positivity) (mul_le_mul_of_nonneg_right h (by positivity))

theorem fdiv_mono (hpos : 0 < F32.scaledInt b) (hpos' : 0 < F32.scaledInt b')
    (h : F32.scaledInt a * F32.scaledInt b' ≤ F32.scaledInt a' * F32.scaledInt b) :
    fle (fdiv a b) (fdiv a' b') = true := by
  refine le_of_key_le (notNaN_fdiv ha hb hpos) (notNaN_fdiv ha' hb' hpos') ?_
  have hs : (F32.scaled b : Int) = F32.scaledInt b := by rw [← natAbs_scaledInt]; omega
  have hs' : (F32.scaled b' : Int) = F32.scaledInt b' := by rw [← natAbs_scaledInt]; omega
  rw [key_fdiv ha hb hpos, key_fdiv ha' hb' hpos']
  refine key_signedRound_mono (by omega) (by omega) ?_
  rw [hs, hs']
  nlinarith

end

/-! ### The interpolation step -/

theorem scaledOfMag_succ_le_two_mul {m : Nat} (hm : 0 < m) : scaledOfMag (m + 1) ≤ 2 * scaledOfMag m := by
  unfold scaledOfMag
  by_cases hc : (m + 1) % 2 ^ 23 = 0
  · have hd : (m + 1) / 2 ^ 23 = m / 2 ^ 23 + 1 := by omega
    have hr : m % 2 ^ 23 = 2 ^ 23 - 1 := by omega
    rw [hd, hc, hr, if_neg (Nat.succ_ne_zero _), Nat.add_sub_cancel, Nat.shiftLeft_eq]
    generalize m / 2 ^ 23 = e
    cases e with
    | zero => decide
    | succ e =>
      rw [if_neg (Nat.succ_ne_zero _), Nat.add_sub_cancel, Nat.shiftLeft_eq, pow_succ]
      have : 0 < 2 ^ e := Nat.two_pow_pos e
      omega
  · have hd : (m + 1) / 2 ^ 23 = m / 2 ^ 23 := by omega
    have hr : (m + 1) % 2 ^ 23 = m % 2 ^ 23 + 1 := by omega
    rw [hd, hr]
    split
    · omega
    · simp only [Nat.shiftLeft_eq]
      rw [← mul_assoc]
      exact Nat.mul_le_mul_right _ (by omega)

/-- A whole number of units is at least half its rounding, and a representable magnitude lies between them. -/
theorem exists_mag_between_half_round (n : Nat) :
    ∃ m, m ≤ F32.roundMag n 1 ∧ scaledOfMag m ≤ n ∧ scaledOfMag (F32.roundMag n 1) ≤ 2 * scaledOfMag m := by
  obtain ⟨lo, hlo, hhi, heq⟩ := roundMag_spec n Nat.one_pos
  rw [Nat.one_mul] at hlo hhi
  rcases Nat.eq_zero_or_pos lo with rfl | hpos
  · have hn : n = 0 := by
      have : scaledOfMag (0 + 1) = 1 := rfl
      omega
    subst hn
    rw [roundMag_zero]
    exact ⟨0, le_rfl, le_rfl, by decide⟩
  · have hround : F32.roundMag n 1 ≤ lo + 1 := by
      rw [heq]
      refine (Nat.min_le_left _ _).trans ?_
      split <;> omega
    refine ⟨min lo (F32.roundMag n 1), Nat.min_le_right _ _, ?_, ?_⟩
    · exact (scaledOfMag_strictMono.monotone (Nat.min_le_left _ _)).trans hlo
    · rcases Nat.le_total lo (F32.roundMag n 1) with h | h
      · rw [Nat.min_eq_left h]
        exact (scaledOfMag_strictMono.monotone hround).trans (scaledOfMag_succ_le_two_mul hpos)
      · rw [Nat.min_eq_right h]
        omega

/-- A fraction of at most one half of the rounding of a difference does not pass the difference. -/
theorem exists_bound_fsub {x y : F32} (hx : F32.isFinite x = true) (hy : F32.isFinite y = true)
    (hd : F32.isFinite (fsub x y) = true) :
    ∃ c : F32, F32.isFinite c = true ∧ 0 ≤ F32.scaledInt c ∧ F32.scaledInt c ≤ |F32.scaledInt x - F32.scaledInt y| ∧
      |F32.scaledInt (fsub x y)| ≤ 2 * F32.scaledInt c := by
  obtain ⟨m, hm, hlow, hhigh⟩ := exists_mag_between_half_round (F32.scaledInt x - F32.scaledInt y).natAbs
  have hmag : F32.mag (fsub x y) = F32.roundMag (F32.scaledInt x - F32.scaledInt y).natAbs 1 := by
    have hlt := (roundMag_le_infMag (F32.scaledInt x - F32.scaledInt y).natAbs 1).trans_lt (by decide : _ < 2 ^ 31)
    rw [fsub_finite hx hy]
    split
    case isTrue h => rw [h, Int.natAbs_zero, roundMag_zero, mag_withSign (by decide)]
    case isFalse => exact mag_withSign hlt
  have hfin : m < F32.infMag := by
    rw [finite_iff, hmag] at hd
    exact hm.trans_lt hd
  have hval : F32.scaledInt (F32.withSign false m) = scaledOfMag m :=
    (scaledInt_withSign (hfin.trans (by decide))).trans (if_neg Bool.false_ne_true)
  have habs : |F32.scaledInt (fsub x y)| = scaledOfMag (F32.mag (fsub x y)) := by
    rw [Int.abs_eq_natAbs, natAbs_scaledInt, scaled_eq]
  refine ⟨F32.withSign false m, finite_withSign hfin, by omega, ?_, ?_⟩
  · rw [hval, Int.abs_eq_natAbs]
    exact_mod_cast hlow
  · rw [habs, hval, hmag]
    exact_mod_cast hhigh

/-- One half. -/
def half : F32 := 0x3F000000#32

theorem scaledInt_half : F32.scaledInt half = 2 ^ 148 := by decide +kernel

/-- The step from `y` to `x` by a factor of at most one half ends between them (R122). -/
theorem lerp1_between {y x k : F32} (hy : F32.isFinite y = true) (hx : F32.isFinite x = true)
    (hy0 : 0 ≤ F32.scaledInt y) (hx0 : 0 ≤ F32.scaledInt x) (hk : within zero half k = true) :
    (F32.scaledInt y ≤ F32.scaledInt x → fle y (lerp1 y x k) = true ∧ fle (lerp1 y x k) x = true) ∧
      (F32.scaledInt x ≤ F32.scaledInt y → fle x (lerp1 y x k) = true ∧ fle (lerp1 y x k) y = true) := by
  have hkf : F32.isFinite k = true := finite_of_within rfl rfl hk
  obtain ⟨hk0, hk1⟩ := (within_zero_iff rfl hkf).mp hk
  rw [scaledInt_half] at hk1
  have hdf : F32.isFinite (fsub x y) = true := by
    refine finite_of_between ((finite_negate y).trans hy) hx (le_fsub hx hy ((finite_negate y).trans hy) ?_)
      (fsub_le hx hy hx ?_)
    · rw [scaledInt_negate]; omega
    · omega
  obtain ⟨c, hcf, hc0, hcd, hdc⟩ := exists_bound_fsub hx hy hdf
  have hnc : F32.isFinite (F32.negate c) = true := (finite_negate c).trans hcf
  rw [abs_le] at hdc
  unfold lerp1
  constructor
  · intro hyx
    rw [abs_of_nonneg (by omega)] at hcd
    have hd0 : 0 ≤ F32.scaledInt (fsub x y) :=
      scaledInt_zero ▸ (le_iff_scaledInt rfl hdf).mp (le_fsub hx hy rfl (by rw [scaledInt_zero]; omega))
    have hlo : fle zero (fmul k (fsub x y)) = true :=
      le_fmul hkf hdf rfl (by rw [scaledInt_zero, mul_zero]; positivity)
    have hhi : fle (fmul k (fsub x y)) c = true := fmul_le hkf hdf hcf (by nlinarith)
    have hpf := finite_of_between rfl hcf hlo hhi
    rw [le_iff_scaledInt rfl hpf, scaledInt_zero] at hlo
    rw [le_iff_scaledInt hpf hcf] at hhi
    exact ⟨le_fadd hy hpf hy (by omega), fadd_le hy hpf hx (by omega)⟩
  · intro hxy
    rw [abs_of_nonpos (by omega)] at hcd
    have hd0 : F32.scaledInt (fsub x y) ≤ 0 :=
      scaledInt_zero ▸ (le_iff_scaledInt hdf rfl).mp (fsub_le hx hy rfl (by rw [scaledInt_zero]; omega))
    have hhi : fle (fmul k (fsub x y)) zero = true :=
      fmul_le hkf hdf rfl (by rw [scaledInt_zero, mul_zero]; exact mul_nonpos_of_nonneg_of_nonpos hk0 hd0)
    have hlo : fle (F32.negate c) (fmul k (fsub x y)) = true :=
      le_fmul hkf hdf hnc (by rw [scaledInt_negate]; nlinarith)
    have hpf := finite_of_between hnc rfl hlo hhi
    rw [le_iff_scaledInt hpf rfl, scaledInt_zero] at hhi
    rw [le_iff_scaledInt hnc hpf, scaledInt_negate] at hlo
    exact ⟨le_fadd hy hpf hx (by omega), fadd_le hy hpf hy (by omega)⟩

/-- A range above 0.0 that holds both values holds the step between them. -/
theorem lerp1_within {lo hi y x k : F32} (hlo : F32.isFinite lo = true) (hhi : F32.isFinite hi = true)
    (hlo0 : 0 ≤ F32.scaledInt lo) (hy : within lo hi y = true) (hx : within lo hi x = true)
    (hk : within zero half k = true) : within lo hi (lerp1 y x k) = true := by
  have hyf := finite_of_within hlo hhi hy
  have hxf := finite_of_within hlo hhi hx
  obtain ⟨hylo, hyhi⟩ := within_iff.mp hy
  obtain ⟨hxlo, hxhi⟩ := within_iff.mp hx
  have hy0 := hlo0.trans ((le_iff_scaledInt hlo hyf).mp hylo)
  have hx0 := hlo0.trans ((le_iff_scaledInt hlo hxf).mp hxlo)
  obtain ⟨hup, hdown⟩ := lerp1_between hyf hxf hy0 hx0 hk
  rcases le_total (F32.scaledInt y) (F32.scaledInt x) with h | h
  · obtain ⟨h1, h2⟩ := hup h
    exact within_iff.mpr ⟨le_trans hylo h1, le_trans h2 hxhi⟩
  · obtain ⟨h1, h2⟩ := hdown h
    exact within_iff.mpr ⟨le_trans hxlo h1, le_trans h2 hyhi⟩

theorem lerp1_unitInterval {y x k : F32} (hy : unitInterval y = true) (hx : unitInterval x = true)
    (hk : within zero half k = true) : unitInterval (lerp1 y x k) = true :=
  lerp1_within rfl rfl scaledInt_zero.ge hy hx hk

/-! ### The smoothed build-up -/

theorem scaledInt_hundred_pos : 0 < F32.scaledInt hundred := by decide +kernel

theorem rawBuildUp_unitInterval {a : Params} (hwf : a.wf = true) : unitInterval (rawBuildUp a) = true :=
  fdiv_unitInterval rfl scaledInt_hundred_pos (inRange_of_wf hwf .buildUp)

theorem smoothBuildUp_unitInterval {a : Params} {b : F32} (hwf : a.wf = true) (hb : unitInterval b = true) :
    unitInterval (smoothBuildUp a b) = true :=
  lerp1_unitInterval hb (rawBuildUp_unitInterval hwf) (by decide)

/-- The smoothed build-up after an accepted command: BEGIN steps or clears it, PREPARE and RESET clear it. -/
theorem doneOf_buS (i : Instr) (s : State) :
    (doneOf i s).buS = s.buS ∨ (doneOf i s).buS = zero ∨ (doneOf i s).buS = smoothBuildUp s.p s.buS := by
  cases i with
  | nop | endBlock => exact Or.inl rfl
  | prepare | reset => exact Or.inr (Or.inl rfl)
  | wrp idx v =>
    simp only [doneOf, wrpDone]
    cases ParamReg.ofIdx idx <;> exact Or.inl rfl
  | rdp idx =>
    simp only [doneOf, rdpDone]
    cases ParamReg.ofIdx idx <;> exact Or.inl rfl
  | rds idx =>
    simp only [doneOf, rdsDone]
    cases StatusReg.ofIdx idx <;> exact Or.inl rfl
  | beginBlock m nch =>
    right
    obtain ⟨-, h⟩ | ⟨-, h⟩ := blockSetup_cases Config.num (opened m nch s)
    · exact Or.inl (congrArg State.buS h)
    · exact Or.inr (congrArg State.buS h)
  | frame l r =>
    obtain ⟨_, _, _, _, heq⟩ := doneOf_frame_eq l r s
    rw [heq]
    exact Or.inl rfl

theorem doneOf_buS_unitInterval {i : Instr} {s : State} (hp : s.p.wf = true) (hb : unitInterval s.buS = true) :
    unitInterval (doneOf i s).buS = true := by
  obtain h | h | h := doneOf_buS i s <;> rw [h]
  · exact hb
  · decide
  · exact smoothBuildUp_unitInterval hp hb

/-- Settles O35: the smoother's step interpolates between two values in [0, 1]. -/
theorem stepKeepsBuildUpInUnit : Obligations.StepKeepsBuildUpInUnit := by
  unfold Obligations.StepKeepsBuildUpInUnit
  intro s t hp hb h
  exact step_keeps (P := fun s => s.p.wf = true ∧ unitInterval s.buS = true) (Q := fun s => unitInterval s.buS = true)
    (fun _ hs => hs.2) (fun _ _ _ _ hs => hs.2)
    (fun _ s rest hs _ => doneOf_buS_unitInterval (s := { s with port := rest }) hs.1 hs.2) ⟨hp, hb⟩ h

end Sys2Proof.Proofs
end

section
/-! PROOFS. Interval arithmetic on binary32: since rounding is monotone, the operations on the ends of a range bound the
operations on its values, so that a bound is checked by evaluating the model on constants. With it the one-pole
coefficients (41_numerics.md R117) and the riser's level and phases (46_riser.md R227 to R230). -/

-- One theorem at a time: a waiting task holds a thread.
set_option Elab.async false

namespace Sys2Proof.Proofs

open Machine Witness Laws

/-! ### Ranges -/

/-- `x` is in the range from `lo` to `hi`, both finite. -/
def Between (lo hi x : F32) : Prop :=
  F32.isFinite lo = true ∧ F32.isFinite hi = true ∧ within lo hi x = true

/-- The finite range `[lo, hi]` holds everything from `a` to `b`: the check on constants. -/
def encloses (lo hi a b : F32) : Bool := F32.isFinite lo && F32.isFinite hi && fle lo a && fle b hi

section
variable {lo hi a b c d x y : F32}

theorem Between.finite (h : Between a b x) : F32.isFinite x = true :=
  finite_of_within h.1 h.2.1 h.2.2

theorem Between.le (h : Between a b x) : fle a x = true ∧ fle x b = true := within_iff.mp h.2.2

theorem Between.scaledInt (h : Between a b x) :
    F32.scaledInt a ≤ F32.scaledInt x ∧ F32.scaledInt x ≤ F32.scaledInt b :=
  ⟨(le_iff_scaledInt h.1 h.finite).mp h.le.1, (le_iff_scaledInt h.finite h.2.1).mp h.le.2⟩

theorem Between.point (h : F32.isFinite c = true) : Between c c c := by
  have hle : fle c c = true := (le_iff_scaledInt h h).mpr le_rfl
  exact ⟨h, h, within_iff.mpr ⟨hle, hle⟩⟩

theorem between_of_encloses (he : encloses lo hi a b = true) (h1 : fle a x = true) (h2 : fle x b = true) :
    Between lo hi x := by
  simp only [encloses, Bool.and_eq_true] at he
  obtain ⟨⟨⟨hlo, hhi⟩, hla⟩, hbh⟩ := he
  exact ⟨hlo, hhi, within_iff.mpr ⟨le_trans hla h1, le_trans h2 hbh⟩⟩

theorem Between.mono (h : Between a b x) (he : encloses lo hi a b = true) : Between lo hi x :=
  between_of_encloses he h.le.1 h.le.2

theorem between_iff (hlo : F32.isFinite lo = true) (hhi : F32.isFinite hi = true) :
    Between lo hi x ↔ within lo hi x = true := ⟨fun h => h.2.2, fun h => ⟨hlo, hhi, h⟩⟩

theorem between_of_unitInterval (h : unitInterval x = true) : Between zero one x := ⟨rfl, rfl, h⟩

theorem Between.unitInterval (h : Between zero one x) : unitInterval x = true := h.2.2

theorem between_of_fsOk (h : fsOk x = true) : Between fsMin fsMax x := by
  simp only [fsOk, Bool.and_eq_true, Bool.not_eq_true'] at h
  obtain ⟨⟨hf, hlo⟩, hhi⟩ := h
  have hn := notNaN_of_finite hf
  exact ⟨rfl, rfl, within_iff.mpr ⟨le_of_not_lt hn rfl hlo, le_of_not_lt rfl hn hhi⟩⟩

/-! ### The operations on ranges -/

theorem fsub_mono {x' y' : F32} (hx : F32.isFinite x = true) (hy : F32.isFinite y = true) (hx' : F32.isFinite x' = true)
    (hy' : F32.isFinite y' = true) (h : F32.scaledInt x - F32.scaledInt y ≤ F32.scaledInt x' - F32.scaledInt y') :
    fle (fsub x y) (fsub x' y') = true := by
  refine le_of_key_le (notNaN_fsub hx hy) (notNaN_fsub hx' hy') ?_
  rw [key_fsub hx hy, key_fsub hx' hy']
  exact key_signedRound_mono Nat.one_pos Nat.one_pos (by simpa using h)

theorem Between.fadd (hx : Between a b x) (hy : Between c d y)
    (he : encloses lo hi (fadd a c) (fadd b d) = true) : Between lo hi (fadd x y) := by
  obtain ⟨hax, hxb⟩ := hx.scaledInt
  obtain ⟨hcy, hyd⟩ := hy.scaledInt
  exact between_of_encloses he (fadd_mono hx.1 hy.1 hx.finite hy.finite (by omega))
    (fadd_mono hx.finite hy.finite hx.2.1 hy.2.1 (by omega))

theorem Between.fsub (hx : Between a b x) (hy : Between c d y)
    (he : encloses lo hi (fsub a d) (fsub b c) = true) : Between lo hi (fsub x y) := by
  obtain ⟨hax, hxb⟩ := hx.scaledInt
  obtain ⟨hcy, hyd⟩ := hy.scaledInt
  exact between_of_encloses he (fsub_mono hx.1 hy.2.1 hx.finite hy.finite (by omega))
    (fsub_mono hx.finite hy.finite hx.2.1 hy.1 (by omega))

/-- The product of ranges above 0.0. -/
theorem Between.fmul (hx : Between a b x) (hy : Between c d y) (hsign : 0 ≤ F32.scaledInt a ∧ 0 ≤ F32.scaledInt c)
    (he : encloses lo hi (fmul a c) (fmul b d) = true) : Between lo hi (fmul x y) := by
  obtain ⟨hax, hxb⟩ := hx.scaledInt
  obtain ⟨hcy, hyd⟩ := hy.scaledInt
  obtain ⟨ha0, hc0⟩ := hsign
  exact between_of_encloses he
    (fmul_mono hx.1 hy.1 hx.finite hy.finite (mul_le_mul hax hcy hc0 (ha0.trans hax)))
    (fmul_mono hx.finite hy.finite hx.2.1 hy.2.1
      (mul_le_mul hxb hyd (hc0.trans hcy) (ha0.trans (hax.trans hxb))))

/-- Products of smaller non-negative factors are smaller. -/
theorem fmul_le_fmul {x' y' e f g h : F32} (hx : Between zero e x) (hy : Between zero f y) (hx' : Between zero g x')
    (hy' : Between zero h y') (hxx : fle x x' = true) (hyy : fle y y' = true) :
    fle (Machine.fmul x y) (Machine.fmul x' y') = true := by
  rw [le_iff_scaledInt hx.finite hx'.finite] at hxx
  rw [le_iff_scaledInt hy.finite hy'.finite] at hyy
  exact fmul_mono hx.finite hy.finite hx'.finite hy'.finite
    (mul_le_mul hxx hyy (scaledInt_zero.ge.trans hy.scaledInt.1) (scaledInt_zero.ge.trans hx'.scaledInt.1))

/-- A value between 0.0 and `b` is between `-b` and `b`. -/
theorem Between.symmetric (h : Between zero b x) : Between (F32.negate b) b x := by
  obtain ⟨h0, hb⟩ := h.scaledInt
  have hnf : F32.isFinite (F32.negate b) = true := (finite_negate b).trans h.2.1
  refine ⟨hnf, h.2.1, within_iff.mpr ⟨(le_iff_scaledInt hnf h.finite).mpr ?_, h.le.2⟩⟩
  rw [scaledInt_zero] at h0
  rw [scaledInt_negate]
  omega

/-- A product with a factor in [-1, 1] is at most the other factor's bound, with either sign. -/
theorem Between.fmul_signed (hx : Between (F32.negate b) b x) (hy : Between minusOne one y) :
    Between (F32.negate b) b (Machine.fmul x y) := by
  obtain ⟨hxlo, hxb⟩ := hx.scaledInt
  obtain ⟨hylo, hyhi⟩ := hy.scaledInt
  have hm : F32.scaledInt minusOne = -2 ^ 149 := by decide +kernel
  rw [scaledInt_negate] at hxlo
  rw [hm] at hylo
  rw [scaledInt_one] at hyhi
  have hprod : |F32.scaledInt x * F32.scaledInt y| ≤ F32.scaledInt b * 2 ^ 149 := by
    rw [abs_mul]
    exact mul_le_mul (abs_le.mpr ⟨hxlo, hxb⟩) (abs_le.mpr ⟨hylo, hyhi⟩) (abs_nonneg _) (by omega)
  obtain ⟨hlow, hhigh⟩ := abs_le.mp hprod
  refine ⟨hx.1, hx.2.1, within_iff.mpr ⟨le_fmul hx.finite hy.finite hx.1 ?_, fmul_le hx.finite hy.finite hx.2.1 ?_⟩⟩
  · rw [scaledInt_negate]
    linarith
  · linarith

theorem fmul_comm (hx : F32.isFinite x = true) (hy : F32.isFinite y = true) : Machine.fmul x y = Machine.fmul y x := by
  by_cases hz : F32.isZero x = true ∨ F32.isZero y = true
  · rw [fmul_zero_of hx hy hz, fmul_zero_of hy hx hz.symm, bne_comm]
  · rw [not_or, Bool.not_eq_true, Bool.not_eq_true] at hz
    rw [fmul_finite hx hy hz.1 hz.2, fmul_finite hy hx hz.2 hz.1, mul_comm]

/-- A quotient of ranges above 0.0. -/
theorem Between.fdiv (hx : Between a b x) (hy : Between c d y) (hsign : 0 ≤ F32.scaledInt a ∧ 0 < F32.scaledInt c)
    (he : encloses lo hi (fdiv a d) (fdiv b c) = true) : Between lo hi (fdiv x y) := by
  obtain ⟨hax, hxb⟩ := hx.scaledInt
  obtain ⟨hcy, hyd⟩ := hy.scaledInt
  obtain ⟨ha0, hc0⟩ := hsign
  have hy0 := hc0.trans_le hcy
  exact between_of_encloses he
    (fdiv_mono hx.1 hy.2.1 hx.finite hy.finite (hy0.trans_le hyd) hy0 (mul_le_mul hax hyd hy0.le (ha0.trans hax)))
    (fdiv_mono hx.finite hy.finite hx.2.1 hy.1 hy0 hc0
      (mul_le_mul hxb hcy hc0.le (ha0.trans (hax.trans hxb))))

/-- A quotient of a negative value and a range above 0.0. -/
theorem Between.fdiv_of_nonpos (hx : F32.isFinite x = true) (hy : Between c d y)
    (hsign : F32.scaledInt x ≤ 0 ∧ 0 < F32.scaledInt c)
        (he : encloses lo hi (Machine.fdiv x c) (Machine.fdiv x d) = true) :
    Between lo hi (Machine.fdiv x y) := by
  obtain ⟨hcy, hyd⟩ := hy.scaledInt
  obtain ⟨hx0, hc0⟩ := hsign
  have hy0 := hc0.trans_le hcy
  exact between_of_encloses he
    (fdiv_mono hx hy.1 hx hy.finite hc0 hy0 (mul_le_mul_of_nonpos_left hcy hx0))
    (fdiv_mono hx hy.finite hx hy.2.1 hy0 (hy0.trans_le hyd) (mul_le_mul_of_nonpos_left hyd hx0))

end

/-! ### The functions of `Num` on ranges -/

theorem value_le_real {x y : F32} (h : F32.scaledInt x ≤ F32.scaledInt y) :
    ((F32.value x : ℚ) : ℝ) ≤ ((F32.value y : ℚ) : ℝ) := by
  exact_mod_cast (value_le_iff_scaledInt x y).mpr h

/-- The exact value as a real number. -/
theorem value_real (x : F32) : ((F32.value x : ℚ) : ℝ) = (F32.scaledInt x : ℝ) / 2 ^ 149 := by
  rw [F32.value]
  push_cast
  rfl

section
variable {N : Numerics} (hN : N.Admissible)
include hN

/-- The exponential lies between `1 + q` and `1 / (1 - q)`. -/
theorem exp_between {lo hi c d q : F32} (hq : Between lo hi q) (hc : F32.isFinite c = true) (hd : F32.isFinite d = true)
    (hlow : F32.scaledInt c ≤ 2 ^ 149 + F32.scaledInt lo) (hhi : F32.scaledInt hi < 2 ^ 149)
    (hhigh : 2 ^ 149 * 2 ^ 149 ≤ (2 ^ 149 - F32.scaledInt hi) * F32.scaledInt d) : Between c d (N.exp q) := by
  obtain ⟨hlq, hqh⟩ := hq.scaledInt
  have hfaithful := hN.exp_faithful q hq.finite
  refine ⟨hc, hd, within_iff.mpr ⟨le_faithful hfaithful hc ?_, faithful_le hfaithful hd ?_⟩⟩
  · refine le_trans ?_ (Real.add_one_le_exp _)
    rw [value_real, value_real, div_add_one (by positivity), div_le_div_iff_of_pos_right (by positivity)]
    exact_mod_cast hlow.trans (by omega)
  · have hdpos : (0 : ℝ) < (2 ^ 149 - (F32.scaledInt hi : ℝ)) := by
      rw [sub_pos]
      exact_mod_cast hhi
    have hle : Real.exp ((F32.value q : ℚ) : ℝ) ≤ Real.exp ((F32.value hi : ℚ) : ℝ) :=
      Real.exp_le_exp.mpr (value_le_real hqh)
    refine hle.trans ?_
    rw [value_real, value_real]
    have hinv : Real.exp ((F32.scaledInt hi : ℝ) / 2 ^ 149) * Real.exp (-((F32.scaledInt hi : ℝ) / 2 ^ 149)) = 1 := by
      rw [← Real.exp_add, add_neg_cancel, Real.exp_zero]
    have hone := Real.add_one_le_exp (-((F32.scaledInt hi : ℝ) / 2 ^ 149))
    have hcast : (2 : ℝ) ^ 149 * 2 ^ 149 ≤ (2 ^ 149 - (F32.scaledInt hi : ℝ)) * (F32.scaledInt d : ℝ) := by
      exact_mod_cast hhigh
    have hfrac : -((F32.scaledInt hi : ℝ) / 2 ^ 149) + 1 = (2 ^ 149 - (F32.scaledInt hi : ℝ)) / 2 ^ 149 := by
      field_simp
      ring
    rw [hfrac] at hone
    have hupper : Real.exp ((F32.scaledInt hi : ℝ) / 2 ^ 149) * ((2 ^ 149 - (F32.scaledInt hi : ℝ)) / 2 ^ 149) ≤ 1 :=
      (mul_le_mul_of_nonneg_left hone (Real.exp_pos _).le).trans_eq hinv
    rw [le_div_iff₀ (by positivity)]
    rw [← mul_div_assoc, div_le_one (by positivity)] at hupper
    refine le_of_mul_le_mul_left ?_ hdpos
    calc _ = Real.exp ((F32.scaledInt hi : ℝ) / 2 ^ 149) * (2 ^ 149 - (F32.scaledInt hi : ℝ)) * 2 ^ 149 := by ring
      _ ≤ 2 ^ 149 * 2 ^ 149 := mul_le_mul_of_nonneg_right hupper (by positivity)
      _ ≤ _ := hcast

/-- The sine of a finite argument lies in [-1, 1]. -/
theorem sin_between {x : F32} (hx : F32.isFinite x = true) : Between minusOne one (N.sin x) := by
  have hfaithful := hN.sin_faithful x hx
  have hm : F32.scaledInt minusOne = -2 ^ 149 := by decide +kernel
  refine ⟨rfl, rfl, within_iff.mpr ⟨le_faithful hfaithful rfl ?_, faithful_le hfaithful rfl ?_⟩⟩
  · rw [value_real minusOne, hm, Int.cast_neg, Int.cast_pow, Int.cast_ofNat, neg_div, div_self (by positivity)]
    exact Real.neg_one_le_sin _
  · rw [value_real one, scaledInt_one, Int.cast_pow, Int.cast_ofNat, div_self (by positivity)]
    exact Real.sin_le_one _

end

/-! ### One-pole coefficients -/

/-- The coefficient of a positive range of times and rates is the exponential of a bounded negative exponent. -/
theorem envCoef_exponent {t0 t1 r0 r1 t rate lo hi : F32} (ht : Between t0 t1 t) (hr : Between r0 r1 rate)
    (hpos : 0 ≤ F32.scaledInt t0 ∧ 0 ≤ F32.scaledInt r0) (hfirst : 0 < F32.scaledInt (fmul t0 r0))
    (hprod : encloses (fmul t0 r0) (fmul t1 r1) (fmul t0 r0) (fmul t1 r1) = true)
    (he : encloses lo hi (fdiv lnD (fmul t0 r0)) (fdiv lnD (fmul t1 r1)) = true) :
    Between lo hi (fdiv lnD (fmul t rate)) :=
  (ht.fmul hr hpos hprod).fdiv_of_nonpos rfl ⟨by decide +kernel, hfirst⟩ he

/-- The range of the exponents of all coefficients: -140 to -2^-18. -/
theorem smoother_exponent {t rate : F32} (ht : within tAtt 0x40A00000#32 t = true)
    (hrate : within (fdiv fsMin hopF) fsMax rate = true) :
    Between 0xC30C0000#32 0xB6800000#32 (fdiv lnD (fmul t rate)) :=
  envCoef_exponent (t0 := tAtt) (t1 := 0x40A00000#32) (r0 := 0x432C4400#32) (r1 := fsMax) ⟨rfl, rfl, ht⟩
    (Between.mono (a := fdiv fsMin hopF) ⟨by decide +kernel, rfl, hrate⟩ (by decide +kernel))
    (by decide +kernel) (by decide +kernel) (by decide +kernel) (by decide +kernel)

/-- Settles O51: the exponential of an exponent in [-140, -2^-18]. -/
theorem smootherCoefficientInUnit : Obligations.SmootherCoefficientInUnit := by
  unfold Obligations.SmootherCoefficientInUnit
  intro N t rate hN ht hrate
  have hq := smoother_exponent ht hrate
  have hbelow : Between 0xC30C0000#32 0x3F7FFFFF#32 (envCoef N t rate) :=
    exp_between hN hq rfl rfl (by decide +kernel) (by decide +kernel) (by decide +kernel)
  refine ⟨le_faithful (hN.exp_faithful _ hq.finite) rfl ?_, lt_of_le_of_lt hbelow.le.2 (by decide +kernel)⟩
  rw [value_zero, Rat.cast_zero]
  exact (Real.exp_pos _).le

/-- For the riser's times at an accepted sample rate the coefficient is at least one half. -/
theorem riserCoef_between {N : Numerics} (hN : N.Admissible) {t fs : F32} (hfs : fsOk fs = true)
    (ht : within tRsrAtt 0x40A00000#32 t = true) : Between half one (envCoef N t fs) :=
  have hq : Between 0xBD000000#32 zero (fdiv lnD (fmul t fs)) :=
    envCoef_exponent (t0 := tRsrAtt) (t1 := 0x40A00000#32) ⟨rfl, rfl, ht⟩ (between_of_fsOk hfs)
      (by decide +kernel) (by decide +kernel) (by decide +kernel) (by decide +kernel)
  exp_between hN hq rfl rfl (by decide +kernel) (by decide +kernel) (by decide +kernel)

theorem riserStep_between {N : Numerics} (hN : N.Admissible) {t fs : F32} (hfs : fsOk fs = true)
    (ht : within tRsrAtt 0x40A00000#32 t = true) : within zero half (fsub one (envCoef N t fs)) = true :=
  ((Between.point (c := one) rfl).fsub (lo := zero) (hi := half) (riserCoef_between hN hfs ht)
    (by decide +kernel)).2.2

/-! ### What a command does to the riser -/

/-- The riser after an accepted command: as before, reset, cleared, updated by BEGIN, or one frame further. -/
theorem rsr_after {i : Instr} {s : State} (hproto : protocolWf s = true) (h : causeOf i s = none) :
    (doneOf i s).rsr = s.rsr ∨ (doneOf i s).rsr = Rsr.atReset ∨ (doneOf i s).rsr = s.rsr.bypassClear ∨
      (fsOk s.fs = true ∧
        (doneOf i s).rsr = rsrUpdate Config.num s.fs s.p (smoothBuildUp s.p s.buS) s.rsr) ∨
      (fsOk s.fs = true ∧ ∃ t stereo x, (doneOf i s).rsr = (rsrTick Config.num s.fs t stereo s.rsr x).1) := by
  cases i with
  | nop | endBlock => exact Or.inl rfl
  | prepare | reset => exact Or.inr (Or.inl rfl)
  | wrp idx v =>
    simp only [doneOf, wrpDone]
    cases ParamReg.ofIdx idx <;> exact Or.inl rfl
  | rdp idx =>
    simp only [doneOf, rdpDone]
    cases ParamReg.ofIdx idx <;> exact Or.inl rfl
  | rds idx =>
    simp only [doneOf, rdsDone]
    cases StatusReg.ofIdx idx <;> exact Or.inl rfl
  | beginBlock m nch =>
    obtain ⟨hmode, -⟩ := of_beginCause_none h
    obtain ⟨-, hsetup⟩ | ⟨-, hsetup⟩ := blockSetup_cases Config.num (opened m nch s)
    · exact Or.inr (Or.inr (Or.inl (congrArg State.rsr hsetup)))
    · refine Or.inr (Or.inr (Or.inr (Or.inl ⟨?_, congrArg State.rsr hsetup⟩)))
      exact ((protocolWf_idle hmode).mp hproto).1
  | frame l r =>
    obtain ⟨-, -, hrsr, -⟩ | ⟨y, z, -, -, hrsr, -⟩ := doneOf_frame_units l r s
    · exact Or.inl hrsr
    · have hmode : s.mode = .inblk := (frameCause_eq_none_iff.mp h).1.1
      refine Or.inr (Or.inr (Or.inr (Or.inr ⟨?_, _, _, _, hrsr⟩)))
      exact ((protocolWf_inblk hmode).mp hproto).1

/-! ### The riser's level -/

theorem riserLevelOk_iff {r : Rsr} : riserLevelOk r = true ↔
    unitInterval r.level = true ∧ unitInterval r.target = true ∧
    within zero half r.katt = true ∧ within zero half r.krel = true := by
  simp only [riserLevelOk, Bool.and_eq_true, and_assoc, half]

theorem rsrLevel_unitInterval {r : Rsr} (h : riserLevelOk r = true) : unitInterval (rsrLevel r).level = true := by
  obtain ⟨hlevel, htarget, hatt, hrel⟩ := riserLevelOk_iff.mp h
  rw [rsrLevel_eq]
  refine lerp1_unitInterval hlevel htarget ?_
  split
  · exact hatt
  · exact hrel

theorem riserTarget_unitInterval {a : Params} {b : F32} (hwf : a.wf = true) (hb : unitInterval b = true) :
    unitInterval (riserTarget a b) = true :=
  fmul_unitInterval (fdiv_unitInterval rfl scaledInt_hundred_pos (inRange_of_wf hwf .riserAmount)) hb

/-- Settles O36: the level steps toward its target by a factor in [0, 1/2]; BEGIN writes a product of fractions as the
target and factors `1 - e` with `e` in [1/2, 1]. -/
theorem stepKeepsRiserLevel : Obligations.StepKeepsRiserLevel := by
  unfold Obligations.StepKeepsRiserLevel
  intro s t hwf hb hlevel h
  refine step_keeps (P := fun s => s.wf = true ∧ unitInterval s.buS = true ∧ riserLevelOk s.rsr = true)
    (Q := fun s => riserLevelOk s.rsr = true) (fun _ hs => hs.2.2) (fun _ _ _ _ hs => hs.2.2) ?_ ⟨hwf, hb, hlevel⟩ h
  rintro i s rest ⟨hwf, hb, hlevel⟩ hnone
  obtain ⟨hp, -, hproto, -⟩ := state_wf_iff.mp hwf
  obtain ⟨hl, ht, hatt, hrel⟩ := riserLevelOk_iff.mp hlevel
  obtain heq | heq | heq | ⟨hfs, heq⟩ | ⟨-, _, _, _, heq⟩ := rsr_after (s := { s with port := rest }) hproto hnone <;>
    rw [heq, riserLevelOk_iff]
  · exact ⟨hl, ht, hatt, hrel⟩
  · decide
  · exact ⟨(rfl : unitInterval zero = true), ht, hatt, hrel⟩
  · refine ⟨hl, riserTarget_unitInterval hp (smoothBuildUp_unitInterval hp hb), ?_, ?_⟩
    · exact riserStep_between Config.numerics.admissible hfs (by decide)
    · exact riserStep_between Config.numerics.admissible hfs (inRange_of_wf hp .riserRelease)
  · obtain ⟨htarget, hkatt, hkrel, -⟩ := rsrTick_frame Config.num s.fs _ _ s.rsr _
    exact ⟨(congrArg Machine.unitInterval (rsrTick_level Config.num s.fs _ _ s.rsr _)).trans
        (rsrLevel_unitInterval hlevel),
      (congrArg Machine.unitInterval htarget).trans ht, (congrArg _ hkatt).trans hatt, (congrArg _ hkrel).trans hrel⟩

end Sys2Proof.Proofs
end

section
/-! PROOFS. The riser's frequencies, phases and waveforms (46_riser.md R226 to R236): all bounds by interval arithmetic
over the operation sequence, from a build-up in [0, 1]. -/

-- One theorem at a time: a waiting task holds a thread.
set_option Elab.async false

namespace Sys2Proof.Proofs

open Machine Witness Laws

/-- The bounds of a range from 0.0 to 1.0 are not negative: the sign condition of products in it. -/
theorem unit_signs : 0 ≤ F32.scaledInt zero ∧ 0 ≤ F32.scaledInt zero := ⟨scaledInt_zero.ge, scaledInt_zero.ge⟩

theorem scaledInt_fsMin_pos : 0 < F32.scaledInt fsMin := by decide +kernel

/-! ### What BEGIN writes (R226) -/

section
variable {b : F32} (hb : Between zero one b)
include hb

theorem cube_between : Between zero one (fmul (fmul b b) b) :=
  (hb.fmul (lo := zero) (hi := one) hb unit_signs (by decide +kernel)).fmul hb unit_signs (by decide +kernel)

theorem riserSweep_between : Between fSinLo fSinHi (riserSweep b) :=
  (Between.point rfl).fadd
    ((cube_between hb).fmul (lo := zero) (hi := 0x4576E000#32)
        (Between.point (c := fsub fSinHi fSinLo) (by decide +kernel))
      ⟨scaledInt_zero.ge, by decide +kernel⟩ (by decide +kernel))
    (by decide +kernel)

theorem riserSubFreq_between : Between fSubLo fSubHi (riserSubFreq b) :=
  have hinv : Between zero one (fsub one b) := (Between.point rfl).fsub hb (by decide +kernel)
  (Between.point rfl).fadd
    ((cube_between hinv).fmul (lo := zero) (hi := 0x41200000#32)
        (Between.point (c := fsub fSubHi fSubLo) (by decide +kernel))
      ⟨scaledInt_zero.ge, by decide +kernel⟩ (by decide +kernel))
    (by decide +kernel)

/-- The target frequencies of the five variants lie between 20 and 8000 Hz. -/
theorem riserTargetFreq_between (t : RiserType) : Between fSubLo fNzHi (riserTargetFreq t b) := by
  have hsweep := riserSweep_between hb
  cases t with
  | sine | noise => exact hsweep.mono (by decide +kernel)
  | saw => exact (Between.point (c := sawScale) rfl).fmul hsweep (by decide +kernel) (by decide +kernel)
  | square => exact (Between.point (c := sqScale) rfl).fmul hsweep (by decide +kernel) (by decide +kernel)
  | sub => exact (riserSubFreq_between hb).mono (by decide +kernel)

/-- The vibrato depth is at most 1/16. -/
theorem riserDepth_between (t : RiserType) : Between zero 0x3D800000#32 (riserDepth t b) := by
  have hdepth : Between zero 0x3D800000#32 (fmul vibDepth b) :=
    (Between.point (c := vibDepth) rfl).fmul hb (by decide +kernel) (by decide +kernel)
  cases t with
  | sine | square | noise => exact hdepth
  | saw => exact hdepth.fmul (Between.point (c := vibSaw) rfl) (by decide +kernel) (by decide +kernel)
  | sub => exact hdepth.fmul (Between.point (c := vibSub) rfl) (by decide +kernel) (by decide +kernel)

theorem riserVibRate_between : Between zero 0x41800000#32 (fadd vibRate0 (fmul vibRate1 b)) :=
  (Between.point (c := vibRate0) rfl).fadd
    ((Between.point (c := vibRate1) rfl).fmul (lo := zero) (hi := vibRate1) hb (by decide +kernel) (by decide +kernel))
    (by decide +kernel)

end

/-! ### The phase accumulators (R121, R229, R230) -/

theorem between_of_phaseOk {x : F32} (h : phaseOk x = true) : Between zero one x := by
  simp only [phaseOk, Bool.and_eq_true] at h
  exact ⟨rfl, rfl, within_iff.mpr ⟨h.1, le_of_lt h.2⟩⟩

/-- A phase that has passed 1.0 by at most a quarter is wrapped below it. -/
theorem wrap1_phaseOk {x : F32} (h : Between zero 0x3FA00000#32 x) : phaseOk (wrap1 x) = true := by
  unfold wrap1 phaseOk
  rw [Bool.and_eq_true]
  split
  case isTrue h1 =>
    have hx : Between one 0x3FA00000#32 x := ⟨rfl, rfl, within_iff.mpr ⟨h1, h.le.2⟩⟩
    have hwrapped : Between zero 0x3E800000#32 (fsub x one) := hx.fsub (Between.point rfl) (by decide +kernel)
    exact ⟨hwrapped.le.1, lt_of_le_of_lt hwrapped.le.2 (by decide)⟩
  case isFalse h1 =>
    refine ⟨h.le.1, (lt_iff_scaledInt h.finite rfl).mpr ?_⟩
    rw [le_iff_scaledInt rfl h.finite] at h1
    omega

/-- A phase step of at most a quarter period keeps the phase in [0, 1). -/
theorem phase_step {ph inc : F32} (hph : phaseOk ph = true) (hinc : Between zero 0x3E800000#32 inc) :
    phaseOk (wrap1 (fadd ph inc)) = true :=
  wrap1_phaseOk ((between_of_phaseOk hph).fadd hinc (by decide +kernel))

theorem finite_twoPi_mul {ph : F32} (h : phaseOk ph = true) : F32.isFinite (fmul twoPi32 ph) = true :=
  ((Between.point (c := twoPi32) rfl).fmul (lo := zero) (hi := twoPi32) (between_of_phaseOk h) (by decide +kernel)
    (by decide +kernel)).finite

theorem sinOf_between {N : Numerics} (hN : N.Admissible) {ph : F32} (h : phaseOk ph = true) :
    Between minusOne one (sinOf N ph) := sin_between hN (finite_twoPi_mul h)

/-- The instantaneous frequency for a depth of at most `d`: the vibrato factor lies between `1 - d` and `1 + d`. -/
theorem rsrFinst_between {N : Numerics} (hN : N.Admissible) {r : Rsr} {a b c d e lo hi : F32} (hfsm : Between a b r.fsm)
    (hd : Between zero d r.vdepth) (hvph : phaseOk r.vph = true) (hsign : 0 ≤ F32.scaledInt a ∧ 0 ≤ F32.scaledInt c)
    (hfactor : encloses c e (fadd one (F32.negate d)) (fadd one d) = true)
    (he : encloses lo hi (fmul a c) (fmul b e) = true) : Between lo hi (rsrFinst N r) :=
  hfsm.fmul ((Between.point rfl).fadd (hd.symmetric.fmul_signed (sinOf_between hN hvph)) hfactor) hsign he

/-! ### The frame step -/

theorem riserRatesOk_iff {r : Rsr} : riserRatesOk r = true ↔ Between fSubLo fNzHi r.fsm ∧ Between fSubLo fNzHi r.ft ∧
    Between zero 0x3D800000#32 r.vdepth ∧ Between zero 0x41800000#32 r.vrate := by
  rw [between_iff rfl rfl, between_iff rfl rfl, between_iff rfl rfl, between_iff rfl rfl]
  simp only [riserRatesOk, Bool.and_eq_true, and_assoc]

theorem riserPhasesOk_iff {r : Rsr} :
    riserPhasesOk r = true ↔ (∀ k, phaseOk (r.ph.get k) = true) ∧ phaseOk r.vph = true := by
  simp only [riserPhasesOk, Bool.and_eq_true]
  constructor
  · rintro ⟨⟨⟨⟨h0, h1⟩, h2⟩, h3⟩, hv⟩
    refine ⟨fun k => ?_, hv⟩
    fin_cases k
    exacts [h0, h1, h2, h3]
  · exact fun ⟨h, hv⟩ => ⟨⟨⟨⟨h 0, h 1⟩, h 2⟩, h 3⟩, hv⟩

theorem kFreq_within : within zero half kFreq = true := by decide

/-- The frequency glides between its bounds, and the vibrato phase advances by at most a quarter period. -/
theorem rsrGlide_ok {fs : F32} {r : Rsr} (hfs : fsOk fs = true) (hrates : riserRatesOk r = true)
    (hphases : riserPhasesOk r = true) :
    riserRatesOk (rsrGlide fs r) = true ∧ riserPhasesOk (rsrGlide fs r) = true := by
  obtain ⟨hfsm, hft, hdepth, hrate⟩ := riserRatesOk_iff.mp hrates
  obtain ⟨hph, hvph⟩ := riserPhasesOk_iff.mp hphases
  rw [riserRatesOk_iff, riserPhasesOk_iff]
  refine ⟨⟨⟨rfl, rfl, ?_⟩, hft, hdepth, hrate⟩, hph, ?_⟩
  · exact lerp1_within rfl rfl (by decide) hfsm.2.2 hft.2.2 kFreq_within
  · exact phase_step hvph
      (hrate.fdiv (between_of_fsOk hfs) ⟨scaledInt_zero.ge, scaledInt_fsMin_pos⟩ (by decide +kernel))

/-- The selected phase advances by at most a quarter period, since the instantaneous frequency is at most 8500 Hz. -/
theorem rsrAdvance_ok {N : Numerics} (hN : N.Admissible) {fs : F32} {r : Rsr} (t : RiserType) (hfs : fsOk fs = true)
    (hrates : riserRatesOk r = true) (hphases : riserPhasesOk r = true) :
    riserRatesOk (rsrAdvance N fs t r) = true ∧ riserPhasesOk (rsrAdvance N fs t r) = true := by
  obtain ⟨hfsm, hft, hdepth, hrate⟩ := riserRatesOk_iff.mp hrates
  obtain ⟨hph, hvph⟩ := riserPhasesOk_iff.mp hphases
  refine ⟨hrates, riserPhasesOk_iff.mpr ⟨fun k => ?_, hvph⟩⟩
  have hfinst : Between zero 0x4604D000#32 (rsrFinst N r) :=
    rsrFinst_between hN (c := 0x3F700000#32) (e := 0x3F880000#32) hfsm hdepth hvph (by decide +kernel)
        (by decide +kernel)
      (by decide +kernel)
  have hstep : Between zero 0x3E800000#32 (fdiv (rsrFinst N r) fs) :=
    hfinst.fdiv (between_of_fsOk hfs) ⟨scaledInt_zero.ge, scaledInt_fsMin_pos⟩ (by decide +kernel)
  change phaseOk ((r.ph.set t.phase (wrap1 (fadd (r.ph.get t.phase) (fdiv (rsrFinst N r) fs)))).get k) = true
  rw [quad_get_set]
  split
  · exact phase_step (hph _) hstep
  · exact hph k

theorem rsrTick_ok {N : Numerics} (hN : N.Admissible) {fs : F32} {r : Rsr} (t : RiserType) (stereo : Bool)
    (x : Pair F32) (hfs : fsOk fs = true) (hrates : riserRatesOk r = true) (hphases : riserPhasesOk r = true) :
    riserRatesOk (rsrTick N fs t stereo r x).1 = true ∧ riserPhasesOk (rsrTick N fs t stereo r x).1 = true := by
  by_cases ht : t = .noise
  · subst ht
    exact ⟨hrates, hphases⟩
  · rw [rsrTick_periodic ht]
    obtain ⟨hrates', hphases'⟩ := rsrGlide_ok (r := rsrLevel r) hfs hrates hphases
    exact rsrAdvance_ok hN t hfs hrates' hphases'

theorem rsrUpdate_rates {N : Numerics} {fs b : F32} {a : Params} {r : Rsr} (hb : unitInterval b = true)
    (hrates : riserRatesOk r = true) : riserRatesOk (rsrUpdate N fs a b r) = true := by
  have hbb := between_of_unitInterval hb
  obtain ⟨hfsm, -⟩ := riserRatesOk_iff.mp hrates
  exact riserRatesOk_iff.mpr
    ⟨hfsm, riserTargetFreq_between hbb _, riserDepth_between hbb _, riserVibRate_between hbb⟩

/-- Settles O37: BEGIN writes bounded frequencies, depths and rates, and a frame advances every phase by at most a
quarter period before it is wrapped. -/
theorem stepKeepsRiserPhases : Obligations.StepKeepsRiserPhases := by
  unfold Obligations.StepKeepsRiserPhases
  intro s t hwf hb hrates hphases h
  refine step_keeps
    (P := fun s => s.wf = true ∧ unitInterval s.buS = true ∧ riserRatesOk s.rsr = true ∧ riserPhasesOk s.rsr = true)
    (Q := fun s => riserRatesOk s.rsr = true ∧ riserPhasesOk s.rsr = true) (fun _ hs => hs.2.2)
        (fun _ _ _ _ hs => hs.2.2)
    ?_ ⟨hwf, hb, hrates, hphases⟩ h
  rintro i s rest ⟨hwf, hb, hrates, hphases⟩ hnone
  obtain ⟨hp, -, hproto, -⟩ := state_wf_iff.mp hwf
  obtain heq | heq | heq | ⟨-, heq⟩ | ⟨hfs, t, _, _, heq⟩ := rsr_after (s := { s with port := rest }) hproto hnone <;>
    rw [heq]
  · exact ⟨hrates, hphases⟩
  · exact ⟨by decide, by decide⟩
  · exact ⟨hrates, hphases⟩
  · exact ⟨rsrUpdate_rates (smoothBuildUp_unitInterval hp hb) hrates, hphases⟩
  · exact rsrTick_ok Config.numerics.admissible t _ _ hfs hrates hphases

/-- Settles O33, by evaluation of the reset state. -/
theorem resetMeetsInvariants : Obligations.ResetMeetsInvariants := by
  unfold Obligations.ResetMeetsInvariants
  decide +kernel

/-! ### The sine sweep -/

theorem square_le_square {b b' : F32} (hb : Between zero one b) (hb' : Between zero one b') (h : fle b b' = true) :
    fle (fmul b b) (fmul b' b') = true := fmul_le_fmul hb hb hb' hb' h h

theorem riserSweep_mono {b b' : F32} (hb : Between zero one b) (hb' : Between zero one b') (h : fle b b' = true) :
    fle (riserSweep b) (riserSweep b') = true := by
  have hsq : ∀ {x}, Between zero one x → Between zero one (fmul x x) := fun hx =>
    hx.fmul hx unit_signs (by decide +kernel)
  have hspan : Between zero 0x4576E000#32 (fsub fSinHi fSinLo) :=
    ⟨rfl, rfl, by decide +kernel⟩
  have hterm : ∀ {x}, Between zero one x → F32.isFinite (fmul (fmul (fmul x x) x) (fsub fSinHi fSinLo)) = true :=
    fun hx => ((cube_between hx).fmul (lo := zero) (hi := 0x4576E000#32) hspan unit_signs (by decide +kernel)).finite
  have hcube := fmul_le_fmul (hsq hb) hb (hsq hb') hb' (square_le_square hb hb' h) h
  have hscaled := fmul_le_fmul (cube_between hb) hspan (cube_between hb') hspan hcube (Between.point hspan.finite).le.1
  rw [le_iff_scaledInt (hterm hb) (hterm hb')] at hscaled
  exact fadd_mono rfl (hterm hb) rfl (hterm hb') (by omega)

/-- Settles O54: the target by monotonicity of its operations, the glide by interpolation, the vibrato by its bounds. -/
theorem sineSweepIsMonotone : Obligations.SineSweepIsMonotone := by
  unfold Obligations.SineSweepIsMonotone
  refine ⟨fun b b' hb hb' h => ?_, fun fs r hfsm hft h => ?_, fun N r hN hfsm hdepth hvph => ?_⟩
  · have hbb := between_of_unitInterval hb
    exact ⟨riserSweep_mono hbb (between_of_unitInterval hb') h, (riserSweep_between hbb).2.2⟩
  · have hfsm' : Between fSinLo fSinHi r.fsm := ⟨rfl, rfl, hfsm⟩
    have hft' : Between fSinLo fSinHi r.ft := ⟨rfl, rfl, hft⟩
    have hlo : 0 ≤ F32.scaledInt fSinLo := by decide +kernel
    exact (lerp1_between hfsm'.finite hft'.finite (hlo.trans hfsm'.scaledInt.1) (hlo.trans hft'.scaledInt.1)
      kFreq_within).1 ((le_iff_scaledInt hfsm'.finite hft'.finite).mp h)
  · exact (rsrFinst_between hN (c := 0x3F000000#32) (e := fadd one vibDepth) ⟨rfl, rfl, hfsm⟩ ⟨rfl, rfl, hdepth⟩ hvph
      (by decide +kernel) (by decide +kernel) (by decide +kernel)).2.2

/-! ### The waveforms -/

/-- The waveform of a periodic variant lies in [-1, 1]. -/
theorem riserWave_between {N : Numerics} (hN : N.Admissible) {t : RiserType} (ht : t ≠ .noise) {ph : F32}
    (hph : phaseOk ph = true) : Between minusOne one (riserWave N t ph) := by
  have hsin := sinOf_between hN hph
  cases t with
  | noise => exact absurd rfl ht
  | sine | sub => exact hsin
  | saw =>
    exact ((Between.point (c := two) rfl).fmul (lo := zero) (hi := two) (between_of_phaseOk hph) (by decide +kernel)
      (by decide +kernel)).fsub (Between.point rfl) (by decide +kernel)
  | square =>
    simp only [riserWave]
    split
    · exact ⟨rfl, rfl, by decide⟩
    · exact ⟨rfl, rfl, by decide⟩

theorem neg_abs (x : F32) : F32.neg? (F32.abs x) = false := by
  unfold F32.neg? F32.abs
  rw [BitVec.msb_and, show (0x7FFFFFFF#32 : F32).msb = false from rfl, Bool.and_false]

theorem mag_abs (x : F32) : F32.mag (F32.abs x) = F32.mag x := by
  unfold F32.mag F32.abs
  rw [BitVec.toNat_and, show (0x7FFFFFFF#32 : F32).toNat = 2 ^ 31 - 1 from rfl, Nat.and_two_pow_sub_one_eq_mod,
    Nat.mod_mod]

/-- The exact value of the absolute value. -/
theorem scaledInt_abs (x : F32) : F32.scaledInt (F32.abs x) = |F32.scaledInt x| := by
  rw [Int.abs_eq_natAbs, natAbs_scaledInt, scaledInt_eq, scaled_eq, neg_abs, mag_abs]
  rfl

theorem finite_abs (x : F32) : F32.isFinite (F32.abs x) = F32.isFinite x := by
  rw [Bool.eq_iff_iff, finite_iff, finite_iff, mag_abs]

theorem abs_le_of_between {x c : F32} (h : Between (F32.negate c) c x) : fle (F32.abs x) c = true := by
  obtain ⟨hlo, hhi⟩ := h.scaledInt
  rw [scaledInt_negate] at hlo
  rw [le_iff_scaledInt ((finite_abs x).trans h.finite) h.2.1, scaledInt_abs]
  exact abs_le.mpr ⟨hlo, hhi⟩

/-- Settles O55: the product of a wave in [-1, 1] and the level is within the level on both sides, and the amplitude
factor does not enlarge it. -/
theorem riserValueIsBoundedByLevel : Obligations.RiserValueIsBoundedByLevel := by
  unfold Obligations.RiserValueIsBoundedByLevel
  intro N t ph level amp hN ht hph hlevel hamp
  have hlf := finite_of_unitInterval hlevel
  have hwave := riserWave_between hN ht hph
  have hself : Between (F32.negate level) level level :=
    Between.symmetric ⟨rfl, hlf, within_iff.mpr ⟨(within_iff.mp hlevel).1, (Between.point hlf).le.2⟩⟩
  rw [fmul_comm hwave.finite hlf]
  exact abs_le_of_between ((hself.fmul_signed hwave).fmul_signed
    (Between.symmetric (between_of_unitInterval hamp)))

end Sys2Proof.Proofs
end

section
/-! PROOFS. Binary32 as IEEE 754 has it (41_numerics.md R111, R115): comparison and classification on exact values, the
rounding of the four operations to the nearest value, and their zeros, infinities and NaNs. -/

-- One theorem at a time: a waiting task holds a thread.
set_option Elab.async false

namespace Sys2Proof.Proofs

open Machine Witness Laws

/-! ### Classification -/

section
variable {x : F32}

theorem notFinite_of_inf (h : F32.isInf x = true) : F32.isFinite x = false := by
  cases hf : F32.isFinite x with
  | false => rfl
  | true => exact absurd h (by rw [notInf_of_finite hf]; exact Bool.false_ne_true)

theorem notFinite_of_nan (h : F32.isNaN x = true) : F32.isFinite x = false := by
  cases hf : F32.isFinite x with
  | false => rfl
  | true => exact absurd h (by rw [notNaN_of_finite hf]; exact Bool.false_ne_true)

theorem exponent_toNat (x : F32) : (x.extractLsb' 23 8).toNat = F32.mag x / 2 ^ 23 := by
  rw [BitVec.extractLsb'_toNat, Nat.shiftRight_eq_div_pow]
  unfold F32.mag
  omega

theorem fraction_toNat (x : F32) : (x.extractLsb' 0 23).toNat = F32.mag x % 2 ^ 23 := by
  rw [BitVec.extractLsb'_toNat, Nat.shiftRight_zero]
  unfold F32.mag
  omega

theorem finite_iff_exponent : F32.isFinite x = true ↔ x.extractLsb' 23 8 ≠ 0xFF#8 := by
  have hm := mag_lt x
  rw [finite_iff, ne_eq, ← BitVec.toNat_inj, exponent_toNat, show (0xFF#8 : BitVec 8).toNat = 255 from rfl]
  omega

theorem isNaN_iff_fields :
    F32.isNaN x = true ↔ x.extractLsb' 23 8 = 0xFF#8 ∧ x.extractLsb' 0 23 ≠ 0#23 := by
  have hm := mag_lt x
  rw [F32.isNaN, decide_eq_true_iff, ← BitVec.toNat_inj, ne_eq, ← BitVec.toNat_inj, exponent_toNat, fraction_toNat,
    infMag_eq, show (0xFF#8 : BitVec 8).toNat = 255 from rfl, show (0#23 : BitVec 23).toNat = 0 from rfl]
  omega

theorem value_abs (x : F32) : F32.value (F32.abs x) = |F32.value x| := by
  rw [F32.value, F32.value, scaledInt_abs, abs_div, abs_of_nonneg (by positivity : (0 : ℚ) ≤ 2 ^ 149), Int.cast_abs]

theorem lt_of_nan {a b : F32} (h : F32.isNaN a = true ∨ F32.isNaN b = true) : flt a b = false ∧ fle a b = false := by
  unfold flt fle F32.lt F32.le
  rcases h with h | h <;> rw [h] <;> simp

end

/-- Settles O56: the order of the values, the fields of the word, the two zeros. -/
theorem comparisonIsOfValues : Obligations.ComparisonIsOfValues := by
  unfold Obligations.ComparisonIsOfValues
  refine ⟨fun a b ha hb => ⟨lt_iff_value ha hb, le_iff_value ha hb⟩, fun a b h => lt_of_nan h, fun a => ?_, by decide,
    by decide, by decide⟩
  exact ⟨finite_iff_exponent, isNaN_iff_fields, neg_abs a, fun _ => value_abs a⟩

/-! ### The ranges of the parameters -/

theorem paramType_finite {r : ParamReg} {lo hi : F32} (h : r.type = .float lo hi) :
    F32.isFinite lo = true ∧ F32.isFinite hi = true := by
  cases r <;> cases h <;> exact ⟨rfl, rfl⟩

/-- Settles O11: a value in range is finite. -/
theorem inRangeIsTheClosedRange : Obligations.InRangeIsTheClosedRange := by
  unfold Obligations.InRangeIsTheClosedRange
  refine fun r v => ⟨inRange_iff_acceptable r v, fun lo hi htype hv => ?_, fun hi htype => inRange_negZero htype⟩
  obtain ⟨hlo, hhi⟩ := paramType_finite htype
  rw [Bool.eq_false_iff, ne_eq, inRange_float_iff htype hlo hhi]
  rintro ⟨hfinite, -⟩
  rcases hv with hv | hv
  · rw [notFinite_of_nan hv] at hfinite
    cases hfinite
  · rw [notFinite_of_inf hv] at hfinite
    cases hfinite

/-! ### Rounding to the nearest value -/

/-- `q` or `-q`. -/
def signed (s : Bool) (q : ℚ) : ℚ := if s then -q else q

theorem abs_signed_sub (s : Bool) (p q : ℚ) : |signed s p - signed s q| = |p - q| := by
  cases s with
  | false => rfl
  | true => rw [signed, signed, if_pos rfl, if_pos rfl, ← abs_neg]; congr 1; ring

theorem abs_signed (s : Bool) {q : ℚ} (hq : 0 ≤ q) : |signed s q| = q := by
  cases s with
  | false => exact abs_of_nonneg hq
  | true => rw [signed, if_pos rfl, abs_neg, abs_of_nonneg hq]

/-- A value of the other sign is no nearer than zero. -/
theorem abs_signed_sub_of_ne {s s' : Bool} (hs : s' ≠ s) {p q : ℚ} (hp : 0 ≤ p) (hq : 0 ≤ q) :
    |signed s' p - signed s q| = p + q := by
  have hsum : signed s' p - signed s q = signed s' (p + q) := by
    cases s <;> cases s' <;> simp [signed] at hs ⊢
    ring
  rw [hsum, abs_signed _ (add_nonneg hp hq)]

theorem signed_mul (s s' : Bool) (p q : ℚ) : signed s p * signed s' q = signed (s != s') (p * q) := by
  cases s <;> cases s' <;> simp [signed]

theorem signed_div (s s' : Bool) (p q : ℚ) : signed s p / signed s' q = signed (s != s') (p / q) := by
  cases s <;> cases s' <;> simp [signed, neg_div, div_neg]

/-- The exact value from the sign and the magnitude. -/
theorem value_eq_signed (x : F32) : F32.value x = signed (F32.neg? x) ((scaledOfMag (F32.mag x) : ℚ) / 2 ^ 149) := by
  rw [F32.value, scaledInt_eq, signed]
  cases F32.neg? x with
  | false => simp
  | true => simp [neg_div]

theorem scaledOfMag_infMag : scaledOfMag F32.infMag = 2 * (2 ^ 24 * 2 ^ 252) := by decide +kernel

theorem scaledOfMag_maxMag : scaledOfMag (F32.infMag - 1) = (2 ^ 25 - 2) * 2 ^ 252 := by decide +kernel

section
variable {n d : Nat} (hd : 0 < d)
include hd

/-- Rounding overflows from the bound half way between the greatest finite magnitude and the next. -/
theorem roundMag_eq_infMag_iff : F32.roundMag n d = F32.infMag ↔ d * ((2 ^ 25 - 1) * 2 ^ 252) ≤ n := by
  obtain ⟨lo, hlo, hhi, heq⟩ := roundMag_spec n hd
  have hi := infMag_eq
  obtain hlt | rfl | hge : lo < F32.infMag - 1 ∨ lo = F32.infMag - 1 ∨ F32.infMag ≤ lo := by omega
  · refine iff_of_false (fun h => ?_) ?_
    · rw [heq] at h
      generalize F32.infMag = top at *
      split at h <;> omega
    · have hmono : d * scaledOfMag (lo + 1) ≤ d * scaledOfMag (F32.infMag - 1) :=
        Nat.mul_le_mul_left d (scaledOfMag_strictMono.monotone (by omega))
      have hbound : d * scaledOfMag (F32.infMag - 1) ≤ d * ((2 ^ 25 - 1) * 2 ^ 252) :=
        Nat.mul_le_mul_left d (by rw [scaledOfMag_maxMag]; decide)
      omega
  · have hsum : d * (scaledOfMag (F32.infMag - 1) + scaledOfMag (F32.infMag - 1 + 1)) =
        2 * (d * ((2 ^ 25 - 1) * 2 ^ 252)) := by
      rw [scaledOfMag_maxMag, show F32.infMag - 1 + 1 = F32.infMag from rfl, scaledOfMag_infMag]
      ring
    rw [heq, hsum]
    generalize d * ((2 ^ 25 - 1) * 2 ^ 252) = mid
    split <;> omega
  · refine iff_of_true ?_ ?_
    · rw [heq]
      refine Nat.min_eq_right ?_
      split
      · exact hge.trans (Nat.le_succ lo)
      · exact hge
    · have hmono : d * scaledOfMag F32.infMag ≤ d * scaledOfMag lo :=
        Nat.mul_le_mul_left d (scaledOfMag_strictMono.monotone hge)
      have hbound : d * ((2 ^ 25 - 1) * 2 ^ 252) ≤ d * scaledOfMag F32.infMag :=
        Nat.mul_le_mul_left d (by rw [scaledOfMag_infMag]; decide)
      omega

/-- No magnitude is nearer to `n / d` than its rounding, and the rounding is even when another is as near. -/
theorem roundMag_nearest (hfin : F32.roundMag n d < F32.infMag) (m : Nat) :
    |((d * scaledOfMag (F32.roundMag n d) : Nat) : ℤ) - n| < |((d * scaledOfMag m : Nat) : ℤ) - n| ∨
      m = F32.roundMag n d ∨
      (|((d * scaledOfMag (F32.roundMag n d) : Nat) : ℤ) - n| = |((d * scaledOfMag m : Nat) : ℤ) - n| ∧
        F32.roundMag n d % 2 = 0) := by
  obtain ⟨lo, hlo, hhi, heq⟩ := roundMag_spec n hd
  have hmono {j k : Nat} (h : j < k) : d * scaledOfMag j < d * scaledOfMag k :=
    Nat.mul_lt_mul_of_pos_left (scaledOfMag_strictMono h) hd
  have hfar : m < lo ∧ d * scaledOfMag m < d * scaledOfMag lo ∨ m = lo ∨ m = lo + 1 ∨
      lo + 1 < m ∧ d * scaledOfMag (lo + 1) < d * scaledOfMag m := by
    obtain h | h | h | h : m < lo ∨ m = lo ∨ m = lo + 1 ∨ lo + 1 < m := by omega
    · exact Or.inl ⟨h, hmono h⟩
    · exact Or.inr (Or.inl h)
    · exact Or.inr (Or.inr (Or.inl h))
    · exact Or.inr (Or.inr (Or.inr ⟨h, hmono h⟩))
  rw [Nat.mul_add] at heq
  have hdist {a : Nat} : (a ≤ n → |((a : Nat) : ℤ) - n| = n - a) ∧ (n ≤ a → |((a : Nat) : ℤ) - n| = a - n) :=
    ⟨fun h => by rw [abs_of_nonpos (by omega)]; ring, fun h => abs_of_nonneg (by omega)⟩
  split at heq
  case isTrue hup =>
    have hr : F32.roundMag n d = lo + 1 := by omega
    rw [hr, hdist.2 hhi.le]
    obtain ⟨h, hm⟩ | rfl | rfl | ⟨h, hm⟩ := hfar
    · rw [hdist.1 (by omega)]; omega
    · rw [hdist.1 hlo]; omega
    · exact Or.inr (Or.inl rfl)
    · rw [hdist.2 (by omega)]; omega
  case isFalse hup =>
    have hr : F32.roundMag n d = lo := by omega
    rw [hr, hdist.1 hlo]
    obtain ⟨h, hm⟩ | rfl | rfl | ⟨h, hm⟩ := hfar
    · rw [hdist.1 (by omega)]; omega
    · exact Or.inr (Or.inl rfl)
    · rw [hdist.2 hhi.le]; omega
    · rw [hdist.2 (by omega)]; omega

/-- A distance of values, in units of 2^-149 over `d`. -/
theorem abs_units_sub (a : Nat) : |(a : ℚ) / 2 ^ 149 - (n : ℚ) / (d * 2 ^ 149)| =
    ((|((d * a : Nat) : ℤ) - n| : ℤ) : ℚ) / (d * 2 ^ 149) := by
  have hdq : (0 : ℚ) < d * 2 ^ 149 := by positivity
  have hfrac : (a : ℚ) / 2 ^ 149 - (n : ℚ) / (d * 2 ^ 149) = ((d * a : ℚ) - n) / (d * 2 ^ 149) := by
    rw [sub_div, mul_div_mul_left _ _ (by positivity : (d : ℚ) ≠ 0)]
  rw [hfrac, abs_div, abs_of_pos hdq]
  push_cast
  rfl

/-- The rounding of `n / d` units of 2^-149, with a sign, is the nearest value. -/
theorem nearest_withSign (s : Bool) :
    Nearest (signed s ((n : ℚ) / (d * 2 ^ 149))) (F32.withSign s (F32.roundMag n d)) := by
  have hle := roundMag_le_infMag n d
  have hi := infMag_eq
  have hlt : F32.roundMag n d < 2 ^ 31 := by omega
  have hdq : (0 : ℚ) < d := by exact_mod_cast hd
  have hq : (0 : ℚ) ≤ (n : ℚ) / (d * 2 ^ 149) := by positivity
  have hoverflow : (2 : ℚ) ^ 128 - 2 ^ 103 ≤ (n : ℚ) / (d * 2 ^ 149) ↔ F32.roundMag n d = F32.infMag := by
    rw [roundMag_eq_infMag_iff hd, le_div_iff₀ (by positivity)]
    rw [show ((2 : ℚ) ^ 128 - 2 ^ 103) * (d * 2 ^ 149) = ((d * ((2 ^ 25 - 1) * 2 ^ 252) : Nat) : ℚ) by push_cast; ring]
    exact Nat.cast_le
  refine ⟨fun hne => ?_, ?_⟩
  · rw [neg_withSign hlt]
    have hpos : 0 < (n : ℚ) / (d * 2 ^ 149) := by
      refine lt_of_le_of_ne hq fun h0 => hne ?_
      rw [← h0, signed, neg_zero, ite_self]
    cases s with
    | false => exact (decide_eq_false (not_lt.mpr hq)).symm
    | true => exact (decide_eq_true (neg_lt_zero.mpr hpos)).symm
  · rw [abs_signed s hq]
    rcases hle.lt_or_eq with hfin | hinf
    · refine Or.inl ⟨?_, finite_withSign hfin, fun w hw => ?_⟩
      · rw [← not_le, hoverflow]
        exact hfin.ne
      · have hv : F32.value (F32.withSign s (F32.roundMag n d)) =
            signed s ((scaledOfMag (F32.roundMag n d) : ℚ) / 2 ^ 149) := by
          rw [value_eq_signed, neg_withSign hlt, mag_withSign hlt]
        rw [hv, mag_withSign hlt, value_eq_signed w, abs_signed_sub, abs_units_sub hd]
        have hunit : (0 : ℚ) < d * 2 ^ 149 := by positivity
        by_cases hs : F32.neg? w = s ∨ F32.mag w = 0
        · have hsame : signed (F32.neg? w) ((scaledOfMag (F32.mag w) : ℚ) / 2 ^ 149) =
              signed s ((scaledOfMag (F32.mag w) : ℚ) / 2 ^ 149) := by
            obtain hs | hs := hs
            · rw [hs]
            · rw [hs, scaledOfMag_zero, Nat.cast_zero, zero_div, signed, signed, neg_zero, ite_self, ite_self]
          rw [hsame, abs_signed_sub, abs_units_sub hd, div_lt_div_iff_of_pos_right hunit, Int.cast_lt,
            div_left_inj' hunit.ne', Int.cast_inj]
          exact (roundMag_nearest hd hfin (F32.mag w)).imp_right (Or.imp_left fun h => by rw [h])
        · obtain ⟨hs, hw0⟩ := not_or.mp hs
          have hp : (0 : ℚ) < (scaledOfMag (F32.mag w) : ℚ) / 2 ^ 149 :=
            div_pos (Nat.cast_pos.mpr (Nat.pos_of_ne_zero fun h => hw0 (eq_zero_of_scaledOfMag h))) (by positivity)
          have hzero : |((d * scaledOfMag (F32.roundMag n d) : Nat) : ℤ) - n| ≤ n := by
            have h0 := roundMag_nearest hd hfin 0
            rw [scaledOfMag_zero, Nat.mul_zero, Nat.cast_zero, zero_sub, abs_neg, Nat.abs_cast] at h0
            obtain h | h | ⟨h, -⟩ := h0
            · exact h.le
            · rw [← h, scaledOfMag_zero, Nat.mul_zero, Nat.cast_zero, zero_sub, abs_neg, Nat.abs_cast]
            · exact h.le
          rw [abs_signed_sub_of_ne hs hp.le hq]
          refine Or.inl (lt_of_le_of_lt ?_ (lt_add_of_pos_left _ hp))
          exact (div_le_div_iff_of_pos_right hunit).mpr (by exact_mod_cast hzero)
    · refine Or.inr ⟨hoverflow.mpr hinf, ?_⟩
      rw [F32.isInf, mag_withSign hlt, hinf]
      rfl

end

/-! ### The operations on finite operands -/

section
variable {a b : F32} (ha : F32.isFinite a = true) (hb : F32.isFinite b = true)
include ha hb

theorem fmul_eq_withSign : fmul a b =
    F32.withSign (F32.neg? a != F32.neg? b) (F32.roundMag (F32.scaled a * F32.scaled b) (2 ^ 149)) := by
  unfold fmul F32.mul
  simp only [notNaN_of_finite ha, notNaN_of_finite hb, notInf_of_finite ha, notInf_of_finite hb, Bool.or_self,
    Bool.false_eq_true, if_false]

theorem fdiv_eq_withSign (hb0 : F32.isZero b = false) : fdiv a b =
    F32.withSign (F32.neg? a != F32.neg? b) (F32.roundMag (F32.scaled a * 2 ^ 149) (F32.scaled b)) := by
  unfold fdiv F32.div
  simp only [notNaN_of_finite ha, notNaN_of_finite hb, notInf_of_finite ha, notInf_of_finite hb, hb0, Bool.or_self,
    Bool.false_eq_true, if_false]

omit ha hb in
theorem value_eq_zero_iff {x : F32} : F32.value x = 0 ↔ F32.isZero x = true := by
  rw [F32.value, div_eq_zero_iff, or_iff_left (by positivity), Int.cast_eq_zero, scaledInt_eq_zero_iff]

omit ha hb in
theorem isZero_false_of_value_ne {x : F32} (h : F32.value x ≠ 0) : F32.isZero x = false :=
  Bool.eq_false_iff.mpr fun hz => h (value_eq_zero_iff.mpr hz)

omit ha hb in
/-- The signed rounding of `z / d` units is the nearest value. -/
theorem nearest_signedRound (z : Int) {d : Nat} (hd : 0 < d) :
    Nearest ((z : ℚ) / (d * 2 ^ 149)) (signedRound z d) := by
  have hz : (z : ℚ) / (d * 2 ^ 149) = signed (decide (z < 0)) ((z.natAbs : ℚ) / (d * 2 ^ 149)) := by
    rw [Nat.cast_natAbs, Int.cast_abs]
    rcases lt_or_ge z 0 with h | h
    · rw [abs_of_neg (by exact_mod_cast h), decide_eq_true h, signed, if_pos rfl, neg_div, neg_neg]
    · rw [abs_of_nonneg (by exact_mod_cast h), decide_eq_false (not_lt.mpr h)]
      rfl
  rw [hz]
  exact nearest_withSign hd _

omit ha hb in
/-- A zero of either sign is the rounding of zero. -/
theorem nearest_zero (s : Bool) : Nearest 0 (F32.withSign s 0) := by
  have h := nearest_withSign (n := 0) (d := 1) Nat.one_pos s
  rwa [roundMag_zero, Nat.cast_zero, zero_div, signed, neg_zero, ite_self] at h

theorem nearest_fadd : Nearest (F32.value a + F32.value b) (fadd a b) := by
  have hsum : F32.value a + F32.value b = ((F32.scaledInt a + F32.scaledInt b : ℤ) : ℚ) / ((1 : ℕ) * 2 ^ 149) := by
    rw [F32.value, F32.value, ← add_div, Nat.cast_one, one_mul, Int.cast_add]
  rw [hsum, fadd_finite ha hb]
  split
  case isTrue h =>
    rw [h, Int.cast_zero, zero_div]
    exact nearest_zero _
  case isFalse => exact nearest_signedRound _ Nat.one_pos

theorem nearest_fsub : Nearest (F32.value a - F32.value b) (fsub a b) := by
  have hdiff : F32.value a - F32.value b = ((F32.scaledInt a - F32.scaledInt b : ℤ) : ℚ) / ((1 : ℕ) * 2 ^ 149) := by
    rw [F32.value, F32.value, ← sub_div, Nat.cast_one, one_mul, Int.cast_sub]
  rw [hdiff, fsub_finite ha hb]
  split
  case isTrue h =>
    rw [h, Int.cast_zero, zero_div]
    exact nearest_zero _
  case isFalse => exact nearest_signedRound _ Nat.one_pos

theorem nearest_fmul : Nearest (F32.value a * F32.value b) (fmul a b) := by
  have hprod : F32.value a * F32.value b = signed (F32.neg? a != F32.neg? b)
      (((F32.scaled a * F32.scaled b : ℕ) : ℚ) / ((2 ^ 149 : ℕ) * 2 ^ 149)) := by
    rw [value_eq_signed a, value_eq_signed b, signed_mul, div_mul_div_comm, Nat.cast_mul, Nat.cast_pow, Nat.cast_ofNat]
    rfl
  rw [hprod, fmul_eq_withSign ha hb]
  exact nearest_withSign (by positivity) _

theorem nearest_fdiv (hb0 : F32.value b ≠ 0) : Nearest (F32.value a / F32.value b) (fdiv a b) := by
  have hz := isZero_false_of_value_ne hb0
  have hpos : 0 < F32.scaled b := by
    rw [scaled_eq]
    exact Nat.pos_of_ne_zero fun h => Bool.eq_false_iff.mp hz (by rw [F32.isZero, eq_zero_of_scaledOfMag h]; rfl)
  have hquot : F32.value a / F32.value b = signed (F32.neg? a != F32.neg? b)
      (((F32.scaled a * 2 ^ 149 : ℕ) : ℚ) / ((F32.scaled b : ℕ) * 2 ^ 149)) := by
    rw [value_eq_signed a, value_eq_signed b, signed_div, div_div_div_cancel_right₀ (by positivity), Nat.cast_mul,
      Nat.cast_pow, Nat.cast_ofNat, mul_div_mul_right _ _ (by positivity)]
    rfl
  rw [hquot, fdiv_eq_withSign ha hb hz]
  exact nearest_withSign hpos _

end

/-! ### Zeros, infinities and NaNs -/

theorem isInf_withSign (s : Bool) : F32.isInf (F32.withSign s F32.infMag) = true := by cases s <;> decide

theorem neg_withSign_infMag (s : Bool) : F32.neg? (F32.withSign s F32.infMag) = s := by cases s <;> decide

theorem neg_withSign_zero (s : Bool) : F32.neg? (F32.withSign s 0) = s := by cases s <;> decide

theorem neg_withSign_roundMag (s : Bool) (n d : Nat) : F32.neg? (F32.withSign s (F32.roundMag n d)) = s := by
  have hle := roundMag_le_infMag n d
  have hi := infMag_eq
  exact neg_withSign (by omega)

theorem withSign_and_zero (s s' : Bool) :
    F32.withSign (s && s') 0 = if (s && s') = true then 0x80000000#32 else 0#32 := by
  cases s <;> cases s' <;> rfl

/-- The NaN an operation answers is a quiet one: its upper bits are those of 0x7FC00000. -/
theorem quietNaN_nan (op : FOp) (a b : F32) : QuietNaN (Config.nan op a b) := by
  have hones : (0x7FC00000#32).extractLsb' 22 9 = BitVec.allOnes 9 := by decide
  unfold QuietNaN Config.nan
  simp only [BitVec.extractLsb'_or, hones, BitVec.or_allOnes, BitVec.allOnes_or]
  decide

section
variable {a b : F32}

theorem isInf_negate (a : F32) : F32.isInf (F32.negate a) = F32.isInf a := by
  unfold F32.isInf
  rw [mag_negate]

/-- Every operation answers a quiet NaN for a NaN operand. -/
theorem quietNaN_of_nan (h : F32.isNaN a = true ∨ F32.isNaN b = true) :
    ∀ y ∈ [fadd a b, fsub a b, fmul a b, fdiv a b], QuietNaN y := by
  have hor : (F32.isNaN a || F32.isNaN b) = true := by rwa [Bool.or_eq_true]
  have hadd : fadd a b = Config.nan .add a b := if_pos hor
  have hmul : fmul a b = Config.nan .mul a b := if_pos hor
  have hdiv : fdiv a b = Config.nan .div a b := if_pos hor
  have hsub : fsub a b = Config.nan .sub a b := by
    unfold fsub F32.sub F32.add
    rw [isNaN_negate, hor]
    simp
  simp only [List.mem_cons, List.not_mem_nil, or_false]
  rintro y (rfl | rfl | rfl | rfl)
  · exact hadd ▸ quietNaN_nan _ _ _
  · exact hsub ▸ quietNaN_nan _ _ _
  · exact hmul ▸ quietNaN_nan _ _ _
  · exact hdiv ▸ quietNaN_nan _ _ _

/-- Two infinite operands. -/
theorem infinite_operands (ha : F32.isInf a = true) (hb : F32.isInf b = true) :
    (if F32.neg? a = F32.neg? b then fadd a b = a ∧ QuietNaN (fsub a b) else fsub a b = a ∧ QuietNaN (fadd a b)) ∧
    F32.isInf (fmul a b) = true ∧ F32.neg? (fmul a b) = (F32.neg? a != F32.neg? b) ∧ QuietNaN (fdiv a b) := by
  have hbz : F32.isZero b = false := by
    unfold F32.isInf at hb
    unfold F32.isZero
    rw [beq_iff_eq] at hb
    rw [hb]
    rfl
  have hadd : fadd a b = if (F32.neg? a != F32.neg? b) = true then Config.nan .add a b else a := by
    simp [fadd, F32.add, notNaN_of_inf ha, notNaN_of_inf hb, ha, hb]
  have hsub : fsub a b = if (F32.neg? a != F32.neg? b) = true then a else Config.nan .sub a b := by
    simp only [fsub, F32.sub, F32.add, notNaN_of_inf ha, notNaN_of_inf hb, isNaN_negate, isInf_negate, ha, hb,
        neg_negate]
    cases F32.neg? a <;> cases F32.neg? b <;> rfl
  have hmul : fmul a b = F32.withSign (F32.neg? a != F32.neg? b) F32.infMag := by
    simp [fmul, F32.mul, notNaN_of_inf ha, notNaN_of_inf hb, ha, hbz]
  have hdiv : fdiv a b = Config.nan .div a b := by
    simp [fdiv, F32.div, notNaN_of_inf ha, notNaN_of_inf hb, ha, hb]
  refine ⟨?_, hmul ▸ isInf_withSign _, hmul ▸ neg_withSign_infMag _, hdiv ▸ quietNaN_nan _ _ _⟩
  rw [hadd, hsub]
  by_cases hs : F32.neg? a = F32.neg? b
  · rw [if_pos hs, hs, bne_self_eq_false, if_neg Bool.false_ne_true, if_neg Bool.false_ne_true]
    exact ⟨rfl, quietNaN_nan _ _ _⟩
  · rw [if_neg hs, bne_iff_ne.mpr hs, if_pos rfl, if_pos rfl]
    exact ⟨rfl, quietNaN_nan _ _ _⟩

/-- An infinite and a finite operand. -/
theorem infinite_finite_operands (ha : F32.isInf a = true) (hb : F32.isFinite b = true) :
    fadd a b = a ∧ fadd b a = a ∧ fsub a b = a ∧ fsub b a = a ^^^ 0x80000000#32 ∧
    (if F32.value b = 0 then QuietNaN (fmul a b) ∧ QuietNaN (fmul b a)
      else F32.isInf (fmul a b) = true ∧ F32.neg? (fmul a b) = (F32.neg? a != F32.neg? b) ∧ fmul b a = fmul a b) ∧
    F32.isInf (fdiv a b) = true ∧ F32.neg? (fdiv a b) = (F32.neg? a != F32.neg? b) ∧
    F32.isZero (fdiv b a) = true ∧ F32.neg? (fdiv b a) = (F32.neg? b != F32.neg? a) := by
  have hna := notNaN_of_inf ha
  have hnb := notNaN_of_finite hb
  have hib := notInf_of_finite hb
  have hdiv : fdiv a b = F32.withSign (F32.neg? a != F32.neg? b) F32.infMag := by
    simp [fdiv, F32.div, hna, hnb, ha, hib]
  have hdiv' : fdiv b a = F32.withSign (F32.neg? b != F32.neg? a) 0 := by
    simp [fdiv, F32.div, hna, hnb, ha, hib]
  refine ⟨?_, ?_, ?_, ?_, ?_, hdiv ▸ isInf_withSign _, hdiv ▸ neg_withSign_infMag _, hdiv' ▸ isZero_withSign_zero _,
    hdiv' ▸ neg_withSign_zero _⟩
  · simp [fadd, F32.add, hna, hnb, ha, hib]
  · simp [fadd, F32.add, hna, hnb, ha, hib]
  · simp [fsub, F32.sub, F32.add, isNaN_negate, isInf_negate, hna, hnb, ha, hib]
  · change fsub b a = F32.negate a
    simp [fsub, F32.sub, F32.add, isNaN_negate, isInf_negate, hna, hnb, ha, hib]
  · split
    case isTrue h0 =>
      have hz := value_eq_zero_iff.mp h0
      have hmul : fmul a b = Config.nan .mul a b := by simp [fmul, F32.mul, hna, hnb, ha, hz]
      have hmul' : fmul b a = Config.nan .mul b a := by simp [fmul, F32.mul, hna, hnb, ha, hib, hz]
      exact ⟨hmul ▸ quietNaN_nan _ _ _, hmul' ▸ quietNaN_nan _ _ _⟩
    case isFalse h0 =>
      have hz := isZero_false_of_value_ne h0
      have hmul : fmul a b = F32.withSign (F32.neg? a != F32.neg? b) F32.infMag := by
        simp [fmul, F32.mul, hna, hnb, ha, hz]
      have hmul' : fmul b a = F32.withSign (F32.neg? b != F32.neg? a) F32.infMag := by
        simp [fmul, F32.mul, hna, hnb, ha, hib, hz]
      exact ⟨hmul ▸ isInf_withSign _, hmul ▸ neg_withSign_infMag _, by rw [hmul, hmul', bne_comm]⟩

/-- A finite value over zero. -/
theorem fdiv_by_zero (ha : F32.isFinite a = true) (hb : F32.isFinite b = true) (hb0 : F32.value b = 0) :
    (F32.value a ≠ 0 → F32.isInf (fdiv a b) = true ∧ F32.neg? (fdiv a b) = (F32.neg? a != F32.neg? b)) ∧
      (F32.value a = 0 → QuietNaN (fdiv a b)) := by
  have hbz := value_eq_zero_iff.mp hb0
  have hdiv : fdiv a b = if F32.isZero a = true then Config.nan .div a b
      else F32.withSign (F32.neg? a != F32.neg? b) F32.infMag := by
    simp [fdiv, F32.div, notNaN_of_finite ha, notNaN_of_finite hb, notInf_of_finite ha, notInf_of_finite hb, hbz]
  rw [hdiv]
  refine ⟨fun h => ?_, fun h => ?_⟩
  · rw [isZero_false_of_value_ne h, if_neg Bool.false_ne_true]
    exact ⟨isInf_withSign _, neg_withSign_infMag _⟩
  · rw [value_eq_zero_iff.mp h, if_pos rfl]
    exact quietNaN_nan _ _ _

end

theorem scaledInt_sum_zero {a b : F32} (h : F32.value a + F32.value b = 0) : F32.scaledInt a + F32.scaledInt b = 0 := by
  rw [F32.value, F32.value, ← add_div, div_eq_zero_iff, or_iff_left (by positivity)] at h
  exact_mod_cast h

theorem scaledInt_diff_zero {a b : F32} (h : F32.value a - F32.value b = 0) :
    F32.scaledInt a - F32.scaledInt b = 0 := by
  rw [F32.value, F32.value, ← sub_div, div_eq_zero_iff, or_iff_left (by positivity)] at h
  exact_mod_cast h

/-- Settles O57: the nearest value by the rounding's specification, then the cases of zeros, infinities and NaNs. -/
theorem arithmeticIsCorrectlyRounded : Obligations.ArithmeticIsCorrectlyRounded := by
  unfold Obligations.ArithmeticIsCorrectlyRounded
  refine ⟨fun a b ha hb => ?_, fun a b ha hb => infinite_operands ha hb,
    fun a b ha hb => infinite_finite_operands ha hb, fun a b h => quietNaN_of_nan h⟩
  refine ⟨nearest_fadd ha hb, nearest_fsub ha hb, nearest_fmul ha hb, nearest_fdiv ha hb, fun h => ?_,
    fun h0 h => (fdiv_by_zero ha hb h0).1 h, fun h0 h => (fdiv_by_zero ha hb h0).2 h, fun h => ?_, ?_, fun h => ?_⟩
  · rw [fadd_finite ha hb, if_pos (scaledInt_sum_zero h), withSign_and_zero]
  · rw [fsub_finite ha hb, if_pos (scaledInt_diff_zero h), withSign_and_zero]
  · rw [fmul_eq_withSign ha hb, neg_withSign_roundMag]
  · rw [fdiv_eq_withSign ha hb (isZero_false_of_value_ne h), neg_withSign_roundMag]

end Sys2Proof.Proofs
end

section
/-! PROOFS. The envelope law, the noise generator and the square root (41_numerics.md R113 (b), R118, R119) on exact
values. -/

-- One theorem at a time: a waiting task holds a thread.
set_option Elab.async false

namespace Sys2Proof.Proofs

open Machine Witness Laws

/-! ### The envelope follower -/

/-- The follower's step: toward the input by the attack or the release coefficient, then the snap to zero. -/
theorem envTick_eq (env r aAtt aRel : F32) : envTick env r aAtt aRel =
    if flt (fadd r (fmul (if flt env r = true then aAtt else aRel) (fsub env r))) envFloor = true then zero
    else fadd r (fmul (if flt env r = true then aAtt else aRel) (fsub env r)) := rfl

section
variable {env r a : F32} (henv : F32.isFinite env = true) (hr : F32.isFinite r = true)
  (henv0 : fle zero env = true) (hr0 : fle zero r = true)

section
include henv hr henv0 hr0

/-- The difference of two non-negative values lies between their negative and positive bounds. -/
theorem fsub_between_of_nonneg : Between (F32.negate r) env (fsub env r) := by
  rw [le_iff_scaledInt rfl henv, scaledInt_zero] at henv0
  rw [le_iff_scaledInt rfl hr, scaledInt_zero] at hr0
  have hnr : F32.isFinite (F32.negate r) = true := (finite_negate r).trans hr
  refine ⟨hnr, henv, within_iff.mpr ⟨le_fsub henv hr hnr ?_, fsub_le henv hr henv ?_⟩⟩
  · rw [scaledInt_negate]
    omega
  · omega

/-- One step of the follower, before the snap, is not negative: the fraction of the difference is at least `-r`. -/
theorem envStep_nonneg (ha : unitInterval a = true) : fle zero (fadd r (fmul a (fsub env r))) = true := by
  have hd := fsub_between_of_nonneg henv hr henv0 hr0
  have haf := finite_of_unitInterval ha
  obtain ⟨ha0, ha1⟩ := (unitInterval_iff haf).mp ha
  obtain ⟨hdlo, hdhi⟩ := hd.scaledInt
  rw [le_iff_scaledInt rfl henv, scaledInt_zero] at henv0
  rw [le_iff_scaledInt rfl hr, scaledInt_zero] at hr0
  rw [scaledInt_negate] at hdlo
  have hnr : F32.isFinite (F32.negate r) = true := (finite_negate r).trans hr
  have hprod : Between (F32.negate r) env (fmul a (fsub env r)) := by
    refine ⟨hnr, henv, within_iff.mpr ⟨le_fmul haf hd.finite hnr ?_, fmul_le haf hd.finite henv ?_⟩⟩
    · rw [scaledInt_negate]
      nlinarith
    · nlinarith
  have hlo := hprod.scaledInt.1
  rw [scaledInt_negate] at hlo
  exact le_fadd hr hprod.finite rfl (by rw [scaledInt_zero]; omega)

end

theorem fsub_zero_of_pos (henv : F32.isFinite env = true) (h : flt zero env = true) : fsub env zero = env := by
  rw [lt_iff_scaledInt rfl henv, scaledInt_zero] at h
  refine fsub_exact henv rfl henv (Bool.eq_false_iff.mpr fun hz => ?_) (by rw [scaledInt_zero, sub_zero])
  rw [(scaledInt_eq_zero_iff env).mpr hz] at h
  exact absurd h (lt_irrefl 0)

/-- Adding to +0.0 returns the value, but -0.0 as +0.0. -/
theorem fadd_zero_left {x : F32} (hx : F32.isFinite x = true) :
    fadd zero x = x ∨ (F32.isZero x = true ∧ F32.isZero (fadd zero x) = true) := by
  by_cases hz : F32.isZero x = true
  · refine Or.inr ⟨hz, ?_⟩
    rw [fadd_finite rfl hx, scaledInt_zero, (scaledInt_eq_zero_iff x).mpr hz, if_pos (add_zero 0)]
    exact isZero_withSign_zero _
  · exact Or.inl (fadd_exact rfl hx hx (Bool.eq_false_iff.mpr hz) (by rw [scaledInt_zero, zero_add]))

theorem finite_of_isZero {x : F32} (h : F32.isZero x = true) : F32.isFinite x = true := by
  rw [finite_iff, beq_iff_eq.mp h]
  decide

theorem lt_floor_of_isZero {x : F32} (h : F32.isZero x = true) : flt x envFloor = true := by
  rw [lt_iff_scaledInt (finite_of_isZero h) rfl, (scaledInt_eq_zero_iff x).mpr h]
  decide +kernel

/-- With a silent input the envelope is the product, or zero below the floor. -/
theorem envTick_silent {aAtt : F32} (henv : F32.isFinite env = true) (hpos : flt zero env = true)
    (ha : unitInterval a = true) :
    envTick env zero aAtt a = if flt (fmul a env) envFloor = true then zero else fmul a env := by
  have hnot : flt env zero = false := not_lt_of_le (le_of_lt hpos)
  have hprod : F32.isFinite (fmul a env) = true :=
    finite_of_within rfl henv
      (fmul_within ha henv (within_iff.mpr ⟨le_of_lt hpos, (Between.point henv).le.2⟩))
  unfold envTick
  rw [hnot, fsub_zero_of_pos henv hpos]
  obtain h | ⟨hz, hz'⟩ := fadd_zero_left hprod
  · exact congrArg (fun e => if flt e envFloor = true then zero else e) h
  · exact (if_pos (lt_floor_of_isZero hz')).trans (if_pos (lt_floor_of_isZero hz)).symm

end

/-- Settles O52: the step is not negative before the snap; the snap gives zero or at least the floor. -/
theorem envelopeStep : Obligations.EnvelopeStep := by
  unfold Obligations.EnvelopeStep
  intro env r aAtt aRel henv hr henv0 hr0 hatt hrel
  have hcoef : unitInterval (if flt env r = true then aAtt else aRel) = true := by
    split
    · exact hatt
    · exact hrel
  have hstep := envStep_nonneg henv hr henv0 hr0 hcoef
  refine ⟨?_, ?_, fun h => ?_, fun h => ?_, fun h => envTick_silent henv h hrel⟩
  · rw [envTick_eq]
    generalize fadd r _ = e at hstep
    split
    · rfl
    · exact hstep
  · rw [envTick_eq]
    generalize fadd r _ = e at hstep
    split
    case isTrue => exact Or.inl rfl
    case isFalse h => exact Or.inr (le_of_not_lt (not_isNaN_of_le hstep).2 rfl (Bool.eq_false_iff.mpr h))
  · rw [envTick_eq, if_pos h]
    rfl
  · rw [envTick_eq, if_neg (Bool.eq_false_iff.mp h)]
    rfl

/-! ### The noise generator -/

/-- A whole number of at most `2^23` times a power of two is a magnitude. -/
theorem exists_mag_mul_two_pow {k e : Nat} (hk : 0 < k) (hmax : k ≤ 2 ^ 23) (he : 23 ≤ e) (he' : e ≤ 200) :
    ∃ m, m < F32.infMag ∧ scaledOfMag m = k * 2 ^ e := by
  have hlog : k.log2 ≤ 23 := by
    by_contra hgt
    have h := Nat.log2_self_le hk.ne'
    have hpow : 2 ^ 24 ≤ 2 ^ k.log2 := Nat.pow_le_pow_right (by decide) (by omega)
    omega
  have hlow : 2 ^ k.log2 ≤ k := Nat.log2_self_le hk.ne'
  have hhigh : k < 2 ^ (k.log2 + 1) := (Nat.log2_lt hk.ne').mp (Nat.lt_succ_self _)
  have hq : 2 ^ 23 ≤ k * 2 ^ (23 - k.log2) ∧ k * 2 ^ (23 - k.log2) ≤ 2 ^ 24 := by
    constructor
    · calc 2 ^ 23 = 2 ^ k.log2 * 2 ^ (23 - k.log2) := by rw [← pow_add]; congr 1; omega
        _ ≤ _ := Nat.mul_le_mul_right _ hlow
    · calc _ ≤ 2 ^ (k.log2 + 1) * 2 ^ (23 - k.log2) := Nat.mul_le_mul_right _ hhigh.le
        _ = 2 ^ 24 := by rw [← pow_add]; congr 1; omega
  refine ⟨(e - 23 + k.log2) * 2 ^ 23 + k * 2 ^ (23 - k.log2), ?_, ?_⟩
  · rw [infMag_eq]
    generalize k * 2 ^ (23 - k.log2) = q at hq
    omega
  · rw [scaledOfMag_compose hq.2 (Or.inr hq.1), mul_assoc, ← pow_add]
    congr 2
    omega

/-- The conversion of a natural number is exact up to `2^23`. -/
theorem value_ofNat {j : Nat} (hmax : j ≤ 2 ^ 23) : F32.value (F32.ofNat j) = j := by
  apply value_eq_natCast
  unfold F32.ofNat
  rcases Nat.eq_zero_or_pos j with rfl | hj
  · rw [Nat.zero_mul, roundMag_zero, scaledInt_withSign_zero, Nat.cast_zero, zero_mul]
  · obtain ⟨m, hm, hval⟩ := exists_mag_mul_two_pow (e := 149) hj hmax (by decide) (by decide)
    have hround : F32.roundMag (j * 2 ^ 149) 1 = m := by
      rw [← hval]
      simpa using roundMag_exact Nat.one_pos hm.le
    rw [hround, scaledInt_withSign (hm.trans (by decide)), if_neg Bool.false_ne_true, hval, Nat.cast_mul, Nat.cast_pow,
      Nat.cast_ofNat]

/-- The conversion is exact. -/
theorem scaledInt_ofQ23 {m : Int} (hlo : -(2 ^ 23) ≤ m) (hhi : m ≤ 2 ^ 23) :
    F32.isFinite (F32.ofQ23 m) = true ∧ F32.scaledInt (F32.ofQ23 m) = m * 2 ^ 126 := by
  unfold F32.ofQ23
  split
  case isTrue h =>
    rw [h]
    decide
  case isFalse h =>
    obtain ⟨k, hk, hval⟩ := exists_mag_mul_two_pow (k := m.natAbs) (e := 126) (by omega) (by omega) (by decide)
      (by decide)
    have hround : F32.roundMag (m.natAbs * 2 ^ 126) 1 = k := by
      rw [← hval]
      simpa using roundMag_exact Nat.one_pos hk.le
    rw [hround]
    refine ⟨finite_withSign hk, ?_⟩
    rw [scaledInt_withSign (hk.trans (by decide)), hval, Nat.cast_mul, Int.natCast_natAbs, Nat.cast_pow, Nat.cast_ofNat]
    rcases lt_or_ge m 0 with hneg | hpos
    · rw [if_pos (decide_eq_true hneg), abs_of_neg hneg, neg_mul, neg_neg]
    · rw [if_neg (by rw [decide_eq_true_iff]; omega), abs_of_nonneg hpos]

theorem value_ofQ23 {m : Int} (hlo : -(2 ^ 23) ≤ m) (hhi : m ≤ 2 ^ 23) :
    F32.value (F32.ofQ23 m) = (m : ℚ) / 2 ^ 23 := by
  rw [F32.value, (scaledInt_ofQ23 hlo hhi).2, show (149 : ℕ) = 23 + 126 from rfl, pow_add, Int.cast_mul, Int.cast_pow,
    Int.cast_ofNat, mul_div_mul_right _ _ (by positivity)]

theorem lcgSample_eq (s : Word) : lcgSample s = F32.ofQ23 (((s.toNat / 256 : Nat) : Int) - 8388608) := by
  unfold lcgSample
  rw [BitVec.toNat_ushiftRight, Nat.shiftRight_eq_div_pow]

theorem lcgNext_toNat (s : Word) : (lcgNext s).toNat = (s.toNat * 1664525 + 1013904223) % 2 ^ 32 := by
  unfold lcgNext
  rw [BitVec.toNat_add, BitVec.toNat_mul, Nat.mod_add_mod]
  rfl

/-- Every word is the successor of a word: the multiplier is odd. -/
theorem exists_lcgNext (t : Word) : ∃ s, lcgNext s = t := by
  refine ⟨(t - lcgC) * 4276115653#32, ?_⟩
  unfold lcgNext
  rw [BitVec.mul_assoc, show (4276115653#32 : Word) * lcgA = 1#32 by decide, BitVec.mul_one, BitVec.sub_add_cancel]

/-- Settles O53: the sample by exact conversion; a sample is drawn by inverting the generator on its upper bits. -/
theorem noiseSampleIsExact : Obligations.NoiseSampleIsExact := by
  unfold Obligations.NoiseSampleIsExact
  refine ⟨fun s => ?_, fun m hlo hhi => ?_⟩
  · have hs := s.isLt
    have hlow : -(2 ^ 23) ≤ ((s.toNat / 256 : Nat) : Int) - 8388608 := by omega
    have hhigh : ((s.toNat / 256 : Nat) : Int) - 8388608 < 2 ^ 23 := by omega
    rw [lcgSample_eq, value_ofQ23 hlow hhigh.le]
    refine ⟨lcgNext_toNat s, (scaledInt_ofQ23 hlow hhigh.le).1, by push_cast; rfl, ?_, ?_⟩
    · rw [le_div_iff₀ (by positivity)]
      exact_mod_cast hlow
    · rw [div_lt_one (by positivity)]
      exact_mod_cast hhigh
  · obtain ⟨s, hs⟩ := exists_lcgNext (BitVec.ofNat 32 ((m + 2 ^ 23).toNat * 256))
    refine ⟨s, ?_⟩
    have hword : (BitVec.ofNat 32 ((m + 2 ^ 23).toNat * 256)).toNat / 256 = (m + 2 ^ 23).toNat := by
      rw [BitVec.toNat_ofNat]
      omega
    rw [hs, lcgSample_eq, hword, Int.toNat_of_nonneg (by omega), ← value_ofQ23 hlo hhi.le]
    congr 2
    omega

end Sys2Proof.Proofs
end

section
/-! PROOFS. The square root (41_numerics.md R113 (b)): the integer root with a sticky bit lies on the same side of every
integer as the exact root, and the midpoints between neighbouring results are integers, so the rounding of the one is
the rounding of the other. -/

-- One theorem at a time: a waiting task holds a thread.
set_option Elab.async false

namespace Sys2Proof.Proofs

open Machine Witness Laws

/-! ### The integer root -/

/-- The digit-by-digit root keeps the root between the digits found and those with all further ones. -/
theorem isqrtFrom_spec (n : Nat) {k r : Nat} (hlo : r * r ≤ n) (hhi : n < (r + 2 ^ k) * (r + 2 ^ k)) :
    isqrtFrom n k r * isqrtFrom n k r ≤ n ∧ n < (isqrtFrom n k r + 1) * (isqrtFrom n k r + 1) := by
  induction k generalizing r with
  | zero => exact ⟨hlo, hhi⟩
  | succ k ih =>
    have hstep : isqrtFrom n (k + 1) r =
        isqrtFrom n k (if (r + 2 ^ k) * (r + 2 ^ k) ≤ n then r + 2 ^ k else r) := rfl
    rw [hstep]
    by_cases h : (r + 2 ^ k) * (r + 2 ^ k) ≤ n
    · rw [if_pos h]
      refine ih h ?_
      rwa [Nat.add_assoc, ← Nat.two_mul, ← pow_succ']
    · rw [if_neg h]
      exact ih hlo (not_le.mp h)

theorem isqrt_eq_sqrt {n : Nat} (hn : n < 2 ^ 256 * 2 ^ 256) : isqrt n = Nat.sqrt n := by
  have h := isqrtFrom_spec n (k := 256) (r := 0) (Nat.zero_le _) (by rwa [zero_add])
  exact Nat.eq_sqrt.mpr h

/-! ### Rounding a real number through a rational on the same side of every integer -/

/-- From magnitude `2^25` on the values are even numbers of units. -/
theorem even_scaledOfMag {m : Nat} (hm : 2 ^ 25 ≤ m) : Even (scaledOfMag m) := by
  obtain ⟨e, he⟩ : ∃ e, m / 2 ^ 23 = e + 2 := ⟨m / 2 ^ 23 - 2, by omega⟩
  unfold scaledOfMag
  rw [he, if_neg (by omega), Nat.shiftLeft_eq, show e + 2 - 1 = e + 1 from rfl]
  exact (even_two.pow_of_ne_zero (Nat.succ_ne_zero e)).mul_left _

section
variable {n : Nat} {x : ℝ}
  (hle : ∀ c : ℤ, 2 * c ≤ n → (c : ℝ) ≤ x) (hge : ∀ c : ℤ, (n : ℤ) ≤ 2 * c → x ≤ c)
      (hbig : 2 * scaledOfMag (2 ^ 25) ≤ n)
include hle hge hbig

/-- The rounding of `n / 2` is a value nearest to `x`. -/
theorem roundMag_nearest_real (hfin : F32.roundMag n 2 < F32.infMag) (w : F32) :
    |(scaledOfMag (F32.roundMag n 2) : ℝ) - x| ≤ |(F32.scaledInt w : ℝ) - x| := by
  obtain ⟨lo, hlo, hhi, heq⟩ := roundMag_spec n (d := 2) two_pos
  have hlo25 : 2 ^ 25 ≤ lo := by
    by_contra hlt
    have hmono := scaledOfMag_strictMono.monotone (show lo + 1 ≤ 2 ^ 25 by omega)
    omega
  obtain ⟨c, hc⟩ := (even_scaledOfMag hlo25).add (even_scaledOfMag (show 2 ^ 25 ≤ lo + 1 by omega))
  have hxlo : (scaledOfMag lo : ℝ) ≤ x := by exact_mod_cast hle (scaledOfMag lo) (by omega)
  have hxhi : x ≤ (scaledOfMag (lo + 1) : ℝ) := by exact_mod_cast hge (scaledOfMag (lo + 1)) (by omega)
  have hcr : (scaledOfMag lo : ℝ) + scaledOfMag (lo + 1) = c + c := by exact_mod_cast hc
  have hw : F32.scaledInt w ≤ scaledOfMag lo ∨ (scaledOfMag (lo + 1) : ℤ) ≤ F32.scaledInt w := by
    rcases sign_cases w with ⟨-, h⟩ | ⟨-, h⟩ <;> rw [h]
    · rcases Nat.lt_or_ge lo (F32.mag w) with hm | hm
      · exact Or.inr (by exact_mod_cast scaledOfMag_strictMono.monotone hm)
      · exact Or.inl (by exact_mod_cast scaledOfMag_strictMono.monotone hm)
    · left
      omega
  split at heq
  case isTrue hup =>
    have hr : F32.roundMag n 2 = lo + 1 := by omega
    have hcx : (c : ℝ) ≤ x := by exact_mod_cast hle c (by omega)
    rw [hr, abs_of_nonneg (by linarith)]
    rcases hw with h | h
    · have h' : (F32.scaledInt w : ℝ) ≤ scaledOfMag lo := by exact_mod_cast h
      rw [abs_of_nonpos (by linarith)]
      linarith
    · have h' : (scaledOfMag (lo + 1) : ℝ) ≤ F32.scaledInt w := by exact_mod_cast h
      rw [abs_of_nonneg (by linarith)]
      linarith
  case isFalse hdown =>
    have hr : F32.roundMag n 2 = lo := by omega
    have hcx : x ≤ (c : ℝ) := by exact_mod_cast hge c (by omega)
    rw [hr, abs_of_nonpos (by linarith)]
    rcases hw with h | h
    · have h' : (F32.scaledInt w : ℝ) ≤ scaledOfMag lo := by exact_mod_cast h
      rw [abs_of_nonpos (by linarith)]
      linarith
    · have h' : (scaledOfMag (lo + 1) : ℝ) ≤ F32.scaledInt w := by exact_mod_cast h
      rw [abs_of_nonneg (by linarith)]
      linarith

end

/-! ### The square root -/

/-- Twice the integer root, with a sticky bit when the root is not exact. -/
def stickyRoot (m : Nat) : Nat := 2 * Nat.sqrt m + if Nat.sqrt m * Nat.sqrt m = m then 0 else 1

/-- Half the sticky root lies on the same side of every integer as the exact root. -/
theorem le_sqrt_of_le_stickyRoot {m : Nat} {c : ℤ} (h : 2 * c ≤ stickyRoot m) : (c : ℝ) ≤ Real.sqrt m := by
  have hc : c ≤ Nat.sqrt m := by
    unfold stickyRoot at h
    split at h <;> omega
  have hcr : (c : ℝ) ≤ Nat.sqrt m := by exact_mod_cast hc
  exact hcr.trans Real.nat_sqrt_le_real_sqrt

theorem sqrt_le_of_stickyRoot_le {m : Nat} {c : ℤ} (h : (stickyRoot m : ℤ) ≤ 2 * c) : Real.sqrt m ≤ c := by
  unfold stickyRoot at h
  split at h
  case isTrue hsq =>
    have hc : (Nat.sqrt m : ℝ) ≤ c := by exact_mod_cast (show (Nat.sqrt m : ℤ) ≤ c by omega)
    refine Real.sqrt_le_iff.mpr ⟨(Nat.cast_nonneg _).trans hc, ?_⟩
    calc (m : ℝ) = Nat.sqrt m * Nat.sqrt m := by exact_mod_cast hsq.symm
      _ ≤ c * c := mul_self_le_mul_self (Nat.cast_nonneg _) hc
      _ = (c : ℝ) ^ 2 := (sq _).symm
  case isFalse =>
    have hc : (Nat.sqrt m : ℝ) + 1 ≤ c := by exact_mod_cast (show (Nat.sqrt m : ℤ) + 1 ≤ c by omega)
    exact Real.real_sqrt_le_nat_sqrt_succ.trans hc

/-- The radicand in units of 2^-298, for a non-zero finite value. -/
theorem radicand_bounds {a : F32} (ha : F32.isFinite a = true) (h0 : F32.isZero a = false) :
    2 ^ 149 ≤ F32.scaled a * 2 ^ 149 ∧ F32.scaled a * 2 ^ 149 < 2 ^ 213 * 2 ^ 213 := by
  have hpos : 0 < F32.scaled a := by
    rw [scaled_eq]
    exact Nat.pos_of_ne_zero fun h => Bool.eq_false_iff.mp h0 (by rw [F32.isZero, eq_zero_of_scaledOfMag h]; rfl)
  have hlt : F32.scaled a < scaledOfMag F32.infMag := by
    rw [scaled_eq]
    exact scaledOfMag_strictMono (finite_iff.mp ha)
  refine ⟨Nat.le_mul_of_pos_left _ hpos, ?_⟩
  calc F32.scaled a * 2 ^ 149 < scaledOfMag F32.infMag * 2 ^ 149 := Nat.mul_lt_mul_of_pos_right hlt (by positivity)
    _ = 2 ^ 213 * 2 ^ 213 := by decide +kernel

theorem stickyRoot_bounds {m : Nat} (hlo : 2 ^ 149 ≤ m) (hhi : m < 2 ^ 213 * 2 ^ 213) :
    2 * scaledOfMag (2 ^ 25) ≤ stickyRoot m ∧ stickyRoot m < 2 * ((2 ^ 25 - 1) * 2 ^ 252) := by
  have h1 : scaledOfMag (2 ^ 25) ≤ Nat.sqrt m := Nat.le_sqrt.mpr (le_trans (by decide) hlo)
  have h2 : Nat.sqrt m < 2 ^ 213 := Nat.sqrt_lt.mpr hhi
  have h3 : 2 ^ 213 < (2 ^ 25 - 1) * 2 ^ 252 := by decide
  unfold stickyRoot
  generalize scaledOfMag (2 ^ 25) = p at *
  generalize (2 ^ 25 - 1) * 2 ^ 252 = q at *
  generalize (2 : ℕ) ^ 213 = v at *
  split <;> omega

theorem sign_of_nonneg {a : F32} (h0 : F32.isZero a = false) (hpos : 0 ≤ F32.value a) : F32.neg? a = false := by
  rw [← value_zero, value_le_iff_scaledInt, scaledInt_zero, scaledInt_eq] at hpos
  refine Bool.eq_false_iff.mpr fun hneg => ?_
  rw [if_pos hneg] at hpos
  have hm : scaledOfMag (F32.mag a) = 0 := by omega
  rw [F32.isZero, eq_zero_of_scaledOfMag hm] at h0
  cases h0

theorem fsqrt_eq {a : F32} (ha : F32.isFinite a = true) (h0 : F32.isZero a = false) (hpos : 0 ≤ F32.value a) :
    fsqrt a = F32.withSign false (F32.roundMag (stickyRoot (F32.scaled a * 2 ^ 149)) 2) := by
  have hroot : isqrt (F32.scaled a * 2 ^ 149) = Nat.sqrt (F32.scaled a * 2 ^ 149) :=
    isqrt_eq_sqrt ((radicand_bounds ha h0).2.trans (by decide))
  unfold fsqrt F32.sqrt stickyRoot
  simp only [notNaN_of_finite ha, notInf_of_finite ha, h0, sign_of_nonneg h0 hpos, Bool.false_eq_true, if_false, hroot]

/-- The exact root in units of 2^-149. -/
theorem sqrt_value {a : F32} (h0 : F32.isZero a = false) (hpos : 0 ≤ F32.value a) :
    Real.sqrt ((F32.value a : ℚ) : ℝ) = Real.sqrt ((F32.scaled a * 2 ^ 149 : ℕ) : ℝ) / 2 ^ 149 := by
  have hval : ((F32.value a : ℚ) : ℝ) = ((F32.scaled a * 2 ^ 149 : ℕ) : ℝ) / (2 ^ 149) ^ 2 := by
    rw [value_real, scaledInt_eq, sign_of_nonneg h0 hpos, if_neg Bool.false_ne_true, ← scaled_eq, Nat.cast_mul,
      Nat.cast_pow, Nat.cast_ofNat, sq, mul_div_mul_right _ _ (by positivity), Int.cast_natCast]
  rw [hval, Real.sqrt_div (Nat.cast_nonneg _), Real.sqrt_sq (by positivity)]

/-- Settles O58: a zero is its own root; otherwise the sticky root rounds as the exact root. -/
theorem squareRootIsCorrectlyRounded : Obligations.SquareRootIsCorrectlyRounded := by
  unfold Obligations.SquareRootIsCorrectlyRounded
  intro a w ha hpos hw
  cases h0 : F32.isZero a with
  | true =>
    have hroot : fsqrt a = a := by simp [fsqrt, F32.sqrt, notNaN_of_finite ha, h0]
    have hval : F32.value a = 0 := value_eq_zero_iff.mpr h0
    rw [hroot, hval, Rat.cast_zero, Real.sqrt_zero, sub_zero, abs_zero]
    exact ⟨ha, abs_nonneg _⟩
  | false =>
    obtain ⟨hlo, hhi⟩ := radicand_bounds ha h0
    obtain ⟨hbig, hsmall⟩ := stickyRoot_bounds hlo hhi
    have hfin : F32.roundMag (stickyRoot (F32.scaled a * 2 ^ 149)) 2 < F32.infMag :=
      lt_of_le_of_ne (roundMag_le_infMag _ _) fun h => absurd ((roundMag_eq_infMag_iff two_pos).mp h) (by omega)
    rw [fsqrt_eq ha h0 hpos, sqrt_value h0 hpos, value_real, value_real,
      scaledInt_withSign (hfin.trans (by decide)), if_neg Bool.false_ne_true, ← sub_div, ← sub_div, abs_div, abs_div]
    refine ⟨finite_withSign hfin, (div_le_div_iff_of_pos_right (by positivity)).mpr ?_⟩
    have h := roundMag_nearest_real (n := stickyRoot (F32.scaled a * 2 ^ 149)) (fun c h => le_sqrt_of_le_stickyRoot h)
      (fun c h => sqrt_le_of_stickyRoot_le h) hbig hfin w
    exact_mod_cast h

end Sys2Proof.Proofs
end

section
/-! PROOFS. The filter bank's cutoffs and coefficients (43_filter_bank.md R154 to R161, 41_numerics.md R116), the
neutral filter bank (R163), and PREPARE (40_commands.md R97). -/

-- One theorem at a time: a waiting task holds a thread.
set_option Elab.async false

namespace Sys2Proof.Proofs

open Machine Witness Laws

/-! ### The separation rule of dual-sweep -/

theorem fbHpCutoff_between {m : F32} (hm : unitInterval m = true) : Between fMin fHpTop (fbHpCutoff m) := by
  have hsum : Between fMin fHpTop (fadd fMin (fmul m (fsub fHpTop fMin))) :=
    (Between.point rfl).fadd ((between_of_unitInterval hm).fmul (lo := zero) (hi := 0x459BA000#32)
      (Between.point (c := fsub fHpTop fMin) (by decide +kernel)) ⟨scaledInt_zero.ge, by decide +kernel⟩
      (by decide +kernel)) (by decide +kernel)
  unfold fbHpCutoff
  rwa [clampF_of_within (hsum.mono (lo := fMin) (hi := fMax) (by decide)).2.2]

/-- The separated lowpass cutoff is not below the limit. -/
theorem le_fbSeparate {hpfc lpfc : F32} (hhp : Between fMin fHpTop hpfc) (hlp : within fMin fMax lpfc = true) :
    fle (fadd hpfc sepMin) (fbSeparate hpfc lpfc) = true := by
  have hlim : Between fMin fMax (fadd hpfc sepMin) := hhp.fadd (Between.point (c := sepMin) rfl) (by decide +kernel)
  have heq : fbSeparate hpfc lpfc = clampF (if flt lpfc (fadd hpfc sepMin) = true then fadd hpfc sepMin else lpfc) :=
    rfl
  rw [heq]
  by_cases h : flt lpfc (fadd hpfc sepMin) = true
  · rw [if_pos h, clampF_of_within hlim.2.2]
    exact (Between.point hlim.finite).le.1
  · rw [if_neg h, clampF_of_within hlp]
    exact le_of_not_lt (notNaN_of_within hlp) (notNaN_of_finite hlim.finite) (Bool.eq_false_iff.mpr h)

/-- Settles O49: the limit lies below `fMax`, so that clamping does not lower it. -/
theorem dualSweepKeepsSeparation : Obligations.DualSweepKeepsSeparation := by
  unfold Obligations.DualSweepKeepsSeparation
  intro a p htype hp
  have hm := fbMapping_unitInterval (a := a) hp
  have hhp := fbHpCutoff_between hm
  have hlp : fbCutoff a p .lp = fbSeparate (fbHpCutoff (fbMapping a p)) (fbLpCutoff (fbMapping a p)) := if_pos htype
  rw [hlp]
  exact ⟨le_fbSeparate hhp (fbLpCutoff_within hm), hhp.le.2⟩

/-! ### The coefficients of a section -/

/-- The argument of the tangent for an accepted cutoff and rate. -/
theorem tanArg_between {fs fc : F32} (hfs : fsOk fs = true) (hfc : within fMin fMax fc = true) :
    Between 0x39000000#32 0x3FB66666#32 (fdiv (fmul pi32 fc) fs) :=
  ((Between.point (c := pi32) rfl).fmul (lo := 0x427B0000#32) (hi := 0x47757000#32)
    (y := fc) (c := fMin) (d := fMax) ⟨rfl, rfl, hfc⟩ (by decide +kernel) (by decide +kernel)).fdiv
    (between_of_fsOk hfs) ⟨by decide +kernel, scaledInt_fsMin_pos⟩ (by decide +kernel)

/-- The tangent is at most 16 up to 1.425: there the cosine is at least 1/16. -/
theorem tan_le_sixteen {x : ℝ} (hx : 0 ≤ x) (hmax : x ≤ 57 / 40) : Real.tan x ≤ 16 := by
  have hpi := Real.pi_gt_d2
  have hpi4 := Real.pi_le_four
  have hcos : 1 / 16 ≤ Real.cos x := by
    rw [← Real.sin_pi_div_two_sub]
    have hjordan := Real.mul_le_sin (x := Real.pi / 2 - x) (by linarith) (by linarith)
    have hslope : 1 / 2 ≤ 2 / Real.pi := by
      rw [div_le_div_iff₀ two_pos Real.pi_pos]
      linarith
    have hgap : (29 : ℝ) / 200 ≤ Real.pi / 2 - x := by linarith
    calc (1 : ℝ) / 16 ≤ 1 / 2 * (29 / 200) := by norm_num
      _ ≤ 2 / Real.pi * (Real.pi / 2 - x) := mul_le_mul hslope hgap (by norm_num) (by positivity)
      _ ≤ _ := hjordan
  have hcpos : 0 < Real.cos x := by linarith
  rw [Real.tan_eq_sin_div_cos, div_le_iff₀ hcpos]
  linarith [Real.sin_le_one x]

/-- The tangent lies between its argument and 16. -/
theorem tan_between {N : Numerics} (hN : N.Admissible) {x : F32} (hx : Between 0x39000000#32 0x3FB66666#32 x) :
    Between 0x39000000#32 0x41800000#32 (N.tan x) := by
  have hfaithful := hN.tan_faithful x hx.finite
  obtain ⟨hlo, hhi⟩ := hx.scaledInt
  have hmax : ((F32.value x : ℚ) : ℝ) ≤ 57 / 40 := by
    refine (value_le_real hhi).trans ?_
    have h : F32.scaledInt 0x3FB66666#32 * 40 ≤ 57 * 2 ^ 149 := by decide +kernel
    rw [value_real, div_le_div_iff₀ (by positivity) (by norm_num)]
    exact_mod_cast h
  have hmin : (0 : ℝ) ≤ ((F32.value x : ℚ) : ℝ) := by
    have h := value_le_real (x := zero) (y := x) (le_trans (by decide +kernel) hlo)
    rwa [value_zero, Rat.cast_zero] at h
  have hpi := Real.pi_gt_d2
  have hsixteen : F32.value 0x41800000#32 = 16 := value_eq_natCast (k := 16) (by decide)
  refine ⟨rfl, rfl, within_iff.mpr ⟨le_faithful hfaithful rfl ?_, faithful_le hfaithful rfl ?_⟩⟩
  · exact (value_le_real hlo).trans (Real.le_tan hmin (by linarith))
  · rw [hsixteen]
    exact_mod_cast tan_le_sixteen hmin hmax

/-- The gain factor's denominator is a number from 1 to 290. -/
theorem svfGain_between {g r2 : F32} (hg : Between 0x39000000#32 0x41800000#32 g) (hr2 : Between 0x3D800000#32 two r2) :
    Between 0x3B000000#32 one (fdiv one (fadd (fadd one (fmul r2 g)) (fmul g g))) := by
  have hlin : Between zero 0x42000000#32 (fmul r2 g) := hr2.fmul hg (by decide +kernel) (by decide +kernel)
  have hsq : Between zero 0x43800000#32 (fmul g g) := hg.fmul hg (by decide +kernel) (by decide +kernel)
  have hden : Between one 0x43910000#32 (fadd (fadd one (fmul r2 g)) (fmul g g)) :=
    ((Between.point (c := one) rfl).fadd (lo := one) (hi := 0x42040000#32) hlin (by decide +kernel)).fadd hsq
      (by decide +kernel)
  exact (Between.point (c := one) rfl).fdiv hden (by decide +kernel) (by decide +kernel)

/-- Settles O50: the operation sequence by definition; the bounds by interval arithmetic from the tangent's. -/
theorem sectionCoefficientsAreStable : Obligations.SectionCoefficientsAreStable := by
  unfold Obligations.SectionCoefficientsAreStable
  refine ⟨?_, fun N fs fc q hN hfs hfc hq => ?_⟩
  · rintro N fs fc q _ _ rfl rfl
    rfl
  · have hg : Between 0x39000000#32 0x41800000#32 (svfCoef N fs fc q).g := tan_between hN (tanArg_between hfs hfc)
    have hr2 : Between 0x3D800000#32 two (svfCoef N fs fc q).r2 :=
      (Between.point (c := one) rfl).fdiv ⟨rfl, rfl, hq⟩ (by decide +kernel) (by decide +kernel)
    have hh : Between 0x3B000000#32 one (svfCoef N fs fc q).h := svfGain_between hg hr2
    exact ⟨lt_of_lt_of_le (by decide) hg.le.1, hg.finite, lt_of_lt_of_le (by decide) hr2.le.1, hr2.le.2,
      lt_of_lt_of_le (by decide) hh.le.1, hh.le.2⟩

/-! ### The neutral filter bank -/

/-- Every stage of the bank is inactive. -/
def AllOff (f : Fb) : Prop := ∀ t k, ((f.get t).get k).act = false

theorem stage_tick_off {st : Stage} (h : st.act = false) (c : Chan) (t : Chain) (x : F32) : st.tick c t x = (st, x) :=
  if_neg (Bool.eq_false_iff.mp h)

theorem quad_scan_off {q : Quad Stage} (h : ∀ k, (q.get k).act = false) (c : Chan) (t : Chain) (x : F32) :
    q.scan (Stage.tick c t) x = (q, x) := by
  have h0 := stage_tick_off (h 0) c t x
  have h1 := stage_tick_off (h 1) c t x
  have h2 := stage_tick_off (h 2) c t x
  have h3 := stage_tick_off (h 3) c t x
  simp only [Quad.get] at h0 h1 h2 h3
  simp only [Quad.scan, h0, h1, h2, h3]

theorem fbTick_off {f : Fb} (h : AllOff f) (c : Chan) (x : F32) : fbTick c f x = (f, x) := by
  have hhp : f.hp.scan (Stage.tick c .hp) x = (f.hp, x) := quad_scan_off (h .hp) c .hp x
  have hlp : f.lp.scan (Stage.tick c .lp) x = (f.lp, x) := quad_scan_off (h .lp) c .lp x
  simp only [fbTick, hhp, hlp]

/-- An inactive filter bank passes the bits of a frame and keeps its state (R160, R163). -/
theorem fbFrame_off {f : Fb} (h : AllOff f) (stereo : Bool) (x : Pair F32) : fbFrame stereo f x = (f, x) := by
  simp only [fbFrame, fbTick_off h, ite_self]

/-- A control product below the threshold engages no chain (R152). -/
theorem fbUpdate_neutral (N : Numerics) (fs : F32) {a : Params} {b : F32} (f : Fb)
    (h : flt (fbProduct a b) epsFilt = true) (t : Chain) (k : Fin 4) :
    ((fbUpdate N fs a b f).get t).get k = ((f.get t).get k).neutral t := by
  have hoff : ∀ t k, ¬fbStageOn a (fbProduct a b) t k = true := fun t k => by
    simp [fbStageOn, fbEngaged, h]
  cases t with
  | hp => exact (fbChainUpdate_get N fs a _ .hp f.hp k).trans (if_neg (hoff .hp k))
  | lp => exact (fbChainUpdate_get N fs a _ .lp f.lp k).trans (if_neg (hoff .lp k))

theorem fbUpdate_off (N : Numerics) (fs : F32) {a : Params} {b : F32} (f : Fb)
    (h : flt (fbProduct a b) epsFilt = true) :
    AllOff (fbUpdate N fs a b f) := fun t k => by
  rw [fbUpdate_neutral N fs f h]
  rfl

theorem fdiv_hundred_of_isZero {x : F32} (h : F32.isZero x = true) : F32.isZero (fdiv x hundred) = true := by
  rw [fdiv_finite (finite_of_isZero h) rfl scaledInt_hundred_pos, if_pos ((scaledInt_eq_zero_iff x).mpr h)]
  exact isZero_withSign_zero _

theorem fmul_isZero {x y : F32} (hx : F32.isFinite x = true) (hy : F32.isFinite y = true)
    (h : F32.isZero x = true ∨ F32.isZero y = true) : F32.isZero (fmul x y) = true := by
  rw [fmul_zero_of hx hy h]
  exact isZero_withSign_zero _

theorem lt_of_isZero {x c : F32} (h : F32.isZero x = true) (hc : F32.isFinite c = true) (hpos : 0 < F32.scaledInt c) :
    flt x c = true := by
  rw [lt_iff_scaledInt (finite_of_isZero h) hc, (scaledInt_eq_zero_iff x).mpr h]
  exact hpos

theorem fbProduct_lt_of_isZero {a : Params} {b : F32} (h : F32.isZero a.filterIntensity = true)
    (hb : unitInterval b = true) : flt (fbProduct a b) epsFilt = true := by
  have hz := fdiv_hundred_of_isZero h
  exact lt_of_isZero (fmul_isZero (finite_of_unitInterval hb) (finite_of_isZero hz) (Or.inr hz)) rfl (by decide +kernel)

theorem isBypassBlock_of_isZero {a : Params} (h : F32.isZero a.buildUp = true) : isBypassBlock a = true :=
  lt_of_isZero (fdiv_hundred_of_isZero h) rfl (by decide +kernel)

/-- Settles O47: no chain is engaged, so that every stage is neutral. -/
theorem neutralFilterBankPassesThrough : Obligations.NeutralFilterBankPassesThrough := by
  unfold Obligations.NeutralFilterBankPassesThrough
  refine ⟨fun N fs b a f stereo x h => ?_, fun a => isBypassBlock_of_isZero⟩
  have hp : flt (fbProduct a b) epsFilt = true := by
    obtain ⟨hz, hb⟩ | h := h
    · exact fbProduct_lt_of_isZero hz hb
    · exact h
  refine ⟨fbFrame_off (fbUpdate_off N fs f hp) stereo x, fun k => ?_⟩
  have hhp : (fbUpdate N fs a b f).hp.get k = (f.hp.get k).neutral .hp := fbUpdate_neutral N fs f hp .hp k
  have hlp : (fbUpdate N fs a b f).lp.get k = (f.lp.get k).neutral .lp := fbUpdate_neutral N fs f hp .lp k
  rw [hhp, hlp]
  exact ⟨rfl, rfl, rfl, rfl⟩

/-! ### PREPARE -/

/-- The frequency test of band `k` (R201 (b)). -/
def inBand (f : F32) (k : Fin 4) : Prop := fle (edgeLo.get k) f = true ∧ flt f (edgeHi.get k) = true

/-- A frequency is in at most one band: the upper edge of a band is not above the lower edge of a later one. -/
theorem inBand_unique {f : F32} {j k : Fin 4} (hj : inBand f j) (hk : inBand f k) : j = k := by
  have hedges : ∀ j k : Fin 4, j < k → fle (edgeHi.get j) (edgeLo.get k) = true := by decide
  have hnot : ∀ {j k : Fin 4}, inBand f j → inBand f k → ¬j < k := fun hj hk h => by
    have hcon := lt_of_lt_of_le hj.2 (hedges _ _ h)
    rw [not_lt_of_le hk.1] at hcon
    cases hcon
  exact le_antisymm (not_lt.mp (hnot hk hj)) (not_lt.mp (hnot hj hk))

theorem bandOfFreq_eq_some_iff {f : F32} {k : Fin 4} : bandOfFreq f = some k ↔ inBand f k := by
  have hband : ∀ j : Fin 4, (fle (edgeLo.get j) f && flt f (edgeHi.get j)) = true ↔ inBand f j := fun j =>
    Bool.and_eq_true_iff
  have hiff : ∀ j, inBand f j → (some j = some k ↔ inBand f k) := fun j hj =>
    ⟨fun h => Option.some.inj h ▸ hj, fun hk => congrArg some (inBand_unique hj hk)⟩
  simp only [bandOfFreq]
  split
  case isTrue h => exact hiff 3 ((hband 3).mp h)
  case isFalse h3 =>
  split
  case isTrue h => exact hiff 2 ((hband 2).mp h)
  case isFalse h2 =>
  split
  case isTrue h => exact hiff 1 ((hband 1).mp h)
  case isFalse h1 =>
  split
  case isTrue h => exact hiff 0 ((hband 0).mp h)
  case isFalse h0 =>
    refine iff_of_false nofun fun hk => ?_
    match k with
    | 0 => exact h0 ((hband 0).mpr hk)
    | 1 => exact h1 ((hband 1).mpr hk)
    | 2 => exact h2 ((hband 2).mpr hk)
    | 3 => exact h3 ((hband 3).mpr hk)

theorem bandTable_eq_some_iff {fs : F32} {j : Nat} (hj : j < 257) {k : Fin 4} :
    (bandTable fs).getD j none = some k ↔ 1 ≤ j ∧ j ≤ 255 ∧ inBand (binFreq fs j) k := by
  unfold bandTable
  rw [buf_getD_tab _ _ hj]
  split
  case isTrue h => rw [bandOfFreq_eq_some_iff, ← and_assoc, and_iff_right h]
  case isFalse h => exact iff_of_false nofun fun hk => h ⟨hk.1, hk.2.1⟩

/-- Settles O13: the table by the disjoint bands, the window by what every admissible numerics has, the effect by the
absence of a cause. -/
theorem prepareConfigures : Obligations.PrepareConfigures := by
  unfold Obligations.PrepareConfigures
  have hhann := Config.numerics.admissible.hann_ok
  refine ⟨fun fs j hj => ⟨value_ofNat (by omega), fun k => ?_⟩, hhann.formula, hhann.first, hhann.middle,
      hhann.symmetric,
    fun i hi => within_iff.mpr (hhann.inUnit i hi), fun i hi => hhann.overlapAdd _ i hi, ?_⟩
  · rw [bandTable_eq_some_iff hj]
    match k with
    | 0 | 1 | 2 | 3 => exact Iff.rfl
  · intro s fs mb hmode hfin hlo hhi hmb hmb'
    have hfs : fsOk fs = true := fsOk_iff.mpr ⟨hfin, hlo, hhi⟩
    have hlen : maxblkOk mb = true := maxblkOk_iff.mpr (by omega)
    refine exec_accepted (i := .prepare fs mb) ?_
    exact (prepareCause_eq fs mb s).trans ((if_neg hmode).trans (if_pos ⟨hfs, hlen⟩))

end Sys2Proof.Proofs
end

section
/-! PROOFS. The dry block (42_sequencer.md R146): a block whose units add nothing returns the bits of every frame, from
BEGIN through its frames to END. -/

-- One theorem at a time: a waiting task holds a thread.
set_option Elab.async false

namespace Sys2Proof.Proofs

open Machine Witness Laws

/-! ### A riser and a vocoder that add nothing -/

/-- The riser's level and target are zeros, and its level coefficients finite: the level stays a zero. -/
def RsrQuiet (r : Rsr) : Prop :=
  F32.isZero r.level = true ∧ F32.isZero r.target = true ∧ F32.isFinite r.katt = true ∧ F32.isFinite r.krel = true

theorem fadd_isZero {x y : F32} (hx : F32.isZero x = true) (hy : F32.isZero y = true) :
    F32.isZero (fadd x y) = true := by
  rw [fadd_finite (finite_of_isZero hx) (finite_of_isZero hy), (scaledInt_eq_zero_iff x).mpr hx,
    (scaledInt_eq_zero_iff y).mpr hy, if_pos (add_zero 0)]
  exact isZero_withSign_zero _

theorem fsub_isZero {x y : F32} (hx : F32.isZero x = true) (hy : F32.isZero y = true) :
    F32.isZero (fsub x y) = true := by
  rw [fsub_finite (finite_of_isZero hx) (finite_of_isZero hy), (scaledInt_eq_zero_iff x).mpr hx,
    (scaledInt_eq_zero_iff y).mpr hy, if_pos (sub_zero 0)]
  exact isZero_withSign_zero _

theorem rsrLevel_quiet {r : Rsr} (h : RsrQuiet r) : F32.isZero (rsrLevel r).level = true := by
  obtain ⟨hlevel, htarget, hatt, hrel⟩ := h
  have hd := fsub_isZero htarget hlevel
  rw [rsrLevel_eq]
  refine fadd_isZero hlevel (fmul_isZero ?_ (finite_of_isZero hd) (Or.inr hd))
  split
  · exact hatt
  · exact hrel

theorem not_sounding_of_isZero {x : F32} (h : F32.isZero x = true) : ¬fle epsRsr x = true := by
  rw [le_iff_scaledInt rfl (finite_of_isZero h), (scaledInt_eq_zero_iff x).mpr h]
  decide +kernel

/-- A quiet riser returns the frame and stays quiet. -/
theorem rsrTick_quiet {r : Rsr} (h : RsrQuiet r) (N : Numerics) (fs : F32) (t : RiserType) (stereo : Bool)
    (x : Pair F32) :
    (rsrTick N fs t stereo r x).2 = x ∧ RsrQuiet (rsrTick N fs t stereo r x).1 := by
  have hlevel : F32.isZero (rsrTick N fs t stereo r x).1.level = true := by
    rw [rsrTick_level]
    exact rsrLevel_quiet h
  obtain ⟨-, htarget, hatt, hrel⟩ := h
  obtain ⟨htarget', hatt', hrel', -⟩ := rsrTick_frame N fs t stereo r x
  refine ⟨?_, hlevel, htarget' ▸ htarget, hatt' ▸ hatt, hrel' ▸ hrel⟩
  rw [rsrTick_out, if_neg (not_sounding_of_isZero hlevel)]

theorem vocFrame_silent {v : Voc} (h : flt zero v.gain = false) (N : Numerics) (tb : Tables) (a : Params)
    (stereo : Bool)
    (x : Pair F32) : (vocFrame N tb a stereo v x).2 = x := by
  unfold vocFrame
  split
  · exact (vfbTick_silent h tb.vco stereo x x).1
  · exact (vftTick_silent h N tb stereo x x).1

/-! ### A block that returns its frames -/

/-- The open block is a bypass block, or all three units add nothing. -/
def Passes (s : State) : Prop :=
  s.bypass = true ∨ (s.bypass = false ∧ AllOff s.fb ∧ flt zero s.voc.gain = false ∧ RsrQuiet s.rsr)

/-- The frame pipeline of such a block returns the frame and leaves such a block. -/
theorem framePipe_passes {s : State} (h : Passes s) (N : Numerics) (stereo : Bool) (x : Pair F32) : ∃ fb voc rsr,
    framePipe N stereo s x = ({ s with fb := fb, voc := voc, rsr := rsr }, ⟨x, x⟩) ∧
      Passes { s with fb := fb, voc := voc, rsr := rsr } := by
  obtain hb | ⟨hb, hoff, hgain, hquiet⟩ := h
  · exact ⟨s.fb, s.voc, s.rsr, framePipe_bypass N stereo x hb, Or.inl hb⟩
  · have hfb := fbFrame_off hoff stereo x
    have hvoc := vocFrame_silent hgain N s.tables s.a stereo x
    obtain ⟨hrsr, hquiet'⟩ := rsrTick_quiet hquiet N s.fs (RiserType.ofCode s.a.riserType) stereo x
    obtain ⟨hgain', -⟩ := vocKept_vocFrame N s.tables s.a stereo s.voc x
    refine ⟨s.fb, (vocFrame N s.tables s.a stereo s.voc x).1,
      (rsrTick N s.fs (RiserType.ofCode s.a.riserType) stereo s.rsr x).1, ?_,
      Or.inr ⟨hb, hoff, (congrArg (flt zero) hgain').trans hgain, hquiet'⟩⟩
    rw [framePipe_active N stereo x hb]
    simp only [activeFrame, hfb, hvoc, hrsr]

theorem runCommands_cons {i : Instr} {rest : List Instr} {s t u : State} {r : Response} {rs : List Response}
    (hexec : exec i s = .next t) (hresp : t.resp = some r) (hrest : runCommands rest t = some (u, rs)) :
    runCommands (i :: rest) s = some (u, r :: rs) := by
  simp only [runCommands, hexec, hrest, hresp]
  rfl

/-- What a FRAME of a block with `nch` channels answers when the block returns the frame. -/
def passedResponse (nch : Word) (x : Pair F32) : Response :=
  if nch = 2#32 then ⟨0#32, x.l, x.r, x.l, x.r⟩ else ⟨0#32, x.l, 0#32, x.l, 0#32⟩

/-- The frames still owed and END, from inside such a block. -/
theorem runCommands_frames (nch : Word) (frames : List (Pair F32)) {s : State} (hpass : Passes s)
    (hmode : s.mode = .inblk)
    (hnch : s.blkNch = nch) (howed : s.n.toNat + frames.length = s.blkLen.toNat)
    (hfin : ∀ x ∈ frames, F32.isFinite x.l = true ∧ (nch = 2#32 → F32.isFinite x.r = true)) :
    ∃ t, runCommands (frames.map (fun x => .frame x.l x.r) ++ [.endBlock]) s =
      some (t, frames.map (passedResponse nch) ++ [okResponse]) := by
  induction frames generalizing s with
  | nil =>
    have hn : s.n = s.blkLen := BitVec.eq_of_toNat_eq (by simpa using howed)
    have hcause : endCause s = none := by simp [endCause_eq, hmode, hn]
    exact ⟨_, runCommands_cons (i := .endBlock) (exec_accepted (i := .endBlock) hcause) rfl rfl⟩
  | cons x rest ih =>
    rw [List.length_cons] at howed
    have hlt : s.n < s.blkLen := BitVec.lt_def.mpr (by omega)
    have hne : s.n ≠ s.blkLen := fun h => by rw [h] at hlt; exact absurd hlt (BitVec.lt_irrefl _)
    obtain ⟨hl, hr⟩ := hfin x List.mem_cons_self
    have hcause : frameCause x.l x.r s = none := frameCause_eq_none_iff.mpr ⟨⟨hmode, hne⟩, hl, fun h => hr (hnch ▸ h)⟩
    obtain ⟨fb, voc, rsr, hpipe, hpass'⟩ := framePipe_passes hpass Config.num s.stereo ⟨x.l, x.r⟩
    have hexec := exec_frame_accepted hcause hpipe
    have hcount := toNat_add_one_of_lt hlt
    obtain ⟨t, ht⟩ := ih (s := { s with
        fb := fb, voc := voc, rsr := rsr, n := s.n + 1#32,
        resp := some (if s.blkNch = 2#32 then ⟨0#32, x.l, x.r, x.l, x.r⟩ else ⟨0#32, x.l, 0#32, x.l, 0#32⟩) })
      hpass' hmode hnch (by
        change (s.n + 1#32).toNat + rest.length = s.blkLen.toNat
        omega) (fun y hy => hfin y (List.mem_cons_of_mem x hy))
    refine ⟨t, runCommands_cons hexec ?_ ht⟩
    rw [hnch]
    rfl

/-! ### The block setup -/

theorem vocGainOf_isZero {a : Params} {b : F32} (hwf : a.wf = true) (hb : unitInterval b = true)
    (h : F32.isZero a.noiseAmount = true) : F32.isZero (vocGainOf a b) = true := by
  have hz := fdiv_hundred_of_isZero h
  have hprod := fmul_isZero (finite_of_isZero hz) (finite_of_unitInterval hb) (Or.inl hz)
  exact fmul_isZero (finite_of_isZero hprod) (finite_of_unitInterval (inRange_of_wf hwf .gateLevel)) (Or.inl hprod)

theorem not_pos_of_isZero {x : F32} (h : F32.isZero x = true) : flt zero x = false :=
  not_lt_of_le (by rw [le_iff_scaledInt (finite_of_isZero h) rfl, (scaledInt_eq_zero_iff x).mpr h, scaledInt_zero])

/-- The block setup leaves the block registers. -/
theorem blockSetup_block (N : Numerics) (s : State) : (blockSetup N s).mode = s.mode ∧ (blockSetup N s).n = s.n ∧
    (blockSetup N s).blkLen = s.blkLen ∧ (blockSetup N s).blkNch = s.blkNch := by
  obtain ⟨-, h⟩ | ⟨-, h⟩ := blockSetup_cases N s <;> rw [h] <;> exact ⟨rfl, rfl, rfl, rfl⟩

/-- BEGIN on a dry parameter file opens a block that returns its frames. -/
theorem blockSetup_passes {s : State} (hp : s.p.wf = true) (hfs : fsOk s.fs = true) (hb : unitInterval s.buS = true)
    (hdry : flt (fdiv s.p.buildUp hundred) epsBu = true ∨
      (F32.isZero s.p.filterIntensity = true ∧ F32.isZero s.p.noiseAmount = true ∧
        F32.isZero s.p.riserAmount = true ∧ F32.isZero s.rsr.level = true)) :
    Passes (blockSetup Config.num s) := by
  obtain ⟨-, hsetup⟩ | ⟨hactive, hsetup⟩ := blockSetup_cases Config.num s <;> rw [hsetup]
  · exact Or.inl rfl
  · obtain hbypass | ⟨hfilter, hnoise, hriser, hlevel⟩ := hdry
    · have h : isBypassBlock s.p = true := hbypass
      rw [hactive] at h
      cases h
    · have hbu := smoothBuildUp_unitInterval hp hb
      have hgain := vocGainOf_isZero hp hbu hnoise
      have hzero := fdiv_hundred_of_isZero hriser
      have hatt := riserStep_between Config.numerics.admissible hfs (t := tRsrAtt) (by decide)
      have hrel := riserStep_between Config.numerics.admissible hfs (inRange_of_wf hp .riserRelease)
      refine Or.inr ⟨rfl, ?_, not_pos_of_isZero hgain, hlevel, ?_, ?_, ?_⟩
      · exact fbUpdate_off Config.num s.fs s.fb (fbProduct_lt_of_isZero hfilter hbu)
      · exact fmul_isZero (finite_of_isZero hzero) (finite_of_unitInterval hbu) (Or.inl hzero)
      · exact finite_of_within rfl rfl hatt
      · exact finite_of_within rfl rfl hrel

/-- Settles O46: BEGIN opens a block that returns its frames; then frame by frame. -/
theorem dryBlockIsIdentity : Obligations.DryBlockIsIdentity := by
  unfold Obligations.DryBlockIsIdentity
  intro s nch frames hwf hb hmode hnch hlen hfin hdry
  obtain ⟨hp, -, hproto, -⟩ := state_wf_iff.mp hwf
  obtain ⟨hfs, -⟩ := (protocolWf_idle hmode).mp hproto
  have hword : (BitVec.ofNat 32 frames.length).toNat = frames.length := by
    have := s.maxblk.isLt
    rw [BitVec.toNat_ofNat]
    omega
  have hcause := beginCause_none (s := s) (m := BitVec.ofNat 32 frames.length) hmode (hword.trans_le hlen) hnch
  have hpass := blockSetup_passes (s := opened (BitVec.ofNat 32 frames.length) nch s) hp hfs hb hdry
  obtain ⟨hm, hn, hl, hc⟩ := blockSetup_block Config.num (opened (BitVec.ofNat 32 frames.length) nch s)
  obtain ⟨t, ht⟩ := runCommands_frames nch frames
    (s := Machine.ok (blockSetup Config.num (opened (BitVec.ofNat 32 frames.length) nch s))) hpass hm hc
    (by
      change (blockSetup Config.num (opened (BitVec.ofNat 32 frames.length) nch s)).n.toNat + frames.length =
        (blockSetup Config.num (opened (BitVec.ofNat 32 frames.length) nch s)).blkLen.toNat
      rw [hn, hl]
      exact (Nat.zero_add _).trans hword.symm)
    hfin
  exact ⟨t, runCommands_cons (exec_begin_accepted hcause) rfl ht⟩

end Sys2Proof.Proofs
end

section
/-! PROOFS. Silence of the FFT vocoder (45_vocoder_fft.md R207, R209 (c)): with zero envelopes a transform frame adds
zeros, the window being finite; with zero input the envelopes stay zero, and 512 emissions empty the accumulator. -/

-- One theorem at a time: a waiting task holds a thread.
set_option Elab.async false

namespace Sys2Proof.Proofs

open Machine Witness Laws

/-! ### Buffers and bounds -/

/-- A property of all elements of a buffer, by index. -/
theorem buf_forall_iff {α : Type} {n : Nat} {b : Buf α n} {P : α → Prop} (d : α) :
    (∀ v ∈ b.cells, P v) ↔ ∀ i, i < n → P (b.getD i d) := by
  constructor
  · intro h i hi
    unfold Buf.getD
    rw [List.getD_eq_getElem _ _ (b.len.symm ▸ hi)]
    exact h _ (List.getElem_mem _)
  · intro h v hv
    obtain ⟨i, hi, rfl⟩ := List.mem_iff_getElem.mp hv
    have hp := h i (b.len ▸ hi)
    unfold Buf.getD at hp
    rwa [List.getD_eq_getElem _ _ hi] at hp

/-- A bound by a power of two is a range between two binary32 values. -/
theorem boundedBy_iff {k : Nat} {c x : F32} (hc : F32.isFinite c = true) (hs : F32.scaledInt c = 2 ^ k * 2 ^ 149) :
    BoundedBy k x ↔ Between (F32.negate c) c x := by
  have hnc : F32.isFinite (F32.negate c) = true := (finite_negate c).trans hc
  have hunit : (0 : ℚ) < 2 ^ 149 := by positivity
  have habs : |F32.value x| ≤ 2 ^ k ↔ -F32.scaledInt c ≤ F32.scaledInt x ∧ F32.scaledInt x ≤ F32.scaledInt c := by
    rw [F32.value, abs_div, abs_of_pos hunit, div_le_iff₀ hunit, ← abs_le, hs]
    exact_mod_cast Iff.rfl
  constructor
  · rintro ⟨hx, hbound⟩
    obtain ⟨hlo, hhi⟩ := habs.mp hbound
    refine ⟨hnc, hc, within_iff.mpr ⟨(le_iff_scaledInt hnc hx).mpr ?_, (le_iff_scaledInt hx hc).mpr hhi⟩⟩
    rwa [scaledInt_negate]
  · intro h
    obtain ⟨hlo, hhi⟩ := h.scaledInt
    rw [scaledInt_negate] at hlo
    exact ⟨h.finite, habs.mpr ⟨hlo, hhi⟩⟩

section
variable {b c d x y : F32}

/-- The magnitude of a product is at most the rounded product of the bounds. -/
theorem Between.fmul_symmetric (hx : Between (F32.negate b) b x) (hy : Between (F32.negate d) d y)
    (hc : F32.isFinite c = true) (h : F32.scaledInt b * F32.scaledInt d ≤ 2 ^ 149 * F32.scaledInt c) :
    Between (F32.negate c) c (Machine.fmul x y) := by
  obtain ⟨hxlo, hxhi⟩ := hx.scaledInt
  obtain ⟨hylo, hyhi⟩ := hy.scaledInt
  rw [scaledInt_negate] at hxlo hylo
  have hprod : |F32.scaledInt x * F32.scaledInt y| ≤ F32.scaledInt b * F32.scaledInt d := by
    rw [abs_mul]
    exact mul_le_mul (abs_le.mpr ⟨hxlo, hxhi⟩) (abs_le.mpr ⟨hylo, hyhi⟩) (abs_nonneg _) (by omega)
  obtain ⟨hlow, hhigh⟩ := abs_le.mp hprod
  have hnc : F32.isFinite (F32.negate c) = true := (finite_negate c).trans hc
  refine ⟨hnc, hc, within_iff.mpr ⟨le_fmul hx.finite hy.finite hnc ?_, fmul_le hx.finite hy.finite hc ?_⟩⟩
  · rw [scaledInt_negate]
    linarith
  · linarith

/-- Dividing by at least one does not enlarge a magnitude. -/
theorem Between.fdiv_symmetric (hx : Between (F32.negate b) b x) (hy : F32.isFinite y = true)
    (h : 2 ^ 149 ≤ F32.scaledInt y) : Between (F32.negate b) b (Machine.fdiv x y) := by
  obtain ⟨hxlo, hxhi⟩ := hx.scaledInt
  rw [scaledInt_negate] at hxlo
  have hb0 : 0 ≤ F32.scaledInt b := by omega
  have hpos : 0 < F32.scaledInt y := lt_of_lt_of_le (by positivity) h
  refine ⟨hx.1, hx.2.1, within_iff.mpr ⟨le_fdiv hx.finite hy hx.1 hpos ?_, fdiv_le hx.finite hy hx.2.1 hpos ?_⟩⟩
  · rw [scaledInt_negate]
    nlinarith
  · nlinarith

end

/-! ### Adding a zero -/

theorem fadd_zero_right {x z : F32} (hx : F32.isFinite x = true) (hz : F32.isZero z = true) :
    F32.isFinite (fadd x z) = true ∧ F32.value (fadd x z) = F32.value x := by
  by_cases h : F32.isZero x = true
  · have hsum := fadd_isZero h hz
    exact ⟨finite_of_isZero hsum, (value_eq_zero_iff.mpr hsum).trans (value_eq_zero_iff.mpr h).symm⟩
  · have hsum : fadd x z = x := fadd_exact hx (finite_of_isZero hz) hx (Bool.eq_false_iff.mpr h)
      (by rw [(scaledInt_eq_zero_iff z).mpr hz, add_zero])
    rw [hsum]
    exact ⟨hx, rfl⟩

/-! ### One transform frame of a channel -/

/-- The envelopes after the transform frame of channel `c`. -/
def envAfter (N : Numerics) (tb : Tables) (c : Chan) (v : Voc) : Quad F32 :=
  vftEnvs v (v.vft.get c).env (vftEnergies N tb (v.vft.get c).inp)

theorem vftTransform_channel (N : Numerics) (tb : Tables) (c : Chan) (v : Voc) :
    (vftTransform N tb c v).vft.get c = { v.vft.get c with
      env := envAfter N tb c v
      out := (v.vft.get c).out.zip fadd ((vftSynth N tb (envAfter N tb c v) v.rng).zip fmul tb.hann) } := by
  unfold vftTransform
  exact pair_get_set_self _ _ _

theorem vftTransform_other (N : Numerics) (tb : Tables) {c d : Chan} (hne : d ≠ c) (v : Voc) :
    (vftTransform N tb c v).vft.get d = v.vft.get d := by
  unfold vftTransform
  exact (pair_get_set _ _ _ _).trans (if_neg hne)

theorem vftTransform_arel (N : Numerics) (tb : Tables) (c : Chan) (v : Voc) :
    (vftTransform N tb c v).arel = v.arel := by
  obtain ⟨env, out, h⟩ := vftTransform_frame N tb c v
  rw [h]

/-- The accumulator after the transform frame, at an index. -/
theorem vftTransform_out (N : Numerics) (tb : Tables) (c : Chan) (v : Voc) {i : Nat} (hi : i < 512) :
    ((vftTransform N tb c v).vft.get c).out.getD i one =
      fadd ((v.vft.get c).out.getD i one)
        (fmul ((vftSynth N tb (envAfter N tb c v) v.rng).getD i one) (tb.hann.getD i zero)) := by
  rw [vftTransform_channel]
  exact (buf_getD_zip fadd _ _ one one one hi).trans
    (congrArg _ (buf_getD_zip fmul _ _ one zero one hi))

theorem lcgSample_bounded (s : Word) : BoundedBy 0 (lcgSample s) := by
  obtain ⟨-, hfin, -, hlo, hhi⟩ := noiseSampleIsExact.1 s
  refine ⟨hfin, ?_⟩
  rw [pow_zero]
  exact abs_le.mpr ⟨hlo, hhi.le⟩

theorem noiseFrame_getD (s : Word) {i : Nat} (hi : i < 512) :
    (noiseFrame s).getD i zero = lcgSample (lcgNext^[i + 1] s) := by
  unfold noiseFrame Buf.getD
  exact lcgDraws_getD 512 s hi

section
variable {N : Numerics} (hN : N.Admissible) {tb : Tables}

include hN in
/-- The noise spectrum is finite: 512 samples in [-1, 1). -/
theorem noiseSpectrum_bounded (s : Word) : ∀ z ∈ (N.dft (noiseFrame s)).cells, z.BoundedBy 10 := by
  have hsamples : ∀ x ∈ (noiseFrame s).cells, BoundedBy 0 x := by
    refine (buf_forall_iff zero).mpr fun i hi => ?_
    rw [noiseFrame_getD s hi]
    exact lcgSample_bounded _
  exact hN.dft_bounded 0 (noiseFrame s) (Nat.zero_le _) hsamples

theorem ofNat_band (k : Fin 4) :
    F32.isFinite (F32.ofNat (k.val + 1)) = true ∧ 2 ^ 149 ≤ F32.scaledInt (F32.ofNat (k.val + 1)) := by
  revert k
  decide +kernel

include hN in
/-- A property of the shaped bins, from the noise bins and the band gains. -/
theorem shapedBins_forall {P : Cpx → Prop} (env : Quad F32) (s : Word) (hzero : P ⟨zero, zero⟩)
    (hband : ∀ (k : Fin 4) (w : Cpx), w.BoundedBy 10 → P ⟨fmul w.re (bandWeight env k), fmul w.im (bandWeight env k)⟩) :
    ∀ z ∈ ((innerBands tb.bandOfBin).zip (shapeBin env) (N.dft (noiseFrame s))).cells, P z := by
  refine (buf_forall_iff ⟨zero, zero⟩).mpr fun j hj => ?_
  rw [buf_getD_zip (shapeBin env) _ _ none ⟨zero, zero⟩ _ hj]
  have hw := (buf_forall_iff ⟨zero, zero⟩).mp (noiseSpectrum_bounded hN s) j hj
  cases (innerBands tb.bandOfBin).getD j none with
  | none => exact hzero
  | some k => exact hband k _ hw

include hN in
/-- With zero envelopes the synthesised frame is zero. -/
theorem vftSynth_zero (s : Word) : vftSynth N tb ⟨0#32, 0#32, 0#32, 0#32⟩ s = Buf.fill 512 0#32 := by
  refine hN.idft_zero _ (shapedBins_forall hN _ s (by decide) fun k w hw => ?_)
  have hweight : F32.isZero (bandWeight ⟨0#32, 0#32, 0#32, 0#32⟩ k) = true := by
    revert k
    decide +kernel
  exact ⟨fmul_isZero hw.1.1 (finite_of_isZero hweight) (Or.inr hweight),
    fmul_isZero hw.2.1 (finite_of_isZero hweight) (Or.inr hweight)⟩

omit tb in
theorem zero_boundedBy (k : Nat) : BoundedBy k zero := by
  refine ⟨rfl, ?_⟩
  rw [value_zero, abs_zero]
  positivity

omit tb in
/-- A noise bin of at most 2^10 times the gain of an envelope of at most 2^100. -/
theorem weighted_boundedBy {env : Quad F32} {k : Fin 4} {x : F32} (hx : BoundedBy 10 x)
    (hk : BoundedBy 100 (env.get k)) :
    BoundedBy 110 (fmul x (bandWeight env k)) := by
  have hx' := (boundedBy_iff (c := 0x44800000#32) rfl (by decide +kernel)).mp hx
  have henv := (boundedBy_iff (c := 0x71800000#32) rfl (by decide +kernel)).mp hk
  obtain ⟨hfin, hone⟩ := ofNat_band k
  have hweight : Between (F32.negate 0x71800000#32) 0x71800000#32 (bandWeight env k) := henv.fdiv_symmetric hfin hone
  exact (boundedBy_iff (c := 0x76800000#32) rfl (by decide +kernel)).mpr
    (hx'.fmul_symmetric hweight rfl (by decide +kernel))

include hN in
/-- With bounded envelopes the synthesised frame is finite. -/
theorem vftSynth_finite {env : Quad F32} (henv : ∀ k, BoundedBy 100 (env.get k)) (s : Word) {i : Nat} (hi : i < 512) :
    F32.isFinite ((vftSynth N tb env s).getD i one) = true := by
  have hbins : ∀ z ∈ ((innerBands tb.bandOfBin).zip (shapeBin env) (N.dft (noiseFrame s))).cells, z.BoundedBy 110 := by
    refine shapedBins_forall hN env s ⟨zero_boundedBy 110, zero_boundedBy 110⟩ fun k w hw => ?_
    exact ⟨weighted_boundedBy hw.1 (henv k), weighted_boundedBy hw.2 (henv k)⟩
  exact ((buf_forall_iff one).mp (hN.idft_bounded 110 _ (by decide) hbins) i hi).1

include hN in
theorem hann_between {i : Nat} (hi : i < 512) : Between zero one (N.hann.getD i zero) :=
  ⟨rfl, rfl, within_iff.mpr (hN.hann_ok.inUnit i hi)⟩

include hN in
/-- With zero envelopes a transform frame adds a zero to every value of the accumulator. -/
theorem vftTransform_out_of_zero (hh : tb.hann = N.hann) {c : Chan} {v : Voc}
    (henv : envAfter N tb c v = ⟨0#32, 0#32, 0#32, 0#32⟩) {i : Nat} (hi : i < 512) :
    ∃ z, F32.isZero z = true ∧
      ((vftTransform N tb c v).vft.get c).out.getD i one = fadd ((v.vft.get c).out.getD i one) z := by
  refine ⟨_, ?_, vftTransform_out N tb c v hi⟩
  rw [henv, vftSynth_zero hN, buf_getD_fill _ _ hi, hh]
  exact fmul_isZero rfl (hann_between hN hi).finite (Or.inl rfl)

end

/-! ### A silent channel -/

/-- The input window holds zeros, the envelopes are +0.0, and the accumulator holds zeros from position `m` on. -/
def SilentFrom (m : Nat) (ch : VftChan) : Prop :=
  (∀ i, i < 512 → F32.isZero (ch.inp.getD i one) = true) ∧ ch.env = ⟨0#32, 0#32, 0#32, 0#32⟩ ∧
    ∀ i, m ≤ i → i < 512 → F32.isZero (ch.out.getD i one) = true

/-- Shifting keeps what holds from a position on, and moves the position down. -/
theorem shiftIn_isZero {b : Buf F32 512} {u : F32} {m : Nat} (hu : F32.isZero u = true)
    (hb : ∀ i, m + 1 ≤ i → i < 512 → F32.isZero (b.getD i one) = true) {i : Nat} (hm : m ≤ i) (hi : i < 512) :
    F32.isZero ((b.shiftIn u).getD i one) = true := by
  rcases Nat.lt_or_ge i 511 with h | h
  · rw [buf_getD_shiftIn b u one h]
    exact hb (i + 1) (by omega) (by omega)
  · obtain rfl : i = 511 := by omega
    rwa [buf_getD_shiftIn_last]

theorem silentFrom_shifted {m : Nat} {ch : VftChan} {u : F32} (h : SilentFrom m ch) (hu : F32.isZero u = true) :
    SilentFrom m { ch with inp := ch.inp.shiftIn u } := by
  obtain ⟨hinp, henv, hout⟩ := h
  exact ⟨fun i hi => shiftIn_isZero hu (m := 0) (fun j _ hj => hinp j hj) (Nat.zero_le i) hi, henv, hout⟩

theorem silentFrom_emitted {m : Nat} {ch : VftChan} (h : SilentFrom (m + 1) ch) :
    SilentFrom m { ch with out := ch.out.shiftIn zero } := by
  obtain ⟨hinp, henv, hout⟩ := h
  exact ⟨hinp, henv, fun i hm hi => shiftIn_isZero rfl hout hm hi⟩

theorem fsqrt_isZero {x : F32} (h : F32.isZero x = true) : F32.isZero (fsqrt x) = true := by
  have hroot : fsqrt x = x := by simp [fsqrt, F32.sqrt, notNaN_of_finite (finite_of_isZero h), h]
  rwa [hroot]

theorem fmul_isZero_left {x y : F32} (hx : F32.isZero x = true) (hy : F32.isFinite y = true) :
    F32.isZero (fmul x y) = true := fmul_isZero (finite_of_isZero hx) hy (Or.inl hx)

/-- A spectrum of zeros has zero energy in every band. -/
theorem bandSumLoop_isZero {bands : Buf (Option (Fin 4)) 257} {x : Buf Cpx 257}
    (hx : ∀ c ∈ x.cells, F32.isZero c.re = true ∧ F32.isZero c.im = true) (k : Fin 4) :
    F32.isZero (bandSumLoop bands x k) = true := by
  have hcell : ∀ j, F32.isZero (x.getD j ⟨zero, zero⟩).re = true ∧ F32.isZero (x.getD j ⟨zero, zero⟩).im = true := by
    intro j
    rcases Nat.lt_or_ge j 257 with hj | hj
    · exact (buf_forall_iff ⟨zero, zero⟩).mp hx j hj
    · unfold Buf.getD
      rw [List.getD_eq_default _ _ (x.len.symm ▸ hj)]
      exact ⟨rfl, rfl⟩
  unfold bandSumLoop
  refine List.foldlRecOn _ _ (motive := fun s => F32.isZero s = true) rfl fun s hs j _ => ?_
  obtain ⟨hre, him⟩ := hcell j
  exact fadd_isZero hs (fsqrt_isZero (fadd_isZero (fmul_isZero_left hre (finite_of_isZero hre))
    (fmul_isZero_left him (finite_of_isZero him))))

/-- A zero envelope stays zero on a zero input. -/
theorem envTick_zero {r aAtt aRel : F32} (hr : F32.isZero r = true) (hrel : F32.isFinite aRel = true) :
    envTick 0#32 r aAtt aRel = 0#32 := by
  have hd : F32.isZero (fsub 0#32 r) = true := fsub_isZero rfl hr
  have hsum : F32.isZero (fadd r (fmul aRel (fsub 0#32 r))) = true :=
    fadd_isZero hr (fmul_isZero hrel (finite_of_isZero hd) (Or.inr hd))
  have hnot : flt 0#32 r = false := not_pos_of_isZero hr
  rw [envTick_eq, hnot, if_neg Bool.false_ne_true]
  exact if_pos (lt_floor_of_isZero hsum)

section
variable {N : Numerics} (hN : N.Admissible) {tb : Tables} (hh : tb.hann = N.hann)
include hN hh

/-- A silent input window leaves zero envelopes zero. -/
theorem envAfter_silent {m : Nat} {c : Chan} {v : Voc} (hrel : F32.isFinite v.arel = true)
    (h : SilentFrom m (v.vft.get c)) : envAfter N tb c v = ⟨0#32, 0#32, 0#32, 0#32⟩ := by
  obtain ⟨hinp, henv, -⟩ := h
  have hwindowed : ∀ x ∈ ((v.vft.get c).inp.zip fmul tb.hann).cells, F32.isZero x = true := by
    refine (buf_forall_iff one).mpr fun i hi => ?_
    rw [buf_getD_zip fmul _ _ one zero one hi, hh]
    exact fmul_isZero_left (hinp i hi) (hann_between hN hi).finite
  refine quad_ext fun k => ?_
  have henergy : F32.isZero ((vftEnergies N tb (v.vft.get c).inp).get k) = true := by
    rw [vftEnergies_get]
    exact fmul_isZero_left (bandSumLoop_isZero (hN.dft_zero _ hwindowed) k) rfl
  have hzero : (⟨0#32, 0#32, 0#32, 0#32⟩ : Quad F32).get k = 0#32 := by
    match k with
    | 0 | 1 | 2 | 3 => rfl
  rw [envAfter, vftEnvs, quad_get_tab, henv, hzero]
  exact envTick_zero henergy hrel

theorem silentFrom_transform {m : Nat} {c : Chan} {v : Voc} (hrel : F32.isFinite v.arel = true)
    (h : SilentFrom m (v.vft.get c)) : SilentFrom m ((vftTransform N tb c v).vft.get c) := by
  have henv := envAfter_silent hN hh hrel h
  have hchan := vftTransform_channel N tb c v
  obtain ⟨hinp, -, hout⟩ := h
  refine ⟨?_, ?_, fun i hm hi => ?_⟩
  · rw [hchan]
    exact hinp
  · rw [hchan]
    exact henv
  · obtain ⟨z, hz, heq⟩ := vftTransform_out_of_zero hN hh henv hi
    rw [heq]
    exact fadd_isZero (hout i hm hi) hz

theorem silentFrom_transformed {m : Nat} {c : Chan} {stereo : Bool} {v : Voc} (hc : c = .left ∨ stereo = true)
    (hrel : F32.isFinite v.arel = true) (h : SilentFrom m (v.vft.get c)) :
    SilentFrom m ((vftTransformed N tb stereo v).vft.get c) := by
  unfold vftTransformed
  cases c with
  | left =>
    have hleft := silentFrom_transform hN hh hrel h
    split
    · rwa [vftTransform_other N tb (show Chan.left ≠ Chan.right from nofun)]
    · exact hleft
  | right =>
    rw [if_pos (hc.resolve_left nofun)]
    refine silentFrom_transform hN hh (by rwa [vftTransform_arel]) ?_
    rwa [vftTransform_other N tb (show Chan.right ≠ Chan.left from nofun)]

/-- A silent frame up to its emission. -/
theorem silentFrom_ready {m : Nat} {c : Chan} {stereo : Bool} {v : Voc} {x : Pair F32} (hc : c = .left ∨ stereo = true)
    (hrel : F32.isFinite v.arel = true) (h : SilentFrom m (v.vft.get c)) (hx : F32.isZero (v.input (x.get c)) = true) :
    SilentFrom m ((vftReady N tb stereo v x).vft.get c) := by
  have hshift : SilentFrom m ((vftShifted stereo v x).vft.get c) := by
    rw [vftShifted_channel v x hc]
    exact silentFrom_shifted h hx
  unfold vftReady
  split
  · refine silentFrom_transformed hN hh hc ?_ hshift
    rw [vftShifted_frame]
    exact hrel
  · exact hshift

/-- A silent frame moves the zeros of the accumulator one position down. -/
theorem silentFrom_tick {m : Nat} {c : Chan} {stereo : Bool} {v : Voc} {x : Pair F32} (hc : c = .left ∨ stereo = true)
    (hrel : F32.isFinite v.arel = true) (h : SilentFrom (m + 1) (v.vft.get c))
    (hx : F32.isZero (v.input (x.get c)) = true) : SilentFrom m ((vftTick N tb stereo v x).1.vft.get c) := by
  obtain ⟨hstate, -⟩ := vftEmitted_channel (vftReady N tb stereo v x) x hc
  rw [vftTick_eq_emitted, hstate]
  exact silentFrom_emitted (silentFrom_ready hN hh hc hrel h hx)

end

/-- A silent input of a channel: the sample is a zero, or the vocoder does not see it (R184). -/
theorem input_isZero {v : Voc} {x : F32} (h : flt zero v.gain = true → F32.isZero x = true) :
    F32.isZero (v.input x) = true := by
  cases hg : flt zero v.gain with
  | true => exact (congrArg F32.isZero (if_pos hg)).trans (h hg)
  | false => rw [voc_input_silent hg]; rfl

theorem vftTick_gain_arel (N : Numerics) (tb : Tables) (stereo : Bool) (v : Voc) (x : Pair F32) :
    (vftTick N tb stereo v x).1.gain = v.gain ∧ (vftTick N tb stereo v x).1.arel = v.arel := by
  rw [vftTick_frame]
  exact ⟨rfl, rfl⟩

/-- After as many silent frames as the accumulator holds other values, it holds zeros. -/
theorem silentFrom_run {N : Numerics} (hN : N.Admissible) {tb : Tables} (hh : tb.hann = N.hann) {c : Chan}
    {stereo : Bool}
    (hc : c = .left ∨ stereo = true) (xs : List (Pair F32)) {v : Voc} (hrel : F32.isFinite v.arel = true)
    (h : SilentFrom xs.length (v.vft.get c)) (hx : flt zero v.gain = true → ∀ x ∈ xs, F32.isZero (x.get c) = true) :
    SilentFrom 0 ((runUnit (vftTick N tb stereo) v xs).1.vft.get c) ∧
      (runUnit (vftTick N tb stereo) v xs).1.gain = v.gain ∧ (runUnit (vftTick N tb stereo) v xs).1.arel = v.arel := by
  induction xs generalizing v with
  | nil => exact ⟨h, rfl, rfl⟩
  | cons x rest ih =>
    obtain ⟨hgain, harel⟩ := vftTick_gain_arel N tb stereo v x
    have hstep := silentFrom_tick hN hh hc hrel h (input_isZero fun hg => hx hg x List.mem_cons_self)
    have hrun : (runUnit (vftTick N tb stereo) v (x :: rest)).1 =
        (runUnit (vftTick N tb stereo) (vftTick N tb stereo v x).1 rest).1 := rfl
    obtain ⟨hsilent, hgain', harel'⟩ := ih (harel ▸ hrel) hstep fun hg y hy =>
      hx (hgain ▸ hg) y (List.mem_cons_of_mem x hy)
    rw [hrun]
    exact ⟨hsilent, hgain'.trans hgain, harel'.trans harel⟩

theorem vftTransform_env (N : Numerics) (tb : Tables) (c : Chan) (v : Voc) :
    ((vftTransform N tb c v).vft.get c).env = envAfter N tb c v := by
  rw [vftTransform_channel]

/-- A frame of a silent channel whose accumulator holds zeros adds a zero. -/
theorem vftTick_adds_zero {N : Numerics} (hN : N.Admissible) {tb : Tables} (hh : tb.hann = N.hann) {c : Chan}
    {stereo : Bool} (hc : c = .left ∨ stereo = true) {v : Voc} (hrel : F32.isFinite v.arel = true)
    (h : SilentFrom 0 (v.vft.get c)) {x : Pair F32} (hgain : F32.isFinite v.gain = true)
    (hx : flt zero v.gain = true → F32.isZero (x.get c) = true) :
    ∃ z, F32.isZero z = true ∧
      (vftTick N tb stereo v x).2.get c = if flt zero v.gain = true then fadd (x.get c) z else x.get c := by
  obtain ⟨-, -, hout⟩ := silentFrom_ready hN hh hc hrel h (input_isZero hx)
  obtain ⟨-, hemit⟩ := vftEmitted_channel (vftReady N tb stereo v x) x hc
  have hgain' := vftReady_gain N tb stereo v x
  have hfirst : F32.isZero (((vftReady N tb stereo v x).vft.get c).out.getD 0 zero) = true := by
    have hall := (buf_forall_iff (P := fun y => F32.isZero y = true) one).mpr fun i hi => hout i (Nat.zero_le i) hi
    exact (buf_forall_iff zero).mp hall 0 (by decide)
  refine ⟨_, fmul_isZero_left hfirst hgain, ?_⟩
  rw [vftTick_eq_emitted, hemit, Voc.addTo, Voc.sounding, hgain']

/-- Settles O60: the transform frame by its effect on a channel, the silence by induction on the frames. -/
theorem fftVocoderFallsSilent : Obligations.FftVocoderFallsSilent := by
  unfold Obligations.FftVocoderFallsSilent
  constructor
  · rintro N tb c v _ _ hN hh rfl rfl
    rw [vftTransform_env]
    refine ⟨fun henv i hi hfin => ?_, fun hbound hzero => ?_⟩
    · obtain ⟨z, hz, heq⟩ := vftTransform_out_of_zero hN hh henv hi
      rw [heq]
      exact fadd_zero_right hfin hz
    · have hfirst : N.hann.getD 0 zero = zero := hN.hann_ok.first
      rw [vftTransform_out N tb c v (by decide), hh, hfirst]
      exact fadd_isZero hzero (fmul_isZero (vftSynth_finite hN hbound v.rng (by decide)) rfl (Or.inr rfl))
  · rintro N tb stereo v _ c xs hN hh hrel hc hinp henv hlen hx rfl
    have hstart : SilentFrom xs.length (v.vft.get c) := ⟨hinp, henv, fun i hm hi => by omega⟩
    obtain ⟨hsilent, hgain, harel⟩ := silentFrom_run hN hh hc xs hrel hstart hx
    refine ⟨hsilent.2.1, fun i hi => hsilent.2.2 i (Nat.zero_le i) hi, fun x hfin hz => ?_⟩
    have h := vftTick_adds_zero hN hh hc (harel ▸ hrel) hsilent (x := x) (hgain ▸ hfin) (hgain ▸ hz)
    rwa [hgain] at h

end Sys2Proof.Proofs
end
